-- ==== Sys2Proof/Word.lean ====
section
/-! DEFINITION. The two data widths of HUFF-CORE: every register is 64 bits wide (R23), and every stream symbol is one
byte (R9). -/

namespace Sys2Proof

/-- One byte: a symbol of the 256-symbol alphabet (R9, R14), or a byte of a stream. -/
abbrev Byte := BitVec 8

/-- One register of the host window: 64 bits (R23, R64). -/
abbrev Word := BitVec 64

end Sys2Proof
end

