-- ==== Sys2Proof/Syntax.lean ====
section
/-! DEFINITION. The commands of HUFF-CORE: one constructor for each of the 34 rows of spec/opcode_table.json (R95).
A symbol operand is a byte, a bit operand a Bool; a node index and a queue capacity are numbers, which WellFormed.lean
holds to the 9 bits of their field (R91, R92). -/

namespace Sys2Proof

inductive Instr where
  /-- NOP (R110). -/
  | nop
  /-- SOFT_RESET (R111). -/
  | softReset
  /-- CLEAR_ERR (R112). -/
  | clearErr
  /-- HIST_CLEAR (R115). -/
  | histClear
  /-- HIST_ADD sym (R116). -/
  | histAdd (sym : Byte)
  /-- HIST_SCAN (R117). -/
  | histScan
  /-- HIST_FORCE (R118). -/
  | histForce
  /-- NODE_RESET (R126). -/
  | nodeReset
  /-- NODE_LEAF sym; the frequency comes from ARG (R127). -/
  | nodeLeaf (sym : Byte)
  /-- NODE_JOIN na, nb: left child, right child (R128). -/
  | nodeJoin (na nb : Nat)
  /-- PQ_CREATE cap (R131). -/
  | pqCreate (cap : Nat)
  /-- PQ_ENQUEUE na (R132). -/
  | pqEnqueue (na : Nat)
  /-- PQ_DEQUEUE (R133). -/
  | pqDequeue
  /-- BUILD_TREE (R145). -/
  | buildTree
  /-- SET_ROOT na (R147). -/
  | setRoot (na : Nat)
  /-- DUMP_TREE (R151). -/
  | dumpTree
  /-- REBUILD_TREE (R153). -/
  | rebuildTree
  /-- CODE_CLEAR (R160). -/
  | codeClear
  /-- CODE_PUSH bit (R161). -/
  | codePush (bit : Bool)
  /-- CODE_POP (R162). -/
  | codePop
  /-- BUILD_CODES (R164). -/
  | buildCodes
  /-- HDR_WRITE (R171). -/
  | hdrWrite
  /-- HDR_READ (R173). -/
  | hdrRead
  /-- BIT_WRITE bit (R185). -/
  | bitWrite (bit : Bool)
  /-- CODE_WRITE sym (R186). -/
  | codeWrite (sym : Byte)
  /-- BYTE_WRITE sym (R187). -/
  | byteWrite (sym : Byte)
  /-- FLUSH (R188). -/
  | flush
  /-- BIT_READ (R194). -/
  | bitRead
  /-- BYTE_READ (R195). -/
  | byteRead
  /-- SRC_REWIND (R196). -/
  | srcRewind
  /-- ENCODE_PAYLOAD (R200). -/
  | encodePayload
  /-- DECODE_PAYLOAD (R201). -/
  | decodePayload
  /-- ENCODE (R202). -/
  | encode
  /-- DECODE (R203). -/
  | decode
  deriving DecidableEq, Repr

end Sys2Proof
end

