-- ==== Sys2Proof/WellFormed.lean ====
section
/-! DEFINITION. Which commands a command word can hold: every node index and every capacity fits the 9 bits of its
field (R91, R92). Whether an index names an allocated node, and whether a capacity is at most 256, is the command's own
check when it runs (R92, R129, R131), not well-formedness. -/

namespace Sys2Proof

/-- A number the 9-bit fields NA, NB and CAP can hold: 0..511 (R92). -/
def fitsNineBits (n : Nat) : Bool := Nat.blt n 512

/-- The command has an encoding (R91). -/
def Instr.wellFormed : Instr → Bool
  | .nodeJoin na nb => fitsNineBits na && fitsNineBits nb
  | .pqCreate cap => fitsNineBits cap
  | .pqEnqueue na => fitsNineBits na
  | .setRoot na => fitsNineBits na
  | .nop | .softReset | .clearErr => true
  | .histClear | .histAdd _ | .histScan | .histForce => true
  | .nodeReset | .nodeLeaf _ | .pqDequeue => true
  | .buildTree | .dumpTree | .rebuildTree => true
  | .codeClear | .codePush _ | .codePop | .buildCodes => true
  | .hdrWrite | .hdrRead => true
  | .bitWrite _ | .codeWrite _ | .byteWrite _ | .flush | .bitRead | .byteRead | .srcRewind => true
  | .encodePayload | .decodePayload | .encode | .decode => true

end Sys2Proof
end

