-- ==== Sys2Proof/Decode.lean ====
section
/-! DEFINITION. From the 64-bit value written to CMD to a command (R90 to R97), and back. Decoding is total: it answers
a command, or rejects by name in the order of R94, the opcode first and the reserved bits second. -/

namespace Sys2Proof

/-- The five command-word formats (R91). -/
inductive Format where
  | n | s | b | k | j
  deriving DecidableEq, Repr

/-- How many of the bits above the opcode a format assigns: CMD[8+w-1:8]. The assigned bits of every format are one run
from bit 8 upward (R91), so the reserved bits are all those from bit 8+w to bit 63 (R93). -/
def Format.operandBits : Format → Nat
  | .n => 0
  | .b => 1
  | .s => 8
  | .k => 9
  | .j => 18

/-- Why a word is no command (R93, R96). -/
inductive DecodeError where
  /-- Bits [7:0] are not a defined opcode (R96). -/
  | badOpcode
  /-- A bit that the opcode's format reserves is 1 (R93). -/
  | reservedBits
  deriving DecidableEq, Repr

/-- What decoding a CMD value answers. -/
inductive Decoded where
  | command (i : Instr)
  | rejected (e : DecodeError)
  deriving DecidableEq, Repr

/-- OP = v[7:0] (R91). -/
def opField (v : Word) : Nat := v.toNat % 256
/-- SYM = v[15:8] (R92). -/
def symField (v : Word) : Byte := BitVec.ofNat 8 (v.toNat / 256)
/-- BIT = v[8] (R92). -/
def bitField (v : Word) : Bool := v.toNat / 256 % 2 == 1
/-- NA = CAP = v[16:8] (R92). -/
def naField (v : Word) : Nat := v.toNat / 256 % 512
/-- NB = v[25:17] (R92). -/
def nbField (v : Word) : Nat := v.toNat / 131072 % 512

/-- The opcode map of R95: each defined opcode with its format and the command its operand fields give. -/
def opcodeMap (v : Word) : Option (Format × Instr) :=
  match opField v with
  | 0x00 => some (.n, .nop)
  | 0x01 => some (.n, .softReset)
  | 0x02 => some (.n, .clearErr)
  | 0x10 => some (.n, .histClear)
  | 0x11 => some (.s, .histAdd (symField v))
  | 0x12 => some (.n, .histScan)
  | 0x13 => some (.n, .histForce)
  | 0x20 => some (.n, .nodeReset)
  | 0x21 => some (.s, .nodeLeaf (symField v))
  | 0x22 => some (.j, .nodeJoin (naField v) (nbField v))
  | 0x23 => some (.k, .pqCreate (naField v))
  | 0x24 => some (.k, .pqEnqueue (naField v))
  | 0x25 => some (.n, .pqDequeue)
  | 0x30 => some (.n, .buildTree)
  | 0x31 => some (.k, .setRoot (naField v))
  | 0x32 => some (.n, .dumpTree)
  | 0x33 => some (.n, .rebuildTree)
  | 0x40 => some (.n, .codeClear)
  | 0x41 => some (.b, .codePush (bitField v))
  | 0x42 => some (.n, .codePop)
  | 0x43 => some (.n, .buildCodes)
  | 0x50 => some (.n, .hdrWrite)
  | 0x51 => some (.n, .hdrRead)
  | 0x60 => some (.b, .bitWrite (bitField v))
  | 0x61 => some (.s, .codeWrite (symField v))
  | 0x62 => some (.s, .byteWrite (symField v))
  | 0x63 => some (.n, .flush)
  | 0x64 => some (.n, .bitRead)
  | 0x65 => some (.n, .byteRead)
  | 0x66 => some (.n, .srcRewind)
  | 0x70 => some (.n, .encodePayload)
  | 0x71 => some (.n, .decodePayload)
  | 0x72 => some (.n, .encode)
  | 0x73 => some (.n, .decode)
  | _ => none

/-- A bit that the format reserves is 1 (R93): some bit from bit 8 + operandBits up to bit 63. -/
def reservedBitSet (f : Format) (v : Word) : Bool := v.toNat / 2 ^ (8 + f.operandBits) != 0

/-- The decoder (R90, R93, R94): the opcode check, then the reserved-bit check, then the operand fields. -/
def decodeWord (v : Word) : Decoded :=
  match opcodeMap v with
  | none => .rejected .badOpcode
  | some (f, i) => if reservedBitSet f v then .rejected .reservedBits else .command i

/-- The opcode of a command (R95). -/
def Instr.opcode : Instr → Nat
  | .nop => 0x00
  | .softReset => 0x01
  | .clearErr => 0x02
  | .histClear => 0x10
  | .histAdd _ => 0x11
  | .histScan => 0x12
  | .histForce => 0x13
  | .nodeReset => 0x20
  | .nodeLeaf _ => 0x21
  | .nodeJoin _ _ => 0x22
  | .pqCreate _ => 0x23
  | .pqEnqueue _ => 0x24
  | .pqDequeue => 0x25
  | .buildTree => 0x30
  | .setRoot _ => 0x31
  | .dumpTree => 0x32
  | .rebuildTree => 0x33
  | .codeClear => 0x40
  | .codePush _ => 0x41
  | .codePop => 0x42
  | .buildCodes => 0x43
  | .hdrWrite => 0x50
  | .hdrRead => 0x51
  | .bitWrite _ => 0x60
  | .codeWrite _ => 0x61
  | .byteWrite _ => 0x62
  | .flush => 0x63
  | .bitRead => 0x64
  | .byteRead => 0x65
  | .srcRewind => 0x66
  | .encodePayload => 0x70
  | .decodePayload => 0x71
  | .encode => 0x72
  | .decode => 0x73

/-- The operand bits of a command as one number, bit 0 of it being CMD bit 8 (R91): SYM, BIT, NA, CAP, or NA with NB
nine bits above it. -/
def Instr.operands : Instr → Nat
  | .histAdd sym | .nodeLeaf sym | .codeWrite sym | .byteWrite sym => sym.toNat
  | .codePush bit | .bitWrite bit => bit.toNat
  | .pqCreate n | .pqEnqueue n | .setRoot n => n
  | .nodeJoin na nb => na + 512 * nb
  | .nop | .softReset | .clearErr | .histClear | .histScan | .histForce | .nodeReset | .pqDequeue => 0
  | .buildTree | .dumpTree | .rebuildTree | .codeClear | .codePop | .buildCodes | .hdrWrite | .hdrRead => 0
  | .flush | .bitRead | .byteRead | .srcRewind | .encodePayload | .decodePayload | .encode | .decode => 0

/-- The encoder: the 32-bit command word of a well-formed command (R91, R95). -/
def encodeWord (i : Instr) : BitVec 32 := BitVec.ofNat 32 (i.opcode + 256 * i.operands)

/-- The value a host writes to CMD to issue a command word: CMD[63:32] is zero (R24, R98). -/
def cmdValue (w : BitVec 32) : Word := w.setWidth 64

/-- The bits of one row of spec/opcode_table.json as the value written to CMD: the first nbits bits of w, every bit
above them zero. A command is one 32-bit word in one 64-bit write (R97), so no bytes are laid out in a memory. -/
def tableWord (nbits w : Nat) : Word := BitVec.ofNat 64 (w % 2 ^ nbits)

/-- What the decoder reads from a row of spec/opcode_table.json; none where it rejects. -/
def decodeTableWord (nbits w : Nat) : Option Instr :=
  match decodeWord (tableWord nbits w) with
  | .command i => some i
  | .rejected _ => none

end Sys2Proof
end

