-- ==== Sys2Proof/Config.lean ====
section
/-! DEFINITION. What an implementation of HUFF-CORE fixes (R9, R53): the four OPEN parameters as one structure, the
fixed constants, and the free values of the model, which have no body. -/

namespace Sys2Proof

/-- The OPEN parameters of R9 (D5, D6, D7). A configuration with equal markers and a BLOCK outside 1..2^24-1 are
refused (93_implementation_defined.md U2, U3): the two proof fields say so, once. CONFIG (R41) shows them. -/
structure Config where
  /-- MAGIC, a 16-bit constant (D5). -/
  magic : BitVec 16
  /-- LEAF_MARKER, one byte (D6). -/
  leafMarker : Byte
  /-- INTERNAL_MARKER, one byte, different from LEAF_MARKER (D6). -/
  internalMarker : Byte
  /-- BLOCK, the buffer capacity in bytes (D7). -/
  block : Nat
  markersDiffer : (leafMarker != internalMarker) = true
  blockInRange : (Nat.ble 1 block && Nat.ble block (2 ^ 24 - 1)) = true
  deriving DecidableEq, Repr

namespace Config

/-- The hardware's own MAGIC: no source gives it (D5), so it has no value here. -/
opaque openMagic : BitVec 16
/-- The hardware's own LEAF_MARKER: no source gives it (D6). -/
opaque openLeafMarker : Byte
/-- How far INTERNAL_MARKER lies above LEAF_MARKER, less one: the markers differ (D6), nothing else is known. -/
opaque openMarkerGap : Fin 255
/-- The hardware's own BLOCK, less one: 1 <= BLOCK <= 2^24 - 1 = 16777215 (D7), nothing else is known. -/
opaque openBlock : Fin 16777215

/-- The value a host read draws while the engine is busy (R65): a 64-bit value under no law, one for each draw. -/
opaque freeRead : Nat → Word

/-- The parameters of the hardware at hand: every OPEN value of R9 stays open. -/
def hardware : Config where
  magic := openMagic
  leafMarker := openLeafMarker
  internalMarker := openLeafMarker + BitVec.ofNat 8 (openMarkerGap.val + 1)
  block := openBlock.val + 1
  markersDiffer := by
    have hg := openMarkerGap.isLt
    have hl := openLeafMarker.isLt
    simp only [bne_iff_ne, ne_eq, BitVec.toNat_eq, BitVec.toNat_add, BitVec.toNat_ofNat]
    omega
  blockInRange := by
    have hb := openBlock.isLt
    simp only [Bool.and_eq_true, Nat.ble_eq]
    omega

end Config

/-- NIL, the "no node" index 0x1FF (R9, D13). -/
abbrev NIL : Nat := 511
/-- NODE_POOL: 511 node slots (R9, D13). -/
abbrev nodePool : Nat := 511
/-- PQ_CAP_MAX: 256 queue entries (R9). -/
abbrev pqCapMax : Nat := 256
/-- CODE_CAP: 256 bits (R9). -/
abbrev codeCap : Nat := 256
/-- STACK_CAP: 256 entries on the rebuild stack (R9, D15). -/
abbrev stackCap : Nat := 256
/-- The largest 64-bit count, 2^64 - 1 (R119). -/
abbrev freqMax : Nat := 2 ^ 64 - 1

end Sys2Proof
end

