-- ==== Sys2Proof/Machine/State.lean ====
section
/-! DEFINITION. The state of HUFF-CORE and of its one host as plain data (10_state.md; R52 for the host's part), the
error names of R217, the reasons a step can stop, and the state after reset (R54, R250). -/

namespace Sys2Proof.Machine

/-- KIND of a node-pool slot (R45). -/
inductive Kind where
  | free | leaf | internal
  deriving DecidableEq, Repr

/-- HELD, the owner of a node (R45): NONE, PQ, PARENT or ROOT. -/
inductive Held where
  | unowned | pq | parent | root
  deriving DecidableEq, Repr

/-- One slot of the node pool (R45). LEFT and RIGHT are node indices 0..511, NIL = 511. -/
structure Node where
  kind : Kind
  held : Held
  sym : Byte
  freq : Word
  left : Nat
  right : Nat
  deriving DecidableEq, Repr

/-- A FREE slot: KIND 0, HELD 0, SYM 0, LEFT = RIGHT = NIL, FREQ 0 (R45). -/
def Node.free : Node :=
  { kind := .free, held := .unowned, sym := 0, freq := 0, left := NIL, right := NIL }

/-- The code register C (R48): len bits, bit[0] pushed first. Bit k is bit k of the 256-bit vector (R42). -/
structure Code where
  len : Nat
  bits : BitVec 256
  deriving DecidableEq, Repr

/-- The empty code (R48, R160). -/
def Code.empty : Code := { len := 0, bits := 0 }

/-- One entry of the code table T (R44). -/
structure CodeEntry where
  valid : Bool
  len : Nat
  bits : BitVec 256
  deriving DecidableEq, Repr

/-- An entry no leaf has set: valid 0, len 0, all bits 0 (R44, R164). -/
def CodeEntry.invalid : CodeEntry := { valid := false, len := 0, bits := 0 }

/-- The tree and queue unit: the node pool, the root, the priority queue and the rebuild stack. -/
structure Pool where
  /-- NODE[0..510] (R45). -/
  nodes : Vector Node 511
  /-- NODE_COUNT, 0..511 (R29). -/
  count : Nat
  /-- ROOT, a node index or NIL (R28). -/
  root : Nat
  /-- UNIQUE, 0..256 (R30). -/
  unique : Nat
  /-- PQH[0..255] (R47). -/
  heap : Vector Nat 256
  /-- PQ_STATUS.SIZE, 0..256 (R31). -/
  size : Nat
  /-- PQ_STATUS.CAP, 0..256 (R31). -/
  cap : Nat
  /-- S, the rebuild stack of REBUILD_TREE, its top first (R51): at most 256 node indices, empty while no command
  runs. -/
  stack : List Nat
  deriving DecidableEq, Repr

/-- Every node FREE, no root, the queue empty with capacity 256 (R54). -/
def Pool.reset : Pool where
  nodes := Vector.replicate 511 Node.free
  count := 0
  root := NIL
  unique := 0
  heap := Vector.replicate 256 NIL
  size := 0
  cap := 256
  stack := []

/-- The header registers (R32 to R35). -/
structure HeaderRegs where
  /-- HDR_MAGIC (R32). -/
  magic : BitVec 16
  /-- HDR_PERM (R33). -/
  perm : BitVec 16
  /-- HDR_TREE_SIZE (R34). -/
  treeSize : BitVec 16
  /-- HDR_FILE_SIZE (R35). -/
  fileSize : Word
  deriving DecidableEq, Repr

/-- All zero (R54). -/
def HeaderRegs.reset : HeaderRegs := { magic := 0, perm := 0, treeSize := 0, fileSize := 0 }

/-- The write buffer (R38, R49). -/
structure OutSide where
  /-- OUTBUF, as far as it has been written since it was last emptied (R49): the bytes that hold pending bits. What lies
  beyond is unspecified and never read. -/
  buf : List Byte
  /-- OUT_BITPOS, 0..8*BLOCK-1 between commands (R38). -/
  bitPos : Nat
  deriving DecidableEq, Repr

/-- Nothing pending (R54). -/
def OutSide.empty : OutSide := { buf := [], bitPos := 0 }

/-- The read buffer (R39, R50). -/
structure InSide where
  /-- INBUF[0..IN_LEN-1], the last block the source delivered (R50); IN_LEN is its length (R39). -/
  buf : List Byte
  /-- IN_BITPOS, 0..8*IN_LEN (R39). -/
  bitPos : Nat
  /-- IN_EOF (R39). -/
  eof : Bool
  deriving DecidableEq, Repr

/-- IN_LEN, IN_BITPOS and IN_EOF 0 (R54). -/
def InSide.empty : InSide := { buf := [], bitPos := 0, eof := false }

/-- The registers and internal memories of the engine, STATUS apart (10_state.md). -/
structure Regs where
  /-- ARG (R26). -/
  arg : Word
  /-- RESULT (R27). -/
  result : Word
  /-- HIST[0..255] (R43). -/
  hist : Vector Word 256
  /-- SCAN_COUNT (R37). -/
  scanCount : Word
  /-- ROOT, NODE_COUNT, UNIQUE, PQ_STATUS, NODE, PQH and the rebuild stack. -/
  pool : Pool
  /-- C, the code register (R48); CODE_LEN and CODE_BITS are its views (R40, R42). -/
  code : Code
  /-- T[0..255], the code table (R44). -/
  table : Vector CodeEntry 256
  /-- HDR_MAGIC, HDR_PERM, HDR_TREE_SIZE, HDR_FILE_SIZE. -/
  hdr : HeaderRegs
  /-- OUTBUF and OUT_STATUS. -/
  out : OutSide
  /-- INBUF and IN_STATUS. -/
  inp : InSide
  /-- BYTES_READ, modulo 2^64 (R36). -/
  bytesRead : Word
  /-- BYTES_WRITTEN, modulo 2^64 (R36). -/
  bytesWritten : Word
  deriving DecidableEq, Repr

/-- The reset value of every engine register and memory (R54). -/
def Regs.reset : Regs where
  arg := 0
  result := 0
  hist := Vector.replicate 256 0
  scanCount := 0
  pool := Pool.reset
  code := Code.empty
  table := Vector.replicate 256 CodeEntry.invalid
  hdr := HeaderRegs.reset
  out := OutSide.empty
  inp := InSide.empty
  bytesRead := 0
  bytesWritten := 0

/-- The fields of STATUS (R25), BUSY apart: BUSY is 1 exactly while a command waits, which State.running holds. -/
structure Status where
  ok : Bool
  err : Bool
  ovr : Bool
  rej : Bool
  errKind : BitVec 4
  errCode : BitVec 8
  lastOp : BitVec 8
  deriving DecidableEq, Repr

/-- STATUS = 0 (R54, R250). -/
def Status.reset : Status :=
  { ok := false, err := false, ovr := false, rej := false, errKind := 0, errCode := 0, lastOp := 0 }

/-- The error codes of R217, by name. -/
inductive ErrName where
  | badMagic | headerTruncated | treeTruncated | treeBadMarker | treeLeafSplit | treeUnderflow | treeDepth
  | treeOverflow | treeDegenerate | payloadTruncated
  | pqFull | pqEmpty | codeFull | nodePoolFull | freqOverflow
  | srcFail | snkFail | inputChanged
  | badOpcode | reservedBits | badNode | nodeHeld | badCapacity | noCode | noRoot | misaligned | emptyHistogram
  | degenerateTree
  deriving DecidableEq, Repr

/-- How the host answers a port request (R72 to R75). -/
inductive PortReply where
  /-- OK: a SrcRead gets BLOCK bytes, or all that remain when fewer remain (R258). -/
  | ok
  /-- OK, but a SrcRead gets at most n bytes, an early end of the stream (R258, U9). To a SrcRewind or a SnkWrite it is
  a plain OK. -/
  | okShort (n : Nat)
  /-- FAIL (R72, R73, R74). -/
  | fail
  /-- No answer yet: the request stays outstanding and the engine waits (R75). -/
  | hold
  deriving DecidableEq, Repr

/-- What the host can do to HUFF-CORE from outside a port answer it gives at once (R235, R250). -/
inductive HostAction where
  /-- MemRead(addr, width) (R12, R61, R62). -/
  | read (addr width : Nat)
  /-- MemWrite(addr, width, v) (R12, R61, R62). -/
  | write (addr width : Nat) (v : Word)
  /-- The host answers the outstanding port request (R75). -/
  | answer (r : PortReply)
  /-- The host's source stream becomes these bytes, its position 0 (R52; `SRC` of R99). -/
  | source (bytes : List Byte)
  /-- The platform applies hardware reset (R250). -/
  | hardReset
  deriving DecidableEq, Repr

/-- The host's side of the two ports (R52): the source stream SRC with its read position, the sink history SNK, and the
replies the host gives to the port requests to come. -/
structure Ports where
  src : List Byte
  srcPos : Nat
  snk : List Byte
  /-- The host's replies to the next port requests, in order. -/
  plan : List PortReply
  /-- Its reply to every request after those. -/
  later : PortReply
  deriving DecidableEq, Repr

/-- A command that waits at a port request: the engine's hidden position inside it (R22, R54, U13). The position is what
the command, the registers at its issue and the answers so far determine. -/
structure Running where
  cmd : Instr
  /-- The registers at the command's issue. -/
  start : Regs
  /-- The answers the command has had, oldest first: the bytes of a SrcRead, no bytes for a SrcRewind or a SnkWrite. -/
  answered : List (List Byte)
  deriving DecidableEq, Repr


/-- The state: the engine, and the host as far as the engine meets it. -/
structure State where
  /-- CONFIG (R41): the parameters; nothing changes it. -/
  config : Config
  /-- STATUS (R25). -/
  status : Status
  /-- The other registers and the internal memories. -/
  regs : Regs
  /-- The command that waits at a port request. STATUS.BUSY = 1 exactly when there is one. -/
  running : Option Running
  /-- The host's side of the ports (R52). -/
  port : Ports
  /-- What the host does next, in order (R98): its program, as the accesses it makes. -/
  script : List HostAction
  /-- The value the host's last MemRead returned. -/
  lastRead : Word
  /-- How many free values have been drawn (R65): the model's own counter. -/
  draws : Nat
  deriving DecidableEq, Repr

/-- Why the machine stops with a fault. -/
inductive Fault where
  /-- The host names an address outside 0x0000..0xFFFF, which does not reach HUFF-CORE (R61). Raised by a host access.
  Safe: no state of HUFF-CORE changes. -/
  | addressOutsideWindow (addr : Nat)
  deriving DecidableEq, Repr

/-- Why a step has no meaning. -/
inductive Refusal where
  /-- An instruction without a meaning: raised by an arm of exec. Safe. None is left. -/
  | notModelled (mnemonic : String)
  /-- A host access that is not 8 bytes wide at a multiple of 8: this spec does not admit it (R62, U6). Raised by a host
  access. Safe. -/
  | accessNotAdmitted (addr width : Nat)
  /-- A source stream of 2^64 bytes or more, which breaks the host's duty (R235, U11). Raised by the host's `source`.
  Safe. -/
  | sourceTooLong (length : Nat)
  deriving DecidableEq, Repr

/-- The host's side before any access: an empty source, an empty sink, every port request answered OK. -/
def Ports.reset : Ports := { src := [], srcPos := 0, snk := [], plan := [], later := .ok }

/-- The state after hardware reset of a HUFF-CORE with the given parameters, its host not yet acting. -/
def State.resetWith (config : Config) : State where
  config := config
  status := Status.reset
  regs := Regs.reset
  running := none
  port := Ports.reset
  script := []
  lastRead := 0
  draws := 0

/-- The state after hardware reset (R54, R250), the OPEN parameters left open. -/
def State.reset : State := State.resetWith Config.hardware

end Sys2Proof.Machine
end

