-- ==== Sys2Proof/Machine/Flags.lean ====
section
/-! DEFINITION. STATUS (R25): its word, and every way its fields change (R90, R112, R216 to R219, R256). -/

namespace Sys2Proof.Machine

/-- ERR_CODE of each error (R217). -/
def ErrName.code : ErrName → BitVec 8
  | .badMagic => 0x10
  | .headerTruncated => 0x11
  | .treeTruncated => 0x12
  | .treeBadMarker => 0x13
  | .treeLeafSplit => 0x14
  | .treeUnderflow => 0x15
  | .treeDepth => 0x16
  | .treeOverflow => 0x17
  | .treeDegenerate => 0x18
  | .payloadTruncated => 0x19
  | .pqFull => 0x20
  | .pqEmpty => 0x21
  | .codeFull => 0x22
  | .nodePoolFull => 0x23
  | .freqOverflow => 0x24
  | .srcFail => 0x30
  | .snkFail => 0x31
  | .inputChanged => 0x32
  | .badOpcode => 0x40
  | .reservedBits => 0x41
  | .badNode => 0x42
  | .nodeHeld => 0x43
  | .badCapacity => 0x44
  | .noCode => 0x45
  | .noRoot => 0x46
  | .misaligned => 0x47
  | .emptyHistogram => 0x48
  | .degenerateTree => 0x49

/-- CODE[7:4], the ERR_KIND of an error code (R216). -/
def kindOfCode (code : BitVec 8) : BitVec 4 := code.extractLsb' 4 4

/-- The word a MemRead of STATUS returns (R25), bit 63 first. -/
def Status.word (s : Status) (busy : Bool) : Word :=
  (0 : BitVec 32) ++ s.lastOp ++ s.errCode ++ (0 : BitVec 4) ++ s.errKind ++ (0 : BitVec 3) ++
    BitVec.ofBool s.rej ++ BitVec.ofBool s.ovr ++ BitVec.ofBool s.err ++ BitVec.ofBool s.ok ++ BitVec.ofBool busy

/-- A command is accepted: LAST_OP is its opcode (R90). -/
def Status.accept (s : Status) (op : BitVec 8) : Status := { s with lastOp := op }

/-- A command ends successfully with this outcome (R27, R90). -/
def Status.finish (s : Status) (ok : Bool) : Status := { s with ok := ok }

/-- The STATUS part of `raise` (R218): the first error's code and kind are kept, ERR is set, OK is cleared. -/
def Status.raise (s : Status) (e : ErrName) : Status :=
  if s.err then { s with ok := false }
  else { s with err := true, ok := false, errCode := e.code, errKind := kindOfCode e.code }

/-- CLEAR_ERR's changes, OK apart (R112). -/
def Status.clearErr (s : Status) : Status :=
  { s with err := false, ovr := false, rej := false, errKind := 0, errCode := 0 }

/-- A host write reached a register while BUSY = 1 (R66, R256). -/
def Status.dropped (s : Status) : Status := { s with ovr := true }

/-- A command was written while ERR = 1 (R219). -/
def Status.rejected (s : Status) : Status := { s with rej := true }

end Sys2Proof.Machine
end

