-- ==== Sys2Proof/Machine/Ops.lean ====
section
/-! DEFINITION. The named operations of the engine, each shared by the commands that use it: the engine's procedures and
how a command runs, ends, aborts or waits (R13, R75, R218 to R221); the node pool and the heap (R125, R126, R130); the
port transactions (R72 to R74); the buffered byte and bit layer (R181 to R184, R190 to R193). -/

namespace Sys2Proof.Machine

/-! ### Procedures -/

/-- What a running command works on: the parameters, the registers, the host's side of the ports, and the answers of the
port requests it has made (`given`) or makes again when it goes on after a wait (`replay`). -/
structure Ctx where
  config : Config
  regs : Regs
  port : Ports
  replay : List (List Byte)
  given : List (List Byte)
  deriving DecidableEq, Repr

/-- Why a procedure stops before its end: the first raise (R13), or a port request without an answer (R75). -/
inductive Stop where
  | raised (e : ErrName)
  | waiting
  deriving DecidableEq, Repr

/-- A procedure of the pseudocode: statements run in the order written, and the first stop ends all of it with every
earlier change kept (R13, R220(b), R223). -/
abbrev Proc := EStateM Stop Ctx

/-- `raise` inside a procedure (R12): what it does to the state is `State.abort`. -/
def raise {α : Type} (e : ErrName) : Proc α := throw (.raised e)

/-- The registers as the procedure finds them. -/
def getRegs : Proc Regs := do return (← get).regs

/-- The parameters (R9). -/
def getConfig : Proc Config := do return (← get).config

/-- Change the registers. -/
def modifyRegs (f : Regs → Regs) : Proc Unit := modify fun c => { c with regs := f c.regs }

/-- A check of the pseudocode: raise the error unless the condition holds. -/
def require (cond : Bool) (e : ErrName) : Proc Unit := if cond then pure () else raise e

/-- Change the tree and queue unit. -/
def modifyPool (f : Pool → Pool) : Proc Unit := modifyRegs fun r => { r with pool := f r.pool }

/-! ### Histogram and code table -/

/-- HIST[s] (R43). -/
def Regs.histAt (r : Regs) (s : Byte) : Word := r.hist.getD s.toNat 0

/-- HIST[s] <- v (R43). -/
def Regs.setHist (r : Regs) (s : Byte) (v : Word) : Regs := { r with hist := r.hist.setIfInBounds s.toNat v }

/-- T[s] (R44). -/
def Regs.entry (r : Regs) (s : Byte) : CodeEntry := r.table.getD s.toNat CodeEntry.invalid

/-! ### Node pool and heap -/

/-- NODE[i] (R45); an index that names no slot (NIL) reads as a FREE one. -/
def Pool.node (p : Pool) (i : Nat) : Node := p.nodes.getD i Node.free

/-- NODE[i] <- n (R45). -/
def Pool.setNode (p : Pool) (i : Nat) (n : Node) : Pool := { p with nodes := p.nodes.setIfInBounds i n }

/-- NODE[i].HELD <- h (R45). -/
def Pool.setHeld (p : Pool) (i : Nat) (h : Held) : Pool := p.setNode i { p.node i with held := h }

/-- The next slot filled, and NODE_COUNT one more (R125). -/
def Pool.grown (p : Pool) (n : Node) : Pool := { p.setNode p.count n with count := p.count + 1 }

/-- `Alloc` (R125): slots are handed out in increasing order; e is the error when the pool is full. -/
def alloc (kind : Kind) (sym : Byte) (freq : Word) (left right : Nat) (e : ErrName) : Proc Nat := do
  let r ← getRegs
  require (r.pool.count != nodePool) e
  modifyPool
    (·.grown { kind := kind, held := .unowned, sym := sym, freq := freq, left := left, right := right })
  return r.pool.count

/-- The state changes of NODE_RESET (R126): every slot FREE, no root, the queue empty, CAP unchanged. -/
def Pool.cleared (p : Pool) : Pool := { Pool.reset with cap := p.cap, stack := p.stack }

/-- NODE_RESET's state changes on the registers (R126). -/
def Regs.nodeReset (r : Regs) : Regs := { r with pool := r.pool.cleared }

/-- PQH[j] (R47). -/
def heapAt (heap : Vector Nat 256) (j : Nat) : Nat := heap.getD j NIL

/-- swap PQH[i], PQH[j] (R130). -/
def swapHeap (heap : Vector Nat 256) (i j : Nat) : Vector Nat 256 :=
  (heap.setIfInBounds i (heapAt heap j)).setIfInBounds j (heapAt heap i)

/-- key(PQH[i]) < key(PQH[j]), the strict unsigned comparison of FREQ (R130). -/
def keyLess (p : Pool) (heap : Vector Nat 256) (i j : Nat) : Bool :=
  BitVec.ult (p.node (heapAt heap i)).freq (p.node (heapAt heap j)).freq

/-- The sift-up loop of HeapInsert from position i (R130). It halves i each time, so i passes are enough: fuel = i. -/
def siftUp (p : Pool) : (fuel : Nat) → Vector Nat 256 → (i : Nat) → Vector Nat 256
  | 0, heap, _ => heap
  | fuel + 1, heap, i =>
    if keyLess p heap i ((i - 1) / 2) then siftUp p fuel (swapHeap heap i ((i - 1) / 2)) ((i - 1) / 2) else heap

/-- The position the sift-down loop swaps with: the smaller child of i that is below i's own key, the left one first
(R130). -/
def smallerChild (p : Pool) (heap : Vector Nat 256) (size i : Nat) : Nat :=
  let l := 2 * i + 1
  let q := 2 * i + 2
  let m := if l < size && keyLess p heap l i then l else i
  if q < size && keyLess p heap q m then q else m

/-- The sift-down loop of HeapExtract from position i (R130). i grows below size each time: fuel = size. -/
def siftDown (p : Pool) (size : Nat) : (fuel : Nat) → Vector Nat 256 → (i : Nat) → Vector Nat 256
  | 0, heap, _ => heap
  | fuel + 1, heap, i =>
    let m := smallerChild p heap size i
    if m = i then heap else siftDown p size fuel (swapHeap heap i m) m

/-- `HeapInsert(x)` (R130); its callers see to SIZE < CAP. -/
def Pool.heapInsert (p : Pool) (x : Nat) : Pool :=
  { p with heap := siftUp p p.size (p.heap.setIfInBounds p.size x) p.size, size := p.size + 1 }.setHeld x .pq

/-- The node `HeapExtract()` returns (R130). -/
def Pool.heapTop (p : Pool) : Nat := heapAt p.heap 0

/-- What `HeapExtract()` does to the queue and to the node it returns (R130); its callers see to SIZE > 0. -/
def Pool.heapExtract (p : Pool) : Pool :=
  let size := p.size - 1
  let moved := (p.heap.setIfInBounds 0 (heapAt p.heap size)).setIfInBounds size NIL
  { p with heap := siftDown p size size moved 0, size := size }.setHeld p.heapTop .unowned

/-- HeapExtract() as a procedure: it returns the node (R130). -/
def heapExtract : Proc Nat := do
  let r ← getRegs
  modifyPool Pool.heapExtract
  return r.pool.heapTop

/-- The loop of `Leaves` (R148) to a depth of at most fuel. -/
def leavesTo (p : Pool) : (fuel : Nat) → Nat → Nat
  | 0, _ => 0
  | fuel + 1, n =>
    if (p.node n).kind = .leaf then 1 else leavesTo p fuel (p.node n).left + leavesTo p fuel (p.node n).right

/-- `Leaves(n)` (R148): children have smaller indices than their parent (R46), so n + 1 levels are enough. -/
def Pool.leaves (p : Pool) (n : Nat) : Nat := leavesTo p (n + 1) n

/-- The loop of `Dump` (R149) to a depth of at most fuel. -/
def dumpTo (c : Config) (p : Pool) : (fuel : Nat) → Nat → List Byte
  | 0, _ => []
  | fuel + 1, n =>
    if (p.node n).kind = .leaf then [c.leafMarker, (p.node n).sym]
    else dumpTo c p fuel (p.node n).left ++ dumpTo c p fuel (p.node n).right ++ [c.internalMarker]

/-- `Dump(n)`, the canonical dump of the subtree at n (R149). -/
def Pool.dump (c : Config) (p : Pool) (n : Nat) : List Byte := dumpTo c p (n + 1) n

/-! ### Port transactions -/

/-- The host's reply to a port request made now, and its side afterwards (R72 to R75). -/
def Ports.takeReply (p : Ports) : PortReply × Ports :=
  match p.plan with
  | [] => (p.later, p)
  | reply :: plan => (reply, { p with plan := plan })

/-- A port request (R72 to R75): FAIL raises e, no answer waits, and OK does what `grant` says (with the most bytes the
host gives) and yields the answer's bytes. A command that goes on after a wait finds the answers it has had. -/
def request (e : ErrName) (limit : Nat) (grant : Ports → Nat → List Byte × Ports) : Proc (List Byte) := do
  let c ← get
  match c.replay with
  | bytes :: replay =>
    set { c with replay := replay, given := c.given ++ [bytes] }
    return bytes
  | [] =>
    match c.port.takeReply with
    | (.ok, p) =>
      set { c with port := (grant p limit).2, given := c.given ++ [(grant p limit).1] }
      return (grant p limit).1
    | (.okShort n, p) =>
      set { c with port := (grant p (min n limit)).2, given := c.given ++ [(grant p (min n limit)).1] }
      return (grant p (min n limit)).1
    | (.fail, p) =>
      set { c with port := p }
      raise e
    | (.hold, p) =>
      set { c with port := p }
      throw .waiting

/-- The host delivers the next bytes of its source stream, at most n (R72). -/
def Ports.deliver (p : Ports) (n : Nat) : List Byte × Ports :=
  ((p.src.drop p.srcPos).take n, { p with srcPos := p.srcPos + ((p.src.drop p.srcPos).take n).length })

/-- The host's stream starts again at its first byte (R73). -/
def Ports.rewound (p : Ports) (_ : Nat) : List Byte × Ports := ([], { p with srcPos := 0 })

/-- The sink has the bytes appended (R74). -/
def Ports.accepted (bytes : List Byte) (p : Ports) (_ : Nat) : List Byte × Ports :=
  ([], { p with snk := p.snk ++ bytes })

/-- `SrcRead(BLOCK)` (R71, R72): BYTES_READ adds the number of bytes delivered, modulo 2^64 (R36). -/
def srcRead : Proc (List Byte) := do
  let cfg ← getConfig
  let bytes ← request .srcFail cfg.block Ports.deliver
  modifyRegs fun r => { r with bytesRead := r.bytesRead + BitVec.ofNat 64 bytes.length }
  return bytes

/-- `SrcRewind()` (R73). -/
def srcRewind : Proc Unit := do
  let _ ← request .srcFail 0 Ports.rewound

/-- `SnkWrite(B)` (R74): BYTES_WRITTEN adds the number of bytes accepted, modulo 2^64 (R36). -/
def snkWrite (bytes : List Byte) : Proc Unit := do
  let _ ← request .snkFail 0 (Ports.accepted bytes)
  modifyRegs fun r => { r with bytesWritten := r.bytesWritten + BitVec.ofNat 64 bytes.length }

/-! ### The write side of the buffered layer -/

/-- OUTBUF with byte i set to v (R181, R183): what lies above byte i is unspecified (R49) and dropped. -/
def putByte (buf : List Byte) (i : Nat) (v : Byte) : List Byte := buf.take i ++ [v]

/-- OUT_BITPOS <- 0: nothing is pending (R181, R182, R220(a)). -/
def Regs.emptyOut (r : Regs) : Regs := { r with out := OutSide.empty }

/-- A full OUTBUF is written at once (R181, R183). -/
def writeFullBlock : Proc Unit := do
  let cfg ← getConfig
  let r ← getRegs
  if r.out.bitPos = 8 * cfg.block then
    snkWrite (r.out.buf.take cfg.block)
    modifyRegs Regs.emptyOut
  else return ()

/-- OUTBUF and OUT_BITPOS after one more bit (R181): a new byte starts all zero. -/
def OutSide.appendBit (o : OutSide) (b : Bool) : OutSide :=
  let i := o.bitPos / 8
  let j := o.bitPos % 8
  let byte : Byte := if j = 0 then 0 else o.buf.getD i 0
  { buf := putByte o.buf i (byte ||| ((BitVec.ofBool b).setWidth 8 <<< j)), bitPos := o.bitPos + 1 }

/-- OUTBUF and OUT_BITPOS after one more byte (R183). -/
def OutSide.appendByte (o : OutSide) (v : Byte) : OutSide :=
  { buf := putByte o.buf (o.bitPos / 8) v, bitPos := o.bitPos + 8 }

/-- `OutBit(b)` (R181). -/
def outBit (b : Bool) : Proc Unit := do
  modifyRegs fun r => { r with out := r.out.appendBit b }
  writeFullBlock

/-- `OutByte(v)` (R183). -/
def outByte (v : Byte) : Proc Unit := do
  modifyRegs fun r => { r with out := r.out.appendByte v }
  writeFullBlock

/-- OutBit for each bit of a list, in order. -/
def outBits : List Bool → Proc Unit
  | [] => return ()
  | b :: bs => do
    outBit b
    outBits bs

/-- OutByte for each byte of a list, in order. -/
def outBytes : List Byte → Proc Unit
  | [] => return ()
  | v :: vs => do
    outByte v
    outBytes vs

/-- The bits of a code in the order they are emitted: bit[0], the root edge, first (R166). -/
def codeBits (len : Nat) (bits : BitVec 256) : List Bool := (List.range len).map bits.getLsbD

/-- `OutCode(s)` (R184). -/
def outCode (s : Byte) : Proc Unit := do
  let r ← getRegs
  outBits (codeBits (r.entry s).len (r.entry s).bits)

/-- ceil(OUT_BITPOS / 8): how many bytes are pending (R182). -/
def OutSide.pendingBytes (o : OutSide) : Nat := (o.bitPos + 7) / 8

/-- `Flush()` (R182). -/
def flushOut : Proc Unit := do
  let r ← getRegs
  if 0 < r.out.pendingBytes then
    snkWrite (r.out.buf.take r.out.pendingBytes)
    modifyRegs Regs.emptyOut
  else modifyRegs Regs.emptyOut

/-! ### The read side of the buffered layer -/

/-- INBUF holds the bytes of a SrcRead; a block shorter than BLOCK marks the end (R190). -/
def InSide.refilled (i : InSide) (block : Nat) (bytes : List Byte) : InSide :=
  { buf := bytes, bitPos := 0, eof := if bytes.length < block then true else i.eof }

/-- `Refill()` (R190): true is DATA, false is END. -/
def refill : Proc Bool := do
  let cfg ← getConfig
  let r ← getRegs
  if r.inp.bitPos < 8 * r.inp.buf.length then return true
  else if r.inp.eof then return false
  else
    let bytes ← srcRead
    modifyRegs fun r => { r with inp := r.inp.refilled cfg.block bytes }
    return !bytes.isEmpty

/-- The unread bit at IN_BITPOS, least significant bit of each byte first (R191). -/
def InSide.currentBit (i : InSide) : Bool := (i.buf.getD (i.bitPos / 8) 0).getLsbD (i.bitPos % 8)

/-- The unread byte at IN_BITPOS (R192). -/
def InSide.currentByte (i : InSide) : Byte := i.buf.getD (i.bitPos / 8) 0

/-- IN_BITPOS <- IN_BITPOS + n (R191, R192). -/
def InSide.advance (i : InSide) (n : Nat) : InSide := { i with bitPos := i.bitPos + n }

/-- `InBit()` (R191): none is END. -/
def inBit : Proc (Option Bool) := do
  let data ← refill
  if data then
    let r ← getRegs
    modifyRegs fun r => { r with inp := r.inp.advance 1 }
    return some r.inp.currentBit
  else return none

/-- `InByte()` (R192): none is END. -/
def inByte : Proc (Option Byte) := do
  let data ← refill
  if data then
    let r ← getRegs
    modifyRegs fun r => { r with inp := r.inp.advance 8 }
    return some r.inp.currentByte
  else return none

/-- `Rewind()` (R193). -/
def rewind : Proc Unit := do
  srcRewind
  modifyRegs fun r => { r with inp := InSide.empty }

/-- More bytes than one pass over the input can read: a stream is shorter than 2^64 bytes (R235), and INBUF holds fewer
than 2^24 (R9). It is the fuel of the loops that read to the end of the input. -/
abbrev inputPasses : Nat := 2 ^ 65

/-- The output is byte-aligned, or MISALIGNED (R180). -/
def requireOutAligned : Proc Unit := do
  let r ← getRegs
  require (r.out.bitPos % 8 == 0) .misaligned

/-- The input is byte-aligned, or MISALIGNED (R180). -/
def requireInAligned : Proc Unit := do
  let r ← getRegs
  require (r.inp.bitPos % 8 == 0) .misaligned

/-! ### How a command ends -/

/-- What a command's body answers: its outcome, STATUS.OK, and its RESULT (R27). -/
abbrev Answer := Bool × Word

/-- A command ends successfully (R27, R90): RESULT and STATUS.OK are written, BUSY returns to 0. -/
def State.finish (s : State) (c : Ctx) (a : Answer) : State :=
  { s with
    regs := { c.regs with result := a.2 }, port := c.port, running := none, status := s.status.finish a.1 }

/-- The registers an abort leaves (R220, R221): pending output is discarded; ENCODE and DECODE (`releases`) release the
tree and the queue; RESULT is 0; the rebuild stack has no value between commands (R51); all else stays. -/
def Regs.aborted (r : Regs) (releases : Bool) : Regs :=
  { r with
    out := OutSide.empty, result := 0
    pool := { (if releases then r.pool.cleared else r.pool) with stack := [] } }

/-- The abort of a command (R218, R220, R221), the one shared operation behind every error: STATUS records the first
error, the registers are those of `Regs.aborted`, BUSY returns to 0. -/
def State.abort (s : State) (releases : Bool) (e : ErrName) (c : Ctx) : State :=
  { s with regs := c.regs.aborted releases, port := c.port, running := none, status := s.status.raise e }

/-- A command waits at a port request (R75): BUSY stays 1, and nothing more happens until the host answers. -/
def State.wait (s : State) (cmd : Instr) (start : Regs) (c : Ctx) : State :=
  { s with
    regs := c.regs, port := c.port, running := some { cmd := cmd, start := start, answered := c.given } }

/-- The registers a command starts from: those at its issue, for a command that goes on after a wait too. -/
def State.startRegs (s : State) : Regs :=
  match s.running with
  | none => s.regs
  | some r => r.start

/-- The answers a command has had before: none when it is issued. -/
def State.answered (s : State) : List (List Byte) :=
  match s.running with
  | none => []
  | some r => r.answered

/-- What a command's body starts on. -/
def State.ctx (s : State) : Ctx :=
  { config := s.config, regs := s.startRegs, port := s.port, replay := s.answered, given := [] }

/-- Run a command's body to its end, to its first raise, or to its next port request without an answer (R262). -/
def State.perform (s : State) (cmd : Instr) (releases : Bool) (body : Proc Answer) : State :=
  match body s.ctx with
  | .ok a c => s.finish c a
  | .error (.raised e) c => s.abort releases e c
  | .error .waiting c => s.wait cmd s.startRegs c

end Sys2Proof.Machine
end

