-- ==== Sys2Proof/Machine/Operands.lean ====
section
/-! DEFINITION. The operand forms of the commands (R21, R92): the symbol and the bit need no check; a node operand, a
capacity operand and the root have one each; the frequency operand is ARG. -/

namespace Sys2Proof.Machine

/-- The frequency operand of NODE_LEAF: ARG (R26, R92). -/
def frequencyOperand : Proc Word := do return (← getRegs).arg

/-- `CheckFree(n)` (R129): the node is allocated, or BAD_NODE (NIL and FREE slots among them); it has no owner, or
NODE_HELD. -/
def checkFree (n : Nat) : Proc Unit := do
  let r ← getRegs
  require (n < r.pool.count) .badNode
  require ((r.pool.node n).held == .unowned) .nodeHeld

/-- The capacity operand of PQ_CREATE: at most PQ_CAP_MAX, or BAD_CAPACITY (R131). -/
def checkCapacity (cap : Nat) : Proc Unit := require (cap ≤ pqCapMax) .badCapacity

/-- The tree operand: ROOT, or NO_ROOT when it is NIL (R151, R164, R201). -/
def rootOperand : Proc Nat := do
  let r ← getRegs
  require (r.pool.root != NIL) .noRoot
  return r.pool.root

end Sys2Proof.Machine
end

