-- ==== Sys2Proof/Machine/Control.lean ====
section
/-! DEFINITION. The control commands (40_control.md): NOP, SOFT_RESET, CLEAR_ERR. They run while ERR = 1 too (R90). -/

namespace Sys2Proof.Machine

/-- NOP (R110): RESULT 0, OK 1. -/
def execNop (s : State) : Host.Outcome State Fault Refusal :=
  .next (s.perform .nop false (return (true, 0)))

/-- SOFT_RESET (R111, R251): every state element takes its reset value, then OK = 1 and LAST_OP = 0x01. No port
transaction is made, so the host's side keeps its place. -/
def execSoftReset (s : State) : Host.Outcome State Fault Refusal :=
  .next { s with
    regs := Regs.reset, running := none, status := { Status.reset with ok := true, lastOp := 0x01 } }

/-- CLEAR_ERR (R112): the sticky flags and the error code are cleared; nothing else is repaired. -/
def execClearErr (s : State) : Host.Outcome State Fault Refusal :=
  .next ({ s with status := s.status.clearErr }.perform .clearErr false (return (true, 0)))

end Sys2Proof.Machine
end

