-- ==== Sys2Proof/Machine/BitIo.lean ====
section
/-! DEFINITION. The buffered bit and byte I/O commands (46_bitio.md): BIT_WRITE, CODE_WRITE, BYTE_WRITE, FLUSH, BIT_READ,
BYTE_READ, SRC_REWIND. The layer itself stands in Ops.lean. -/

namespace Sys2Proof.Machine

/-- OUT_BITPOS as a RESULT (R185, R187). -/
def outPosition : Proc Answer := do return (true, BitVec.ofNat 64 (← getRegs).out.bitPos)

/-- RESULT is OUT_BITPOS afterwards (R185). -/
def execBitWrite (bit : Bool) (s : State) : Host.Outcome State Fault Refusal :=
  .next (s.perform (.bitWrite bit) false do
    outBit bit
    outPosition)

/-- RESULT is the code length (R186). -/
def execCodeWrite (sym : Byte) (s : State) : Host.Outcome State Fault Refusal :=
  .next (s.perform (.codeWrite sym) false do
    let r ← getRegs
    require (r.entry sym).valid .noCode
    outCode sym
    return (true, BitVec.ofNat 64 (r.entry sym).len))

/-- RESULT is OUT_BITPOS afterwards (R187). -/
def execByteWrite (sym : Byte) (s : State) : Host.Outcome State Fault Refusal :=
  .next (s.perform (.byteWrite sym) false do
    requireOutAligned
    outByte sym
    outPosition)

/-- RESULT is the number of bytes written (R188). -/
def execFlush (s : State) : Host.Outcome State Fault Refusal :=
  .next (s.perform .flush false do
    let r ← getRegs
    flushOut
    return (true, BitVec.ofNat 64 r.out.pendingBytes))

/-- RESULT is the bit; END is a "false" outcome (R194). -/
def execBitRead (s : State) : Host.Outcome State Fault Refusal :=
  .next (s.perform .bitRead false do
    match ← inBit with
    | none => return (false, 0)
    | some b => return (true, (BitVec.ofBool b).setWidth 64))

/-- RESULT is the byte; END is a "false" outcome (R195). -/
def execByteRead (s : State) : Host.Outcome State Fault Refusal :=
  .next (s.perform .byteRead false do
    requireInAligned
    match ← inByte with
    | none => return (false, 0)
    | some v => return (true, v.setWidth 64))

/-- RESULT is 0; BYTES_READ is not reset (R196). -/
def execSrcRewind (s : State) : Host.Outcome State Fault Refusal :=
  .next (s.perform .srcRewind false do
    rewind
    return (true, 0))

end Sys2Proof.Machine
end

