-- ==== Sys2Proof/Machine/Histogram.lean ====
section
/-! DEFINITION. The frequency histogram commands (41_histogram.md): HIST_CLEAR, HIST_ADD, HIST_SCAN, HIST_FORCE. Every
count is exact: an increment past 2^64 - 1 raises FREQ_OVERFLOW and stores nothing (R119). -/

namespace Sys2Proof.Machine

/-- HIST[s] + 1 would not fit 64 bits (R116 to R119). -/
def Regs.histFull (r : Regs) (s : Byte) : Bool := (r.histAt s).toNat == freqMax

/-- HIST[s] <- HIST[s] + 1 (R116). -/
def Regs.bumpHist (r : Regs) (s : Byte) : Regs := r.setHist s (r.histAt s + 1)

/-- HIST_CLEAR (R115): every HIST[s] <- 0. -/
def histClear : Proc Unit := modifyRegs fun r => { r with hist := Vector.replicate 256 0 }

/-- HIST_ADD (R116). -/
def histAdd (sym : Byte) : Proc Unit := do
  let r ← getRegs
  require (!r.histFull sym) .freqOverflow
  modifyRegs (·.bumpHist sym)

/-- One byte counted by HIST_SCAN (R117). -/
def Regs.scanned (r : Regs) (b : Byte) : Regs := { r.bumpHist b with scanCount := r.scanCount + 1 }

/-- The loop of HIST_SCAN (R117). Each pass reads a byte, so inputPasses passes reach END. -/
def scanLoop : (fuel : Nat) → Proc Unit
  | 0 => throw .waiting
  | fuel + 1 => do
    match ← inByte with
    | none => return ()
    | some b =>
      let r ← getRegs
      require (!(r.histFull b || r.scanCount.toNat == freqMax)) .freqOverflow
      modifyRegs (·.scanned b)
      scanLoop fuel

/-- The body of HIST_SCAN (R117). -/
def histScan : Proc Unit := do
  requireInAligned
  modifyRegs fun r => { r with scanCount := 0 }
  scanLoop inputPasses

/-- The symbols 0..255 in ascending order (R9). -/
def symbols : List Byte := (List.range 256).map (BitVec.ofNat 8)

/-- |{ s : HIST[s] != 0 }| (R118). -/
def Regs.distinct (r : Regs) : Nat := symbols.countP fun s => r.histAt s != 0

/-- The body of HIST_FORCE (R118): both counts are checked before either changes. -/
def histForce : Proc Unit := do
  let r ← getRegs
  if r.distinct < 2 then
    require (!(r.histFull 0 || r.histFull 255)) .freqOverflow
    modifyRegs fun r => (r.bumpHist 0).bumpHist 255
  else return ()

def execHistClear (s : State) : Host.Outcome State Fault Refusal :=
  .next (s.perform .histClear false do
    histClear
    return (true, 0))

/-- RESULT is the new count (R116). -/
def execHistAdd (sym : Byte) (s : State) : Host.Outcome State Fault Refusal :=
  .next (s.perform (.histAdd sym) false do
    histAdd sym
    let r ← getRegs
    return (true, r.histAt sym))

/-- RESULT is SCAN_COUNT (R117). -/
def execHistScan (s : State) : Host.Outcome State Fault Refusal :=
  .next (s.perform .histScan false do
    histScan
    let r ← getRegs
    return (true, r.scanCount))

/-- RESULT is the number of distinct symbols afterwards (R118). -/
def execHistForce (s : State) : Host.Outcome State Fault Refusal :=
  .next (s.perform .histForce false do
    histForce
    let r ← getRegs
    return (true, BitVec.ofNat 64 r.distinct))

end Sys2Proof.Machine
end

