-- ==== Sys2Proof/Machine/Codes.lean ====
section
/-! DEFINITION. The code register and code-table generator commands (44_codes.md): CODE_CLEAR, CODE_PUSH, CODE_POP,
BUILD_CODES. -/

namespace Sys2Proof.Machine

/-- Bit k of a 256-bit vector set to b (R48). -/
def setBit (bits : BitVec 256) (k : Nat) (b : Bool) : BitVec 256 :=
  (bits &&& ~~~(BitVec.ofNat 256 1 <<< k)) ||| ((BitVec.ofBool b).setWidth 256 <<< k)

/-- C.bit[C.len] <- b, C.len <- C.len + 1 (R161, R163); its callers see to C.len < 256. -/
def Code.push (c : Code) (b : Bool) : Code := { len := c.len + 1, bits := setBit c.bits c.len b }

/-- The top bit C.bit[C.len - 1] (R162). -/
def Code.top (c : Code) : Bool := c.bits.getLsbD (c.len - 1)

/-- C.bit[C.len - 1] <- 0, C.len <- C.len - 1 (R162, R163); its callers see to C.len > 0. -/
def Code.pop (c : Code) : Code := { len := c.len - 1, bits := setBit c.bits (c.len - 1) false }

/-- `Push(b)` of Walk: a full code register is CapacityError(CODE_FULL) (R163). -/
def walkPush (b : Bool) : Proc Unit := do
  let r ← getRegs
  require (r.code.len != codeCap) .codeFull
  modifyRegs fun r => { r with code := r.code.push b }

/-- `Pop()` of Walk (R163). -/
def walkPop : Proc Unit := modifyRegs fun r => { r with code := r.code.pop }

/-- T[s] <- a snapshot of C (R163). -/
def Regs.record (r : Regs) (s : Byte) : Regs :=
  { r with table := r.table.setIfInBounds s.toNat { valid := true, len := r.code.len, bits := r.code.bits } }

/-- `Walk(n)` (R163) to a depth of at most fuel: the left subtree first. -/
def walkTo : (fuel : Nat) → Nat → Proc Unit
  | 0, _ => return ()
  | fuel + 1, n => do
    let r ← getRegs
    if (r.pool.node n).kind = .leaf then modifyRegs (·.record (r.pool.node n).sym)
    else
      walkPush false
      walkTo fuel (r.pool.node n).left
      walkPop
      walkPush true
      walkTo fuel (r.pool.node n).right
      walkPop

/-- Every T[s] invalid, C empty (R164). -/
def Regs.clearCodes (r : Regs) : Regs :=
  { r with table := Vector.replicate 256 CodeEntry.invalid, code := Code.empty }

/-- The body of BUILD_CODES (R164). Children have smaller indices than their parent (R46), so ROOT + 1 levels are
enough. -/
def buildCodes : Proc Unit := do
  let n ← rootOperand
  let r ← getRegs
  require ((r.pool.node n).kind != .leaf) .degenerateTree
  modifyRegs Regs.clearCodes
  walkTo (n + 1) n

/-- |{ s : T[s].valid = 1 }| (R164). -/
def Regs.validEntries (r : Regs) : Nat := symbols.countP fun s => (r.entry s).valid

def execCodeClear (s : State) : Host.Outcome State Fault Refusal :=
  .next (s.perform .codeClear false do
    modifyRegs fun r => { r with code := Code.empty }
    return (true, 0))

/-- RESULT is the new length; a full register is a "false" outcome (R161). -/
def execCodePush (bit : Bool) (s : State) : Host.Outcome State Fault Refusal :=
  .next (s.perform (.codePush bit) false do
    let r ← getRegs
    if r.code.len = codeCap then return (false, 0)
    else
      modifyRegs fun r => { r with code := r.code.push bit }
      return (true, BitVec.ofNat 64 (r.code.len + 1)))

/-- RESULT is the popped bit; an empty register is a "false" outcome (R162). -/
def execCodePop (s : State) : Host.Outcome State Fault Refusal :=
  .next (s.perform .codePop false do
    let r ← getRegs
    if r.code.len = 0 then return (false, 0)
    else
      modifyRegs fun r => { r with code := r.code.pop }
      return (true, (BitVec.ofBool r.code.top).setWidth 64))

/-- RESULT is the number of valid entries (R164). -/
def execBuildCodes (s : State) : Host.Outcome State Fault Refusal :=
  .next (s.perform .buildCodes false do
    buildCodes
    let r ← getRegs
    return (true, BitVec.ofNat 64 r.validEntries))

end Sys2Proof.Machine
end

