-- ==== Sys2Proof/Machine/Header.lean ====
section
/-! DEFINITION. The stream header commands (45_header.md): HDR_WRITE, HDR_READ. Every field goes on the wire with its
least significant byte first (R67, R170). -/

namespace Sys2Proof.Machine

/-- The first n bytes of a number, least significant first (R67). With n = 8 it is also the split of a register into the
bytes of a byte-lane bus, byte k being bits [8k+7:8k] (R64). -/
def littleEndian : (n : Nat) → Nat → List Byte
  | 0, _ => []
  | n + 1, v => BitVec.ofNat 8 v :: littleEndian n (v / 256)

/-- The number that bytes hold, least significant first (R67). -/
def ofLittleEndian : List Byte → Nat
  | [] => 0
  | b :: bs => b.toNat + 256 * ofLittleEndian bs

/-- The 14 header bytes: magic, permissions, tree_size, file_size, packed (R170). -/
def headerBytes (magic perm treeSize : BitVec 16) (fileSize : Word) : List Byte :=
  littleEndian 2 magic.toNat ++ littleEndian 2 perm.toNat ++ littleEndian 2 treeSize.toNat ++
    littleEndian 8 fileSize.toNat

/-- The header of the header registers (R171). -/
def Regs.header (c : Config) (r : Regs) : List Byte := headerBytes c.magic r.hdr.perm r.hdr.treeSize r.hdr.fileSize

/-- The body of HDR_WRITE (R171). It does not flush. -/
def hdrWrite : Proc Unit := do
  requireOutAligned
  let cfg ← getConfig
  modifyRegs fun r => { r with hdr := { r.hdr with magic := cfg.magic } }
  let r ← getRegs
  outBytes (r.header cfg)

/-- The next n bytes of the input, or HEADER_TRUNCATED when it ends (R173). -/
def headerRead : (n : Nat) → Proc (List Byte)
  | 0 => return []
  | n + 1 => do
    match ← inByte with
    | none => raise .headerTruncated
    | some b =>
      let rest ← headerRead n
      return b :: rest

/-- The header registers that the 14 header bytes give (R170, R173). -/
def headerOf (h : List Byte) : HeaderRegs where
  magic := BitVec.ofNat 16 (ofLittleEndian (h.take 2))
  perm := BitVec.ofNat 16 (ofLittleEndian ((h.drop 2).take 2))
  treeSize := BitVec.ofNat 16 (ofLittleEndian ((h.drop 4).take 2))
  fileSize := BitVec.ofNat 64 (ofLittleEndian ((h.drop 6).take 8))

/-- The body of HDR_READ (R173): all 14 bytes are read before a register changes, and all four registers are loaded
before the magic is checked (D39). -/
def hdrRead : Proc Unit := do
  requireInAligned
  let h ← headerRead 14
  modifyRegs fun r => { r with hdr := headerOf h }
  let cfg ← getConfig
  let r ← getRegs
  require (r.hdr.magic == cfg.magic) .badMagic

/-- RESULT is 14 (R171). -/
def execHdrWrite (s : State) : Host.Outcome State Fault Refusal :=
  .next (s.perform .hdrWrite false do
    hdrWrite
    return (true, 14))

/-- RESULT is 14 (R173). -/
def execHdrRead (s : State) : Host.Outcome State Fault Refusal :=
  .next (s.perform .hdrRead false do
    hdrRead
    return (true, 14))

end Sys2Proof.Machine
end

