-- ==== Sys2Proof/Machine/PqNodes.lean ====
section
/-! DEFINITION. The node pool and priority queue commands (42_pq_nodes.md): NODE_RESET, NODE_LEAF, NODE_JOIN, PQ_CREATE,
PQ_ENQUEUE, PQ_DEQUEUE. -/

namespace Sys2Proof.Machine

/-- The "false" outcome of PQ_ENQUEUE and PQ_DEQUEUE: OK = 0, RESULT = NIL (R132, R133). -/
def noNode : Answer := (false, BitVec.ofNat 64 NIL)

/-- OK = 1, RESULT = a node index (R127, R128, R132, R133). -/
def theNode (n : Nat) : Answer := (true, BitVec.ofNat 64 n)

/-- Two nodes become the children of a third (R128, R145, R153). -/
def Pool.adopt (p : Pool) (left right : Nat) : Pool := (p.setHeld left .parent).setHeld right .parent

/-- The exact sum of two frequencies, or FREQ_OVERFLOW (R119, R128, R145). -/
def joinedFreq (a b : Word) : Proc Word := do
  require (a.toNat + b.toNat ≤ freqMax) .freqOverflow
  return a + b

/-- The body of NODE_JOIN (R128): the checks in its order, then the new node and its children. -/
def nodeJoin (na nb : Nat) : Proc Nat := do
  checkFree na
  checkFree nb
  require (na != nb) .nodeHeld
  let r ← getRegs
  let f ← joinedFreq (r.pool.node na).freq (r.pool.node nb).freq
  let p ← alloc .internal 0 f na nb .nodePoolFull
  modifyPool (·.adopt na nb)
  return p

/-- NODE[PQH[j]].HELD <- NONE for j in 0..n-1 (R131). -/
def Pool.releaseQueued (p : Pool) : Nat → Pool
  | 0 => p
  | n + 1 => (p.releaseQueued n).setHeld (heapAt p.heap n) .unowned

/-- The queue emptied, with a capacity (R131). -/
def Pool.queueCreated (p : Pool) (cap : Nat) : Pool :=
  { p.releaseQueued p.size with heap := Vector.replicate 256 NIL, size := 0, cap := cap }

def execNodeReset (s : State) : Host.Outcome State Fault Refusal :=
  .next (s.perform .nodeReset false do
    modifyRegs Regs.nodeReset
    return (true, 0))

/-- RESULT is the new node (R127). -/
def execNodeLeaf (sym : Byte) (s : State) : Host.Outcome State Fault Refusal :=
  .next (s.perform (.nodeLeaf sym) false do
    let f ← frequencyOperand
    let i ← alloc .leaf sym f NIL NIL .nodePoolFull
    return theNode i)

/-- RESULT is the new node (R128). -/
def execNodeJoin (na nb : Nat) (s : State) : Host.Outcome State Fault Refusal :=
  .next (s.perform (.nodeJoin na nb) false do
    let p ← nodeJoin na nb
    return theNode p)

def execPqCreate (cap : Nat) (s : State) : Host.Outcome State Fault Refusal :=
  .next (s.perform (.pqCreate cap) false do
    checkCapacity cap
    modifyPool (·.queueCreated cap)
    return (true, 0))

/-- A full queue is a "false" outcome, not an error (R132, D21). -/
def execPqEnqueue (na : Nat) (s : State) : Host.Outcome State Fault Refusal :=
  .next (s.perform (.pqEnqueue na) false do
    checkFree na
    let r ← getRegs
    if r.pool.size = r.pool.cap then return noNode
    else
      modifyPool (·.heapInsert na)
      return theNode na)

/-- An empty queue is a "false" outcome, not an error (R133, D21). -/
def execPqDequeue (s : State) : Host.Outcome State Fault Refusal :=
  .next (s.perform .pqDequeue false do
    let r ← getRegs
    if r.pool.size = 0 then return noNode
    else
      let x ← heapExtract
      return theNode x)

end Sys2Proof.Machine
end

