-- ==== Sys2Proof/Machine/Tree.lean ====
section
/-! DEFINITION. The tree builder, serializer and deserializer commands (43_tree.md): BUILD_TREE, SET_ROOT, DUMP_TREE,
REBUILD_TREE. -/

namespace Sys2Proof.Machine

/-- ROOT <- x, NODE[x].HELD <- ROOT, UNIQUE <- Leaves(x) (R145, R147, R153). -/
def Pool.makeRoot (p : Pool) (x : Nat) : Pool :=
  { p.setHeld x .root with root := x, unique := (p.setHeld x .root).leaves x }

/-! ### BUILD_TREE -/

/-- Enqueue inside BUILD_TREE: a full queue is CapacityError(PQ_FULL) (R145, D21). -/
def mustInsert (x : Nat) : Proc Unit := do
  let r ← getRegs
  require (r.pool.size != r.pool.cap) .pqFull
  modifyPool (·.heapInsert x)

/-- Dequeue inside BUILD_TREE: an empty queue is CapacityError(PQ_EMPTY) (R145, D21). -/
def mustExtract : Proc Nat := do
  let r ← getRegs
  require (r.pool.size != 0) .pqEmpty
  heapExtract

/-- The leaves of BUILD_TREE, one for each symbol of the list with a count (R145). -/
def enqueueLeaves : List Byte → Proc Unit
  | [] => return ()
  | s :: rest => do
    let r ← getRegs
    if r.histAt s = 0 then enqueueLeaves rest
    else
      let x ← alloc .leaf s (r.histAt s) NIL NIL .nodePoolFull
      mustInsert x
      enqueueLeaves rest

/-- One pass of BUILD_TREE's loop: join the two minimum nodes, the first dequeued on the left (R145, D11). -/
def joinTwo : Proc Unit := do
  let l ← heapExtract
  let x ← mustExtract
  let r ← getRegs
  let f ← joinedFreq (r.pool.node l).freq (r.pool.node x).freq
  let p ← alloc .internal 0 f l x .nodePoolFull
  modifyPool (·.adopt l x)
  mustInsert p

/-- BUILD_TREE's loop while SIZE > 1 (R145). Each pass takes two nodes and adds one, so SIZE passes are enough. -/
def joinLoop : (fuel : Nat) → Proc Unit
  | 0 => return ()
  | fuel + 1 => do
    let r ← getRegs
    if 1 < r.pool.size then
      joinTwo
      joinLoop fuel
    else return ()

/-- The body of BUILD_TREE (R145); it yields the root. -/
def buildTree : Proc Nat := do
  modifyPool fun p => { p.cleared with cap := 256 }
  enqueueLeaves symbols
  let r ← getRegs
  require (r.pool.size != 0) .emptyHistogram
  joinLoop r.pool.size
  let x ← heapExtract
  modifyPool (·.makeRoot x)
  return x

/-! ### SET_ROOT -/

/-- NODE[ROOT].HELD <- NONE when there is a root (R147). -/
def Pool.releaseRoot (p : Pool) : Pool := if p.root = NIL then p else p.setHeld p.root .unowned

/-- The body of SET_ROOT (R147): NIL releases the root. -/
def setRoot (na : Nat) : Proc Unit := do
  if na = NIL then modifyPool fun p => { p.releaseRoot with root := NIL, unique := 0 }
  else
    checkFree na
    modifyPool (·.releaseRoot.makeRoot na)

/-! ### DUMP_TREE -/

/-- The body of DUMP_TREE (R151); it yields the number of bytes of the dump. -/
def dumpTree : Proc Nat := do
  let n ← rootOperand
  requireOutAligned
  let cfg ← getConfig
  let r ← getRegs
  outBytes (r.pool.dump cfg n)
  flushOut
  return (r.pool.dump cfg n).length

/-! ### REBUILD_TREE -/

/-- A byte of the dump, or TREE_TRUNCATED when the input ends (R153). -/
def dumpByte : Proc Byte := do
  match ← inByte with
  | none => raise .treeTruncated
  | some b => return b

/-- push x on S (R153). -/
def Pool.pushStack (p : Pool) (x : Nat) : Pool := { p with stack := x :: p.stack }

/-- A leaf marker with its symbol: the leaf is pushed on S (R153). -/
def rebuildLeaf (sym : Byte) : Proc Unit := do
  let r ← getRegs
  require (r.pool.stack.length != stackCap) .treeOverflow
  let x ← alloc .leaf sym 0 NIL NIL .treeOverflow
  modifyPool (·.pushStack x)

/-- An internal marker: the first pop of S is the right child, the second the left one (R153). -/
def rebuildInternal : Proc Unit := do
  let r ← getRegs
  match r.pool.stack with
  | right :: left :: rest =>
    modifyPool fun p => { p with stack := rest }
    let x ← alloc .internal 0 0 left right .treeOverflow
    modifyPool (·.adopt left right)
    modifyPool (·.pushStack x)
  | _ => raise .treeUnderflow

/-- The loop of REBUILD_TREE over the `rem` bytes still to come (R153). -/
def rebuildLoop : (rem : Nat) → Proc Unit
  | 0 => return ()
  | 1 => do
    let cfg ← getConfig
    let m ← dumpByte
    if m = cfg.leafMarker then raise .treeLeafSplit
    else if m = cfg.internalMarker then rebuildInternal
    else raise .treeBadMarker
  | rem + 2 => do
    let cfg ← getConfig
    let m ← dumpByte
    if m = cfg.leafMarker then
      let sym ← dumpByte
      rebuildLeaf sym
      rebuildLoop rem
    else if m = cfg.internalMarker then
      rebuildInternal
      rebuildLoop (rem + 1)
    else raise .treeBadMarker

/-- The end of REBUILD_TREE: exactly one node is left on S, it is popped, and it is no leaf (R153). -/
def rebuiltRoot : Proc Nat := do
  let r ← getRegs
  match r.pool.stack with
  | [x] =>
    modifyPool fun p => { p with stack := [] }
    require ((r.pool.node x).kind != .leaf) .treeDegenerate
    modifyPool (·.makeRoot x)
    return x
  | _ => raise .treeDepth

/-- The body of REBUILD_TREE (R153); it yields the root. -/
def rebuildTree : Proc Nat := do
  requireInAligned
  modifyPool fun p => { p.cleared with stack := [] }
  let r ← getRegs
  rebuildLoop r.hdr.treeSize.toNat
  rebuiltRoot

/-! ### The meanings -/

/-- RESULT is ROOT (R145). -/
def execBuildTree (s : State) : Host.Outcome State Fault Refusal :=
  .next (s.perform .buildTree false do
    let x ← buildTree
    return theNode x)

/-- RESULT is NA (R147). -/
def execSetRoot (na : Nat) (s : State) : Host.Outcome State Fault Refusal :=
  .next (s.perform (.setRoot na) false do
    setRoot na
    return theNode na)

/-- RESULT is the length of the dump (R151). -/
def execDumpTree (s : State) : Host.Outcome State Fault Refusal :=
  .next (s.perform .dumpTree false do
    let n ← dumpTree
    return (true, BitVec.ofNat 64 n))

/-- RESULT is ROOT (R153). -/
def execRebuildTree (s : State) : Host.Outcome State Fault Refusal :=
  .next (s.perform .rebuildTree false do
    let x ← rebuildTree
    return theNode x)

end Sys2Proof.Machine
end

