-- ==== Sys2Proof/Machine/Drivers.lean ====
section
/-! DEFINITION. The payload and stream driver commands (47_drivers.md): ENCODE_PAYLOAD, DECODE_PAYLOAD, ENCODE, DECODE.
ENCODE and DECODE release the tree and the queue on every error too (R221). -/

namespace Sys2Proof.Machine

/-- The loop of `EncodePayload(e)` (R200): it yields how many bytes it encoded. Each pass reads a byte, so
inputPasses passes reach END. -/
def encodeLoop (e : ErrName) : (fuel : Nat) → (n : Nat) → Proc Nat
  | 0, _ => throw .waiting
  | fuel + 1, n => do
    match ← inByte with
    | none => return n
    | some b =>
      let r ← getRegs
      require (r.entry b).valid e
      outCode b
      encodeLoop e fuel (n + 1)

/-- `EncodePayload(e)` (R200): e is the error for a byte with no code. -/
def encodePayload (e : ErrName) : Proc Nat := do
  requireInAligned
  encodeLoop e inputPasses 0

/-- The node a bit leads to: left on 0, right on 1 (R201). -/
def Pool.child (p : Pool) (x : Nat) (b : Bool) : Nat := if b then (p.node x).right else (p.node x).left

/-- The loop of `DecodePayload` (R201): `todo` symbols are still to come, the walk stands at x. Each pass reads a bit,
so 8 * inputPasses passes reach END. -/
def decodeLoop : (fuel : Nat) → (todo : Nat) → (x : Nat) → Proc Unit
  | _, 0, _ => return ()
  | 0, _ + 1, _ => throw .waiting
  | fuel + 1, todo + 1, x => do
    match ← inBit with
    | none => raise .payloadTruncated
    | some b =>
      let r ← getRegs
      if (r.pool.node (r.pool.child x b)).kind = .leaf then
        outByte (r.pool.node (r.pool.child x b)).sym
        decodeLoop fuel todo r.pool.root
      else decodeLoop fuel (todo + 1) (r.pool.child x b)

/-- `DecodePayload()` (R201): NO_ROOT, DEGENERATE_TREE, MISALIGNED in this order (R224), then the walk and the flush. It
yields the number of symbols. -/
def decodePayload : Proc Nat := do
  let n ← rootOperand
  let r ← getRegs
  require (!((r.pool.node n).kind == .leaf && r.hdr.fileSize != 0)) .degenerateTree
  requireOutAligned
  decodeLoop (8 * inputPasses) r.hdr.fileSize.toNat n
  flushOut
  return r.hdr.fileSize.toNat

/-- What ENCODE and DECODE do when they start (R202, R203, D28): the output is aligned, or MISALIGNED; the counters are
zeroed; the source is rewound. -/
def startDriver : Proc Unit := do
  requireOutAligned
  modifyRegs fun r => { r with bytesRead := 0, bytesWritten := 0 }
  rewind

/-- HDR_FILE_SIZE <- SCAN_COUNT, HDR_TREE_SIZE <- 3 * UNIQUE - 1 (R202, D41). -/
def Regs.sizeHeader (r : Regs) : Regs :=
  { r with hdr := { r.hdr with fileSize := r.scanCount, treeSize := BitVec.ofNat 16 (3 * r.pool.unique - 1) } }

/-- The body of ENCODE (R202). -/
def encodeStream : Proc Answer := do
  startDriver
  histClear
  histScan
  histForce
  let _ ← buildTree
  buildCodes
  modifyRegs Regs.sizeHeader
  hdrWrite
  let _ ← dumpTree
  rewind
  let n ← encodePayload .inputChanged
  let r ← getRegs
  require (n == r.hdr.fileSize.toNat) .inputChanged
  flushOut
  modifyRegs Regs.nodeReset
  return (true, r.hdr.fileSize)

/-- The body of DECODE (R203). -/
def decodeStream : Proc Answer := do
  startDriver
  hdrRead
  let _ ← rebuildTree
  let n ← decodePayload
  modifyRegs Regs.nodeReset
  return (true, BitVec.ofNat 64 n)

/-- RESULT is the number of bytes encoded (R200). -/
def execEncodePayload (s : State) : Host.Outcome State Fault Refusal :=
  .next (s.perform .encodePayload false do
    let n ← encodePayload .noCode
    flushOut
    return (true, BitVec.ofNat 64 n))

/-- RESULT is HDR_FILE_SIZE (R201). -/
def execDecodePayload (s : State) : Host.Outcome State Fault Refusal :=
  .next (s.perform .decodePayload false do
    let n ← decodePayload
    return (true, BitVec.ofNat 64 n))

/-- RESULT is the input length (R202). -/
def execEncode (s : State) : Host.Outcome State Fault Refusal :=
  .next (s.perform .encode true encodeStream)

/-- RESULT is HDR_FILE_SIZE (R203). -/
def execDecode (s : State) : Host.Outcome State Fault Refusal :=
  .next (s.perform .decode true decodeStream)

end Sys2Proof.Machine
end

