-- ==== Sys2Proof/Machine/Dispatch.lean ====
section
/-! DEFINITION. Each command with its meaning: one arm for each constructor of Instr. -/

namespace Sys2Proof.Machine

def exec (i : Instr) (s : State) : Host.Outcome State Fault Refusal :=
  match i with
  | .nop => Sys2Proof.Machine.execNop s
  | .softReset => Sys2Proof.Machine.execSoftReset s
  | .clearErr => Sys2Proof.Machine.execClearErr s
  | .histClear => Sys2Proof.Machine.execHistClear s
  | .histAdd sym => Sys2Proof.Machine.execHistAdd sym s
  | .histScan => Sys2Proof.Machine.execHistScan s
  | .histForce => Sys2Proof.Machine.execHistForce s
  | .nodeReset => Sys2Proof.Machine.execNodeReset s
  | .nodeLeaf sym => Sys2Proof.Machine.execNodeLeaf sym s
  | .nodeJoin na nb => Sys2Proof.Machine.execNodeJoin na nb s
  | .pqCreate cap => Sys2Proof.Machine.execPqCreate cap s
  | .pqEnqueue na => Sys2Proof.Machine.execPqEnqueue na s
  | .pqDequeue => Sys2Proof.Machine.execPqDequeue s
  | .buildTree => Sys2Proof.Machine.execBuildTree s
  | .setRoot na => Sys2Proof.Machine.execSetRoot na s
  | .dumpTree => Sys2Proof.Machine.execDumpTree s
  | .rebuildTree => Sys2Proof.Machine.execRebuildTree s
  | .codeClear => Sys2Proof.Machine.execCodeClear s
  | .codePush bit => Sys2Proof.Machine.execCodePush bit s
  | .codePop => Sys2Proof.Machine.execCodePop s
  | .buildCodes => Sys2Proof.Machine.execBuildCodes s
  | .hdrWrite => Sys2Proof.Machine.execHdrWrite s
  | .hdrRead => Sys2Proof.Machine.execHdrRead s
  | .bitWrite bit => Sys2Proof.Machine.execBitWrite bit s
  | .codeWrite sym => Sys2Proof.Machine.execCodeWrite sym s
  | .byteWrite sym => Sys2Proof.Machine.execByteWrite sym s
  | .flush => Sys2Proof.Machine.execFlush s
  | .bitRead => Sys2Proof.Machine.execBitRead s
  | .byteRead => Sys2Proof.Machine.execByteRead s
  | .srcRewind => Sys2Proof.Machine.execSrcRewind s
  | .encodePayload => Sys2Proof.Machine.execEncodePayload s
  | .decodePayload => Sys2Proof.Machine.execDecodePayload s
  | .encode => Sys2Proof.Machine.execEncode s
  | .decode => Sys2Proof.Machine.execDecode s

end Sys2Proof.Machine
end

