-- ==== Sys2Proof/Machine/Window.lean ====
section
/-! DEFINITION. The register window (R23, R60 to R64): what a 64-bit read of each address returns while the engine is not
busy, and what a 64-bit write of each address stores. Addresses here are multiples of 8 (R62). -/

namespace Sys2Proof.Machine

/-- KIND as the window shows it (R45). -/
def Kind.bits : Kind → BitVec 2
  | .free => 0
  | .leaf => 1
  | .internal => 2

/-- HELD as the window shows it (R45). -/
def Held.bits : Held → BitVec 2
  | .unowned => 0
  | .pq => 1
  | .parent => 2
  | .root => 3

/-- Word +0x00 of a node (R45), bit 63 first. -/
def Node.word (n : Node) : Word :=
  (0 : BitVec 23) ++ BitVec.ofNat 9 n.right ++ (0 : BitVec 7) ++ BitVec.ofNat 9 n.left ++ n.sym ++ (0 : BitVec 4) ++
    n.held.bits ++ n.kind.bits

/-- Word +0x00 of a code-table entry (R44): valid in bit 63, len in bits [8:0]. -/
def CodeEntry.word (e : CodeEntry) : Word := BitVec.ofBool e.valid ++ (0 : BitVec 54) ++ BitVec.ofNat 9 e.len

/-- 64 bits of a 256-bit code: bit k of word w is bit 64*w + k (R42, R44). -/
def codeWord (bits : BitVec 256) (w : Nat) : Word := bits.extractLsb' (64 * w) 64

/-- PQ_STATUS (R31). -/
def Pool.pqStatus (p : Pool) : Word :=
  (0 : BitVec 30) ++ BitVec.ofBool (p.size == p.cap) ++ BitVec.ofBool (p.size == 0) ++ (0 : BitVec 7) ++
    BitVec.ofNat 9 p.cap ++ (0 : BitVec 7) ++ BitVec.ofNat 9 p.size

/-- IN_STATUS (R39). -/
def InSide.word (i : InSide) : Word :=
  BitVec.ofBool i.eof ++ (0 : BitVec 7) ++ BitVec.ofNat 24 i.buf.length ++ BitVec.ofNat 32 i.bitPos

/-- CONFIG (R41). -/
def Config.word (c : Config) : Word :=
  c.magic ++ c.internalMarker ++ c.leafMarker ++ (0 : BitVec 8) ++ BitVec.ofNat 24 c.block

/-- A word of code-table entry e, by its offset in the 64 bytes of the entry (R44). -/
def CodeEntry.read (e : CodeEntry) (offset : Nat) : Word :=
  if offset = 0 then e.word else if offset ≤ 32 then codeWord e.bits (offset / 8 - 1) else 0

/-- A word of node n, by its offset in the 32 bytes of the entry (R45). -/
def Node.read (n : Node) (offset : Nat) : Word :=
  if offset = 0 then n.word else if offset = 8 then n.freq else 0

/-- The four windows onto the internal memories (R23); every other address above 0x00BF is reserved and reads 0. -/
def Regs.readMemory (r : Regs) (a : Nat) : Word :=
  if 0x0800 ≤ a ∧ a < 0x1000 then r.hist.getD ((a - 0x0800) / 8) 0
  else if 0x1000 ≤ a ∧ a < 0x5000 then (r.table.getD ((a - 0x1000) / 64) CodeEntry.invalid).read (a % 64)
  else if 0x5000 ≤ a ∧ a < 0x5800 then BitVec.ofNat 64 (heapAt r.pool.heap ((a - 0x5000) / 8) % 512)
  else if 0x8000 ≤ a ∧ a < 0xBFE0 then (r.pool.node ((a - 0x8000) / 32)).read (a % 32)
  else 0

/-- The value of each register of the window (R23), STATUS apart: CMD reads 0 (R24), reserved offsets read 0 (R63). -/
def Regs.readWindow (c : Config) (r : Regs) (a : Nat) : Word :=
  match a with
  | 0x0000 => 0
  | 0x0010 => r.arg
  | 0x0018 => r.result
  | 0x0020 => BitVec.ofNat 64 (r.pool.root % 512)
  | 0x0028 => BitVec.ofNat 64 (r.pool.count % 1024)
  | 0x0030 => BitVec.ofNat 64 (r.pool.unique % 512)
  | 0x0038 => r.pool.pqStatus
  | 0x0040 => r.hdr.magic.setWidth 64
  | 0x0048 => r.hdr.perm.setWidth 64
  | 0x0050 => r.hdr.treeSize.setWidth 64
  | 0x0058 => r.hdr.fileSize
  | 0x0060 => r.scanCount
  | 0x0068 => r.bytesRead
  | 0x0070 => r.bytesWritten
  | 0x0078 => BitVec.ofNat 64 (r.out.bitPos % 2 ^ 32)
  | 0x0080 => r.inp.word
  | 0x0088 => BitVec.ofNat 64 (r.code.len % 512)
  | 0x0090 => Config.word c
  | 0x00A0 => codeWord r.code.bits 0
  | 0x00A8 => codeWord r.code.bits 1
  | 0x00B0 => codeWord r.code.bits 2
  | 0x00B8 => codeWord r.code.bits 3
  | a => r.readMemory a

/-- A host write to each read/write register and to HIST (R23, R26, R33 to R35, R43); a write to a read-only or reserved
address is ignored (R63). A write to CMD is `State.issue`. -/
def Regs.writeWindow (r : Regs) (a : Nat) (v : Word) : Regs :=
  match a with
  | 0x0010 => { r with arg := v }
  | 0x0048 => { r with hdr := { r.hdr with perm := v.setWidth 16 } }
  | 0x0050 => { r with hdr := { r.hdr with treeSize := v.setWidth 16 } }
  | 0x0058 => { r with hdr := { r.hdr with fileSize := v } }
  | a =>
    if 0x0800 ≤ a ∧ a < 0x1000 then { r with hist := r.hist.setIfInBounds ((a - 0x0800) / 8) v } else r

/-- STATUS.BUSY (R25): a command has been issued and has not ended. -/
def State.busy (s : State) : Bool := s.running.isSome

/-- The register at an address, with the engine not busy (R63, R65). -/
def State.readRegister (s : State) (a : Nat) : Word :=
  if a = 0x0008 then s.status.word s.busy else s.regs.readWindow s.config a

end Sys2Proof.Machine
end

