-- ==== Sys2Proof/Machine/Issue.lean ====
section
/-! DEFINITION. The host's side of a step: issuing a command through CMD (R90), register accesses (R61 to R66), answers to
port requests (R75), the source stream (R52) and hardware reset (R250). -/

namespace Sys2Proof.Machine

/-- The command runs while ERR = 1: NOP, SOFT_RESET, CLEAR_ERR (R90, R219). -/
def runsUnderError (op : Nat) : Bool := Nat.ble op 2

/-- The opcode is that of ENCODE or DECODE, which release the tree and the queue on every error (R221). -/
def releasesOnError (op : Nat) : Bool := op == 0x72 || op == 0x73

/-- The error of a word that is no command (R93, R96). -/
def errorOfReject : DecodeError → ErrName
  | .badOpcode => .badOpcode
  | .reservedBits => .reservedBits

/-- An accepted command word (R90): LAST_OP is set, the word is decoded, and the command runs, or ends at once by
BAD_OPCODE or RESERVED_BITS with the abort of every error. -/
def State.accept (v : Word) (s : State) : Host.Outcome State Fault Refusal :=
  let s := { s with status := s.status.accept (BitVec.ofNat 8 (opField v)) }
  match decodeWord v with
  | .command i => exec i s
  | .rejected e => .next (s.abort (releasesOnError (opField v)) (errorOfReject e) s.ctx)

/-- A write to CMD while the engine is not busy (R90): rejected while ERR = 1 (R219), else accepted. -/
def State.issue (v : Word) (s : State) : Host.Outcome State Fault Refusal :=
  if s.status.err && !runsUnderError (opField v) then .next { s with status := s.status.rejected } else s.accept v

/-- A host access that reaches a register: inside the window (R61), 8 bytes at a multiple of 8 (R62). -/
def admitted (addr width : Nat) (next : Host.Outcome State Fault Refusal) : Host.Outcome State Fault Refusal :=
  if 0xFFFF < addr then .fault (.addressOutsideWindow addr)
  else if width != 8 || addr % 8 != 0 then .refused (.accessNotAdmitted addr width)
  else next

/-- MemRead (R65, R70): no register changes. While BUSY = 1, STATUS reads true and any other address draws a free
value. -/
def State.hostRead (addr : Nat) (s : State) : State :=
  if s.busy && addr != 0x0008 then { s with lastRead := Config.freeRead s.draws, draws := s.draws + 1 }
  else { s with lastRead := s.readRegister addr }

/-- MemWrite (R66, R70, R90): dropped while BUSY = 1; a write to CMD issues a command; any other write stores at once. -/
def State.hostWrite (addr : Nat) (v : Word) (s : State) : Host.Outcome State Fault Refusal :=
  if s.busy then .next { s with status := s.status.dropped }
  else if addr = 0x0000 then s.issue v
  else .next { s with regs := s.regs.writeWindow addr v }

/-- The host answers the outstanding port request (R75): the command goes on with that reply. An answer to no request
is ignored (R250, U21). -/
def State.answerPort (reply : PortReply) (s : State) : Host.Outcome State Fault Refusal :=
  match s.running with
  | none => .next s
  | some w => exec w.cmd { s with port := { s.port with plan := reply :: s.port.plan } }

/-- The host's source stream is set, its position 0 (R52, R99); a stream is shorter than 2^64 bytes (R235). -/
def State.setSource (bytes : List Byte) (s : State) : Host.Outcome State Fault Refusal :=
  if bytes.length < 2 ^ 64 then .next { s with port := { s.port with src := bytes, srcPos := 0 } }
  else .refused (.sourceTooLong bytes.length)

/-- Hardware reset (R250): every state element of the engine takes its reset value, a running command is abandoned, and
no port transaction is made. -/
def State.hardReset (s : State) : State :=
  { s with status := Status.reset, regs := Regs.reset, running := none }

/-- One action of the host (R235). -/
def State.hostAction (action : HostAction) (s : State) : Host.Outcome State Fault Refusal :=
  match action with
  | .read addr width => admitted addr width (.next (s.hostRead addr))
  | .write addr width v => admitted addr width (s.hostWrite addr v)
  | .answer reply => s.answerPort reply
  | .source bytes => s.setSource bytes
  | .hardReset => .next s.hardReset

/-- The state in which the host's next action is to issue a command word: the action stands first in the script, and
the engine is idle with ERR = 0, as the acceptance of a command needs (R90). -/
def State.aboutToIssue (v : Word) (s : State) : State :=
  { s with
    script := .write 0x0000 8 v :: s.script, running := none, status := { s.status with err := false } }

end Sys2Proof.Machine
end

