-- ==== Sys2Proof/Machine/Step.lean ====
section
/-! DEFINITION. One step of the machine: the host's next action, with the whole command it issues or lets go on (R78,
R262). Without an action nothing changes: an idle engine keeps its state (R234), and a waiting one hangs (R75). -/

namespace Sys2Proof.Machine

def step (s : State) : Host.Outcome State Fault Refusal :=
  match s.script with
  | [] => .next s
  | action :: rest => State.hostAction action { s with script := rest }

/-- HUFF-CORE fetches nothing (R22, R83): a command comes to run when the host writes its word to CMD. The row's word
becomes the host's next action. -/
def State.withFetchWord (s : State) (nbits w : Nat) : State := s.aboutToIssue (tableWord nbits w)

end Sys2Proof.Machine
end

