-- ==== Sys2Proof/Safety.lean ====
section
/-! DEFINITION. The terms in which claims about HUFF-CORE are made: what the two streams hold, what tree a pool holds,
and the invariants of a safe run (R38, R39, R44 to R48, R135, R216). -/

namespace Sys2Proof.Machine

/-! ### Streams as bits and bytes (R68) -/

/-- The eight bits of a byte, least significant first (R68). -/
def byteBits (b : Byte) : List Bool := (List.range 8).map b.getLsbD

/-- The bits of a byte stream in stream order (R68). -/
def bitsOf (bytes : List Byte) : List Bool := bytes.flatMap byteBits

/-- The number whose bits, least significant first, are the list. -/
def ofBits : List Bool → Nat
  | [] => 0
  | b :: bs => b.toNat + 2 * ofBits bs

/-- The bytes that hold a bit sequence: LSB first, the last byte zero-padded (R68, R189(b)). -/
def packBits (bits : List Bool) : List Byte :=
  (List.range ((bits.length + 7) / 8)).map fun i => BitVec.ofNat 8 (ofBits ((bits.drop (8 * i)).take 8))

/-- The write buffer with exactly these bits pending (R49): OUT_BITPOS counts them, the bytes hold them, the rest of the
last byte is zero. -/
def OutSide.of (bits : List Bool) : OutSide := { buf := packBits bits, bitPos := bits.length }

/-- How many of n bits go out in full blocks at once (R181). -/
def blockBits (block n : Nat) : Nat := 8 * block * (n / (8 * block))

/-- The bytes that leave for the sink when these bits have been put out: the full blocks (R79, R181). -/
def fullBlocks (block : Nat) (bits : List Bool) : List Byte := packBits (bits.take (blockBits block bits.length))

/-- The bits that stay pending (R79, R181). -/
def leftOver (block : Nat) (bits : List Bool) : List Bool := bits.drop (blockBits block bits.length)

/-- What the source has yet to deliver: nothing after the end of the stream (R190). -/
def undelivered (i : InSide) (p : Ports) : List Byte := if i.eof then [] else p.src.drop p.srcPos

/-- The bytes the engine can still read, with the input byte-aligned (R192). -/
def unreadBytes (i : InSide) (p : Ports) : List Byte := i.buf.drop (i.bitPos / 8) ++ undelivered i p

/-- The bits the engine can still read (R191). -/
def unreadBits (i : InSide) (p : Ports) : List Bool := (bitsOf i.buf).drop i.bitPos ++ bitsOf (undelivered i p)

/-- The host answers every port request at once with OK, in full (R72 to R75). -/
def Ports.Granting (p : Ports) : Prop := p.plan = [] ∧ p.later = .ok ∧ p.srcPos ≤ p.src.length

/-- The read buffer as every run keeps it (R39, R50, R190). -/
structure InSide.Wf (block : Nat) (i : InSide) : Prop where
  position : i.bitPos ≤ 8 * i.buf.length
  length : i.buf.length ≤ block
  short : i.buf.length < block → i.buf = [] ∨ i.eof = true

/-- The write buffer as every run keeps it between commands (R38, R49, R181). -/
def OutSide.Wf (block : Nat) (o : OutSide) : Prop := ∃ bits, o = OutSide.of bits ∧ bits.length < 8 * block

/-! ### Trees (R148, R149, R163) -/

/-- A binary prefix-code tree. -/
inductive CodeTree where
  | leaf (sym : Byte)
  | node (left right : CodeTree)
  deriving DecidableEq, Repr

/-- The symbols of the leaves, left to right. -/
def CodeTree.symbols : CodeTree → List Byte
  | .leaf s => [s]
  | .node l r => l.symbols ++ r.symbols

/-- The number of leaves (R148). -/
def CodeTree.leaves : CodeTree → Nat
  | .leaf _ => 1
  | .node l r => l.leaves + r.leaves

/-- The canonical dump (R149). -/
def CodeTree.dump (c : Config) : CodeTree → List Byte
  | .leaf s => [c.leafMarker, s]
  | .node l r => l.dump c ++ r.dump c ++ [c.internalMarker]

/-- Each leaf's symbol with its root-to-leaf path, 0 for left and 1 for right, left to right (R163, R166). -/
def CodeTree.codes : CodeTree → List (Byte × List Bool)
  | .leaf s => [(s, [])]
  | .node l r => (l.codes.map fun e => (e.1, false :: e.2)) ++ (r.codes.map fun e => (e.1, true :: e.2))

/-- The code of a symbol: the path of its last leaf in Walk's order (R164); none when no leaf has it. -/
def CodeTree.codeOf (t : CodeTree) (s : Byte) : Option (List Bool) := (t.codes.reverse.find? fun e => e.1 == s).map (·.2)

/-- The entry of the code table with these bits (R44, R163). -/
def CodeEntry.of (code : List Bool) : CodeEntry :=
  { valid := true, len := code.length, bits := BitVec.ofNat 256 (ofBits code) }

/-- The pool slots a tree fills from `base` on, in dump order, its own node last and held as `h` (R153, R154): every
frequency is 0. -/
def CodeTree.slots (h : Held) (base : Nat) : CodeTree → List Node
  | .leaf s => [{ kind := .leaf, held := h, sym := s, freq := 0, left := NIL, right := NIL }]
  | .node l r =>
    l.slots .parent base ++ r.slots .parent (base + (2 * l.leaves - 1)) ++
      [{ kind := .internal, held := h, sym := 0, freq := 0, left := base + (2 * l.leaves - 1) - 1,
         right := base + (2 * l.leaves - 1) + (2 * r.leaves - 1) - 1 }]

/-- The pool holds this tree at node n; children lie below their parent (R45, R46(b)). -/
def Pool.Holds (p : Pool) : CodeTree → Nat → Prop
  | .leaf s, n => n < p.count ∧ (p.node n).kind = .leaf ∧ (p.node n).sym = s
  | .node l r, n =>
    n < p.count ∧ (p.node n).kind = .internal ∧ (p.node n).left < n ∧ (p.node n).right < n ∧
      p.Holds l (p.node n).left ∧ p.Holds r (p.node n).right

/-! ### The rebuild stack (R51, R153) -/

/-- How many nodes the rebuild stack holds at most while the dump of the tree is read (R51). -/
def CodeTree.depth : CodeTree → Nat
  | .leaf _ => 1
  | .node l r => max l.depth (1 + r.depth)

/-- The dumps of trees that stand on the rebuild stack, the oldest first. -/
def forestDump (c : Config) (ts : List CodeTree) : List Byte := ts.flatMap (·.dump c)

/-- How many nodes the trees have. -/
def forestNodes (ts : List CodeTree) : Nat := (ts.map fun t => 2 * t.leaves - 1).sum

/-- The pool slots the trees fill from `base` on. -/
def forestSlots (base : Nat) : List CodeTree → List Node
  | [] => []
  | t :: ts => t.slots .unowned base ++ forestSlots (base + (2 * t.leaves - 1)) ts

/-- The trees fit into the node pool and, one after the other, onto the rebuild stack (R45, R51). -/
def ForestFits (ts : List CodeTree) : Prop :=
  forestNodes ts ≤ 511 ∧ ∀ i t, ts[i]? = some t → i + t.depth ≤ 256

/-- How REBUILD_TREE, told to read `size` bytes and given the bytes u, goes wrong after the trees ts are on the stack: by
which error, and which bytes it leaves unread (R153). -/
inductive DumpError (c : Config) (size : Nat) (u : List Byte) (ts : List CodeTree) : ErrName → List Byte → Prop where
  /-- The input ends where a marker is due. -/
  | truncated : (forestDump c ts).length < size → u = forestDump c ts → DumpError c size u ts .treeTruncated []
  /-- A byte that is no marker stands where a marker is due. -/
  | badMarker (m : Byte) (rest : List Byte) : (forestDump c ts).length < size → u = forestDump c ts ++ m :: rest →
      m ≠ c.leafMarker → m ≠ c.internalMarker → DumpError c size u ts .treeBadMarker rest
  /-- The last byte is a leaf marker. -/
  | leafSplit (rest : List Byte) : (forestDump c ts).length + 1 = size → u = forestDump c ts ++ c.leafMarker :: rest →
      DumpError c size u ts .treeLeafSplit rest
  /-- The input ends behind a leaf marker. -/
  | truncatedLeaf : (forestDump c ts).length + 1 < size → u = forestDump c ts ++ [c.leafMarker] →
      DumpError c size u ts .treeTruncated []
  /-- A leaf finds the stack or the node pool full. -/
  | leafOverflow (s : Byte) (rest : List Byte) : (forestDump c ts).length + 1 < size →
      u = forestDump c ts ++ c.leafMarker :: s :: rest → ts.length = 256 ∨ forestNodes ts = 511 →
      DumpError c size u ts .treeOverflow rest
  /-- An internal marker finds fewer than two nodes on the stack. -/
  | underflow (rest : List Byte) : (forestDump c ts).length < size → u = forestDump c ts ++ c.internalMarker :: rest →
      ts.length < 2 → DumpError c size u ts .treeUnderflow rest
  /-- An internal node finds the node pool full. -/
  | internalOverflow (rest : List Byte) : (forestDump c ts).length < size →
      u = forestDump c ts ++ c.internalMarker :: rest → 2 ≤ ts.length → forestNodes ts = 511 →
      DumpError c size u ts .treeOverflow rest
  /-- At the end, not exactly one node is on the stack. -/
  | depth (rest : List Byte) : (forestDump c ts).length = size → u = forestDump c ts ++ rest → ts.length ≠ 1 →
      DumpError c size u ts .treeDepth rest
  /-- At the end, the one node on the stack is a leaf. -/
  | degenerate (s : Byte) (rest : List Byte) : ts = [.leaf s] → size = 2 → u = forestDump c ts ++ rest →
      DumpError c size u ts .treeDegenerate rest

/-! ### The histogram -/

/-- The symbols with a count, in ascending order (R145). -/
def Regs.present (r : Regs) : List Byte := symbols.filter fun s => r.histAt s != 0

/-- The sum of HIST[0..255] (R146(d)). -/
def Regs.total (r : Regs) : Nat := (symbols.map fun s => (r.histAt s).toNat).sum

/-! ### What a command leaves -/

/-- The state after a command that ended successfully and changed nothing more (R27, R90): RESULT and STATUS.OK are
written. -/
def State.done (s : State) (ok : Bool) (result : Word) : State :=
  { s with regs := { s.regs with result := result }, status := { s.status with ok := ok } }

/-- The state after a command that raised e and changed nothing more (R218, R220): the first error is kept, ERR is set,
OK and RESULT are 0, pending output is discarded; the rebuild stack has no value between commands (R51). -/
def State.failed (s : State) (e : ErrName) : State :=
  { s with
    status := { s.status with
      err := true, ok := false
      errCode := if s.status.err then s.status.errCode else e.code
      errKind := if s.status.err then s.status.errKind else e.code.extractLsb' 4 4 }
    regs := { s.regs with
      out := { buf := [], bitPos := 0 }, result := 0, pool := { s.regs.pool with stack := [] } } }

/-- The state with the tree and the queue released (R126): every slot FREE, no root, the queue empty, CAP unchanged. -/
def State.released (s : State) : State :=
  { s with
    regs := { s.regs with
      pool := { s.regs.pool with
        nodes := Vector.replicate 511 Node.free, count := 0, root := NIL, unique := 0
        heap := Vector.replicate 256 NIL, size := 0 } } }

/-- The registers after these bits, the pending ones first, have been put out without a flush (R79, R181): the full
blocks have left, the rest is pending. -/
def Regs.emitted (r : Regs) (block : Nat) (bits : List Bool) : Regs :=
  { r with
    out := OutSide.of (leftOver block bits)
    bytesWritten := r.bytesWritten + BitVec.ofNat 64 (fullBlocks block bits).length }

/-- The sink has got the full blocks. -/
def Ports.emitted (p : Ports) (block : Nat) (bits : List Bool) : Ports := { p with snk := p.snk ++ fullBlocks block bits }

/-- The registers after these bits, the pending ones first, have been put out and flushed (R182, R189(b)). -/
def Regs.flushed (r : Regs) (bits : List Bool) : Regs :=
  { r with
    out := { buf := [], bitPos := 0 }
    bytesWritten := r.bytesWritten + BitVec.ofNat 64 (packBits bits).length }

/-- The sink has got all bytes, the last one zero-padded. -/
def Ports.flushed (p : Ports) (bits : List Bool) : Ports := { p with snk := p.snk ++ packBits bits }

/-- The state after these bits, the pending ones first, have been put out without a flush. -/
def State.emitted (s : State) (bits : List Bool) : State :=
  { s with regs := s.regs.emitted s.config.block bits, port := s.port.emitted s.config.block bits }

/-- The state after these bits, the pending ones first, have been put out and flushed. -/
def State.flushed (s : State) (bits : List Bool) : State :=
  { s with regs := s.regs.flushed bits, port := s.port.flushed bits }

/-- The block a granted SrcRead delivers (R72). -/
def Ports.nextBlock (p : Ports) (block : Nat) : List Byte := (p.src.drop p.srcPos).take block

/-- The state after a granted SrcRead into INBUF (R72, R190). -/
def State.fetched (s : State) : State :=
  { s with
    regs := { s.regs with
      inp := { buf := s.port.nextBlock s.config.block, bitPos := 0
               eof := s.regs.inp.eof || (s.port.nextBlock s.config.block).length < s.config.block }
      bytesRead := s.regs.bytesRead + BitVec.ofNat 64 (s.port.nextBlock s.config.block).length }
    port := { s.port with srcPos := s.port.srcPos + (s.port.nextBlock s.config.block).length } }

/-- The state with n more bits of INBUF consumed (R191, R192). -/
def State.consumed (s : State) (n : Nat) : State :=
  { s with regs := { s.regs with inp := { s.regs.inp with bitPos := s.regs.inp.bitPos + n } } }

/-- The registers with another read side, n more bytes counted (R36, R72). -/
def Regs.withInput (r : Regs) (i : InSide) (n : Nat) : Regs :=
  { r with inp := i, bytesRead := r.bytesRead + BitVec.ofNat 64 n }

/-- The state with another read side: INBUF, the host's position, and BYTES_READ advanced by the bytes delivered (R36,
R72). -/
def State.withInput (s : State) (i : InSide) (srcPos : Nat) : State :=
  { s with regs := s.regs.withInput i (srcPos - s.port.srcPos), port := { s.port with srcPos := srcPos } }

/-- Every register and internal memory at its reset value, as the table of R54 lists them. -/
structure Regs.AtReset (r : Regs) : Prop where
  arg : r.arg = 0
  result : r.result = 0
  root : r.pool.root = 0x1FF
  count : r.pool.count = 0
  unique : r.pool.unique = 0
  nodes : ∀ i, r.pool.node i = Node.free
  heap : ∀ j, j < 256 → heapAt r.pool.heap j = 0x1FF
  size : r.pool.size = 0
  cap : r.pool.cap = 256
  header : r.hdr.magic = 0 ∧ r.hdr.perm = 0 ∧ r.hdr.treeSize = 0 ∧ r.hdr.fileSize = 0
  counters : r.scanCount = 0 ∧ r.bytesRead = 0 ∧ r.bytesWritten = 0
  hist : ∀ s, r.histAt s = 0
  table : ∀ s, r.entry s = { valid := false, len := 0, bits := 0 }
  code : r.code.len = 0 ∧ r.code.bits = 0
  out : r.out.bitPos = 0
  inp : r.inp.buf.length = 0 ∧ r.inp.bitPos = 0 ∧ r.inp.eof = false
  stack : r.pool.stack = []

/-! ### Invariants -/

/-- Counts and positions stay in the ranges of their registers (R29, R31, R40, R44, R48), and no bit of a code lies at
or above its length. -/
structure Regs.Bounded (c : Config) (r : Regs) : Prop where
  count : r.pool.count ≤ 511
  size : r.pool.size ≤ r.pool.cap
  cap : r.pool.cap ≤ 256
  codeLen : r.code.len ≤ 256
  codeBits : ∀ k, r.code.len ≤ k → r.code.bits.getLsbD k = false
  entryLen : ∀ s, (r.entry s).len ≤ 256
  entryBits : ∀ s k, (r.entry s).len ≤ k → (r.entry s).bits.getLsbD k = false
  entryInvalid : ∀ s, (r.entry s).valid = false → r.entry s = CodeEntry.invalid
  out : r.out.Wf c.block
  inp : r.inp.Wf c.block

/-- STATUS as R216 and R218 keep it: ERR_KIND is the high nibble of ERR_CODE, and no code without ERR. -/
structure Status.Wf (s : Status) : Prop where
  kind : s.errKind = kindOfCode s.errCode
  noError : s.err = false → s.errCode = 0

/-- The node pool (R29, R45, R46): (a) exactly the slots below NODE_COUNT are allocated, the others FREE; (b) the
children of an internal node are allocated, differ, lie below it and are held by a parent; (c) a node held by a parent
is the child of exactly one internal node; (e) exactly the node at ROOT is held as root; (f) an internal node's
frequency is the exact sum of its children's; UNIQUE counts the leaves at ROOT (R30). -/
structure Pool.Wf (p : Pool) : Prop where
  bound : p.count ≤ 511
  allocated : ∀ i, i < p.count → (p.node i).kind ≠ .free
  free : ∀ i, p.count ≤ i → p.node i = Node.free
  leafLinks : ∀ i, (p.node i).kind = .leaf → (p.node i).left = NIL ∧ (p.node i).right = NIL
  below : ∀ i, (p.node i).kind = .internal → (p.node i).left < i ∧ (p.node i).right < i
  differ : ∀ i, (p.node i).kind = .internal → (p.node i).left ≠ (p.node i).right
  internalSym : ∀ i, (p.node i).kind = .internal → (p.node i).sym = 0
  childHeld : ∀ i, (p.node i).kind = .internal →
    (p.node (p.node i).left).held = .parent ∧ (p.node (p.node i).right).held = .parent
  oneParent : ∀ i j k, (p.node i).kind = .internal → (p.node j).kind = .internal →
    ((p.node i).left = k ∨ (p.node i).right = k) → ((p.node j).left = k ∨ (p.node j).right = k) → i = j
  hasParent : ∀ k, (p.node k).held = .parent →
    ∃ i, (p.node i).kind = .internal ∧ ((p.node i).left = k ∨ (p.node i).right = k)
  freqSum : ∀ i, (p.node i).kind = .internal →
    (p.node i).freq.toNat = (p.node (p.node i).left).freq.toNat + (p.node (p.node i).right).freq.toNat
  rootHeld : ∀ i, (p.node i).held = .root ↔ i = p.root ∧ p.root ≠ NIL
  unique : p.unique = if p.root = NIL then 0 else p.leaves p.root

/-- The queue (R46(d), R47, R135): SIZE entries, each a different allocated node, exactly those held by the queue; every
other entry NIL; no key above its children's. -/
structure Pool.QueueWf (p : Pool) : Prop where
  size : p.size ≤ 256
  entries : ∀ j, j < p.size → heapAt p.heap j < p.count ∧ (p.node (heapAt p.heap j)).held = .pq
  distinct : ∀ j k, j < p.size → k < p.size → heapAt p.heap j = heapAt p.heap k → j = k
  held : ∀ i, (p.node i).held = .pq → ∃ j, j < p.size ∧ heapAt p.heap j = i
  vacant : ∀ j, p.size ≤ j → heapAt p.heap j = NIL
  order : ∀ i, 0 < i → i < p.size →
    (p.node (heapAt p.heap ((i - 1) / 2))).freq.toNat ≤ (p.node (heapAt p.heap i)).freq.toNat

/-- A property of the parameters and registers holds in a state: of the registers while no command runs, and of those at
the command's issue while one waits (the registers of a command half done are no result, R82). -/
def State.Keeps (s : State) (P : Config → Regs → Prop) : Prop := P s.config s.startRegs

/-- The invariant of every run. No answer a waiting command has had is longer than a SrcRead asks for (R72). -/
structure State.Inv (s : State) : Prop where
  answers : ∀ w, s.running = some w → ∀ bytes ∈ w.answered, bytes.length ≤ s.config.block
  bounded : s.Keeps Regs.Bounded
  status : s.status.Wf
  pool : s.Keeps fun _ r => r.pool.Wf
  queue : s.Keeps fun _ r => r.pool.QueueWf

end Sys2Proof.Machine
end

