-- ==== Sys2Proof/Certificates/Slice0/Obligations.lean ====
section
/-! DEFINITION. The statements for the provers, in the order of the spec: encoding, the host's accesses, reset and waiting,
each command's completion with its whole effect, the errors, and what every step keeps. -/

open Sys2Proof Sys2Proof.Machine

/-! ### Encoding (30_encoding.md) -/

/-- R91, R92, R95: the word of every well-formed command decodes to that command, with every operand value. -/
def Obligations.DecodeInvertsEncode : Prop :=
  ∀ i : Instr, i.wellFormed = true → decodeWord (cmdValue (encodeWord i)) = .command i

/-- R91, R93, R97: a value that decodes to a command is exactly that command's word, with every other bit zero. -/
def Obligations.EncodeInvertsDecode : Prop :=
  ∀ (v : Word) (i : Instr), decodeWord v = .command i → i.wellFormed = true ∧ v = cmdValue (encodeWord i)

/-- R100: the nine example words. -/
def Obligations.ExampleWordsDecode : Prop :=
  decodeWord 0x00000000 = .command .nop ∧
  decodeWord 0x00004111 = .command (.histAdd 0x41) ∧
  decodeWord 0x00000141 = .command (.codePush true) ∧
  decodeWord 0x00010023 = .command (.pqCreate 256) ∧
  decodeWord 0x0001FE24 = .command (.pqEnqueue 510) ∧
  decodeWord 0x00020022 = .command (.nodeJoin 0 1) ∧
  decodeWord 0x03FBFE22 = .command (.nodeJoin 510 509) ∧
  decodeWord 0x0001FF31 = .command (.setRoot NIL) ∧
  decodeWord 0x00000072 = .command .encode

/-- R96: a write of a word with a reserved opcode ends by BAD_OPCODE, or is rejected while ERR = 1, whatever its other
bits hold. -/
def Obligations.ReservedOpcodesAreIllegal : Prop :=
  ∀ (s : State) (rest : List HostAction) (v : Word),
    s.running = none → s.script = .write 0x0000 8 v :: rest →
    (let op := v.toNat % 256
     (0x03 ≤ op ∧ op ≤ 0x0F) ∨ (0x14 ≤ op ∧ op ≤ 0x1F) ∨ (0x26 ≤ op ∧ op ≤ 0x2F) ∨ (0x34 ≤ op ∧ op ≤ 0x3F) ∨
     (0x44 ≤ op ∧ op ≤ 0x4F) ∨ (0x52 ≤ op ∧ op ≤ 0x5F) ∨ (0x67 ≤ op ∧ op ≤ 0x6F) ∨ 0x74 ≤ op) →
    (s.status.err = false →
      step s = .next
        ({ s with script := rest, status := { s.status with lastOp := v.setWidth 8 } }.failed .badOpcode)) ∧
    (s.status.err = true →
      step s = .next { s with script := rest, status := { s.status with rej := true } })

/-- R91, R93: a defined opcode with a 1 in a bit its format reserves ends by RESERVED_BITS before anything else. ENCODE
and DECODE release the tree and the queue then too: the model's reading of "every error" in R221 (log entry 7). -/
def Obligations.ReservedBitsFail : Prop :=
  ∀ (s : State) (rest : List HostAction) (v : Word) (w k : Nat),
    s.running = none → s.script = .write 0x0000 8 v :: rest →
    (let op := v.toNat % 256
     s.status.err = false ∨ op ≤ 2) →
    (let op := v.toNat % 256
     (w = 0 ∧ op ∈ [0x00, 0x01, 0x02, 0x10, 0x12, 0x13, 0x20, 0x25, 0x30, 0x32, 0x33, 0x40, 0x42, 0x43, 0x50, 0x51,
        0x63, 0x64, 0x65, 0x66, 0x70, 0x71, 0x72, 0x73]) ∨
     (w = 1 ∧ op ∈ [0x41, 0x60]) ∨ (w = 8 ∧ op ∈ [0x11, 0x21, 0x61, 0x62]) ∨ (w = 9 ∧ op ∈ [0x23, 0x24, 0x31]) ∨
     (w = 18 ∧ op = 0x22)) →
    8 + w ≤ k → v.getLsbD k = true →
    step s = .next
      (let t := { s with script := rest, status := { s.status with lastOp := v.setWidth 8 } }
       if v.toNat % 256 = 0x72 ∨ v.toNat % 256 = 0x73 then t.released.failed .reservedBits
       else t.failed .reservedBits)

/-! ### The host's accesses (20_memory.md) -/

/-- R90: a write to CMD, with the engine idle and either ERR = 0 or one of the three commands that run under ERR, sets
LAST_OP and runs the command the word decodes to. -/
def Obligations.StepRunsTheDecodedCommand : Prop :=
  ∀ (s : State) (rest : List HostAction) (v : Word) (i : Instr),
    s.running = none → s.script = .write 0x0000 8 v :: rest → decodeWord v = .command i →
    (s.status.err = false ∨ i = .nop ∨ i = .softReset ∨ i = .clearErr) →
    step s = exec i { s with script := rest, status := { s.status with lastOp := BitVec.ofNat 8 i.opcode } }

/-- R219: while ERR = 1, a word whose opcode is not NOP, SOFT_RESET or CLEAR_ERR changes REJ and nothing else. -/
def Obligations.CommandsAreRejectedWhileErr : Prop :=
  ∀ (s : State) (rest : List HostAction) (v : Word),
    s.running = none → s.status.err = true → s.script = .write 0x0000 8 v :: rest → 2 < v.toNat % 256 →
    step s = .next { s with script := rest, status := { s.status with rej := true } }

/-- R66, R256: a write while BUSY = 1, to CMD or to any other register, sets OVR and changes nothing else. -/
def Obligations.WritesWhileBusyAreDropped : Prop :=
  ∀ (s : State) (rest : List HostAction) (a : Nat) (v : Word),
    s.running ≠ none → a ≤ 0xFFFF → a % 8 = 0 → s.script = .write a 8 v :: rest →
    step s = .next { s with script := rest, status := { s.status with ovr := true } }

/-- R23, R26, R33 to R35, R43, R63: a write while the engine is idle to any address but CMD stores to the read/write
registers and to HIST, keeps only the bits the register has, and is ignored everywhere else. -/
def Obligations.HostWritesStore : Prop :=
  ∀ (s : State) (rest : List HostAction) (a : Nat) (v : Word),
    s.running = none → a ≤ 0xFFFF → a % 8 = 0 → a ≠ 0x0000 → s.script = .write a 8 v :: rest →
    step s = .next { s with
      script := rest
      regs :=
        if a = 0x0010 then { s.regs with arg := v }
        else if a = 0x0048 then { s.regs with hdr := { s.regs.hdr with perm := v.extractLsb' 0 16 } }
        else if a = 0x0050 then { s.regs with hdr := { s.regs.hdr with treeSize := v.extractLsb' 0 16 } }
        else if a = 0x0058 then { s.regs with hdr := { s.regs.hdr with fileSize := v } }
        else if 0x0800 ≤ a ∧ a ≤ 0x0FFF then { s.regs with hist := s.regs.hist.setIfInBounds ((a - 0x0800) / 8) v }
        else s.regs }

/-- R65, R70: a read changes no register. STATUS reads true at any time, every register reads its value with BUSY = 0, and
any other read with BUSY = 1 returns an unspecified value. That it is the next draw of the model's free value, and that the
count of draws moves, is the model's choice (log entry 6). -/
def Obligations.ReadsChangeNoRegister : Prop :=
  ∀ (s : State) (rest : List HostAction) (a : Nat),
    a ≤ 0xFFFF → a % 8 = 0 → s.script = .read a 8 :: rest →
    (s.running = none → step s = .next { s with script := rest, lastRead := s.readRegister a }) ∧
    (s.running ≠ none → a = 0x0008 →
      step s = .next { s with script := rest, lastRead := s.status.word true }) ∧
    (s.running ≠ none → a ≠ 0x0008 →
      step s = .next { s with script := rest, lastRead := Config.freeRead s.draws, draws := s.draws + 1 })

/-- R61, R62: an access outside the window does not reach HUFF-CORE, and one that is not 8 bytes at a multiple of 8 is not
admitted, a read and a write alike, in every state. That the machine stops there, with a fault and with a refusal, is the
model's choice (log entry 8). -/
def Obligations.OtherAccessesAreNotAdmitted : Prop :=
  ∀ (s : State) (rest : List HostAction) (a width : Nat) (v : Word),
    (s.script = .read a width :: rest ∨ s.script = .write a width v :: rest) →
    (0xFFFF < a → step s = .fault (.addressOutsideWindow a)) ∧
    (a ≤ 0xFFFF → (width ≠ 8 ∨ a % 8 ≠ 0) → step s = .refused (.accessNotAdmitted a width))

/-- R25: the fields of STATUS as a read returns them. -/
def Obligations.StatusLayout : Prop :=
  ∀ s : State,
    let w := s.readRegister 0x0008
    w.getLsbD 0 = s.running.isSome ∧ w.getLsbD 1 = s.status.ok ∧ w.getLsbD 2 = s.status.err ∧
    w.getLsbD 3 = s.status.ovr ∧ w.getLsbD 4 = s.status.rej ∧ w.extractLsb' 5 3 = 0 ∧
    w.extractLsb' 8 4 = s.status.errKind ∧ w.extractLsb' 12 4 = 0 ∧ w.extractLsb' 16 8 = s.status.errCode ∧
    w.extractLsb' 24 8 = s.status.lastOp ∧ w.extractLsb' 32 32 = 0

/-- R23, R24, R26 to R42: the other registers as a read returns them. -/
def Obligations.RegisterLayout : Prop :=
  ∀ s : State,
    s.readRegister 0x0000 = 0 ∧ s.readRegister 0x0010 = s.regs.arg ∧ s.readRegister 0x0018 = s.regs.result ∧
    (s.regs.pool.root ≤ 511 → (s.readRegister 0x0020).toNat = s.regs.pool.root) ∧
    (s.regs.pool.count ≤ 511 → (s.readRegister 0x0028).toNat = s.regs.pool.count) ∧
    (s.regs.pool.unique ≤ 256 → (s.readRegister 0x0030).toNat = s.regs.pool.unique) ∧
    (let w := s.readRegister 0x0038
     w.extractLsb' 0 9 = BitVec.ofNat 9 s.regs.pool.size ∧ w.extractLsb' 9 7 = 0 ∧
     w.extractLsb' 16 9 = BitVec.ofNat 9 s.regs.pool.cap ∧ w.extractLsb' 25 7 = 0 ∧
     (w.getLsbD 32 = true ↔ s.regs.pool.size = 0) ∧ (w.getLsbD 33 = true ↔ s.regs.pool.size = s.regs.pool.cap) ∧
     w.extractLsb' 34 30 = 0) ∧
    s.readRegister 0x0040 = s.regs.hdr.magic.setWidth 64 ∧ s.readRegister 0x0048 = s.regs.hdr.perm.setWidth 64 ∧
    s.readRegister 0x0050 = s.regs.hdr.treeSize.setWidth 64 ∧ s.readRegister 0x0058 = s.regs.hdr.fileSize ∧
    s.readRegister 0x0060 = s.regs.scanCount ∧ s.readRegister 0x0068 = s.regs.bytesRead ∧
    s.readRegister 0x0070 = s.regs.bytesWritten ∧
    (s.regs.out.bitPos < 8 * s.config.block → (s.readRegister 0x0078).toNat = s.regs.out.bitPos) ∧
    (let w := s.readRegister 0x0080
     w.extractLsb' 0 32 = BitVec.ofNat 32 s.regs.inp.bitPos ∧ w.extractLsb' 32 24 = BitVec.ofNat 24 s.regs.inp.buf.length ∧
     w.extractLsb' 56 7 = 0 ∧ w.getLsbD 63 = s.regs.inp.eof) ∧
    (s.regs.code.len ≤ 256 → (s.readRegister 0x0088).toNat = s.regs.code.len) ∧
    (let w := s.readRegister 0x0090
     (w.extractLsb' 0 24).toNat = s.config.block ∧ w.extractLsb' 24 8 = 0 ∧
     w.extractLsb' 32 8 = s.config.leafMarker ∧ w.extractLsb' 40 8 = s.config.internalMarker ∧
     w.extractLsb' 48 16 = s.config.magic) ∧
    (∀ w j, w < 4 → j < 64 →
      (s.readRegister (0x00A0 + 8 * w)).getLsbD j = s.regs.code.bits.getLsbD (64 * w + j))

/-- R23, R43 to R45, R47, R63: the internal memories as reads return them, and the zeros between them. -/
def Obligations.MemoryLayout : Prop :=
  ∀ s : State,
    (∀ b : Byte, s.readRegister (0x0800 + 8 * b.toNat) = s.regs.histAt b) ∧
    (∀ b : Byte,
      let w := s.readRegister (0x1000 + 64 * b.toNat)
      w.getLsbD 63 = (s.regs.entry b).valid ∧ w.extractLsb' 0 9 = BitVec.ofNat 9 (s.regs.entry b).len ∧
      w.extractLsb' 9 54 = 0) ∧
    (∀ (b : Byte) (k : Nat), k < 256 →
      (s.readRegister (0x1000 + 64 * b.toNat + 8 + 8 * (k / 64))).getLsbD (k % 64) = (s.regs.entry b).bits.getLsbD k) ∧
    (∀ (b : Byte) (k : Nat), k < 3 → s.readRegister (0x1000 + 64 * b.toNat + 0x28 + 8 * k) = 0) ∧
    (∀ j, j < 256 → s.readRegister (0x5000 + 8 * j) = (BitVec.ofNat 9 (heapAt s.regs.pool.heap j)).setWidth 64) ∧
    (∀ i, i < 511 →
      let n := s.regs.pool.node i
      let w := s.readRegister (0x8000 + 32 * i)
      w.extractLsb' 0 2 = (match n.kind with | .free => 0 | .leaf => 1 | .internal => 2) ∧
      w.extractLsb' 2 2 = (match n.held with | .unowned => 0 | .pq => 1 | .parent => 2 | .root => 3) ∧
      w.extractLsb' 4 4 = 0 ∧ w.extractLsb' 8 8 = n.sym ∧ w.extractLsb' 16 9 = BitVec.ofNat 9 n.left ∧
      w.extractLsb' 25 7 = 0 ∧ w.extractLsb' 32 9 = BitVec.ofNat 9 n.right ∧ w.extractLsb' 41 23 = 0) ∧
    (∀ i, i < 511 → s.readRegister (0x8000 + 32 * i + 8) = (s.regs.pool.node i).freq) ∧
    (∀ i k, i < 511 → k < 2 → s.readRegister (0x8000 + 32 * i + 0x10 + 8 * k) = 0) ∧
    (∀ a, a % 8 = 0 →
      (a = 0x0098 ∨ (0x00C0 ≤ a ∧ a ≤ 0x07FF) ∨ (0x5800 ≤ a ∧ a ≤ 0x7FFF) ∨ (0xBFE0 ≤ a ∧ a ≤ 0xFFFF)) →
      s.readRegister a = 0)

/-! ### Reset, idle and waiting -/

/-- R54, R111, R250, R251: hardware reset, in any state, and SOFT_RESET give every state element its reset value, keep the
parameters and the host's side of the ports, and differ in OK and LAST_OP only. -/
def Obligations.ResetValues : Prop :=
  ∀ s : State,
    (∀ rest, s.script = .hardReset :: rest →
      ∃ r : Regs, r.AtReset ∧ step s = .next { s with
        script := rest, running := none, regs := r
        status := { ok := false, err := false, ovr := false, rej := false, errKind := 0, errCode := 0, lastOp := 0 } }) ∧
    (s.running = none →
      ∃ r : Regs, r.AtReset ∧ exec .softReset s = .next { s with
        regs := r
        status := { ok := true, err := false, ovr := false, rej := false, errKind := 0, errCode := 0, lastOp := 1 } }) ∧
    (State.reset.regs.AtReset ∧ State.reset.running = none ∧ State.reset.status =
      { ok := false, err := false, ovr := false, rej := false, errKind := 0, errCode := 0, lastOp := 0 })

/-- R75, R234, R250: a waiting command makes no progress before an answer or a hardware reset. That a step without a host
action answers the same state, and that an answer no command waits for changes nothing, is the model's choice of what a
step is (log entry 3). -/
def Obligations.OnlyAnAnswerMovesAWaitingCommand : Prop :=
  ∀ s : State,
    (s.script = [] → step s = .next s) ∧
    (∀ w action rest t, s.running = some w → s.script = action :: rest → (∀ r, action ≠ .answer r) →
      action ≠ .hardReset → step s = .next t →
      t.running = some w ∧ t.regs = s.regs ∧ t.port.snk = s.port.snk ∧ t.port.plan = s.port.plan) ∧
    (∀ r rest, s.running = none → s.script = .answer r :: rest → step s = .next { s with script := rest })

/-- R75, R82, R262: an answer that comes late gives what the same answer at once would have given. The form, a command that
is suspended and goes on from the answers so far, is the model's (log entry 4). -/
def Obligations.LateAnswersChangeNothing : Prop :=
  ∀ (i : Instr) (s t : State) (before after : List PortReply) (r : PortReply) (rest : List HostAction),
    s.running = none → s.port.src.length < 2 ^ 64 → s.regs.inp.Wf s.config.block → (∀ x ∈ before, x ≠ .hold) →
    exec i { s with port := { s.port with plan := before ++ .hold :: after } } = .next t → t.running ≠ none →
    step { t with script := .answer r :: rest } =
      exec i { s with script := rest, port := { s.port with plan := before ++ r :: after } }

/-- R75, R262: every command ends when the host answers every port request at once and its stream is shorter than 2^64
bytes. -/
def Obligations.EveryCommandEnds : Prop :=
  ∀ (i : Instr) (s : State),
    s.running = none → s.port.Granting → s.port.src.length < 2 ^ 64 → s.regs.inp.Wf s.config.block →
    ∃ t, exec i s = .next t ∧ t.running = none

/-! ### Control commands (40_control.md) -/

/-- R110, R112: NOP and CLEAR_ERR. -/
def Obligations.NopAndClearErr : Prop :=
  ∀ s : State, s.running = none →
    exec .nop s = .next (s.done true 0) ∧
    exec .clearErr s = .next
      ({ s with status := { s.status with
          err := false, ovr := false, rej := false, errKind := 0, errCode := 0 } }.done true 0)

/-! ### Histogram commands (41_histogram.md) -/

/-- R115, R116: HIST_CLEAR and HIST_ADD; a count at 2^64 - 1 raises FREQ_OVERFLOW and HIST is unchanged. -/
def Obligations.HistClearAndHistAdd : Prop :=
  ∀ s : State, s.running = none →
    exec .histClear s = .next ({ s with regs := { s.regs with hist := Vector.replicate 256 0 } }.done true 0) ∧
    ∀ sym : Byte,
      exec (.histAdd sym) s = .next
        (if (s.regs.histAt sym).toNat = 2 ^ 64 - 1 then s.failed .freqOverflow
         else { s with regs := { s.regs with
           hist := s.regs.hist.setIfInBounds sym.toNat (s.regs.histAt sym + 1) } }.done true (s.regs.histAt sym + 1))

/-- R117, R220(b): HIST_SCAN counts every byte that is left, to the end of the stream, where no count overflows; it changes
the counts, SCAN_COUNT and the read side only. At the byte whose count, or the number of bytes, would pass 2^64 - 1 it raises
FREQ_OVERFLOW, and the counts of the bytes before it stay. In mid-byte it raises MISALIGNED. -/
def Obligations.HistScanCountsTheInput : Prop :=
  ∀ s : State, s.running = none →
    (s.regs.inp.bitPos % 8 ≠ 0 → exec .histScan s = .next (s.failed .misaligned)) ∧
    (s.port.Granting → s.regs.inp.Wf s.config.block → s.regs.inp.bitPos % 8 = 0 →
      (unreadBytes s.regs.inp s.port).length < 2 ^ 64 →
      (∀ b, (s.regs.histAt b).toNat + (unreadBytes s.regs.inp s.port).count b < 2 ^ 64) →
      ∃ (h : Vector Word 256) (i : InSide),
        exec .histScan s = .next
          (({ s with regs := { s.regs with
              hist := h, scanCount := BitVec.ofNat 64 (unreadBytes s.regs.inp s.port).length } }.withInput i
            (s.port.srcPos + (undelivered s.regs.inp s.port).length)).done true
              (BitVec.ofNat 64 (unreadBytes s.regs.inp s.port).length)) ∧
        (∀ b : Byte, (h.getD b.toNat 0).toNat =
          (s.regs.histAt b).toNat + (unreadBytes s.regs.inp s.port).count b) ∧
        i.eof = true ∧ i.bitPos = 8 * i.buf.length) ∧
    ∀ (pre rest : List Byte) (b : Byte),
      s.port.Granting → s.port.src.length < 2 ^ 64 → s.regs.inp.Wf s.config.block → s.regs.inp.bitPos % 8 = 0 →
      unreadBytes s.regs.inp s.port = pre ++ b :: rest → pre.length < 2 ^ 64 →
      (∀ x, (s.regs.histAt x).toNat + pre.count x < 2 ^ 64) →
      ((s.regs.histAt b).toNat + pre.count b = 2 ^ 64 - 1 ∨ pre.length = 2 ^ 64 - 1) →
      ∃ (h : Vector Word 256) (i : InSide) (pos : Nat),
        exec .histScan s = .next
          (({ s with regs := { s.regs with hist := h, scanCount := BitVec.ofNat 64 pre.length } }.withInput i pos).failed
            .freqOverflow) ∧
        (∀ x : Byte, (h.getD x.toNat 0).toNat = (s.regs.histAt x).toNat + pre.count x) ∧
        s.port.srcPos ≤ pos ∧ unreadBytes i { s.port with srcPos := pos } = rest

/-- R118: HIST_FORCE increments the counts of symbols 0 and 255 when fewer than two symbols have a count, and checks both
first. -/
def Obligations.HistForce : Prop :=
  ∀ s : State, s.running = none →
    (2 ≤ s.regs.present.length →
      exec .histForce s = .next (s.done true (BitVec.ofNat 64 s.regs.present.length))) ∧
    (s.regs.present.length < 2 → (s.regs.histAt 0).toNat ≠ 2 ^ 64 - 1 → (s.regs.histAt 255).toNat ≠ 2 ^ 64 - 1 →
      let r : Regs := { s.regs with
        hist := (s.regs.hist.setIfInBounds 0 (s.regs.histAt 0 + 1)).setIfInBounds 255 (s.regs.histAt 255 + 1) }
      exec .histForce s = .next ({ s with regs := r }.done true (BitVec.ofNat 64 r.present.length))) ∧
    (s.regs.present.length < 2 → ((s.regs.histAt 0).toNat = 2 ^ 64 - 1 ∨ (s.regs.histAt 255).toNat = 2 ^ 64 - 1) →
      exec .histForce s = .next (s.failed .freqOverflow))

/-- R120: after a successful HIST_FORCE at least two symbols have a count, by the four cases of the rule. -/
def Obligations.HistForceGivesTwoSymbols : Prop :=
  ∀ s t : State, s.running = none → exec .histForce s = .next t → t.status.ok = true →
    (∃ x y : Byte, x ≠ y ∧ t.regs.histAt x ≠ 0 ∧ t.regs.histAt y ≠ 0) ∧
    ((∀ x, s.regs.histAt x = 0) →
      t.regs.histAt 0 = 1 ∧ t.regs.histAt 255 = 1 ∧ ∀ x, x ≠ 0 → x ≠ 255 → t.regs.histAt x = 0) ∧
    (∀ y, (y = 0 ∨ y = 255) → s.regs.histAt y ≠ 0 → (∀ x, x ≠ y → s.regs.histAt x = 0) →
      t.regs.histAt y = s.regs.histAt y + 1 ∧ t.regs.histAt (255 - y) = 1 ∧
        ∀ x, x ≠ 0 → x ≠ 255 → t.regs.histAt x = 0) ∧
    (∀ y, y ≠ 0 → y ≠ 255 → s.regs.histAt y ≠ 0 → (∀ x, x ≠ y → s.regs.histAt x = 0) →
      t.regs.histAt y = s.regs.histAt y ∧ t.regs.histAt 0 = 1 ∧ t.regs.histAt 255 = 1 ∧
        ∀ x, x ≠ y → x ≠ 0 → x ≠ 255 → t.regs.histAt x = 0) ∧
    ((∃ x y : Byte, x ≠ y ∧ s.regs.histAt x ≠ 0 ∧ s.regs.histAt y ≠ 0) → t.regs.hist = s.regs.hist)

/-! ### Node pool and priority queue commands (42_pq_nodes.md) -/

/-- R126: NODE_RESET frees every slot, drops the root and empties the queue; CAP and everything else stay. -/
def Obligations.NodeReset : Prop :=
  ∀ s : State, s.running = none → exec .nodeReset s = .next (s.released.done true 0)

/-- R125, R127: NODE_LEAF fills the next slot with a leaf of the symbol and ARG, or raises NODE_POOL_FULL. -/
def Obligations.NodeLeafAllocates : Prop :=
  ∀ (s : State) (sym : Byte), s.running = none →
    exec (.nodeLeaf sym) s = .next
      (if s.regs.pool.count = 511 then s.failed .nodePoolFull
       else { s with regs := { s.regs with pool := { s.regs.pool with
         nodes := s.regs.pool.nodes.setIfInBounds s.regs.pool.count
           { kind := .leaf, held := .unowned, sym := sym, freq := s.regs.arg, left := NIL, right := NIL }
         count := s.regs.pool.count + 1 } } }.done true (BitVec.ofNat 64 s.regs.pool.count))

/-- R128, R129: NODE_JOIN checks its operands in the rule's order, then makes the node and its two children held. -/
def Obligations.NodeJoin : Prop :=
  ∀ (s : State) (na nb : Nat), s.running = none →
    let p := s.regs.pool
    exec (.nodeJoin na nb) s = .next
      (if p.count ≤ na then s.failed .badNode
       else if (p.node na).held ≠ .unowned then s.failed .nodeHeld
       else if p.count ≤ nb then s.failed .badNode
       else if (p.node nb).held ≠ .unowned then s.failed .nodeHeld
       else if na = nb then s.failed .nodeHeld
       else if 2 ^ 64 ≤ (p.node na).freq.toNat + (p.node nb).freq.toNat then s.failed .freqOverflow
       else if p.count = 511 then s.failed .nodePoolFull
       else { s with regs := { s.regs with pool := { p with
         nodes := ((p.nodes.setIfInBounds p.count
             { kind := .internal, held := .unowned, sym := 0, freq := (p.node na).freq + (p.node nb).freq,
               left := na, right := nb }).setIfInBounds na { p.node na with held := .parent }).setIfInBounds nb
             { p.node nb with held := .parent }
         count := p.count + 1 } } }.done true (BitVec.ofNat 64 p.count))

/-- R131: PQ_CREATE refuses a capacity above 256, else empties the queue, releases its nodes and sets CAP. -/
def Obligations.PqCreate : Prop :=
  ∀ (s : State) (cap : Nat), s.running = none →
    (256 < cap → exec (.pqCreate cap) s = .next (s.failed .badCapacity)) ∧
    (cap ≤ 256 → ∃ p : Pool,
      exec (.pqCreate cap) s = .next ({ s with regs := { s.regs with pool := { s.regs.pool with
        nodes := p.nodes, heap := Vector.replicate 256 NIL, size := 0, cap := cap } } }.done true 0) ∧
      (∀ i, (∃ j, j < s.regs.pool.size ∧ heapAt s.regs.pool.heap j = i) →
        p.node i = { s.regs.pool.node i with held := .unowned }) ∧
      ∀ i, (∀ j, j < s.regs.pool.size → heapAt s.regs.pool.heap j ≠ i) → p.node i = s.regs.pool.node i)

/-- R132, R135: PQ_ENQUEUE checks the node, answers "false" when the queue is full, else adds the node to the queue, whose
heap order holds again. -/
def Obligations.PqEnqueueInserts : Prop :=
  ∀ (s : State) (na : Nat), s.running = none →
    let p := s.regs.pool
    (p.count ≤ na → exec (.pqEnqueue na) s = .next (s.failed .badNode)) ∧
    (na < p.count → (p.node na).held ≠ .unowned → exec (.pqEnqueue na) s = .next (s.failed .nodeHeld)) ∧
    (na < p.count → (p.node na).held = .unowned → p.size = p.cap →
      exec (.pqEnqueue na) s = .next (s.done false 0x1FF)) ∧
    (na < p.count → (p.node na).held = .unowned → p.size < p.cap → p.cap ≤ 256 → p.count ≤ 511 → p.QueueWf →
      ∃ q : Pool,
        exec (.pqEnqueue na) s = .next ({ s with regs := { s.regs with pool := { p with
          nodes := q.nodes, heap := q.heap, size := p.size + 1 } } }.done true (BitVec.ofNat 64 na)) ∧
        (∀ i, q.node i = if i = na then { p.node na with held := .pq } else p.node i) ∧
        (q.heap.toList.take (p.size + 1)).Perm (na :: p.heap.toList.take p.size) ∧
        { p with nodes := q.nodes, heap := q.heap, size := p.size + 1 }.QueueWf)

/-- R133, R134, R135: PQ_DEQUEUE answers "false" when the queue is empty, else takes out a node whose frequency is the
minimum over the queue. -/
def Obligations.PqDequeueTakesTheMinimum : Prop :=
  ∀ s : State, s.running = none →
    let p := s.regs.pool
    (p.size = 0 → exec .pqDequeue s = .next (s.done false 0x1FF)) ∧
    (0 < p.size → p.count ≤ 511 → p.QueueWf →
      ∃ (q : Pool) (x : Nat),
        exec .pqDequeue s = .next ({ s with regs := { s.regs with pool := { p with
          nodes := q.nodes, heap := q.heap, size := p.size - 1 } } }.done true (BitVec.ofNat 64 x)) ∧
        (∀ i, q.node i = if i = x then { p.node x with held := .unowned } else p.node i) ∧
        (p.heap.toList.take p.size).Perm (x :: q.heap.toList.take (p.size - 1)) ∧
        (∀ j, j < p.size → (p.node x).freq.toNat ≤ (p.node (heapAt p.heap j)).freq.toNat) ∧
        { p with nodes := q.nodes, heap := q.heap, size := p.size - 1 }.QueueWf)

/-! ### Tree commands (43_tree.md) -/

/-- R145, R146: BUILD_TREE over U symbols with a count, whose counts add up to less than 2^64: the leaves in ascending
symbol order, then the internal nodes, the last of them the root, which carries the sum of all counts. Without a count it
raises EMPTY_HISTOGRAM. With counts that add up to 2^64 or more it raises FREQ_OVERFLOW at the join whose sum does not fit,
and leaves the pool and the queue as they stand there (R220(b)): the leaves, the nodes joined before, and the two minimum
nodes out of the queue. -/
def Obligations.BuildTree : Prop :=
  ∀ s : State, s.running = none →
    (s.regs.present = [] →
      exec .buildTree s = .next
        ({ s.released with regs := { s.released.regs with pool := { s.released.regs.pool with cap := 256 } } }.failed
          .emptyHistogram)) ∧
    (s.regs.present ≠ [] → s.regs.total < 2 ^ 64 →
      ∃ p : Pool,
        exec .buildTree s = .next
          ({ s with regs := { s.regs with pool := p } }.done true (BitVec.ofNat 64 p.root)) ∧
        p.unique = s.regs.present.length ∧ p.count = 2 * s.regs.present.length - 1 ∧
        p.root = 2 * s.regs.present.length - 2 ∧ p.size = 0 ∧ p.cap = 256 ∧ p.stack = s.regs.pool.stack ∧
        (p.node p.root).freq.toNat = s.regs.total ∧
        (∀ k sym, s.regs.present[k]? = some sym →
          (p.node k).kind = .leaf ∧ (p.node k).sym = sym ∧ (p.node k).freq = s.regs.histAt sym) ∧
        (∀ k, s.regs.present.length ≤ k → k < p.count → (p.node k).kind = .internal) ∧
        p.Wf ∧ p.QueueWf ∧ ∃ t : CodeTree, p.Holds t p.root ∧ t.symbols.Perm s.regs.present) ∧
    (2 ^ 64 ≤ s.regs.total →
      ∃ p : Pool,
        exec .buildTree s = .next ({ s with regs := { s.regs with pool := p } }.failed .freqOverflow) ∧
        p.root = NIL ∧ p.unique = 0 ∧ p.cap = 256 ∧ s.regs.present.length ≤ p.count ∧
        p.count + p.size + 2 = 2 * s.regs.present.length ∧
        (∀ k sym, s.regs.present[k]? = some sym →
          (p.node k).kind = .leaf ∧ (p.node k).sym = sym ∧ (p.node k).freq = s.regs.histAt sym) ∧
        (∀ k, s.regs.present.length ≤ k → k < p.count → (p.node k).kind = .internal) ∧ p.Wf ∧ p.QueueWf ∧
        ∃ l r, l ≠ r ∧ l < p.count ∧ r < p.count ∧ (p.node l).held = .unowned ∧ (p.node r).held = .unowned ∧
          2 ^ 64 ≤ (p.node l).freq.toNat + (p.node r).freq.toNat ∧
          ∀ k, (p.node k).held = .pq →
            (p.node l).freq.toNat ≤ (p.node k).freq.toNat ∧ (p.node r).freq.toNat ≤ (p.node k).freq.toNat)

/-- R145: each internal node BUILD_TREE makes joins two minimum nodes: its left child's frequency is at most its right
child's, and that is at most the frequency of every older node that no internal node up to this one has joined. -/
def Obligations.BuildTreeJoinsTwoMinima : Prop :=
  ∀ s t : State, s.running = none → s.regs.total < 2 ^ 64 → exec .buildTree s = .next t → t.status.ok = true →
    ∀ i, (t.regs.pool.node i).kind = .internal →
      let p := t.regs.pool
      (p.node (p.node i).left).freq.toNat ≤ (p.node (p.node i).right).freq.toNat ∧
      ∀ k, k < i → (∀ j, j ≤ i → (p.node j).kind = .internal → (p.node j).left ≠ k ∧ (p.node j).right ≠ k) →
        (p.node (p.node i).right).freq.toNat ≤ (p.node k).freq.toNat

/-- R147: SET_ROOT checks a node operand, releases the old root, and makes the node the root with its leaves counted; with
NIL it only releases. -/
def Obligations.SetRoot : Prop :=
  ∀ (s : State) (na : Nat), s.running = none →
    let p := s.regs.pool
    (na ≠ NIL → p.count ≤ na → exec (.setRoot na) s = .next (s.failed .badNode)) ∧
    (na ≠ NIL → na < p.count → (p.node na).held ≠ .unowned → exec (.setRoot na) s = .next (s.failed .nodeHeld)) ∧
    (na = NIL ∨ (na < p.count ∧ (p.node na).held = .unowned) →
      ∃ q : Pool,
        exec (.setRoot na) s = .next ({ s with regs := { s.regs with pool := { p with
          nodes := q.nodes, root := na, unique := if na = NIL then 0 else p.leaves na } } }.done true
            (BitVec.ofNat 64 na)) ∧
        ∀ i, i < 511 → q.node i =
          if i = na then { p.node i with held := .root }
          else if i = p.root then { p.node i with held := .unowned } else p.node i)

/-- R151, R152: DUMP_TREE puts out the dump of the tree at ROOT behind the pending bytes and flushes; RESULT is
3 * Leaves - 1. -/
def Obligations.DumpTreeWritesTheDump : Prop :=
  ∀ s : State, s.running = none →
    (s.regs.pool.root = NIL → exec .dumpTree s = .next (s.failed .noRoot)) ∧
    (s.regs.pool.root ≠ NIL → s.regs.out.bitPos % 8 ≠ 0 → exec .dumpTree s = .next (s.failed .misaligned)) ∧
    ∀ (t : CodeTree) (pending : List Bool),
      s.regs.pool.root ≠ NIL → s.regs.pool.Holds t s.regs.pool.root → s.port.Granting →
      s.regs.out = OutSide.of pending → pending.length < 8 * s.config.block → pending.length % 8 = 0 →
      exec .dumpTree s = .next
        ((s.flushed (pending ++ bitsOf (t.dump s.config))).done true (BitVec.ofNat 64 (3 * t.leaves - 1)))

/-- R154: REBUILD_TREE, given the dump of any tree with an internal root and at most 256 leaves, rebuilds that tree, its
nodes numbered in dump order, and leaves the input behind the dump unread. -/
def Obligations.RebuildTreeInvertsDump : Prop :=
  ∀ (s : State) (l r : CodeTree) (rest : List Byte), s.running = none → s.port.Granting → s.regs.inp.Wf s.config.block →
    s.regs.inp.bitPos % 8 = 0 → (CodeTree.node l r).leaves ≤ 256 →
    unreadBytes s.regs.inp s.port = (CodeTree.node l r).dump s.config ++ rest →
    s.regs.hdr.treeSize.toNat = ((CodeTree.node l r).dump s.config).length →
    ∃ (p : Pool) (i : InSide) (pos : Nat),
      exec .rebuildTree s = .next
        (({ s with regs := { s.regs with pool := p } }.withInput i pos).done true (BitVec.ofNat 64 p.root)) ∧
      p.Holds (.node l r) p.root ∧ p.root = 2 * (CodeTree.node l r).leaves - 2 ∧
      p.count = 2 * (CodeTree.node l r).leaves - 1 ∧ p.unique = (CodeTree.node l r).leaves ∧
      (∀ k, p.node k = ((CodeTree.node l r).slots .root 0).getD k Node.free) ∧
      p.size = 0 ∧ p.cap = s.regs.pool.cap ∧ p.stack = [] ∧
      s.port.srcPos ≤ pos ∧ unreadBytes i { s.port with srcPos := pos } = rest ∧ i.bitPos % 8 = 0

/-- R153: every error of REBUILD_TREE. In mid-byte it raises MISALIGNED. Otherwise it stops at the first thing that goes
wrong behind the trees it has read: those trees stand in the pool, nothing else does, and the bytes behind stay unread.
The last clause says that this leaves nothing out: any bytes are the dump that RebuildTreeInvertsDump speaks of, or go
wrong in one of these ways. -/
def Obligations.RebuildTreeRefuses : Prop :=
  (∀ s : State, s.running = none →
    (s.regs.inp.bitPos % 8 ≠ 0 → exec .rebuildTree s = .next (s.failed .misaligned)) ∧
    (s.regs.inp.bitPos % 8 = 0 → s.regs.hdr.treeSize = 0 → exec .rebuildTree s = .next (s.released.failed .treeDepth)) ∧
    ∀ (ts : List CodeTree) (e : ErrName) (rest : List Byte),
      s.port.Granting → s.regs.inp.Wf s.config.block → s.regs.inp.bitPos % 8 = 0 → ForestFits ts →
      DumpError s.config s.regs.hdr.treeSize.toNat (unreadBytes s.regs.inp s.port) ts e rest →
      ∃ (p : Pool) (i : InSide) (pos : Nat),
        exec .rebuildTree s = .next (({ s with regs := { s.regs with pool := p } }.withInput i pos).failed e) ∧
        (∀ k, p.node k = (forestSlots 0 ts).getD k Node.free) ∧ p.count = forestNodes ts ∧
        p.root = NIL ∧ p.unique = 0 ∧ p.size = 0 ∧ p.cap = s.regs.pool.cap ∧ (∀ j, j < 256 → heapAt p.heap j = NIL) ∧
        s.port.srcPos ≤ pos ∧ unreadBytes i { s.port with srcPos := pos } = rest) ∧
  ∀ (c : Config) (size : Nat) (u : List Byte),
    (∃ (l r : CodeTree) (rest : List Byte), (CodeTree.node l r).leaves ≤ 256 ∧
      u = (CodeTree.node l r).dump c ++ rest ∧ size = ((CodeTree.node l r).dump c).length) ∨
    ∃ (ts : List CodeTree) (e : ErrName) (rest : List Byte), ForestFits ts ∧ DumpError c size u ts e rest

/-! ### Code commands (44_codes.md) -/

/-- R160 to R162: CODE_CLEAR, CODE_PUSH and CODE_POP; a full or an empty code register answers "false". -/
def Obligations.CodeRegister : Prop :=
  ∀ s : State, s.running = none →
    exec .codeClear s = .next ({ s with regs := { s.regs with code := { len := 0, bits := 0 } } }.done true 0) ∧
    (∀ b, s.regs.code.len = 256 → exec (.codePush b) s = .next (s.done false 0)) ∧
    (∀ b, s.regs.code.len ≠ 256 → ∃ bits : BitVec 256,
      exec (.codePush b) s = .next ({ s with regs := { s.regs with
        code := { len := s.regs.code.len + 1, bits := bits } } }.done true (BitVec.ofNat 64 (s.regs.code.len + 1))) ∧
      ∀ k, k < 256 → bits.getLsbD k = if k = s.regs.code.len then b else s.regs.code.bits.getLsbD k) ∧
    (s.regs.code.len = 0 → exec .codePop s = .next (s.done false 0)) ∧
    (s.regs.code.len ≠ 0 → ∃ bits : BitVec 256,
      exec .codePop s = .next ({ s with regs := { s.regs with
        code := { len := s.regs.code.len - 1, bits := bits } } }.done true
          (if s.regs.code.bits.getLsbD (s.regs.code.len - 1) then 1 else 0)) ∧
      ∀ k, k < 256 → bits.getLsbD k = if k = s.regs.code.len - 1 then false else s.regs.code.bits.getLsbD k)

/-- R164, R165: BUILD_CODES on the tree at ROOT records each symbol's path, the rightmost leaf's where a symbol has several,
clears every other entry and leaves the code register empty. -/
def Obligations.BuildCodesRecordsThePaths : Prop :=
  ∀ s : State, s.running = none →
    (s.regs.pool.root = NIL → exec .buildCodes s = .next (s.failed .noRoot)) ∧
    (s.regs.pool.root ≠ NIL → (s.regs.pool.node s.regs.pool.root).kind = .leaf →
      exec .buildCodes s = .next (s.failed .degenerateTree)) ∧
    ∀ l r : CodeTree, s.regs.pool.root ≠ NIL → s.regs.pool.Wf → s.regs.pool.Holds (.node l r) s.regs.pool.root →
      ∃ table : Vector CodeEntry 256,
        exec .buildCodes s = .next
          ({ s with regs := { s.regs with code := { len := 0, bits := 0 }, table := table } }.done true
            (BitVec.ofNat 64 (symbols.countP fun b => (CodeTree.node l r).symbols.contains b))) ∧
        ∀ b : Byte, table.getD b.toNat CodeEntry.invalid =
          match (CodeTree.node l r).codeOf b with
          | some code => CodeEntry.of code
          | none => { valid := false, len := 0, bits := 0 }

/-- R167: the code table after BUILD_CODES on a tree without duplicate symbols is a complete prefix code. -/
def Obligations.CodesArePrefixFree : Prop :=
  ∀ (s t : State) (l r : CodeTree), s.running = none → s.regs.pool.root ≠ NIL → s.regs.pool.Wf →
    s.regs.pool.Holds (.node l r) s.regs.pool.root → (CodeTree.node l r).symbols.Nodup → exec .buildCodes s = .next t →
    let code (b : Byte) : List Bool := codeBits (t.regs.entry b).len (t.regs.entry b).bits
    (∀ b, (t.regs.entry b).valid = true ↔ b ∈ (CodeTree.node l r).symbols) ∧
    (∀ b, (t.regs.entry b).valid = true → 1 ≤ (t.regs.entry b).len ∧ (t.regs.entry b).len ≤ 255) ∧
    (∀ a b, a ≠ b → (t.regs.entry a).valid = true → (t.regs.entry b).valid = true → ¬ code a <+: code b) ∧
    ((symbols.filter fun b => (t.regs.entry b).valid).map fun b => 2 ^ (255 - (t.regs.entry b).len)).sum = 2 ^ 255 ∧
    (∀ b, (t.regs.entry b).valid = true →
      let leaf := (code b).foldl s.regs.pool.child s.regs.pool.root
      (s.regs.pool.node leaf).kind = .leaf ∧ (s.regs.pool.node leaf).sym = b)

/-! ### Header commands (45_header.md) -/

/-- R67, R170, R171: HDR_WRITE puts out the 14 header bytes, little-endian and packed, and sets HDR_MAGIC; it does not
flush. In mid-byte it raises MISALIGNED and changes nothing. -/
def Obligations.HdrWriteLayout : Prop :=
  ∀ s : State, s.running = none →
    (s.regs.out.bitPos % 8 ≠ 0 → exec .hdrWrite s = .next (s.failed .misaligned)) ∧
    ∀ pending : List Bool, s.port.Granting → s.regs.out = OutSide.of pending →
      pending.length < 8 * s.config.block → pending.length % 8 = 0 →
      let m := s.config.magic
      let h := s.regs.hdr
      let bytes : List Byte :=
        [m.extractLsb' 0 8, m.extractLsb' 8 8, h.perm.extractLsb' 0 8, h.perm.extractLsb' 8 8,
         h.treeSize.extractLsb' 0 8, h.treeSize.extractLsb' 8 8] ++
        (List.range 8).map fun k => h.fileSize.extractLsb' (8 * k) 8
      exec .hdrWrite s = .next
        (({ s with regs := { s.regs with hdr := { h with magic := m } } }.emitted (pending ++ bitsOf bytes)).done true 14)

/-- R173, R174: HDR_READ loads the four header registers from the next 14 bytes, and raises BAD_MAGIC after the load when
the magic differs; with fewer bytes left it raises HEADER_TRUNCATED and loads none. -/
def Obligations.HdrReadLoads : Prop :=
  ∀ s : State, s.running = none →
    (s.regs.inp.bitPos % 8 ≠ 0 → exec .hdrRead s = .next (s.failed .misaligned)) ∧
    (s.port.Granting → s.regs.inp.Wf s.config.block → s.regs.inp.bitPos % 8 = 0 →
      (∀ (magic perm treeSize : BitVec 16) (fileSize : Word) (rest : List Byte),
        unreadBytes s.regs.inp s.port =
          [magic.extractLsb' 0 8, magic.extractLsb' 8 8, perm.extractLsb' 0 8, perm.extractLsb' 8 8,
           treeSize.extractLsb' 0 8, treeSize.extractLsb' 8 8] ++
          ((List.range 8).map fun k => fileSize.extractLsb' (8 * k) 8) ++ rest →
        ∃ (i : InSide) (pos : Nat),
          exec .hdrRead s = .next
            (let t := { s with regs := { s.regs with
                hdr := { magic := magic, perm := perm, treeSize := treeSize, fileSize := fileSize } } }.withInput i pos
             if magic = s.config.magic then t.done true 14 else t.failed .badMagic) ∧
          s.port.srcPos ≤ pos ∧ unreadBytes i { s.port with srcPos := pos } = rest ∧ i.bitPos % 8 = 0) ∧
      ((unreadBytes s.regs.inp s.port).length < 14 →
        ∃ (i : InSide) (pos : Nat),
          exec .hdrRead s = .next ((s.withInput i pos).failed .headerTruncated) ∧
          s.port.srcPos ≤ pos ∧ unreadBytes i { s.port with srcPos := pos } = []))

/-! ### Bit and byte commands (46_bitio.md) -/

/-- R181, R183, R185, R187: BIT_WRITE and BYTE_WRITE append to the pending bits, and a full block leaves at once. -/
def Obligations.BitWriteAndByteWrite : Prop :=
  ∀ (s : State) (pending : List Bool), s.running = none → s.port.Granting → s.regs.out = OutSide.of pending →
    pending.length < 8 * s.config.block →
    (∀ b, exec (.bitWrite b) s = .next
      ((s.emitted (pending ++ [b])).done true
        (BitVec.ofNat 64 (if pending.length + 1 = 8 * s.config.block then 0 else pending.length + 1)))) ∧
    (∀ v, pending.length % 8 ≠ 0 → exec (.byteWrite v) s = .next (s.failed .misaligned)) ∧
    (∀ v, pending.length % 8 = 0 → exec (.byteWrite v) s = .next
      ((s.emitted (pending ++ byteBits v)).done true
        (BitVec.ofNat 64 (if pending.length + 8 = 8 * s.config.block then 0 else pending.length + 8))))

/-- R166, R184, R186: CODE_WRITE appends the bits of the symbol's code, the root edge first, or raises NO_CODE. -/
def Obligations.CodeWrite : Prop :=
  ∀ (s : State) (sym : Byte), s.running = none →
    ((s.regs.entry sym).valid = false → exec (.codeWrite sym) s = .next (s.failed .noCode)) ∧
    ∀ pending : List Bool, (s.regs.entry sym).valid = true → s.port.Granting → s.regs.out = OutSide.of pending →
      pending.length < 8 * s.config.block →
      exec (.codeWrite sym) s = .next
        ((s.emitted (pending ++ (List.range (s.regs.entry sym).len).map (s.regs.entry sym).bits.getLsbD)).done true
          (BitVec.ofNat 64 (s.regs.entry sym).len))

/-- R182, R188, R189(a): FLUSH writes the pending bits, the last byte zero-padded; with nothing pending it makes no port
request and changes RESULT and OK only, whatever the host would answer. -/
def Obligations.FlushWritesThePending : Prop :=
  ∀ s : State, s.running = none →
    (s.regs.out = OutSide.of [] → exec .flush s = .next (s.done true 0)) ∧
    ∀ pending : List Bool, s.port.Granting → s.regs.out = OutSide.of pending →
      exec .flush s = .next ((s.flushed pending).done true (BitVec.ofNat 64 ((pending.length + 7) / 8)))

/-- R190, R191, R194: BIT_READ takes the next bit of INBUF, least significant first, reading a block when INBUF is used
up; at the end of the input it answers "false". -/
def Obligations.BitReadTakesTheNextBit : Prop :=
  ∀ s : State, s.running = none →
    (s.regs.inp.bitPos < 8 * s.regs.inp.buf.length →
      exec .bitRead s = .next ((s.consumed 1).done true
        (if (s.regs.inp.buf.getD (s.regs.inp.bitPos / 8) 0).getLsbD (s.regs.inp.bitPos % 8) then 1 else 0))) ∧
    (8 * s.regs.inp.buf.length ≤ s.regs.inp.bitPos → s.regs.inp.eof = true →
      exec .bitRead s = .next (s.done false 0)) ∧
    (8 * s.regs.inp.buf.length ≤ s.regs.inp.bitPos → s.regs.inp.eof = false → s.port.Granting →
      exec .bitRead s = .next
        (match s.port.nextBlock s.config.block with
         | [] => s.fetched.done false 0
         | v :: _ => (s.fetched.consumed 1).done true (if v.getLsbD 0 then 1 else 0)))

/-- R180, R190, R192, R195: BYTE_READ the same for a whole byte; in mid-byte it raises MISALIGNED. -/
def Obligations.ByteReadTakesTheNextByte : Prop :=
  ∀ s : State, s.running = none →
    (s.regs.inp.bitPos % 8 ≠ 0 → exec .byteRead s = .next (s.failed .misaligned)) ∧
    (s.regs.inp.bitPos % 8 = 0 →
      (s.regs.inp.bitPos < 8 * s.regs.inp.buf.length →
        exec .byteRead s = .next ((s.consumed 8).done true
          ((s.regs.inp.buf.getD (s.regs.inp.bitPos / 8) 0).setWidth 64))) ∧
      (8 * s.regs.inp.buf.length ≤ s.regs.inp.bitPos → s.regs.inp.eof = true →
        exec .byteRead s = .next (s.done false 0)) ∧
      (8 * s.regs.inp.buf.length ≤ s.regs.inp.bitPos → s.regs.inp.eof = false → s.port.Granting →
        exec .byteRead s = .next
          (match s.port.nextBlock s.config.block with
           | [] => s.fetched.done false 0
           | v :: _ => (s.fetched.consumed 8).done true (v.setWidth 64))))

/-- R73, R193, R196: SRC_REWIND empties INBUF and starts the stream again; BYTES_READ stays. -/
def Obligations.SrcRewind : Prop :=
  ∀ s : State, s.running = none → s.port.Granting →
    exec .srcRewind s = .next
      ({ s with
        regs := { s.regs with inp := { buf := [], bitPos := 0, eof := false } }
        port := { s.port with srcPos := 0 } }.done true 0)

/-! ### Drivers (47_drivers.md) -/

/-- R200: ENCODE_PAYLOAD puts out the code of every byte that is left, behind the pending bits, and flushes; a byte without
a code raises NO_CODE. -/
def Obligations.EncodePayload : Prop :=
  ∀ (s : State) (pending : List Bool), s.running = none → s.port.Granting → s.regs.inp.Wf s.config.block →
    s.regs.out = OutSide.of pending → pending.length < 8 * s.config.block →
    (unreadBytes s.regs.inp s.port).length < 2 ^ 64 →
    let u := unreadBytes s.regs.inp s.port
    (s.regs.inp.bitPos % 8 ≠ 0 → exec .encodePayload s = .next (s.failed .misaligned)) ∧
    (s.regs.inp.bitPos % 8 = 0 → (∀ b ∈ u, (s.regs.entry b).valid = true) →
      ∃ i : InSide,
        exec .encodePayload s = .next
          (((s.withInput i (s.port.srcPos + (undelivered s.regs.inp s.port).length)).flushed
            (pending ++ u.flatMap fun b => codeBits (s.regs.entry b).len (s.regs.entry b).bits)).done true
              (BitVec.ofNat 64 u.length)) ∧
        i.eof = true ∧ i.bitPos = 8 * i.buf.length) ∧
    (s.regs.inp.bitPos % 8 = 0 → (∃ b ∈ u, (s.regs.entry b).valid = false) →
      ∃ t, exec .encodePayload s = .next t ∧ t.running = none ∧ t.status = s.status.raise .noCode)

/-- R201: DECODE_PAYLOAD reads the paths of HDR_FILE_SIZE leaves, puts out their symbols behind the pending bytes and
flushes, and leaves the bits behind the last path unread. When the bits run out first it raises PAYLOAD_TRUNCATED, the full
blocks written so far kept. Its other errors are NO_ROOT, then DEGENERATE_TREE, then MISALIGNED. -/
def Obligations.DecodePayload : Prop :=
  ∀ s : State, s.running = none →
    (s.regs.pool.root = NIL → exec .decodePayload s = .next (s.failed .noRoot)) ∧
    (s.regs.pool.root ≠ NIL → (s.regs.pool.node s.regs.pool.root).kind = .leaf → s.regs.hdr.fileSize ≠ 0 →
      exec .decodePayload s = .next (s.failed .degenerateTree)) ∧
    (s.regs.pool.root ≠ NIL → ((s.regs.pool.node s.regs.pool.root).kind ≠ .leaf ∨ s.regs.hdr.fileSize = 0) →
      s.regs.out.bitPos % 8 ≠ 0 → exec .decodePayload s = .next (s.failed .misaligned)) ∧
    ∀ (tree : CodeTree) (pending : List Bool) (leaves : List (Byte × List Bool)) (rest : List Bool),
      s.regs.pool.root ≠ NIL → s.regs.pool.Holds tree s.regs.pool.root → s.port.Granting →
      s.port.src.length < 2 ^ 64 → s.regs.inp.Wf s.config.block → s.regs.out = OutSide.of pending →
      pending.length < 8 * s.config.block → pending.length % 8 = 0 → (∀ e ∈ leaves, e ∈ tree.codes) →
      unreadBits s.regs.inp s.port = leaves.flatMap (·.2) ++ rest →
      (leaves.length = s.regs.hdr.fileSize.toNat → (leaves = [] ∨ ∃ l r, tree = .node l r) →
        ∃ (i : InSide) (pos : Nat),
          exec .decodePayload s = .next
            (((s.withInput i pos).flushed (pending ++ bitsOf (leaves.map (·.1)))).done true s.regs.hdr.fileSize) ∧
          s.port.srcPos ≤ pos ∧ unreadBits i { s.port with srcPos := pos } = rest) ∧
      (leaves.length < s.regs.hdr.fileSize.toNat → (∃ l r, tree = .node l r) →
        (∃ e ∈ tree.codes, rest <+: e.2 ∧ rest ≠ e.2) →
        ∃ (i : InSide) (pos : Nat),
          exec .decodePayload s = .next
            (((s.withInput i pos).emitted (pending ++ bitsOf (leaves.map (·.1)))).failed .payloadTruncated) ∧
          s.port.srcPos ≤ pos ∧ unreadBits i { s.port with srcPos := pos } = [])

/-- R202, R205, R206, R259: ENCODE. With the output in mid-byte it raises MISALIGNED before anything else. For a source with
room for the forced counts it writes the header, the dump and the payload of one tree over the symbols of the forced
histogram, behind the pending bytes; it counts both passes and releases the tree. The last clause is a source that changes:
the host answers n requests with OK, those of the first pass, and leaves the next one open, which is the first SrcRead of the
second pass; it sets another stream and answers. The second pass runs over that stream under the first pass's header and tree
(R259(b)); it ends by INPUT_CHANGED at the first byte without a code, or at the end if the length differs, with the full
payload blocks written so far kept (R259(a)). That a command waits so and goes on, and that the host can set its stream
meanwhile, is the model's form (log entries 4 and 15). -/
def Obligations.EncodeWritesTheStream : Prop :=
  ∀ (s : State) (pending : List Bool), s.running = none →
    (s.regs.out.bitPos % 8 ≠ 0 → exec .encode s = .next (s.released.failed .misaligned)) ∧
    (s.port.Granting → s.port.src.length + 2 < 2 ^ 64 →
      s.regs.out = OutSide.of pending → pending.length < 8 * s.config.block → pending.length % 8 = 0 →
      ∃ tree : CodeTree, tree.symbols.Nodup ∧ 2 ≤ tree.leaves ∧
        let first := packBits pending ++ (headerBytes s.config.magic s.regs.hdr.perm (BitVec.ofNat 16 (3 * tree.leaves - 1))
          (BitVec.ofNat 64 s.port.src.length) ++ tree.dump s.config)
        let codes (l : List Byte) : List Bool := l.flatMap fun b => (tree.codeOf b).getD []
        let built (t : State) : Prop :=
          (∀ b, b ∈ tree.symbols ↔ t.regs.histAt b ≠ 0) ∧
          (∀ b, (t.regs.histAt b).toNat = s.port.src.count b +
            if (symbols.countP fun x => s.port.src.contains x) < 2 ∧ (b = 0 ∨ b = 255) then 1 else 0) ∧
          (∀ b, t.regs.entry b = match tree.codeOf b with
            | some code => CodeEntry.of code
            | none => { valid := false, len := 0, bits := 0 }) ∧
          t.regs.hdr = { magic := s.config.magic, perm := s.regs.hdr.perm, treeSize := BitVec.ofNat 16 (3 * tree.leaves - 1),
                         fileSize := BitVec.ofNat 64 s.port.src.length } ∧
          t.regs.scanCount = BitVec.ofNat 64 s.port.src.length ∧ t.regs.arg = s.regs.arg ∧
          t.regs.code = { len := 0, bits := 0 } ∧ t.regs.out.bitPos = 0 ∧ t.config = s.config
        let ended (t : State) (status : Status) (result : Word) (source payload : List Byte) : Prop :=
          t.running = none ∧ t.regs.pool.root = NIL ∧ t.regs.pool.count = 0 ∧ t.regs.pool.size = 0 ∧
          t.status = status ∧ t.regs.result = result ∧ t.port.src = source ∧ t.port.snk = s.port.snk ++ first ++ payload ∧
          t.regs.bytesWritten = BitVec.ofNat 64 (first.length + payload.length) ∧
          t.regs.bytesRead = BitVec.ofNat 64 (s.port.src.length + t.port.srcPos)
        (∃ t : State, exec .encode s = .next t ∧ built t ∧ t.script = s.script ∧ t.port.srcPos = s.port.src.length ∧
          ended t { s.status with ok := true } (BitVec.ofNat 64 s.port.src.length) s.port.src
            (packBits (codes s.port.src))) ∧
        ∃ (n : Nat) (t : State),
          exec .encode { s with port := { s.port with plan := List.replicate n .ok ++ [.hold] } } = .next t ∧
          built t ∧ t.running ≠ none ∧ t.status = s.status ∧ t.regs.inp = { buf := [], bitPos := 0, eof := false } ∧
          t.port.snk = s.port.snk ++ first ∧
          ∀ (second : List Byte) (rest : List HostAction), second.length < 2 ^ 64 →
            let coded := second.takeWhile fun b => (tree.codeOf b).isSome
            ∃ v u : State, step { t with script := .source second :: .answer .ok :: rest } = .next v ∧ step v = .next u ∧
              built u ∧ u.script = rest ∧
              if coded = second ∧ second.length = s.port.src.length then
                ended u { s.status with ok := true } (BitVec.ofNat 64 second.length) second (packBits (codes second))
              else ended u (s.status.raise .inputChanged) 0 second (fullBlocks s.config.block (codes coded)))

/-- R203: DECODE of a stream that starts with the header, the dump and the payload of any tree with an internal root and at
most 256 leaves. It writes the symbols behind the pending bytes, does not use what lies behind the payload, and counts
whole blocks read. Its errors (R174, R221, R263): MISALIGNED before anything else, HEADER_TRUNCATED, BAD_MAGIC after the
header registers are loaded, and the errors of REBUILD_TREE, each with nothing written; and PAYLOAD_TRUNCATED, with the full
blocks written so far kept. -/
def Obligations.DecodeReadsTheStream : Prop :=
  ∀ (s : State) (pending : List Bool), s.running = none →
    (s.regs.out.bitPos % 8 ≠ 0 → exec .decode s = .next (s.released.failed .misaligned)) ∧
    (s.port.Granting → s.port.src.length < 2 ^ 64 →
      s.regs.out = OutSide.of pending → pending.length < 8 * s.config.block → pending.length % 8 = 0 →
      let keeps (t : State) (hdr : HeaderRegs) : Prop :=
        t.running = none ∧ t.regs.hdr = hdr ∧ t.regs.pool.root = NIL ∧ t.regs.pool.count = 0 ∧ t.regs.pool.size = 0 ∧
        t.regs.arg = s.regs.arg ∧ t.regs.hist = s.regs.hist ∧ t.regs.scanCount = s.regs.scanCount ∧
        t.regs.code = s.regs.code ∧ t.regs.table = s.regs.table ∧ t.regs.out.bitPos = 0 ∧
        t.config = s.config ∧ t.script = s.script ∧ t.port.src = s.port.src
      let fails (e : ErrName) (hdr : HeaderRegs) (written : List Byte) : Prop :=
        ∃ t : State, exec .decode s = .next t ∧ keeps t hdr ∧ t.status = s.status.raise e ∧ t.regs.result = 0 ∧
          t.port.snk = s.port.snk ++ written ∧ t.regs.bytesWritten = BitVec.ofNat 64 written.length ∧
          t.regs.bytesRead = BitVec.ofNat 64 t.port.srcPos
      (∀ (l r : CodeTree) (perm : BitVec 16) (leaves : List (Byte × List Bool)) (rest : List Byte),
        (CodeTree.node l r).leaves ≤ 256 → (∀ e ∈ leaves, e ∈ (CodeTree.node l r).codes) → leaves.length < 2 ^ 64 →
        let hdr : HeaderRegs := { magic := s.config.magic, perm := perm,
                                  treeSize := BitVec.ofNat 16 (3 * (CodeTree.node l r).leaves - 1),
                                  fileSize := BitVec.ofNat 64 leaves.length }
        let used := headerBytes hdr.magic hdr.perm hdr.treeSize hdr.fileSize ++ (CodeTree.node l r).dump s.config ++
          packBits (leaves.flatMap (·.2))
        s.port.src = used ++ rest →
        ∃ t : State, exec .decode s = .next t ∧ keeps t hdr ∧ t.status = { s.status with ok := true } ∧
          t.port.snk = s.port.snk ++ packBits pending ++ leaves.map (·.1) ∧
          t.regs.bytesWritten = BitVec.ofNat 64 ((packBits pending).length + leaves.length) ∧
          t.regs.bytesRead = BitVec.ofNat 64 (min s.port.src.length
            (s.config.block * ((used.length + s.config.block - 1) / s.config.block))) ∧
          t.regs.result = BitVec.ofNat 64 leaves.length) ∧
      (s.port.src.length < 14 → fails .headerTruncated s.regs.hdr []) ∧
      ∀ (hdr : HeaderRegs) (rest : List Byte),
        s.port.src = headerBytes hdr.magic hdr.perm hdr.treeSize hdr.fileSize ++ rest →
        (hdr.magic ≠ s.config.magic → fails .badMagic hdr []) ∧
        (hdr.magic = s.config.magic →
          (∀ (ts : List CodeTree) (e : ErrName) (unread : List Byte), ForestFits ts →
            DumpError s.config hdr.treeSize.toNat rest ts e unread → fails e hdr []) ∧
          ∀ (l r : CodeTree) (leaves : List (Byte × List Bool)) (payload : List Byte) (part : List Bool)
            (last : Byte × List Bool),
            (CodeTree.node l r).leaves ≤ 256 → hdr.treeSize.toNat = 3 * (CodeTree.node l r).leaves - 1 →
            rest = (CodeTree.node l r).dump s.config ++ payload → bitsOf payload = leaves.flatMap (·.2) ++ part →
            (∀ e ∈ leaves, e ∈ (CodeTree.node l r).codes) → leaves.length < hdr.fileSize.toNat →
            last ∈ (CodeTree.node l r).codes → part <+: last.2 → part ≠ last.2 →
            fails .payloadTruncated hdr (fullBlocks s.config.block (pending ++ bitsOf (leaves.map (·.1))))))

/-- R204: the round trip. What ENCODE writes for a source, DECODE turns back into exactly that source, on any engine with
the same parameters. -/
def Obligations.RoundTrip : Prop :=
  ∀ (s u : State) (source : List Byte),
    s.running = none → s.regs.out.bitPos = 0 → s.regs.out.buf = [] → s.port.Granting → s.port.src = source →
    source.length + 2 < 2 ^ 64 →
    ∃ (t : State) (stream : List Byte),
      exec .encode s = .next t ∧ t.running = none ∧ t.status = { s.status with ok := true } ∧
      t.port.snk = s.port.snk ++ stream ∧
      (u.config = s.config → u.running = none → u.regs.out.bitPos = 0 → u.regs.out.buf = [] → u.port.Granting →
        u.port.src = stream → stream.length < 2 ^ 64 →
        ∃ v, exec .decode u = .next v ∧ v.running = none ∧ v.status = { u.status with ok := true } ∧
          v.port.snk = u.port.snk ++ source)

/-! ### Errors (60_exceptions.md) -/

/-- R216, R217: every error code, and its kind in the high nibble. -/
def Obligations.ErrorCodes : Prop :=
  ([.badMagic, .headerTruncated, .treeTruncated, .treeBadMarker, .treeLeafSplit, .treeUnderflow, .treeDepth,
    .treeOverflow, .treeDegenerate, .payloadTruncated].map ErrName.code =
      [0x10, 0x11, 0x12, 0x13, 0x14, 0x15, 0x16, 0x17, 0x18, 0x19]) ∧
  ([.pqFull, .pqEmpty, .codeFull, .nodePoolFull, .freqOverflow].map ErrName.code = [0x20, 0x21, 0x22, 0x23, 0x24]) ∧
  ([.srcFail, .snkFail, .inputChanged].map ErrName.code = [0x30, 0x31, 0x32]) ∧
  ([.badOpcode, .reservedBits, .badNode, .nodeHeld, .badCapacity, .noCode, .noRoot, .misaligned, .emptyHistogram,
    .degenerateTree].map ErrName.code = [0x40, 0x41, 0x42, 0x43, 0x44, 0x45, 0x46, 0x47, 0x48, 0x49]) ∧
  (∀ e : ErrName, (kindOfCode e.code).toNat = e.code.toNat / 16)

/-- R27, R218, R220(a), R223: a command that ends either succeeds, and then STATUS keeps its error fields, or has raised
one error, and then the first error is kept, ERR is 1, OK and RESULT are 0 and no output is pending. LAST_OP, OVR and REJ
stay in both cases. SOFT_RESET and CLEAR_ERR, which clear the flags, are stated by their own. -/
def Obligations.ErrorsAreRecorded : Prop :=
  ∀ (i : Instr) (s t : State), s.running = none → i ≠ .softReset → i ≠ .clearErr → exec i s = .next t →
    t.running = none →
    (∃ ok, t.status = { s.status with ok := ok }) ∨
    (∃ e : ErrName, t.status = { s.status with
        err := true, ok := false
        errCode := if s.status.err then s.status.errCode else e.code
        errKind := if s.status.err then s.status.errKind else e.code.extractLsb' 4 4 } ∧
      t.regs.result = 0 ∧ t.regs.out.bitPos = 0)

/-- R221: when ENCODE or DECODE has ended, by success or by any error, no tree and no queue is left. -/
def Obligations.DriversRelease : Prop :=
  ∀ (i : Instr) (s t : State), s.running = none → (i = .encode ∨ i = .decode) → exec i s = .next t →
    t.running = none →
    t.regs.pool.root = NIL ∧ t.regs.pool.count = 0 ∧ t.regs.pool.unique = 0 ∧ t.regs.pool.size = 0 ∧
    (∀ k, t.regs.pool.node k = Node.free) ∧ (∀ j, j < 256 → heapAt t.regs.pool.heap j = NIL)

/-- R72(b), R73, R74, R220, R221: a port request the host answers with FAIL raises SRC_FAIL or SNK_FAIL. Of every command,
at whichever of its requests: the abort is made of the registers and the sink that a command left waiting at that request
shows, so nothing is delivered, appended or counted. The error is SNK_FAIL exactly when granting the request instead
would have changed the sink. The waiting command is the model's form (log entry 4). Six commands of one request are stated
whole first, without it. -/
def Obligations.PortFailuresAreErrors : Prop :=
  (∀ (s : State) (plan : List PortReply), s.running = none → s.port.plan = .fail :: plan →
    let t := { s with port := { s.port with plan := plan } }
    exec .srcRewind s = .next (t.failed .srcFail) ∧
    (8 * s.regs.inp.buf.length ≤ s.regs.inp.bitPos → s.regs.inp.eof = false →
      exec .bitRead s = .next (t.failed .srcFail) ∧
      (s.regs.inp.bitPos % 8 = 0 → exec .byteRead s = .next (t.failed .srcFail))) ∧
    (0 < s.regs.out.bitPos → exec .flush s = .next (t.failed .snkFail)) ∧
    (∀ b, s.regs.out.bitPos + 1 = 8 * s.config.block → exec (.bitWrite b) s = .next (t.failed .snkFail)) ∧
    (∀ v, s.regs.out.bitPos % 8 = 0 → s.regs.out.bitPos + 8 = 8 * s.config.block →
      exec (.byteWrite v) s = .next (t.failed .snkFail))) ∧
  ∀ (i : Instr) (s t : State) (before after : List PortReply), s.running = none → s.port.src.length < 2 ^ 64 →
    s.regs.inp.Wf s.config.block → s.regs.out.Wf s.config.block → (∀ x ∈ before, x ≠ .hold) →
    let replies (plan : List PortReply) (later : PortReply) : State :=
      { s with port := { s.port with plan := plan, later := later } }
    exec i (replies (before ++ .hold :: after) s.port.later) = .next t → t.running ≠ none →
    ∃ e : ErrName, (e = .srcFail ∨ e = .snkFail) ∧
      exec i (replies (before ++ .fail :: after) s.port.later) = .next
        (let u := { t with running := none }
         if i = .encode ∨ i = .decode then u.released.failed e else u.failed e) ∧
      ∀ v, exec i (replies (before ++ [.ok]) .hold) = .next v → (e = .snkFail ↔ v.port.snk ≠ t.port.snk)

/-! ### The whole machine -/

/-- R29, R31, R38, R39, R44 to R48, R135, R216: every step keeps the invariant: counts and positions in their ranges, the
node pool's ownership and order, the queue's heap order, STATUS's error fields. -/
def Obligations.EveryStepKeepsTheInvariant : Prop :=
  ∀ s t : State, s.Inv → step s = .next t → t.Inv

/-- The invariant holds after reset, with any parameters. -/
def Obligations.InvariantAfterReset : Prop :=
  State.reset.Inv ∧ ∀ c : Config, (State.resetWith c).Inv

/-- R26, R28 to R37, R43 to R48: which commands write which registers; whichever way it ends, every other command leaves
them. SOFT_RESET, which writes them all, is stated by its own. -/
def Obligations.WhoWritesWhat : Prop :=
  ∀ (i : Instr) (s t : State), s.running = none → i ≠ .softReset → exec i s = .next t →
    t.regs.arg = s.regs.arg ∧
    ((∀ sym, i ≠ .histAdd sym) → i ∉ [.histClear, .histScan, .histForce, .encode] → t.regs.hist = s.regs.hist) ∧
    (i ∉ [.histScan, .encode] → t.regs.scanCount = s.regs.scanCount) ∧
    (i ∉ [.buildCodes, .encode] → t.regs.table = s.regs.table) ∧
    ((∀ b, i ≠ .codePush b) → i ∉ [.codeClear, .codePop, .buildCodes, .encode] → t.regs.code = s.regs.code) ∧
    (i ∉ [.hdrWrite, .hdrRead, .encode, .decode] → t.regs.hdr = s.regs.hdr) ∧
    (i ∉ [.histScan, .rebuildTree, .hdrRead, .bitRead, .byteRead, .srcRewind, .encodePayload, .decodePayload, .encode,
        .decode] → t.regs.inp = s.regs.inp ∧ t.regs.bytesRead = s.regs.bytesRead ∧ t.port.srcPos = s.port.srcPos) ∧
    ((∀ b, i ≠ .bitWrite b) → (∀ v, i ≠ .codeWrite v ∧ i ≠ .byteWrite v) →
      i ∉ [.dumpTree, .hdrWrite, .flush, .encodePayload, .decodePayload, .encode, .decode] →
      t.regs.bytesWritten = s.regs.bytesWritten ∧ t.port.snk = s.port.snk) ∧
    ((∀ v, i ≠ .nodeLeaf v) → (∀ na nb, i ≠ .nodeJoin na nb) →
      (∀ n, i ≠ .pqCreate n ∧ i ≠ .pqEnqueue n ∧ i ≠ .setRoot n) →
      i ∉ [.nodeReset, .pqDequeue, .buildTree, .rebuildTree, .encode, .decode] →
      { t.regs.pool with stack := s.regs.pool.stack } = s.regs.pool)

/-- R70, R202, R261: no command takes anything back from the sink, and none changes the host's stream. -/
def Obligations.SinkOnlyGrows : Prop :=
  ∀ (i : Instr) (s t : State), exec i s = .next t → s.port.snk <+: t.port.snk ∧ t.port.src = s.port.src

/-- R41, R53: no step changes the parameters. -/
def Obligations.ParametersAreConstant : Prop :=
  ∀ s t : State, step s = .next t → t.config = s.config
end

