-- ==== Sys2Proof/Laws/Bits.lean ====
section
/-! SUPPORT. Byte streams as bit streams (R68): what packing and unpacking give, bit by bit. -/

namespace Sys2Proof.Machine

theorem testBit_ofBits (l : List Bool) (k : Nat) : (ofBits l).testBit k = l.getD k false := by
  induction l generalizing k with
  | nil => simp [ofBits]
  | cons b bs ih =>
    cases k with
    | zero => cases b <;> simp [ofBits, Nat.add_mod]
    | succ k =>
      rw [ofBits, Nat.testBit_succ]
      have : (b.toNat + 2 * ofBits bs) / 2 = ofBits bs := by cases b <;> (simp; try omega)
      rw [this, ih]; simp

/-! ### Packing -/

@[simp] theorem length_packBits (l : List Bool) : (packBits l).length = (l.length + 7) / 8 := by simp [packBits]

@[simp] theorem packBits_nil : packBits [] = [] := rfl

theorem packBits_getLsbD (l : List Bool) (i j : Nat) (hj : j < 8) :
    ((packBits l).getD i 0).getLsbD j = l.getD (8 * i + j) false := by
  by_cases hi : i < (l.length + 7) / 8
  · have h : i < (packBits l).length := by simpa using hi
    rw [List.getD_eq_getElem _ _ h]
    simp only [packBits, List.getElem_map, List.getElem_range, BitVec.getLsbD_ofNat, hj, decide_true, Bool.true_and,
      testBit_ofBits]
    simp only [List.getD_eq_getElem?_getD, List.getElem?_take, hj, if_true, List.getElem?_drop]
  · have h : ¬ i < (packBits l).length := by simpa using hi
    rw [List.getD_eq_default _ _ (by omega), List.getD_eq_default _ _ (by omega)]
    simp

/-- Two byte lists of the same length with the same bits are equal. -/
theorem bytes_ext {a b : List Byte} (hl : a.length = b.length)
    (h : ∀ i j, i < a.length → j < 8 → (a.getD i 0).getLsbD j = (b.getD i 0).getLsbD j) : a = b := by
  refine List.ext_getElem hl fun i ha hb => ?_
  refine BitVec.eq_of_getLsbD_eq fun j hj => ?_
  have := h i j ha hj
  rwa [List.getD_eq_getElem _ _ ha, List.getD_eq_getElem _ _ hb] at this

theorem packBits_append (l m : List Bool) (h : l.length % 8 = 0) : packBits (l ++ m) = packBits l ++ packBits m := by
  have hl : (packBits l).length = l.length / 8 := by simp; omega
  refine bytes_ext (by simp; omega) fun i j hi hj => ?_
  rw [packBits_getLsbD _ _ _ hj]
  by_cases hil : i < l.length / 8
  · rw [List.getD_append _ _ _ _ (by omega), List.getD_append _ _ _ _ (by omega), packBits_getLsbD _ _ _ hj]
  · rw [List.getD_append_right _ _ _ _ (by omega), List.getD_append_right _ _ _ _ (by omega),
      packBits_getLsbD _ _ _ hj, hl]
    congr 1; omega

/-! ### Unpacking -/

@[simp] theorem length_byteBits (b : Byte) : (byteBits b).length = 8 := rfl

theorem byteBits_getD (b : Byte) (j : Nat) : (byteBits b).getD j false = b.getLsbD j := by
  by_cases hj : j < 8
  · rw [List.getD_eq_getElem _ _ (by simpa using hj)]
    simp [byteBits]
  · rw [List.getD_eq_default _ _ (by simp; omega), BitVec.getLsbD_of_ge b j (by omega)]

@[simp] theorem bitsOf_nil : bitsOf [] = [] := rfl

@[simp] theorem bitsOf_cons (b : Byte) (bs : List Byte) : bitsOf (b :: bs) = byteBits b ++ bitsOf bs := by
  simp [bitsOf]

@[simp] theorem bitsOf_append (a b : List Byte) : bitsOf (a ++ b) = bitsOf a ++ bitsOf b := by simp [bitsOf]

@[simp] theorem length_bitsOf (bytes : List Byte) : (bitsOf bytes).length = 8 * bytes.length := by
  induction bytes with
  | nil => rfl
  | cons b bs ih => simp [ih]; omega

theorem bitsOf_getD (bytes : List Byte) (k : Nat) : (bitsOf bytes).getD k false = (bytes.getD (k / 8) 0).getLsbD (k % 8) := by
  induction bytes generalizing k with
  | nil => simp
  | cons b bs ih =>
    rw [bitsOf_cons]
    by_cases hk : k < 8
    · rw [List.getD_append _ _ _ _ (by simpa using hk), byteBits_getD, Nat.div_eq_of_lt hk, Nat.mod_eq_of_lt hk]
      rfl
    · rw [List.getD_append_right _ _ _ _ (by simp; omega), ih]
      have h1 : k / 8 = (k - 8) / 8 + 1 := by omega
      have h2 : (k - 8) % 8 = k % 8 := by omega
      simp [h1, h2]

theorem drop_bitsOf (bytes : List Byte) (n : Nat) : (bitsOf bytes).drop (8 * n) = bitsOf (bytes.drop n) := by
  induction n generalizing bytes with
  | zero => simp
  | succ n ih =>
    cases bytes with
    | nil => simp
    | cons b bs =>
      rw [bitsOf_cons, List.drop_succ_cons, ← ih]
      rw [show 8 * (n + 1) = (byteBits b).length + 8 * n by simp; omega, List.drop_length_add_append]

theorem take_bitsOf (bytes : List Byte) (n : Nat) : (bitsOf bytes).take (8 * n) = bitsOf (bytes.take n) := by
  induction n generalizing bytes with
  | zero => simp
  | succ n ih =>
    cases bytes with
    | nil => simp
    | cons b bs =>
      rw [bitsOf_cons, List.take_succ_cons, bitsOf_cons, ← ih]
      rw [show 8 * (n + 1) = (byteBits b).length + 8 * n by simp; omega, List.take_length_add_append]

@[simp] theorem packBits_bitsOf (bytes : List Byte) : packBits (bitsOf bytes) = bytes := by
  refine bytes_ext (by simp; omega) fun i j _ hj => ?_
  rw [packBits_getLsbD _ _ _ hj, bitsOf_getD]
  congr 2 <;> omega

@[simp] theorem packBits_byteBits (b : Byte) : packBits (byteBits b) = [b] := by
  simpa using packBits_bitsOf [b]

/-- Unpacking packed bits gives them back, with the zero padding of the last byte (R68). -/
theorem bitsOf_packBits (l : List Bool) : bitsOf (packBits l) = l ++ List.replicate ((8 - l.length % 8) % 8) false := by
  refine List.ext_getElem (by simp; omega) fun k h1 h2 => ?_
  rw [← List.getD_eq_getElem _ false h1, ← List.getD_eq_getElem _ false h2, bitsOf_getD,
    packBits_getLsbD _ _ _ (Nat.mod_lt _ (by omega)), Nat.div_add_mod]
  by_cases hk : k < l.length
  · rw [List.getD_append _ _ _ _ hk]
  · rw [List.getD_append_right _ _ _ _ (by omega), List.getD_eq_default _ _ (by omega)]
    simp [List.getD_eq_getElem?_getD, List.getElem?_replicate]
    split <;> rfl

theorem bitsOf_injective {a b : List Byte} (h : bitsOf a = bitsOf b) : a = b := by
  simpa using congrArg packBits h

end Sys2Proof.Machine
end

