-- ==== Sys2Proof/Laws/Proc.lean ====
section
/-! SUPPORT. How a procedure runs on a context: one lemma for each way a procedure is built, all of them simp lemmas, so
that a command's body runs by simp; and the rule that carries an invariant through a procedure. -/

namespace Sys2Proof.Machine

variable {α β : Type}

/-! ### Running -/

@[simp] theorem bind_apply (p : Proc α) (f : α → Proc β) (c : Ctx) :
    (p >>= f) c = match p c with
      | .ok a c' => f a c'
      | .error e c' => .error e c' := by
  change EStateM.bind p f c = _
  unfold EStateM.bind
  cases p c <;> rfl

@[simp] theorem map_apply (f : α → β) (p : Proc α) (c : Ctx) :
    (f <$> p) c = match p c with
      | .ok a c' => .ok (f a) c'
      | .error e c' => .error e c' := by
  change EStateM.map f p c = _
  unfold EStateM.map
  cases p c <;> rfl

@[simp] theorem pure_apply (a : α) (c : Ctx) : (pure a : Proc α) c = .ok a c := rfl

@[simp] theorem throw_apply (e : Stop) (c : Ctx) : (throw e : Proc α) c = .error e c := rfl

@[simp] theorem get_apply (c : Ctx) : (get : Proc Ctx) c = .ok c c := rfl

@[simp] theorem set_apply (c c' : Ctx) : (set c' : Proc Unit) c = .ok () c' := rfl

@[simp] theorem ite_apply' (b : Prop) [Decidable b] (p q : Proc α) (c : Ctx) :
    (if b then p else q) c = if b then p c else q c := by
  split <;> rfl

@[simp] theorem raise_apply (e : ErrName) (c : Ctx) : (raise e : Proc α) c = .error (.raised e) c := rfl

@[simp] theorem getRegs_apply (c : Ctx) : getRegs c = .ok c.regs c := rfl

@[simp] theorem getConfig_apply (c : Ctx) : getConfig c = .ok c.config c := rfl

@[simp] theorem modifyRegs_apply (f : Regs → Regs) (c : Ctx) :
    modifyRegs f c = .ok () { c with regs := f c.regs } := rfl

@[simp] theorem modifyPool_apply (f : Pool → Pool) (c : Ctx) :
    modifyPool f c = .ok () { c with regs := { c.regs with pool := f c.regs.pool } } := rfl

@[simp] theorem require_apply (b : Bool) (e : ErrName) (c : Ctx) :
    require b e c = if b then .ok () c else .error (.raised e) c := by
  unfold require
  split <;> rfl

/-! ### Carrying a property through a procedure -/

/-- From a context with P, the procedure ends in one with Q (and its value), or stops in one with E. -/
def Triple (P : Ctx → Prop) (p : Proc α) (Q : α → Ctx → Prop) (E : Stop → Ctx → Prop) : Prop :=
  ∀ c, P c → match p c with
    | .ok a c' => Q a c'
    | .error e c' => E e c'

/-- The procedure keeps P, however it ends. -/
abbrev Keeps (P : Ctx → Prop) (p : Proc α) : Prop := Triple P p (fun _ => P) (fun _ => P)

namespace Triple

variable {P P' : Ctx → Prop} {Q Q' : α → Ctx → Prop} {R : β → Ctx → Prop} {E E' : Stop → Ctx → Prop}

theorem pure (a : α) (h : ∀ c, P c → Q a c) : Triple P (Pure.pure a : Proc α) Q E := h

theorem raise (e : ErrName) (h : ∀ c, P c → E (.raised e) c) : Triple P (Machine.raise e : Proc α) Q E := h

theorem throw (e : Stop) (h : ∀ c, P c → E e c) : Triple P (MonadExcept.throw e : Proc α) Q E := h

theorem bind {p : Proc α} {f : α → Proc β} (hp : Triple P p Q E) (hf : ∀ a, Triple (Q a) (f a) R E) :
    Triple P (p >>= f) R E := by
  intro c hc
  have h := hp c hc
  rw [bind_apply]
  cases hpc : p c with
  | ok a c' => rw [hpc] at h; exact hf a c' h
  | error e c' => rw [hpc] at h; exact h

theorem map {p : Proc α} (f : α → β) (hp : Triple P p (fun a => R (f a)) E) : Triple P (f <$> p) R E := by
  intro c hc
  have h := hp c hc
  rw [map_apply]
  cases hpc : p c <;> rw [hpc] at h <;> exact h

theorem ite {b : Prop} [Decidable b] {p q : Proc α} (hp : b → Triple P p Q E) (hq : ¬b → Triple P q Q E) :
    Triple P (if b then p else q) Q E := by
  split <;> rename_i hb
  · exact hp hb
  · exact hq hb

theorem conseq {p : Proc α} (h : Triple P p Q E) (hP : ∀ c, P' c → P c) (hQ : ∀ a c, Q a c → Q' a c)
    (hE : ∀ e c, E e c → E' e c) : Triple P' p Q' E' := by
  intro c hc
  have h' := h c (hP c hc)
  cases hpc : p c <;> rw [hpc] at h' <;> simp only
  · exact hQ _ _ h'
  · exact hE _ _ h'

theorem modifyRegs {Q : Unit → Ctx → Prop} (f : Regs → Regs) (h : ∀ c, P c → Q () { c with regs := f c.regs }) :
    Triple P (Machine.modifyRegs f) Q E := h

theorem require {Q : Unit → Ctx → Prop} (b : Bool) (e : ErrName) (hb : ∀ c, P c → b = true → Q () c)
    (he : ∀ c, P c → b = false → E (.raised e) c) : Triple P (Machine.require b e) Q E := by
  intro c hc
  rw [require_apply]
  cases b with
  | true => exact hb c hc rfl
  | false => exact he c hc rfl

end Triple

end Sys2Proof.Machine
end

