-- ==== Sys2Proof/Laws/State.lean ====
section
/-! SUPPORT. What each update of the state does to each field, so that no later proof unfolds a record update. -/

namespace Sys2Proof.Machine

variable (p : Pool) (r : Regs) (s : State) (c : Ctx)

/-! ### Pool -/

@[simp] theorem Pool.setNode_nodes (i : Nat) (n : Node) : (p.setNode i n).nodes = p.nodes.setIfInBounds i n := rfl
@[simp] theorem Pool.setNode_count (i : Nat) (n : Node) : (p.setNode i n).count = p.count := rfl
@[simp] theorem Pool.setNode_root (i : Nat) (n : Node) : (p.setNode i n).root = p.root := rfl
@[simp] theorem Pool.setNode_unique (i : Nat) (n : Node) : (p.setNode i n).unique = p.unique := rfl
@[simp] theorem Pool.setNode_heap (i : Nat) (n : Node) : (p.setNode i n).heap = p.heap := rfl
@[simp] theorem Pool.setNode_size (i : Nat) (n : Node) : (p.setNode i n).size = p.size := rfl
@[simp] theorem Pool.setNode_cap (i : Nat) (n : Node) : (p.setNode i n).cap = p.cap := rfl
@[simp] theorem Pool.setNode_stack (i : Nat) (n : Node) : (p.setNode i n).stack = p.stack := rfl

@[simp] theorem Pool.setHeld_nodes (i : Nat) (h : Held) : (p.setHeld i h).nodes = p.nodes.setIfInBounds i { p.node i with held := h } := rfl
@[simp] theorem Pool.setHeld_count (i : Nat) (h : Held) : (p.setHeld i h).count = p.count := rfl
@[simp] theorem Pool.setHeld_root (i : Nat) (h : Held) : (p.setHeld i h).root = p.root := rfl
@[simp] theorem Pool.setHeld_unique (i : Nat) (h : Held) : (p.setHeld i h).unique = p.unique := rfl
@[simp] theorem Pool.setHeld_heap (i : Nat) (h : Held) : (p.setHeld i h).heap = p.heap := rfl
@[simp] theorem Pool.setHeld_size (i : Nat) (h : Held) : (p.setHeld i h).size = p.size := rfl
@[simp] theorem Pool.setHeld_cap (i : Nat) (h : Held) : (p.setHeld i h).cap = p.cap := rfl
@[simp] theorem Pool.setHeld_stack (i : Nat) (h : Held) : (p.setHeld i h).stack = p.stack := rfl

@[simp] theorem Pool.grown_nodes (n : Node) : (p.grown n).nodes = p.nodes.setIfInBounds p.count n := rfl
@[simp] theorem Pool.grown_count (n : Node) : (p.grown n).count = p.count + 1 := rfl
@[simp] theorem Pool.grown_root (n : Node) : (p.grown n).root = p.root := rfl
@[simp] theorem Pool.grown_unique (n : Node) : (p.grown n).unique = p.unique := rfl
@[simp] theorem Pool.grown_heap (n : Node) : (p.grown n).heap = p.heap := rfl
@[simp] theorem Pool.grown_size (n : Node) : (p.grown n).size = p.size := rfl
@[simp] theorem Pool.grown_cap (n : Node) : (p.grown n).cap = p.cap := rfl
@[simp] theorem Pool.grown_stack (n : Node) : (p.grown n).stack = p.stack := rfl

@[simp] theorem Pool.cleared_nodes : (p.cleared).nodes = Vector.replicate 511 Node.free := rfl
@[simp] theorem Pool.cleared_count : (p.cleared).count = 0 := rfl
@[simp] theorem Pool.cleared_root : (p.cleared).root = NIL := rfl
@[simp] theorem Pool.cleared_unique : (p.cleared).unique = 0 := rfl
@[simp] theorem Pool.cleared_heap : (p.cleared).heap = Vector.replicate 256 NIL := rfl
@[simp] theorem Pool.cleared_size : (p.cleared).size = 0 := rfl
@[simp] theorem Pool.cleared_cap : (p.cleared).cap = p.cap := rfl
@[simp] theorem Pool.cleared_stack : (p.cleared).stack = p.stack := rfl

@[simp] theorem Pool.heapInsert_nodes (x : Nat) : (p.heapInsert x).nodes = p.nodes.setIfInBounds x { p.node x with held := .pq } := rfl
@[simp] theorem Pool.heapInsert_count (x : Nat) : (p.heapInsert x).count = p.count := rfl
@[simp] theorem Pool.heapInsert_root (x : Nat) : (p.heapInsert x).root = p.root := rfl
@[simp] theorem Pool.heapInsert_unique (x : Nat) : (p.heapInsert x).unique = p.unique := rfl
@[simp] theorem Pool.heapInsert_heap (x : Nat) : (p.heapInsert x).heap = siftUp p p.size (p.heap.setIfInBounds p.size x) p.size := rfl
@[simp] theorem Pool.heapInsert_size (x : Nat) : (p.heapInsert x).size = p.size + 1 := rfl
@[simp] theorem Pool.heapInsert_cap (x : Nat) : (p.heapInsert x).cap = p.cap := rfl
@[simp] theorem Pool.heapInsert_stack (x : Nat) : (p.heapInsert x).stack = p.stack := rfl

@[simp] theorem Pool.heapExtract_nodes : (p.heapExtract).nodes = p.nodes.setIfInBounds p.heapTop { p.node p.heapTop with held := .unowned } := rfl
@[simp] theorem Pool.heapExtract_count : (p.heapExtract).count = p.count := rfl
@[simp] theorem Pool.heapExtract_root : (p.heapExtract).root = p.root := rfl
@[simp] theorem Pool.heapExtract_unique : (p.heapExtract).unique = p.unique := rfl
@[simp] theorem Pool.heapExtract_size : (p.heapExtract).size = p.size - 1 := rfl
@[simp] theorem Pool.heapExtract_cap : (p.heapExtract).cap = p.cap := rfl
@[simp] theorem Pool.heapExtract_stack : (p.heapExtract).stack = p.stack := rfl

@[simp] theorem Pool.adopt_count (i j : Nat) : (p.adopt i j).count = p.count := rfl
@[simp] theorem Pool.adopt_root (i j : Nat) : (p.adopt i j).root = p.root := rfl
@[simp] theorem Pool.adopt_unique (i j : Nat) : (p.adopt i j).unique = p.unique := rfl
@[simp] theorem Pool.adopt_heap (i j : Nat) : (p.adopt i j).heap = p.heap := rfl
@[simp] theorem Pool.adopt_size (i j : Nat) : (p.adopt i j).size = p.size := rfl
@[simp] theorem Pool.adopt_cap (i j : Nat) : (p.adopt i j).cap = p.cap := rfl
@[simp] theorem Pool.adopt_stack (i j : Nat) : (p.adopt i j).stack = p.stack := rfl

@[simp] theorem Pool.makeRoot_nodes (x : Nat) : (p.makeRoot x).nodes = p.nodes.setIfInBounds x { p.node x with held := .root } := rfl
@[simp] theorem Pool.makeRoot_count (x : Nat) : (p.makeRoot x).count = p.count := rfl
@[simp] theorem Pool.makeRoot_root (x : Nat) : (p.makeRoot x).root = x := rfl
@[simp] theorem Pool.makeRoot_unique (x : Nat) : (p.makeRoot x).unique = (p.setHeld x .root).leaves x := rfl
@[simp] theorem Pool.makeRoot_heap (x : Nat) : (p.makeRoot x).heap = p.heap := rfl
@[simp] theorem Pool.makeRoot_size (x : Nat) : (p.makeRoot x).size = p.size := rfl
@[simp] theorem Pool.makeRoot_cap (x : Nat) : (p.makeRoot x).cap = p.cap := rfl
@[simp] theorem Pool.makeRoot_stack (x : Nat) : (p.makeRoot x).stack = p.stack := rfl

@[simp] theorem Pool.pushStack_nodes (x : Nat) : (p.pushStack x).nodes = p.nodes := rfl
@[simp] theorem Pool.pushStack_count (x : Nat) : (p.pushStack x).count = p.count := rfl
@[simp] theorem Pool.pushStack_root (x : Nat) : (p.pushStack x).root = p.root := rfl
@[simp] theorem Pool.pushStack_unique (x : Nat) : (p.pushStack x).unique = p.unique := rfl
@[simp] theorem Pool.pushStack_heap (x : Nat) : (p.pushStack x).heap = p.heap := rfl
@[simp] theorem Pool.pushStack_size (x : Nat) : (p.pushStack x).size = p.size := rfl
@[simp] theorem Pool.pushStack_cap (x : Nat) : (p.pushStack x).cap = p.cap := rfl
@[simp] theorem Pool.pushStack_stack (x : Nat) : (p.pushStack x).stack = x :: p.stack := rfl

@[simp] theorem Pool.releaseQueued_frame (n : Nat) :
    { p.releaseQueued n with nodes := p.nodes } = p := by
  induction n with
  | zero => rfl
  | succ n ih => simpa [Pool.releaseQueued, Pool.setHeld, Pool.setNode] using ih

/-! ### Registers -/

@[simp] theorem Regs.setHist_arg (b : Byte) (v : Word) : (r.setHist b v).arg = r.arg := rfl
@[simp] theorem Regs.setHist_result (b : Byte) (v : Word) : (r.setHist b v).result = r.result := rfl
@[simp] theorem Regs.setHist_hist (b : Byte) (v : Word) : (r.setHist b v).hist = r.hist.setIfInBounds b.toNat v := rfl
@[simp] theorem Regs.setHist_scanCount (b : Byte) (v : Word) : (r.setHist b v).scanCount = r.scanCount := rfl
@[simp] theorem Regs.setHist_pool (b : Byte) (v : Word) : (r.setHist b v).pool = r.pool := rfl
@[simp] theorem Regs.setHist_code (b : Byte) (v : Word) : (r.setHist b v).code = r.code := rfl
@[simp] theorem Regs.setHist_table (b : Byte) (v : Word) : (r.setHist b v).table = r.table := rfl
@[simp] theorem Regs.setHist_hdr (b : Byte) (v : Word) : (r.setHist b v).hdr = r.hdr := rfl
@[simp] theorem Regs.setHist_out (b : Byte) (v : Word) : (r.setHist b v).out = r.out := rfl
@[simp] theorem Regs.setHist_inp (b : Byte) (v : Word) : (r.setHist b v).inp = r.inp := rfl
@[simp] theorem Regs.setHist_bytesRead (b : Byte) (v : Word) : (r.setHist b v).bytesRead = r.bytesRead := rfl
@[simp] theorem Regs.setHist_bytesWritten (b : Byte) (v : Word) : (r.setHist b v).bytesWritten = r.bytesWritten := rfl

@[simp] theorem Regs.bumpHist_arg (b : Byte) : (r.bumpHist b).arg = r.arg := rfl
@[simp] theorem Regs.bumpHist_result (b : Byte) : (r.bumpHist b).result = r.result := rfl
@[simp] theorem Regs.bumpHist_hist (b : Byte) : (r.bumpHist b).hist = r.hist.setIfInBounds b.toNat (r.histAt b + 1) := rfl
@[simp] theorem Regs.bumpHist_scanCount (b : Byte) : (r.bumpHist b).scanCount = r.scanCount := rfl
@[simp] theorem Regs.bumpHist_pool (b : Byte) : (r.bumpHist b).pool = r.pool := rfl
@[simp] theorem Regs.bumpHist_code (b : Byte) : (r.bumpHist b).code = r.code := rfl
@[simp] theorem Regs.bumpHist_table (b : Byte) : (r.bumpHist b).table = r.table := rfl
@[simp] theorem Regs.bumpHist_hdr (b : Byte) : (r.bumpHist b).hdr = r.hdr := rfl
@[simp] theorem Regs.bumpHist_out (b : Byte) : (r.bumpHist b).out = r.out := rfl
@[simp] theorem Regs.bumpHist_inp (b : Byte) : (r.bumpHist b).inp = r.inp := rfl
@[simp] theorem Regs.bumpHist_bytesRead (b : Byte) : (r.bumpHist b).bytesRead = r.bytesRead := rfl
@[simp] theorem Regs.bumpHist_bytesWritten (b : Byte) : (r.bumpHist b).bytesWritten = r.bytesWritten := rfl

@[simp] theorem Regs.scanned_arg (b : Byte) : (r.scanned b).arg = r.arg := rfl
@[simp] theorem Regs.scanned_result (b : Byte) : (r.scanned b).result = r.result := rfl
@[simp] theorem Regs.scanned_hist (b : Byte) : (r.scanned b).hist = r.hist.setIfInBounds b.toNat (r.histAt b + 1) := rfl
@[simp] theorem Regs.scanned_scanCount (b : Byte) : (r.scanned b).scanCount = r.scanCount + 1 := rfl
@[simp] theorem Regs.scanned_pool (b : Byte) : (r.scanned b).pool = r.pool := rfl
@[simp] theorem Regs.scanned_code (b : Byte) : (r.scanned b).code = r.code := rfl
@[simp] theorem Regs.scanned_table (b : Byte) : (r.scanned b).table = r.table := rfl
@[simp] theorem Regs.scanned_hdr (b : Byte) : (r.scanned b).hdr = r.hdr := rfl
@[simp] theorem Regs.scanned_out (b : Byte) : (r.scanned b).out = r.out := rfl
@[simp] theorem Regs.scanned_inp (b : Byte) : (r.scanned b).inp = r.inp := rfl
@[simp] theorem Regs.scanned_bytesRead (b : Byte) : (r.scanned b).bytesRead = r.bytesRead := rfl
@[simp] theorem Regs.scanned_bytesWritten (b : Byte) : (r.scanned b).bytesWritten = r.bytesWritten := rfl

@[simp] theorem Regs.nodeReset_arg : (r.nodeReset).arg = r.arg := rfl
@[simp] theorem Regs.nodeReset_result : (r.nodeReset).result = r.result := rfl
@[simp] theorem Regs.nodeReset_hist : (r.nodeReset).hist = r.hist := rfl
@[simp] theorem Regs.nodeReset_scanCount : (r.nodeReset).scanCount = r.scanCount := rfl
@[simp] theorem Regs.nodeReset_pool : (r.nodeReset).pool = r.pool.cleared := rfl
@[simp] theorem Regs.nodeReset_code : (r.nodeReset).code = r.code := rfl
@[simp] theorem Regs.nodeReset_table : (r.nodeReset).table = r.table := rfl
@[simp] theorem Regs.nodeReset_hdr : (r.nodeReset).hdr = r.hdr := rfl
@[simp] theorem Regs.nodeReset_out : (r.nodeReset).out = r.out := rfl
@[simp] theorem Regs.nodeReset_inp : (r.nodeReset).inp = r.inp := rfl
@[simp] theorem Regs.nodeReset_bytesRead : (r.nodeReset).bytesRead = r.bytesRead := rfl
@[simp] theorem Regs.nodeReset_bytesWritten : (r.nodeReset).bytesWritten = r.bytesWritten := rfl

@[simp] theorem Regs.emptyOut_arg : (r.emptyOut).arg = r.arg := rfl
@[simp] theorem Regs.emptyOut_result : (r.emptyOut).result = r.result := rfl
@[simp] theorem Regs.emptyOut_hist : (r.emptyOut).hist = r.hist := rfl
@[simp] theorem Regs.emptyOut_scanCount : (r.emptyOut).scanCount = r.scanCount := rfl
@[simp] theorem Regs.emptyOut_pool : (r.emptyOut).pool = r.pool := rfl
@[simp] theorem Regs.emptyOut_code : (r.emptyOut).code = r.code := rfl
@[simp] theorem Regs.emptyOut_table : (r.emptyOut).table = r.table := rfl
@[simp] theorem Regs.emptyOut_hdr : (r.emptyOut).hdr = r.hdr := rfl
@[simp] theorem Regs.emptyOut_out : (r.emptyOut).out = OutSide.empty := rfl
@[simp] theorem Regs.emptyOut_inp : (r.emptyOut).inp = r.inp := rfl
@[simp] theorem Regs.emptyOut_bytesRead : (r.emptyOut).bytesRead = r.bytesRead := rfl
@[simp] theorem Regs.emptyOut_bytesWritten : (r.emptyOut).bytesWritten = r.bytesWritten := rfl

@[simp] theorem Regs.record_arg (b : Byte) : (r.record b).arg = r.arg := rfl
@[simp] theorem Regs.record_result (b : Byte) : (r.record b).result = r.result := rfl
@[simp] theorem Regs.record_hist (b : Byte) : (r.record b).hist = r.hist := rfl
@[simp] theorem Regs.record_scanCount (b : Byte) : (r.record b).scanCount = r.scanCount := rfl
@[simp] theorem Regs.record_pool (b : Byte) : (r.record b).pool = r.pool := rfl
@[simp] theorem Regs.record_code (b : Byte) : (r.record b).code = r.code := rfl
@[simp] theorem Regs.record_table (b : Byte) : (r.record b).table = r.table.setIfInBounds b.toNat { valid := true, len := r.code.len, bits := r.code.bits } := rfl
@[simp] theorem Regs.record_hdr (b : Byte) : (r.record b).hdr = r.hdr := rfl
@[simp] theorem Regs.record_out (b : Byte) : (r.record b).out = r.out := rfl
@[simp] theorem Regs.record_inp (b : Byte) : (r.record b).inp = r.inp := rfl
@[simp] theorem Regs.record_bytesRead (b : Byte) : (r.record b).bytesRead = r.bytesRead := rfl
@[simp] theorem Regs.record_bytesWritten (b : Byte) : (r.record b).bytesWritten = r.bytesWritten := rfl

@[simp] theorem Regs.clearCodes_arg : (r.clearCodes).arg = r.arg := rfl
@[simp] theorem Regs.clearCodes_result : (r.clearCodes).result = r.result := rfl
@[simp] theorem Regs.clearCodes_hist : (r.clearCodes).hist = r.hist := rfl
@[simp] theorem Regs.clearCodes_scanCount : (r.clearCodes).scanCount = r.scanCount := rfl
@[simp] theorem Regs.clearCodes_pool : (r.clearCodes).pool = r.pool := rfl
@[simp] theorem Regs.clearCodes_code : (r.clearCodes).code = Code.empty := rfl
@[simp] theorem Regs.clearCodes_table : (r.clearCodes).table = Vector.replicate 256 CodeEntry.invalid := rfl
@[simp] theorem Regs.clearCodes_hdr : (r.clearCodes).hdr = r.hdr := rfl
@[simp] theorem Regs.clearCodes_out : (r.clearCodes).out = r.out := rfl
@[simp] theorem Regs.clearCodes_inp : (r.clearCodes).inp = r.inp := rfl
@[simp] theorem Regs.clearCodes_bytesRead : (r.clearCodes).bytesRead = r.bytesRead := rfl
@[simp] theorem Regs.clearCodes_bytesWritten : (r.clearCodes).bytesWritten = r.bytesWritten := rfl

@[simp] theorem Regs.sizeHeader_arg : (r.sizeHeader).arg = r.arg := rfl
@[simp] theorem Regs.sizeHeader_result : (r.sizeHeader).result = r.result := rfl
@[simp] theorem Regs.sizeHeader_hist : (r.sizeHeader).hist = r.hist := rfl
@[simp] theorem Regs.sizeHeader_scanCount : (r.sizeHeader).scanCount = r.scanCount := rfl
@[simp] theorem Regs.sizeHeader_pool : (r.sizeHeader).pool = r.pool := rfl
@[simp] theorem Regs.sizeHeader_code : (r.sizeHeader).code = r.code := rfl
@[simp] theorem Regs.sizeHeader_table : (r.sizeHeader).table = r.table := rfl
@[simp] theorem Regs.sizeHeader_hdr : (r.sizeHeader).hdr = { r.hdr with fileSize := r.scanCount, treeSize := BitVec.ofNat 16 (3 * r.pool.unique - 1) } := rfl
@[simp] theorem Regs.sizeHeader_out : (r.sizeHeader).out = r.out := rfl
@[simp] theorem Regs.sizeHeader_inp : (r.sizeHeader).inp = r.inp := rfl
@[simp] theorem Regs.sizeHeader_bytesRead : (r.sizeHeader).bytesRead = r.bytesRead := rfl
@[simp] theorem Regs.sizeHeader_bytesWritten : (r.sizeHeader).bytesWritten = r.bytesWritten := rfl

@[simp] theorem Regs.aborted_arg (b : Bool) : (r.aborted b).arg = r.arg := rfl
@[simp] theorem Regs.aborted_result (b : Bool) : (r.aborted b).result = 0 := rfl
@[simp] theorem Regs.aborted_hist (b : Bool) : (r.aborted b).hist = r.hist := rfl
@[simp] theorem Regs.aborted_scanCount (b : Bool) : (r.aborted b).scanCount = r.scanCount := rfl
@[simp] theorem Regs.aborted_pool (b : Bool) : (r.aborted b).pool = { (if b then r.pool.cleared else r.pool) with stack := [] } := rfl
@[simp] theorem Regs.aborted_code (b : Bool) : (r.aborted b).code = r.code := rfl
@[simp] theorem Regs.aborted_table (b : Bool) : (r.aborted b).table = r.table := rfl
@[simp] theorem Regs.aborted_hdr (b : Bool) : (r.aborted b).hdr = r.hdr := rfl
@[simp] theorem Regs.aborted_out (b : Bool) : (r.aborted b).out = OutSide.empty := rfl
@[simp] theorem Regs.aborted_inp (b : Bool) : (r.aborted b).inp = r.inp := rfl
@[simp] theorem Regs.aborted_bytesRead (b : Bool) : (r.aborted b).bytesRead = r.bytesRead := rfl
@[simp] theorem Regs.aborted_bytesWritten (b : Bool) : (r.aborted b).bytesWritten = r.bytesWritten := rfl

/-! ### The whole state -/

@[simp] theorem State.finish_config (a : Answer) : (s.finish c a).config = s.config := rfl
@[simp] theorem State.finish_status (a : Answer) : (s.finish c a).status = s.status.finish a.1 := rfl
@[simp] theorem State.finish_regs (a : Answer) : (s.finish c a).regs = { c.regs with result := a.2 } := rfl
@[simp] theorem State.finish_running (a : Answer) : (s.finish c a).running = none := rfl
@[simp] theorem State.finish_port (a : Answer) : (s.finish c a).port = c.port := rfl
@[simp] theorem State.finish_script (a : Answer) : (s.finish c a).script = s.script := rfl
@[simp] theorem State.finish_lastRead (a : Answer) : (s.finish c a).lastRead = s.lastRead := rfl
@[simp] theorem State.finish_draws (a : Answer) : (s.finish c a).draws = s.draws := rfl

@[simp] theorem State.abort_config (b : Bool) (e : ErrName) : (s.abort b e c).config = s.config := rfl
@[simp] theorem State.abort_status (b : Bool) (e : ErrName) : (s.abort b e c).status = s.status.raise e := rfl
@[simp] theorem State.abort_regs (b : Bool) (e : ErrName) : (s.abort b e c).regs = c.regs.aborted b := rfl
@[simp] theorem State.abort_running (b : Bool) (e : ErrName) : (s.abort b e c).running = none := rfl
@[simp] theorem State.abort_port (b : Bool) (e : ErrName) : (s.abort b e c).port = c.port := rfl
@[simp] theorem State.abort_script (b : Bool) (e : ErrName) : (s.abort b e c).script = s.script := rfl
@[simp] theorem State.abort_lastRead (b : Bool) (e : ErrName) : (s.abort b e c).lastRead = s.lastRead := rfl
@[simp] theorem State.abort_draws (b : Bool) (e : ErrName) : (s.abort b e c).draws = s.draws := rfl

@[simp] theorem State.wait_config (i : Instr) (q : Regs) : (s.wait i q c).config = s.config := rfl
@[simp] theorem State.wait_status (i : Instr) (q : Regs) : (s.wait i q c).status = s.status := rfl
@[simp] theorem State.wait_regs (i : Instr) (q : Regs) : (s.wait i q c).regs = c.regs := rfl
@[simp] theorem State.wait_running (i : Instr) (q : Regs) : (s.wait i q c).running = some { cmd := i, start := q, answered := c.given } := rfl
@[simp] theorem State.wait_port (i : Instr) (q : Regs) : (s.wait i q c).port = c.port := rfl
@[simp] theorem State.wait_script (i : Instr) (q : Regs) : (s.wait i q c).script = s.script := rfl
@[simp] theorem State.wait_lastRead (i : Instr) (q : Regs) : (s.wait i q c).lastRead = s.lastRead := rfl
@[simp] theorem State.wait_draws (i : Instr) (q : Regs) : (s.wait i q c).draws = s.draws := rfl

@[simp] theorem State.hardReset_config : (s.hardReset).config = s.config := rfl
@[simp] theorem State.hardReset_status : (s.hardReset).status = Status.reset := rfl
@[simp] theorem State.hardReset_regs : (s.hardReset).regs = Regs.reset := rfl
@[simp] theorem State.hardReset_running : (s.hardReset).running = none := rfl
@[simp] theorem State.hardReset_port : (s.hardReset).port = s.port := rfl
@[simp] theorem State.hardReset_script : (s.hardReset).script = s.script := rfl
@[simp] theorem State.hardReset_lastRead : (s.hardReset).lastRead = s.lastRead := rfl
@[simp] theorem State.hardReset_draws : (s.hardReset).draws = s.draws := rfl

@[simp] theorem State.done_config (ok : Bool) (v : Word) : (s.done ok v).config = s.config := rfl
@[simp] theorem State.done_status (ok : Bool) (v : Word) : (s.done ok v).status = { s.status with ok := ok } := rfl
@[simp] theorem State.done_regs (ok : Bool) (v : Word) : (s.done ok v).regs = { s.regs with result := v } := rfl
@[simp] theorem State.done_running (ok : Bool) (v : Word) : (s.done ok v).running = s.running := rfl
@[simp] theorem State.done_port (ok : Bool) (v : Word) : (s.done ok v).port = s.port := rfl
@[simp] theorem State.done_script (ok : Bool) (v : Word) : (s.done ok v).script = s.script := rfl
@[simp] theorem State.done_lastRead (ok : Bool) (v : Word) : (s.done ok v).lastRead = s.lastRead := rfl
@[simp] theorem State.done_draws (ok : Bool) (v : Word) : (s.done ok v).draws = s.draws := rfl

variable {s}

@[simp] theorem State.startRegs_idle (h : s.running = none) : s.startRegs = s.regs := by simp [State.startRegs, h]

@[simp] theorem State.answered_idle (h : s.running = none) : s.answered = [] := by simp [State.answered, h]

theorem State.ctx_idle (h : s.running = none) :
    s.ctx = { config := s.config, regs := s.regs, port := s.port, replay := [], given := [] } := by
  simp [State.ctx, h]

end Sys2Proof.Machine
end

