-- ==== Sys2Proof/Laws/Runs.lean ====
section
/-! SUPPORT. What a procedure does when it is run afresh, with no answers to find again: it ends with a value (`Runs`) or
raises an error (`Fails`), from registers and a host's side to others. The rules are stated for the first statement of a
procedure, so that simp runs a body statement by statement, and each loop or port procedure adds its own. -/

namespace Sys2Proof.Machine

variable {α β : Type} {cfg : Config} {r r' r1 : Regs} {q q' q1 : Ports}

/-- From registers r and a host's side q, the procedure ends with the value a, registers r' and a host's side q'. -/
def Runs (p : Proc α) (cfg : Config) (r : Regs) (q : Ports) (a : α) (r' : Regs) (q' : Ports) : Prop :=
  ∀ g, ∃ g', p ⟨cfg, r, q, [], g⟩ = .ok a ⟨cfg, r', q', [], g'⟩

/-- From registers r and a host's side q, the procedure raises e with registers r' and a host's side q'. -/
def Fails (p : Proc α) (cfg : Config) (r : Regs) (q : Ports) (e : ErrName) (r' : Regs) (q' : Ports) : Prop :=
  ∀ g, ∃ g', p ⟨cfg, r, q, [], g⟩ = .error (.raised e) ⟨cfg, r', q', [], g'⟩

/-! ### Sequences -/

theorem Runs.bind {p : Proc α} {f : α → Proc β} {a : α} {b : β} (hp : Runs p cfg r q a r1 q1)
    (hf : Runs (f a) cfg r1 q1 b r' q') : Runs (p >>= f) cfg r q b r' q' := by
  intro g
  obtain ⟨g1, h1⟩ := hp g
  obtain ⟨g2, h2⟩ := hf g1
  exact ⟨g2, by rw [bind_apply, h1]; exact h2⟩

theorem Runs.bind_fails {p : Proc α} {f : α → Proc β} {a : α} {e : ErrName} (hp : Runs p cfg r q a r1 q1)
    (hf : Fails (f a) cfg r1 q1 e r' q') : Fails (p >>= f) cfg r q e r' q' := by
  intro g
  obtain ⟨g1, h1⟩ := hp g
  obtain ⟨g2, h2⟩ := hf g1
  exact ⟨g2, by rw [bind_apply, h1]; exact h2⟩

theorem Fails.bind {p : Proc α} {f : α → Proc β} {e : ErrName} (hp : Fails p cfg r q e r' q') :
    Fails (p >>= f) cfg r q e r' q' := by
  intro g
  obtain ⟨g1, h1⟩ := hp g
  exact ⟨g1, by rw [bind_apply, h1]⟩

theorem Runs.map {p : Proc α} {a : α} (f : α → β) (hp : Runs p cfg r q a r' q') :
    Runs (f <$> p) cfg r q (f a) r' q' := by
  intro g
  obtain ⟨g1, h1⟩ := hp g
  exact ⟨g1, by rw [map_apply, h1]⟩

theorem Fails.map {p : Proc α} {e : ErrName} (f : α → β) (hp : Fails p cfg r q e r' q') :
    Fails (f <$> p) cfg r q e r' q' := by
  intro g
  obtain ⟨g1, h1⟩ := hp g
  exact ⟨g1, by rw [map_apply, h1]⟩

/-! ### Going on -/

/-- From registers r and a host's side q, the procedure does what p1 does from registers r1 and a host's side q1. -/
def GoesOn (p : Proc α) (cfg : Config) (r : Regs) (q : Ports) (p1 : Proc α) (r1 : Regs) (q1 : Ports) : Prop :=
  ∀ g, ∃ g', p ⟨cfg, r, q, [], g⟩ = p1 ⟨cfg, r1, q1, [], g'⟩

theorem GoesOn.runs {p p1 : Proc α} {a : α} (h : GoesOn p cfg r q p1 r1 q1) (h1 : Runs p1 cfg r1 q1 a r' q') :
    Runs p cfg r q a r' q' := fun g => by
  obtain ⟨g1, e⟩ := h g
  rw [e]
  exact h1 g1

theorem GoesOn.fails {p p1 : Proc α} {e : ErrName} (h : GoesOn p cfg r q p1 r1 q1) (h1 : Fails p1 cfg r1 q1 e r' q') :
    Fails p cfg r q e r' q' := fun g => by
  obtain ⟨g1, e⟩ := h g
  rw [e]
  exact h1 g1

theorem GoesOn.refl (p : Proc α) : GoesOn p cfg r q p r q := fun g => ⟨g, rfl⟩

theorem GoesOn.trans {p p1 p2 : Proc α} {r2 : Regs} {q2 : Ports} (h : GoesOn p cfg r q p1 r1 q1)
    (h1 : GoesOn p1 cfg r1 q1 p2 r2 q2) : GoesOn p cfg r q p2 r2 q2 := fun g => by
  obtain ⟨g1, e⟩ := h g
  rw [e]
  exact h1 g1

theorem Runs.goesOn {p : Proc α} {f : α → Proc β} {a : α} (hp : Runs p cfg r q a r1 q1) :
    GoesOn (p >>= f) cfg r q (f a) r1 q1 := fun g => by
  obtain ⟨g1, h1⟩ := hp g
  exact ⟨g1, by rw [bind_apply, h1]⟩

theorem GoesOn.bind {p p1 : Proc α} {f : α → Proc β} (h : GoesOn p cfg r q p1 r1 q1) :
    GoesOn (p >>= f) cfg r q (p1 >>= f) r1 q1 := fun g => by
  obtain ⟨g1, e⟩ := h g
  exact ⟨g1, by rw [bind_apply, bind_apply, e]⟩

theorem Runs.goesOn_pure {p : Proc α} {a : α} (hp : Runs p cfg r q a r1 q1) : GoesOn p cfg r q (pure a) r1 q1 := hp

@[simp] theorem goesOn_getConfig_bind {f : Config → Proc β} {p1 : Proc β} :
    GoesOn (getConfig >>= f) cfg r q p1 r1 q1 ↔ GoesOn (f cfg) cfg r q p1 r1 q1 := by
  simp only [GoesOn, bind_apply]; rfl

/-! ### Single statements -/

@[simp] theorem runs_pure {a a' : α} : Runs (pure a) cfg r q a' r' q' ↔ a = a' ∧ r = r' ∧ q = q' := by
  simp [Runs]

@[simp] theorem fails_pure {a : α} {e : ErrName} : ¬ Fails (pure a) cfg r q e r' q' := by simp [Fails]

@[simp] theorem runs_raise {a : α} {e : ErrName} : ¬ Runs (raise e) cfg r q a r' q' := by simp [Runs]

@[simp] theorem fails_raise {e e' : ErrName} : Fails (raise e : Proc α) cfg r q e' r' q' ↔ e = e' ∧ r = r' ∧ q = q' := by
  simp [Fails]

@[simp] theorem runs_getRegs {a : Regs} : Runs getRegs cfg r q a r' q' ↔ r = a ∧ r = r' ∧ q = q' := by simp [Runs]

@[simp] theorem runs_modifyRegs {f : Regs → Regs} {u : Unit} : Runs (modifyRegs f) cfg r q u r' q' ↔ f r = r' ∧ q = q' := by
  simp [Runs]

@[simp] theorem runs_modifyPool {f : Pool → Pool} {u : Unit} :
    Runs (modifyPool f) cfg r q u r' q' ↔ { r with pool := f r.pool } = r' ∧ q = q' := by
  simp [Runs]

@[simp] theorem fails_modifyRegs {f : Regs → Regs} {e : ErrName} : ¬ Fails (modifyRegs f) cfg r q e r' q' := by
  simp [Fails]

@[simp] theorem fails_modifyPool {f : Pool → Pool} {e : ErrName} : ¬ Fails (modifyPool f) cfg r q e r' q' := by
  simp [Fails]

@[simp] theorem runs_require {b : Bool} {e : ErrName} {u : Unit} :
    Runs (require b e) cfg r q u r' q' ↔ b = true ∧ r = r' ∧ q = q' := by
  cases b <;> simp [Runs]

@[simp] theorem fails_require {b : Bool} {e e' : ErrName} :
    Fails (require b e) cfg r q e' r' q' ↔ b = false ∧ e = e' ∧ r = r' ∧ q = q' := by
  cases b <;> simp [Fails]

@[simp] theorem runs_ite {b : Prop} [Decidable b] {p p' : Proc α} {a : α} :
    Runs (if b then p else p') cfg r q a r' q' ↔ if b then Runs p cfg r q a r' q' else Runs p' cfg r q a r' q' := by
  split <;> rfl

@[simp] theorem fails_ite {b : Prop} [Decidable b] {p p' : Proc α} {e : ErrName} :
    Fails (if b then p else p') cfg r q e r' q' ↔ if b then Fails p cfg r q e r' q' else Fails p' cfg r q e r' q' := by
  split <;> rfl

/-! ### First statements -/

variable {f : α → Proc β} {b : β} {e : ErrName}

@[simp] theorem runs_getRegs_bind {f : Regs → Proc β} :
    Runs (getRegs >>= f) cfg r q b r' q' ↔ Runs (f r) cfg r q b r' q' := by simp [Runs]

@[simp] theorem fails_getRegs_bind {f : Regs → Proc β} :
    Fails (getRegs >>= f) cfg r q e r' q' ↔ Fails (f r) cfg r q e r' q' := by simp [Fails]

@[simp] theorem runs_getConfig_bind {f : Config → Proc β} :
    Runs (getConfig >>= f) cfg r q b r' q' ↔ Runs (f cfg) cfg r q b r' q' := by simp [Runs]

@[simp] theorem fails_getConfig_bind {f : Config → Proc β} :
    Fails (getConfig >>= f) cfg r q e r' q' ↔ Fails (f cfg) cfg r q e r' q' := by simp [Fails]

@[simp] theorem runs_modifyRegs_bind {g : Regs → Regs} {f : Unit → Proc β} :
    Runs (modifyRegs g >>= f) cfg r q b r' q' ↔ Runs (f ()) cfg (g r) q b r' q' := by simp [Runs]

@[simp] theorem fails_modifyRegs_bind {g : Regs → Regs} {f : Unit → Proc β} :
    Fails (modifyRegs g >>= f) cfg r q e r' q' ↔ Fails (f ()) cfg (g r) q e r' q' := by simp [Fails]

@[simp] theorem runs_modifyPool_bind {g : Pool → Pool} {f : Unit → Proc β} :
    Runs (modifyPool g >>= f) cfg r q b r' q' ↔ Runs (f ()) cfg { r with pool := g r.pool } q b r' q' := by simp [Runs]

@[simp] theorem fails_modifyPool_bind {g : Pool → Pool} {f : Unit → Proc β} :
    Fails (modifyPool g >>= f) cfg r q e r' q' ↔ Fails (f ()) cfg { r with pool := g r.pool } q e r' q' := by
  simp [Fails]

@[simp] theorem runs_modifyRegs_map {g : Regs → Regs} {f : Unit → β} :
    Runs (f <$> modifyRegs g) cfg r q b r' q' ↔ f () = b ∧ g r = r' ∧ q = q' := by simp [Runs]

@[simp] theorem runs_modifyPool_map {g : Pool → Pool} {f : Unit → β} :
    Runs (f <$> modifyPool g) cfg r q b r' q' ↔ f () = b ∧ { r with pool := g r.pool } = r' ∧ q = q' := by simp [Runs]

@[simp] theorem runs_getRegs_map {f : Regs → β} :
    Runs (f <$> getRegs) cfg r q b r' q' ↔ f r = b ∧ r = r' ∧ q = q' := by simp [Runs]

@[simp] theorem fails_map {f : α → β} {p : Proc α} : Fails (f <$> p) cfg r q e r' q' ↔ Fails p cfg r q e r' q' := by
  constructor
  · intro h g
    obtain ⟨g', hg⟩ := h g
    refine ⟨g', ?_⟩
    rw [map_apply] at hg
    cases hp : p ⟨cfg, r, q, [], g⟩ <;> rw [hp] at hg <;> simp_all
  · exact Fails.map f

@[simp] theorem runs_require_bind {c : Bool} {x : ErrName} {f : Unit → Proc β} :
    Runs (require c x >>= f) cfg r q b r' q' ↔ c = true ∧ Runs (f ()) cfg r q b r' q' := by
  cases c <;> simp [Runs]

@[simp] theorem fails_require_bind {c : Bool} {x : ErrName} {f : Unit → Proc β} :
    Fails (require c x >>= f) cfg r q e r' q' ↔
      (c = false ∧ x = e ∧ r = r' ∧ q = q') ∨ (c = true ∧ Fails (f ()) cfg r q e r' q') := by
  cases c <;> simp [Fails]

@[simp] theorem runs_ite_bind {c : Prop} [Decidable c] {p p' : Proc α} :
    Runs ((if c then p else p') >>= f) cfg r q b r' q' ↔
      if c then Runs (p >>= f) cfg r q b r' q' else Runs (p' >>= f) cfg r q b r' q' := by
  split <;> rfl

@[simp] theorem fails_ite_bind {c : Prop} [Decidable c] {p p' : Proc α} :
    Fails ((if c then p else p') >>= f) cfg r q e r' q' ↔
      if c then Fails (p >>= f) cfg r q e r' q' else Fails (p' >>= f) cfg r q e r' q' := by
  split <;> rfl

@[simp] theorem fails_raise_bind {x : ErrName} {f : α → Proc β} :
    Fails (raise x >>= f) cfg r q e r' q' ↔ x = e ∧ r = r' ∧ q = q' := by
  simp [Fails]

/-! ### A whole command -/

/-- An issued command whose body runs to its end. -/
theorem perform_of_runs {s : State} {i : Instr} {rel : Bool} {body : Proc Answer} {a : Answer} (hs : s.running = none)
    (h : Runs body s.config s.regs s.port a r' q') :
    s.perform i rel body = { s with regs := r', port := q' }.done a.1 a.2 := by
  obtain ⟨g, hg⟩ := h []
  simp [State.perform, State.ctx_idle hs, hg, State.finish, State.done, Status.finish, hs]

/-- An issued command whose body raises an error. -/
theorem perform_of_fails {s : State} {i : Instr} {body : Proc Answer} {e : ErrName} (hs : s.running = none)
    (h : Fails body s.config s.regs s.port e r' q') :
    s.perform i false body = { s with regs := r', port := q' }.failed e := by
  obtain ⟨g, hg⟩ := h []
  simp only [State.perform, State.ctx_idle hs, hg, State.abort, State.failed, Status.raise, Regs.aborted, hs,
    kindOfCode, OutSide.empty]
  cases s.status.err <;> simp

theorem next_of_runs {s t : State} {i : Instr} {rel : Bool} {body : Proc Answer} {a : Answer} (hs : s.running = none)
    (h : Runs body s.config s.regs s.port a r' q') (ht : { s with regs := r', port := q' }.done a.1 a.2 = t) :
    (.next (s.perform i rel body) : Host.Outcome State Fault Refusal) = .next t := by
  rw [perform_of_runs hs h, ht]

theorem next_of_fails {s t : State} {i : Instr} {body : Proc Answer} {e : ErrName} (hs : s.running = none)
    (h : Fails body s.config s.regs s.port e r' q') (ht : { s with regs := r', port := q' }.failed e = t) :
    (.next (s.perform i false body) : Host.Outcome State Fault Refusal) = .next t := by
  rw [perform_of_fails hs h, ht]

/-- An issued ENCODE or DECODE whose body raises an error: the tree and the queue are released (R221). -/
theorem next_of_fails_released {s t : State} {i : Instr} {body : Proc Answer} {e : ErrName} (hs : s.running = none)
    (h : Fails body s.config s.regs s.port e r' q') (ht : { s with regs := r', port := q' }.released.failed e = t) :
    (.next (s.perform i true body) : Host.Outcome State Fault Refusal) = .next t := by
  obtain ⟨g, hg⟩ := h []
  rw [← ht]
  simp only [State.perform, State.ctx_idle hs, hg, State.abort, State.failed, State.released, Status.raise, Regs.aborted, hs,
    kindOfCode, OutSide.empty, Pool.cleared, Pool.reset]
  cases s.status.err <;> simp

end Sys2Proof.Machine
end

