-- ==== Sys2Proof/Laws/Output.lean ====
section
/-! SUPPORT. The write side of the buffered layer (R181 to R184, R189) while the host grants every request: putting bits out
is `emitted`, flushing is `flushed`, and both compose. -/

namespace Sys2Proof

theorem Config.block_pos (c : Config) : 1 ≤ c.block := by
  have := c.blockInRange
  simp only [Bool.and_eq_true, Nat.ble_eq] at this
  exact this.1

theorem Config.block_lt (c : Config) : c.block < 2 ^ 24 := by
  have := c.blockInRange
  simp only [Bool.and_eq_true, Nat.ble_eq] at this
  omega

end Sys2Proof

namespace Sys2Proof.Machine

variable {cfg : Config} {r : Regs} {q : Ports} {block : Nat}

/-! ### A granted request -/

theorem runs_request {e : ErrName} {n : Nat} {grant : Ports → Nat → List Byte × Ports} (h : q.Granting) :
    Runs (request e n grant) cfg r q (grant q n).1 r (grant q n).2 := by
  obtain ⟨hp, hl, -⟩ := h
  intro g
  refine ⟨g ++ [(grant q n).1], ?_⟩
  simp [request, Ports.takeReply, hp, hl]

theorem runs_snkWrite {bytes : List Byte} (h : q.Granting) :
    Runs (snkWrite bytes) cfg r q () { r with bytesWritten := r.bytesWritten + BitVec.ofNat 64 bytes.length }
      { q with snk := q.snk ++ bytes } := by
  unfold snkWrite
  exact Runs.bind (runs_request h) (by simp [Ports.accepted])

/-! ### Blocks -/

/-- A whole number of blocks in front leaves as it is. -/
theorem fullBlocks_append (l m : List Bool) (h : l.length % (8 * block) = 0) :
    fullBlocks block (l ++ m) = packBits l ++ fullBlocks block m := by
  obtain ⟨k, hk⟩ := Nat.dvd_of_mod_eq_zero h
  have h8 : l.length % 8 = 0 := by rw [hk, Nat.mul_assoc, Nat.mul_mod_right]
  rcases Nat.eq_zero_or_pos (8 * block) with h0 | h0
  · have : l = [] := by rw [h0] at hk; simpa using hk
    simp [this]
  · have hb : blockBits block (l ++ m).length = l.length + blockBits block m.length := by
      simp only [blockBits, List.length_append, hk, Nat.mul_add_div h0, Nat.mul_add]
    rw [fullBlocks, hb, List.take_length_add_append, packBits_append _ _ h8, fullBlocks]

theorem leftOver_append (l m : List Bool) (h : l.length % (8 * block) = 0) :
    leftOver block (l ++ m) = leftOver block m := by
  obtain ⟨k, hk⟩ := Nat.dvd_of_mod_eq_zero h
  rcases Nat.eq_zero_or_pos (8 * block) with h0 | h0
  · have : l = [] := by rw [h0] at hk; simpa using hk
    simp [this]
  · have hb : blockBits block (l ++ m).length = l.length + blockBits block m.length := by
      simp only [blockBits, List.length_append, hk, Nat.mul_add_div h0, Nat.mul_add]
    rw [leftOver, hb, List.drop_length_add_append, leftOver]

theorem blockBits_le (n : Nat) : blockBits block n ≤ n := by
  rw [blockBits, Nat.mul_comm]; exact Nat.div_mul_le_self _ _

theorem take_blockBits_mod (l : List Bool) : (l.take (blockBits block l.length)).length % (8 * block) = 0 := by
  rw [List.length_take, Nat.min_eq_left (blockBits_le _), blockBits, Nat.mul_mod_right]

theorem fullBlocks_leftOver (l m : List Bool) :
    fullBlocks block (l ++ m) = fullBlocks block l ++ fullBlocks block (leftOver block l ++ m) := by
  conv_lhs => rw [← List.take_append_drop (blockBits block l.length) l, List.append_assoc]
  rw [fullBlocks_append _ _ (take_blockBits_mod l)]
  rfl

theorem leftOver_leftOver (l m : List Bool) : leftOver block (l ++ m) = leftOver block (leftOver block l ++ m) := by
  conv_lhs => rw [← List.take_append_drop (blockBits block l.length) l, List.append_assoc]
  rw [leftOver_append _ _ (take_blockBits_mod l)]
  rfl

/-- All bits are those of the full blocks and those left over. -/
theorem packBits_eq_fullBlocks (l : List Bool) : packBits l = fullBlocks block l ++ packBits (leftOver block l) := by
  conv_lhs => rw [← List.take_append_drop (blockBits block l.length) l]
  refine packBits_append _ _ ?_
  have := take_blockBits_mod (block := block) l
  exact Nat.mod_eq_zero_of_dvd (Nat.dvd_trans (Nat.dvd_mul_right 8 block) (Nat.dvd_of_mod_eq_zero this))

theorem fullBlocks_short {l : List Bool} (h : l.length < 8 * block) : fullBlocks block l = [] := by
  simp [fullBlocks, blockBits, Nat.div_eq_of_lt h]

theorem leftOver_short {l : List Bool} (h : l.length < 8 * block) : leftOver block l = l := by
  simp [leftOver, blockBits, Nat.div_eq_of_lt h]

theorem fullBlocks_full {l : List Bool} (hb : 1 ≤ block) (h : l.length = 8 * block) :
    fullBlocks block l = packBits l := by
  rw [fullBlocks, blockBits, h, Nat.div_self (by omega), Nat.mul_one, ← h, List.take_length]

theorem leftOver_full {l : List Bool} (hb : 1 ≤ block) (h : l.length = 8 * block) : leftOver block l = [] := by
  rw [leftOver, blockBits, h, Nat.div_self (by omega), Nat.mul_one, ← h, List.drop_length]

theorem length_leftOver (l : List Bool) : (leftOver block l).length = l.length % (8 * block) := by
  rw [leftOver, List.length_drop, blockBits]
  have := Nat.div_add_mod l.length (8 * block)
  omega

theorem length_leftOver_lt (hb : 1 ≤ block) (l : List Bool) : (leftOver block l).length < 8 * block := by
  rw [length_leftOver]; exact Nat.mod_lt _ (by omega)

/-! ### Putting out and flushing -/

@[simp] theorem Ports.granting_emitted {l : List Bool} : (q.emitted block l).Granting ↔ q.Granting := Iff.rfl

@[simp] theorem Ports.granting_flushed {l : List Bool} : (q.flushed l).Granting ↔ q.Granting := Iff.rfl

@[simp] theorem Regs.emitted_out (l : List Bool) : (r.emitted block l).out = OutSide.of (leftOver block l) := rfl

@[simp] theorem OutSide.of_nil : OutSide.of [] = { buf := [], bitPos := 0 } := rfl

@[simp] theorem OutSide.of_bitPos (l : List Bool) : (OutSide.of l).bitPos = l.length := rfl

@[simp] theorem OutSide.of_buf (l : List Bool) : (OutSide.of l).buf = packBits l := rfl

@[simp] theorem Regs.flushed_out (l : List Bool) : (r.flushed l).out = OutSide.of [] := rfl

/-- Putting out more bits behind the ones left pending is putting out all of them. -/
theorem Regs.emitted_emitted (l m : List Bool) :
    (r.emitted block l).emitted block (leftOver block l ++ m) = r.emitted block (l ++ m) := by
  simp only [Regs.emitted, ← leftOver_leftOver, fullBlocks_leftOver l m, List.length_append, BitVec.ofNat_add,
    BitVec.add_assoc]

theorem Ports.emitted_emitted (l m : List Bool) :
    (q.emitted block l).emitted block (leftOver block l ++ m) = q.emitted block (l ++ m) := by
  simp only [Ports.emitted, fullBlocks_leftOver l m, List.append_assoc]

theorem Regs.emitted_flushed (l : List Bool) : (r.emitted block l).flushed (leftOver block l) = r.flushed l := by
  simp only [Regs.emitted, Regs.flushed, packBits_eq_fullBlocks (block := block) l, List.length_append, BitVec.ofNat_add,
    BitVec.add_assoc]

theorem Ports.emitted_flushed (l : List Bool) : (q.emitted block l).flushed (leftOver block l) = q.flushed l := by
  simp only [Ports.emitted, Ports.flushed, packBits_eq_fullBlocks (block := block) l, List.append_assoc]

/-- With nothing put out, nothing changes. -/
theorem Regs.emitted_pending {l : List Bool} (h : r.out = OutSide.of l) (hl : l.length < 8 * block) :
    r.emitted block l = r := by
  simp [Regs.emitted, fullBlocks_short hl, leftOver_short hl, ← h]

theorem Ports.emitted_pending {l : List Bool} (hl : l.length < 8 * block) : q.emitted block l = q := by
  simp [Ports.emitted, fullBlocks_short hl]

/-- One more bit in the byte that holds the last bits. -/
theorem packBits_snoc (l : List Bool) (b : Bool) (byte : Byte)
    (h : ∀ j, j < 8 → byte.getLsbD j = l.getD (8 * (l.length / 8) + j) false) :
    (packBits l).take (l.length / 8) ++ [byte ||| ((BitVec.ofBool b).setWidth 8 <<< (l.length % 8))] =
      packBits (l ++ [b]) := by
  have hlen : (packBits l).length = (l.length + 7) / 8 := length_packBits l
  refine bytes_ext (by simp; omega) fun i j hi hj => ?_
  rw [packBits_getLsbD _ _ _ hj]
  have hi' : i ≤ l.length / 8 := by
    simp at hi; omega
  rcases Nat.lt_or_ge i (l.length / 8) with h1 | h1
  · rw [List.getD_append _ _ _ _ (by simp; omega), List.getD_append _ _ _ _ (by omega), ← packBits_getLsbD _ _ _ hj]
    simp [List.getD_eq_getElem?_getD, h1]
  · have hi : i = l.length / 8 := by omega
    rw [List.getD_append_right _ _ _ _ (by simp; omega)]
    have h0 : i - (List.take (l.length / 8) (packBits l)).length = 0 := by simp; omega
    rw [h0]
    simp only [List.getD_cons_zero, BitVec.getLsbD_or, BitVec.getLsbD_shiftLeft, hj, decide_true, Bool.true_and,
      BitVec.getLsbD_setWidth, BitVec.getLsbD_ofBool, h j hj, ← hi]
    rcases Nat.lt_trichotomy j (l.length % 8) with h2 | h2 | h2
    · rw [List.getD_append _ _ _ _ (by omega)]
      simp [h2]
    · rw [List.getD_append_right _ _ _ _ (by omega), List.getD_eq_default l _ (by omega)]
      have : 8 * i + l.length % 8 - l.length = 0 := by omega
      simp [h2, this]
    · rw [List.getD_eq_default l _ (by omega), List.getD_eq_default _ _ (by simp; omega)]
      have : ¬ j - l.length % 8 = 0 := by omega
      simp [this]

/-- OutBit's change of the buffer (R181). -/
theorem OutSide.appendBit_of (l : List Bool) (b : Bool) : (OutSide.of l).appendBit b = OutSide.of (l ++ [b]) := by
  refine (congrArg₂ OutSide.mk (packBits_snoc l b _ ?_) ?_)
  · intro j hj
    have hlen : (packBits l).length = (l.length + 7) / 8 := length_packBits l
    split
    · rename_i h
      have h : l.length % 8 = 0 := h
      rw [List.getD_eq_default _ _ (by omega)]; simp
    · exact packBits_getLsbD _ _ _ hj
  · simp

/-- OutByte's change of the buffer (R183): that of eight OutBits. -/
theorem OutSide.appendByte_of (l : List Bool) (v : Byte) (h : l.length % 8 = 0) :
    (OutSide.of l).appendByte v = OutSide.of (l ++ byteBits v) := by
  have hlen : (packBits l).length = l.length / 8 := by simp; omega
  simp only [OutSide.appendByte, OutSide.of, putByte, List.length_append, length_byteBits]
  rw [packBits_append _ _ h, packBits_byteBits, List.take_of_length_le (by omega)]

/-- The block leaves when it is full (R181, R183). -/
theorem runs_writeFullBlock {l : List Bool} (hq : q.Granting) (hr : r.out = OutSide.of l)
    (hl : l.length ≤ 8 * cfg.block) :
    Runs writeFullBlock cfg r q () (r.emitted cfg.block l) (q.emitted cfg.block l) := by
  have hb := cfg.block_pos
  unfold writeFullBlock
  simp only [runs_getConfig_bind, runs_getRegs_bind, runs_ite]
  split <;> rename_i h <;> rw [hr] at h <;> simp only [OutSide.of_bitPos] at h
  · rw [hr, OutSide.of_buf]
    refine Runs.bind (runs_snkWrite hq) ?_
    have : (packBits l).take cfg.block = packBits l := List.take_of_length_le (by simp; omega)
    simp [this, Regs.emitted, Ports.emitted, leftOver_full hb h, fullBlocks_full hb h, Regs.emptyOut, OutSide.empty]
  · have hl' : l.length < 8 * cfg.block := by omega
    simp [Regs.emitted_pending hr hl', Ports.emitted_pending hl']

theorem runs_outBit {l : List Bool} (b : Bool) (hq : q.Granting) (hr : r.out = OutSide.of l)
    (hl : l.length < 8 * cfg.block) :
    Runs (outBit b) cfg r q () (r.emitted cfg.block (l ++ [b])) (q.emitted cfg.block (l ++ [b])) := by
  unfold outBit
  simp only [runs_modifyRegs_bind]
  refine runs_writeFullBlock hq ?_ (by simp; omega)
  simp [hr, OutSide.appendBit_of]

theorem runs_outByte {l : List Bool} (v : Byte) (hq : q.Granting) (hr : r.out = OutSide.of l)
    (hl : l.length < 8 * cfg.block) (h8 : l.length % 8 = 0) :
    Runs (outByte v) cfg r q () (r.emitted cfg.block (l ++ byteBits v)) (q.emitted cfg.block (l ++ byteBits v)) := by
  unfold outByte
  simp only [runs_modifyRegs_bind]
  refine runs_writeFullBlock hq ?_ (by simp; omega)
  simp [hr, OutSide.appendByte_of l v h8]

theorem runs_outBits {l : List Bool} (bs : List Bool) (hq : q.Granting) (hr : r.out = OutSide.of l)
    (hl : l.length < 8 * cfg.block) :
    Runs (outBits bs) cfg r q () (r.emitted cfg.block (l ++ bs)) (q.emitted cfg.block (l ++ bs)) := by
  induction bs generalizing l r q with
  | nil => simp [outBits, Regs.emitted_pending hr hl, Ports.emitted_pending hl]
  | cons b bs ih =>
    unfold outBits
    refine Runs.bind (runs_outBit b hq hr hl) ?_
    have := ih (r := r.emitted cfg.block (l ++ [b])) (q := q.emitted cfg.block (l ++ [b])) hq rfl
      (length_leftOver_lt cfg.block_pos _)
    rwa [Regs.emitted_emitted, Ports.emitted_emitted, List.append_assoc, List.singleton_append] at this

theorem runs_outBytes {l : List Bool} (vs : List Byte) (hq : q.Granting) (hr : r.out = OutSide.of l)
    (hl : l.length < 8 * cfg.block) (h8 : l.length % 8 = 0) :
    Runs (outBytes vs) cfg r q () (r.emitted cfg.block (l ++ bitsOf vs)) (q.emitted cfg.block (l ++ bitsOf vs)) := by
  induction vs generalizing l r q with
  | nil => simp [outBytes, Regs.emitted_pending hr hl, Ports.emitted_pending hl]
  | cons v vs ih =>
    unfold outBytes
    refine Runs.bind (runs_outByte v hq hr hl h8) ?_
    have h8' : (leftOver cfg.block (l ++ byteBits v)).length % 8 = 0 := by
      rw [length_leftOver, List.length_append, length_byteBits]
      have := Nat.mod_mod_of_dvd (l.length + 8) (Nat.dvd_mul_right 8 cfg.block)
      omega
    have := ih (r := r.emitted cfg.block (l ++ byteBits v)) (q := q.emitted cfg.block (l ++ byteBits v)) hq rfl
      (length_leftOver_lt cfg.block_pos _) h8'
    rwa [Regs.emitted_emitted, Ports.emitted_emitted, List.append_assoc, ← bitsOf_cons] at this

theorem runs_flushOut {l : List Bool} (hq : q.Granting) (hr : r.out = OutSide.of l) :
    Runs flushOut cfg r q () (r.flushed l) (q.flushed l) := by
  unfold flushOut
  simp only [runs_getRegs_bind, runs_ite]
  split <;> rename_i h <;> rw [hr] at h <;> simp only [OutSide.pendingBytes, OutSide.of_bitPos] at h
  · rw [hr, OutSide.of_buf]
    simp only [OutSide.pendingBytes, OutSide.of_bitPos]
    refine Runs.bind (runs_snkWrite hq) ?_
    have : (packBits l).take ((l.length + 7) / 8) = packBits l := List.take_of_length_le (by simp)
    simp [this, Regs.flushed, Ports.flushed, Regs.emptyOut, OutSide.empty]
  · have : l = [] := by
      rw [← List.length_eq_zero_iff]; omega
    simp [this, Regs.flushed, Ports.flushed, Regs.emptyOut, OutSide.empty]

/-- A flush after bits have been put out. -/
theorem runs_flushOut_emitted {l : List Bool} (hq : q.Granting) :
    Runs flushOut cfg (r.emitted cfg.block l) (q.emitted cfg.block l) () (r.flushed l) (q.flushed l) := by
  have := runs_flushOut (cfg := cfg) (r := r.emitted cfg.block l) (q := q.emitted cfg.block l) hq rfl
  rwa [Regs.emitted_flushed, Ports.emitted_flushed] at this

end Sys2Proof.Machine
end

