-- ==== Sys2Proof/Laws/Input.lean ====
section
/-! SUPPORT. The read side of the buffered layer (R190 to R193) while the host grants every request: a read takes the next
unread bits, in order, whatever the blocks are, and answers END when none is left. -/

namespace Sys2Proof.Machine

variable {cfg : Config} {r : Regs} {q : Ports} {i i' i'' : InSide} {block n m pos pos' : Nat}

/-! ### Positions -/

/-- From the read side (i, q), n bits have been taken: the new read side is i', and the host stands at pos. -/
structure Taken (block : Nat) (i : InSide) (q : Ports) (i' : InSide) (pos n : Nat) : Prop where
  wf : i'.Wf block
  forward : q.srcPos ≤ pos
  bound : pos ≤ q.src.length
  unread : unreadBits i' { q with srcPos := pos } = (unreadBits i q).drop n
  aligned : i'.bitPos % 8 = (i.bitPos + n) % 8
  total : pos + (undelivered i' { q with srcPos := pos }).length = q.srcPos + (undelivered i q).length

/-- c bits have been taken since the last rewind, and exactly the blocks that hold them have been delivered (R190, R203). -/
def ReadTo (block : Nat) (i : InSide) (q : Ports) (c : Nat) : Prop :=
  i.buf.length ≤ q.srcPos ∧ 8 * (q.srcPos - i.buf.length) + i.bitPos = c ∧
    q.srcPos = min q.src.length (block * ((c + 8 * block - 1) / (8 * block)))

theorem Taken.refl (hw : i.Wf block) (hb : q.srcPos ≤ q.src.length) : Taken block i q i q.srcPos 0 :=
  ⟨hw, le_rfl, hb, rfl, rfl, rfl⟩

theorem Taken.trans (h : Taken block i q i' pos n) (h' : Taken block i' { q with srcPos := pos } i'' pos' m) :
    Taken block i q i'' pos' (n + m) where
  wf := h'.wf
  forward := le_trans h.forward h'.forward
  bound := h'.bound
  unread := by rw [← List.drop_drop, ← h.unread]; exact h'.unread
  aligned := by rw [h'.aligned, Nat.add_mod, h.aligned]; omega
  total := h'.total.trans h.total

@[simp] theorem Regs.withInput_inp : (r.withInput i n).inp = i := rfl

@[simp] theorem Regs.withInput_withInput : (r.withInput i n).withInput i' m = r.withInput i' (n + m) := by
  simp [Regs.withInput, BitVec.add_assoc, BitVec.ofNat_add]

theorem Regs.withInput_self : r.withInput r.inp 0 = r := by simp [Regs.withInput]

theorem Ports.granting_at (hq : q.Granting) (h : pos ≤ q.src.length) : { q with srcPos := pos }.Granting :=
  ⟨hq.1, hq.2.1, h⟩

/-- With the input byte-aligned, the unread bits are those of the unread bytes. -/
theorem unreadBits_aligned (h : i.bitPos % 8 = 0) : unreadBits i q = bitsOf (unreadBytes i q) := by
  have : i.bitPos = 8 * (i.bitPos / 8) := by omega
  rw [unreadBits, unreadBytes, bitsOf_append]
  conv_lhs => rw [this, drop_bitsOf]

theorem Taken.unreadBytes (h : Taken block i q i' pos (8 * n)) (ha : i.bitPos % 8 = 0) :
    unreadBytes i' { q with srcPos := pos } = (unreadBytes i q).drop n := by
  have ha' : i'.bitPos % 8 = 0 := by rw [h.aligned]; omega
  have := h.unread
  rw [unreadBits_aligned ha', unreadBits_aligned ha, drop_bitsOf] at this
  exact bitsOf_injective this

/-! ### Refill -/

/-- The block a granted SrcRead delivers is the next one of the stream. -/
theorem runs_srcRead (hq : q.Granting) :
    Runs srcRead cfg r q (q.nextBlock cfg.block)
      { r with bytesRead := r.bytesRead + BitVec.ofNat 64 (q.nextBlock cfg.block).length }
      { q with srcPos := q.srcPos + (q.nextBlock cfg.block).length } := by
  unfold srcRead
  simp only [runs_getConfig_bind]
  exact Runs.bind (runs_request hq) (by simp [Ports.deliver, Ports.nextBlock])

/-- INBUF after a granted SrcRead. -/
def fetchedInput (block : Nat) (i : InSide) (q : Ports) : InSide :=
  { buf := q.nextBlock block, bitPos := 0, eof := i.eof || decide ((q.nextBlock block).length < block) }

theorem runs_refill_data (h : r.inp.bitPos < 8 * r.inp.buf.length) : Runs refill cfg r q true r q := by
  unfold refill
  simp [h]

theorem runs_refill_eof (h : 8 * r.inp.buf.length ≤ r.inp.bitPos) (he : r.inp.eof = true) :
    Runs refill cfg r q false r q := by
  unfold refill
  simp [Nat.not_lt.2 h, he]

theorem runs_refill_fetch (hq : q.Granting) (h : 8 * r.inp.buf.length ≤ r.inp.bitPos) (he : r.inp.eof = false) :
    Runs refill cfg r q (!(q.nextBlock cfg.block).isEmpty)
      (r.withInput (fetchedInput cfg.block r.inp q) (q.nextBlock cfg.block).length)
      { q with srcPos := q.srcPos + (q.nextBlock cfg.block).length } := by
  unfold refill
  simp only [runs_getConfig_bind, runs_getRegs_bind, Nat.not_lt.2 h, he, if_false, Bool.false_eq_true]
  refine Runs.bind (runs_srcRead hq) ?_
  simp [InSide.refilled, Regs.withInput, fetchedInput, Bool.or_comm]

/-- What the host has yet to deliver starts with the next block. -/
theorem drop_eq_nextBlock : q.src.drop q.srcPos =
    q.nextBlock block ++ q.src.drop (q.srcPos + (q.nextBlock block).length) := by
  rw [← List.drop_drop]
  conv_lhs => rw [← List.take_append_drop block (q.src.drop q.srcPos)]
  congr 1
  rw [Ports.nextBlock, List.length_take]
  rcases Nat.le_total block (q.src.drop q.srcPos).length with h | h
  · rw [Nat.min_eq_left h]
  · rw [Nat.min_eq_right h, List.drop_of_length_le h, List.drop_length]

theorem fetched_wf : (fetchedInput block i q).Wf block where
  position := Nat.zero_le _
  length := by simp [fetchedInput, Ports.nextBlock]
  short := by
    intro h
    right
    have : (q.nextBlock block).length < block := h
    simp [fetchedInput, this]

theorem length_nextBlock : (q.nextBlock block).length = min block (q.src.length - q.srcPos) := by
  simp [Ports.nextBlock]

/-- A fetch takes nothing. -/
theorem fetched_taken (hb : q.srcPos ≤ q.src.length) (h : i.bitPos = 8 * i.buf.length) (he : i.eof = false) :
    Taken block i q (fetchedInput block i q) (q.srcPos + (q.nextBlock block).length) 0 where
  wf := fetched_wf
  forward := Nat.le_add_right _ _
  bound := by rw [length_nextBlock]; omega
  unread := by
    have h1 : (bitsOf i.buf).drop i.bitPos = [] := List.drop_of_length_le (by simp [h])
    rw [List.drop_zero, unreadBits, unreadBits, h1, List.nil_append, undelivered, undelivered, he]
    simp only [fetchedInput, he, Bool.false_or, List.drop_zero, Bool.false_eq_true, if_false]
    rw [drop_eq_nextBlock (q := q) (block := block), bitsOf_append]
    congr 1
    split
    · rename_i hs
      rw [length_nextBlock] at hs ⊢
      rw [List.drop_of_length_le]
      have := of_decide_eq_true hs
      omega
    · rfl
  aligned := by simp [fetchedInput, h]
  total := by
    simp only [undelivered, he, fetchedInput, Bool.false_or, decide_eq_true_eq, Bool.false_eq_true, if_false]
    split
    · rename_i hs
      rw [length_nextBlock] at hs ⊢
      simp; omega
    · rw [length_nextBlock]; simp; omega

/-- Taking n bits that INBUF holds. -/
theorem advance_taken (hw : i.Wf block) (hb : q.srcPos ≤ q.src.length) (h : i.bitPos + n ≤ 8 * i.buf.length) :
    Taken block i q (i.advance n) q.srcPos n where
  wf := ⟨h, hw.length, hw.short⟩
  forward := le_rfl
  bound := hb
  unread := by
    simp only [unreadBits, InSide.advance, undelivered]
    rw [List.drop_append_of_le_length (by simp; omega), List.drop_drop]
    rfl
  aligned := rfl
  total := rfl

/-! ### Counting the blocks -/

theorem readTo_advance (hB : 1 ≤ block) (hn : 0 < n) {c : Nat} (hr : ReadTo block i q c)
    (h : i.bitPos + n ≤ 8 * i.buf.length) (hc : 0 < c ∨ i.bitPos = 0 ∧ i.buf = []) :
    ReadTo block (i.advance n) q (c + n) := by
  obtain ⟨h1, h2, h3⟩ := hr
  rcases hc with hc | ⟨-, hc⟩
  · refine ⟨h1, by simp [InSide.advance]; omega, ?_⟩
    rw [h3]
    congr 2
    have hsrc : q.srcPos ≤ block * ((c + 8 * block - 1) / (8 * block)) := by omega
    have hup : c + n ≤ 8 * block * ((c + 8 * block - 1) / (8 * block)) := by
      rw [Nat.mul_assoc]; omega
    refine le_antisymm (Nat.div_le_div_right (by omega)) ?_
    rw [Nat.div_le_iff_le_mul_add_pred (by omega)]
    omega
  · simp [hc] at h; omega

theorem readTo_fetch (hB : 1 ≤ block) (hn : 0 < n) {c : Nat} (hr : ReadTo block i q c)
    (hb : i.bitPos = 8 * i.buf.length) (hne : n ≤ 8 * (q.nextBlock block).length) (hn8 : n ≤ 8) :
    ReadTo block ((fetchedInput block i q).advance n) { q with srcPos := q.srcPos + (q.nextBlock block).length }
      (c + n) := by
  obtain ⟨h1, h2, h3⟩ := hr
  have hlen : (q.nextBlock block).length = min block (q.src.length - q.srcPos) := length_nextBlock
  have hc : c = 8 * q.srcPos := by omega
  have hpos : q.srcPos = block * ((c + 8 * block - 1) / (8 * block)) := by omega
  generalize hk : (c + 8 * block - 1) / (8 * block) = k at *
  refine ⟨by simp [fetchedInput, InSide.advance], by simp [fetchedInput, InSide.advance]; omega, ?_⟩
  have hk' : (c + n + 8 * block - 1) / (8 * block) = k + 1 := by
    have : c = 8 * block * k := by rw [hc, hpos, Nat.mul_assoc]
    have e : c + n + 8 * block - 1 = (n - 1) + 8 * block * (k + 1) := by rw [this, Nat.mul_add]; omega
    rw [e, Nat.add_mul_div_left _ _ (by omega), Nat.div_eq_of_lt (by omega), Nat.zero_add]
  simp only [hk', Nat.mul_add, Nat.mul_one, ← hpos, hlen]
  omega

/-! ### InBit and InByte -/

/-- The read side of a register file is what a procedure found. -/
theorem runs_take {α : Type} {f : InSide → α} {p : Proc (Option α)}
    (hp : p = (do
      let data ← refill
      if data then
        let r ← getRegs
        modifyRegs fun r => { r with inp := r.inp.advance n }
        return some (f r.inp)
      else return none))
    (hq : q.Granting) (hw : r.inp.Wf cfg.block) (ha : r.inp.bitPos % n = 0) (hn : n = 1 ∨ n = 8)
    (hu : unreadBits r.inp q ≠ []) :
    ∃ j pos, Runs p cfg r q (some (f j)) (r.withInput (j.advance n) (pos - q.srcPos)) { q with srcPos := pos } ∧
      j.bitPos + n ≤ 8 * j.buf.length ∧ Taken cfg.block r.inp q j pos 0 ∧
      Taken cfg.block r.inp q (j.advance n) pos n ∧
      ∀ c, ReadTo cfg.block r.inp q c → ReadTo cfg.block (j.advance n) { q with srcPos := pos } (c + n) := by
  have hB := cfg.block_pos
  rcases Nat.lt_or_ge r.inp.bitPos (8 * r.inp.buf.length) with h | h
  · have h' : r.inp.bitPos + n ≤ 8 * r.inp.buf.length := by rcases hn with rfl | rfl <;> omega
    refine ⟨r.inp, q.srcPos, ?_, h', Taken.refl hw hq.2.2, advance_taken hw hq.2.2 h', fun c hc => ?_⟩
    · rw [hp]
      refine Runs.bind (runs_refill_data h) ?_
      simp [Regs.withInput]
    · refine readTo_advance hB (by omega) hc h' ?_
      have := hc.1
      have := hc.2.1
      have := hc.2.2
      by_contra hcon
      have h0 : c = 0 := by omega
      subst h0
      have : (0 + 8 * cfg.block - 1) / (8 * cfg.block) = 0 := Nat.div_eq_of_lt (by omega)
      simp only [this] at *
      omega
  · have hpos : r.inp.bitPos = 8 * r.inp.buf.length := le_antisymm hw.position h
    have he : r.inp.eof = false := by
      by_contra hcon
      apply hu
      simp [unreadBits, undelivered, Bool.eq_true_of_not_eq_false hcon, hpos]
    have hne : q.nextBlock cfg.block ≠ [] := by
      intro hnil
      apply hu
      have := drop_eq_nextBlock (q := q) (block := cfg.block)
      rw [length_nextBlock] at this
      have hl : (q.nextBlock cfg.block).length = 0 := by rw [hnil]; rfl
      rw [length_nextBlock] at hl
      have hd : q.src.drop q.srcPos = [] := List.drop_of_length_le (by omega)
      simp [unreadBits, undelivered, he, hpos, hd]
    have hlen : 0 < (q.nextBlock cfg.block).length := List.length_pos_of_ne_nil hne
    have hroom : (fetchedInput cfg.block r.inp q).bitPos + n ≤ 8 * (fetchedInput cfg.block r.inp q).buf.length := by
      simp only [fetchedInput]; rcases hn with rfl | rfl <;> omega
    have ht := fetched_taken (block := cfg.block) hq.2.2 hpos he
    refine ⟨fetchedInput cfg.block r.inp q, q.srcPos + (q.nextBlock cfg.block).length, ?_, hroom, ht, ?_, fun c hc => ?_⟩
    · rw [hp]
      refine Runs.bind (runs_refill_fetch hq h he) ?_
      simp [Regs.withInput, hne]
    · have := ht.trans (advance_taken (n := n) fetched_wf ht.bound hroom)
      rwa [Nat.zero_add] at this
    · exact readTo_fetch hB (by omega) hc hpos (by rcases hn with rfl | rfl <;> omega) (by omega)

/-- At the end of the input: no bit is left, and none comes any more (R190). -/
theorem runs_take_end {α : Type} {f : InSide → α} {p : Proc (Option α)}
    (hp : p = (do
      let data ← refill
      if data then
        let r ← getRegs
        modifyRegs fun r => { r with inp := r.inp.advance n }
        return some (f r.inp)
      else return none))
    (hq : q.Granting) (hw : r.inp.Wf cfg.block) (hu : unreadBits r.inp q = []) :
    ∃ j, Runs p cfg r q none
        (r.withInput j (undelivered r.inp q).length) { q with srcPos := q.srcPos + (undelivered r.inp q).length } ∧
      Taken cfg.block r.inp q j (q.srcPos + (undelivered r.inp q).length) 0 ∧
      j.eof = true ∧ j.bitPos = 8 * j.buf.length := by
  have hu' := List.append_eq_nil_iff.1 hu
  have h0 : (undelivered r.inp q).length = 0 := by
    have := congrArg List.length hu'.2
    simpa using this
  have h : 8 * r.inp.buf.length ≤ r.inp.bitPos := by simpa using hu'.1
  have hpos : r.inp.bitPos = 8 * r.inp.buf.length := le_antisymm hw.position h
  rw [h0]
  cases he : r.inp.eof with
  | true =>
    refine ⟨r.inp, ?_, Taken.refl hw hq.2.2, he, hpos⟩
    rw [hp, Regs.withInput_self]
    exact Runs.bind (runs_refill_eof h he) (by simp)
  | false =>
    have hl : (q.nextBlock cfg.block).length = 0 := by
      rw [length_nextBlock]
      simp only [undelivered, he, Bool.false_eq_true, if_false, List.length_drop] at h0
      omega
    have hB := cfg.block_pos
    refine ⟨fetchedInput cfg.block r.inp q, ?_, ?_, ?_, ?_⟩
    · rw [hp]
      have := runs_refill_fetch (cfg := cfg) hq h he
      rw [hl] at this
      refine Runs.bind this ?_
      simp [List.length_eq_zero_iff.1 hl]
    · have := fetched_taken (block := cfg.block) hq.2.2 hpos he
      rwa [hl] at this
    · simp [fetchedInput, hl]; omega
    · simp [fetchedInput, hl]

/-- `InBit` takes the next unread bit (R191). -/
theorem runs_inBit {b : Bool} {rest : List Bool} (hq : q.Granting) (hw : r.inp.Wf cfg.block)
    (hu : unreadBits r.inp q = b :: rest) :
    ∃ i pos, Runs inBit cfg r q (some b) (r.withInput i (pos - q.srcPos)) { q with srcPos := pos } ∧
      Taken cfg.block r.inp q i pos 1 ∧
      ∀ c, ReadTo cfg.block r.inp q c → ReadTo cfg.block i { q with srcPos := pos } (c + 1) := by
  obtain ⟨j, pos, hr, hj, h0, h1, hc⟩ :=
    runs_take (f := InSide.currentBit) rfl hq hw (Nat.mod_one _) (.inl rfl) (by rw [hu]; simp)
  refine ⟨_, pos, ?_, h1, hc⟩
  have hb : j.currentBit = b := by
    have := h0.unread
    rw [hu, List.drop_zero, unreadBits] at this
    have hlt : j.bitPos < (bitsOf j.buf).length := by simp; omega
    rw [List.drop_eq_getElem_cons hlt, List.cons_append] at this
    have hd := List.getD_eq_getElem (bitsOf j.buf) false hlt
    rw [InSide.currentBit, ← bitsOf_getD, hd]
    exact (List.cons.inj this).1
  rwa [hb] at hr

/-- `InByte` takes the next unread byte (R192). -/
theorem runs_inByte {b : Byte} {rest : List Byte} (hq : q.Granting) (hw : r.inp.Wf cfg.block)
    (ha : r.inp.bitPos % 8 = 0) (hu : unreadBytes r.inp q = b :: rest) :
    ∃ i pos, Runs inByte cfg r q (some b) (r.withInput i (pos - q.srcPos)) { q with srcPos := pos } ∧
      Taken cfg.block r.inp q i pos 8 ∧
      ∀ c, ReadTo cfg.block r.inp q c → ReadTo cfg.block i { q with srcPos := pos } (c + 8) := by
  have hu' : unreadBits r.inp q ≠ [] := by
    rw [unreadBits_aligned ha, hu, bitsOf_cons]
    intro h
    have := congrArg List.length h
    simp at this
  obtain ⟨j, pos, hr, hj, h0, h1, hc⟩ := runs_take (f := InSide.currentByte) rfl hq hw ha (.inr rfl) hu'
  refine ⟨_, pos, ?_, h1, hc⟩
  have hb : j.currentByte = b := by
    have := Taken.unreadBytes (n := 0) h0 ha
    rw [hu, List.drop_zero, unreadBytes] at this
    have hlt : j.bitPos / 8 < j.buf.length := by omega
    rw [List.drop_eq_getElem_cons hlt, List.cons_append] at this
    rw [InSide.currentByte, List.getD_eq_getElem _ _ hlt]
    exact (List.cons.inj this).1
  rwa [hb] at hr

theorem runs_inBit_end (hq : q.Granting) (hw : r.inp.Wf cfg.block) (hu : unreadBits r.inp q = []) :
    ∃ j, Runs inBit cfg r q none
        (r.withInput j (undelivered r.inp q).length) { q with srcPos := q.srcPos + (undelivered r.inp q).length } ∧
      Taken cfg.block r.inp q j (q.srcPos + (undelivered r.inp q).length) 0 ∧
      j.eof = true ∧ j.bitPos = 8 * j.buf.length :=
  runs_take_end (f := InSide.currentBit) rfl hq hw hu

theorem runs_inByte_end (hq : q.Granting) (hw : r.inp.Wf cfg.block) (ha : r.inp.bitPos % 8 = 0)
    (hu : unreadBytes r.inp q = []) :
    ∃ j, Runs inByte cfg r q none
        (r.withInput j (undelivered r.inp q).length) { q with srcPos := q.srcPos + (undelivered r.inp q).length } ∧
      Taken cfg.block r.inp q j (q.srcPos + (undelivered r.inp q).length) 0 ∧
      j.eof = true ∧ j.bitPos = 8 * j.buf.length :=
  runs_take_end (f := InSide.currentByte) rfl hq hw (by rw [unreadBits_aligned ha, hu]; rfl)

/-! ### Rewind -/

theorem runs_rewind (hq : q.Granting) : Runs rewind cfg r q () { r with inp := InSide.empty } { q with srcPos := 0 } := by
  unfold rewind srcRewind
  simp only [bind_assoc, pure_bind]
  exact Runs.bind (runs_request hq) (by simp [Ports.rewound])

theorem wf_empty : InSide.empty.Wf block := ⟨Nat.zero_le _, Nat.zero_le _, fun _ => .inl rfl⟩

theorem unreadBytes_rewound : unreadBytes InSide.empty { q with srcPos := 0 } = q.src := by
  simp [unreadBytes, InSide.empty, undelivered]

theorem readTo_rewound (hB : 1 ≤ block) : ReadTo block InSide.empty { q with srcPos := 0 } 0 := by
  have : (8 * block - 1) / (8 * block) = 0 := Nat.div_eq_of_lt (by omega)
  simp [ReadTo, InSide.empty, this]

end Sys2Proof.Machine
end

