-- ==== Sys2Proof/Laws/Memory.lean ====
section
/-! SUPPORT. The internal memories (R43 to R47): a read after a write to the same place gives the value written, and a
write leaves every other place alone. -/

namespace Sys2Proof.Machine

theorem getD_eq_dite {α : Type} {n : Nat} (v : Vector α n) (j : Nat) (d : α) :
    v.getD j d = if h : j < n then v[j] else d := by
  simp [Vector.getD, Array.getD]

theorem getD_setIfInBounds {α : Type} {n : Nat} (v : Vector α n) (i j : Nat) (x d : α) :
    (v.setIfInBounds i x).getD j d = if i = j ∧ j < n then x else v.getD j d := by
  by_cases hj : j < n <;> simp [getD_eq_dite, hj, Vector.getElem_setIfInBounds]

@[simp] theorem getD_replicate {α : Type} (n : Nat) (x d : α) (j : Nat) :
    (Vector.replicate n x).getD j d = if j < n then x else d := by
  by_cases hj : j < n <;> simp [getD_eq_dite, hj]

theorem getD_of_le {α : Type} {n : Nat} (v : Vector α n) (j : Nat) (d : α) (h : n ≤ j) : v.getD j d = d := by
  simp [getD_eq_dite, Nat.not_lt.2 h]

theorem vector_ext_getD {α : Type} {n : Nat} {v w : Vector α n} (d : α) (h : ∀ j, j < n → v.getD j d = w.getD j d) :
    v = w := by
  refine Vector.ext fun j hj => ?_
  simpa [getD_eq_dite, hj] using h j hj

theorem byte_toNat_inj {a b : Byte} : a.toNat = b.toNat ↔ a = b := BitVec.toNat_inj

/-! ### Histogram and code table -/

variable (r : Regs) (p : Pool)

@[simp] theorem Regs.histAt_setHist (a b : Byte) (v : Word) :
    (r.setHist a v).histAt b = if a = b then v else r.histAt b := by
  have := b.isLt
  simp [Regs.histAt, getD_setIfInBounds, byte_toNat_inj, this]

@[simp] theorem Regs.histAt_bumpHist (a b : Byte) :
    (r.bumpHist a).histAt b = if a = b then r.histAt a + 1 else r.histAt b := r.histAt_setHist a b _

@[simp] theorem Regs.histAt_scanned (a b : Byte) :
    (r.scanned a).histAt b = if a = b then r.histAt a + 1 else r.histAt b := r.histAt_setHist a b _

@[simp] theorem Regs.entry_record (a b : Byte) :
    (r.record a).entry b = if a = b then { valid := true, len := r.code.len, bits := r.code.bits } else r.entry b := by
  have := b.isLt
  simp [Regs.entry, getD_setIfInBounds, byte_toNat_inj, this]

@[simp] theorem Regs.entry_clearCodes (b : Byte) : r.clearCodes.entry b = CodeEntry.invalid := by
  simp [Regs.entry]

theorem hist_ext {a b : Regs} (h : ∀ s, a.histAt s = b.histAt s) : a.hist = b.hist := by
  refine vector_ext_getD 0 fun j hj => ?_
  have := h (BitVec.ofNat 8 j)
  simpa [Regs.histAt, Nat.mod_eq_of_lt (show j < 256 by omega)] using this

/-! ### Nodes -/

theorem Pool.node_setNode (i k : Nat) (n : Node) :
    (p.setNode i n).node k = if i = k ∧ k < 511 then n else p.node k := by
  simp [Pool.node, getD_setIfInBounds]

theorem Pool.node_of_le (k : Nat) (h : 511 ≤ k) : p.node k = Node.free := getD_of_le _ _ _ h

theorem Pool.node_setHeld (i k : Nat) (h : Held) :
    (p.setHeld i h).node k = if i = k ∧ k < 511 then { p.node k with held := h } else p.node k := by
  rw [Pool.setHeld, Pool.node_setNode]
  split
  · rename_i hk; rw [hk.1]
  · rfl

@[simp] theorem Pool.setHeld_kind (i k : Nat) (h : Held) : ((p.setHeld i h).node k).kind = (p.node k).kind := by
  rw [Pool.node_setHeld]; split <;> rfl

@[simp] theorem Pool.setHeld_sym (i k : Nat) (h : Held) : ((p.setHeld i h).node k).sym = (p.node k).sym := by
  rw [Pool.node_setHeld]; split <;> rfl

@[simp] theorem Pool.setHeld_freq (i k : Nat) (h : Held) : ((p.setHeld i h).node k).freq = (p.node k).freq := by
  rw [Pool.node_setHeld]; split <;> rfl

@[simp] theorem Pool.setHeld_left (i k : Nat) (h : Held) : ((p.setHeld i h).node k).left = (p.node k).left := by
  rw [Pool.node_setHeld]; split <;> rfl

@[simp] theorem Pool.setHeld_right (i k : Nat) (h : Held) : ((p.setHeld i h).node k).right = (p.node k).right := by
  rw [Pool.node_setHeld]; split <;> rfl

theorem Pool.setHeld_held (i k : Nat) (h : Held) :
    ((p.setHeld i h).node k).held = if i = k ∧ k < 511 then h else (p.node k).held := by
  rw [Pool.node_setHeld]; split <;> rfl

theorem Pool.node_grown (n : Node) (k : Nat) :
    (p.grown n).node k = if p.count = k ∧ k < 511 then n else p.node k := by
  simp [Pool.node, getD_setIfInBounds]

@[simp] theorem Pool.node_cleared (k : Nat) : p.cleared.node k = Node.free := by
  simp [Pool.node]

/-- A pool's nodes are what `node` reads. -/
theorem nodes_ext {a b : Pool} (h : ∀ k, a.node k = b.node k) : a.nodes = b.nodes :=
  vector_ext_getD Node.free fun k _ => h k

/-- Reading a node needs the nodes only. -/
theorem Pool.node_congr {a b : Pool} (h : a.nodes = b.nodes) (k : Nat) : a.node k = b.node k := by
  rw [Pool.node, Pool.node, h]

/-! ### Heap array -/

theorem heapAt_set (heap : Vector Nat 256) (i j x : Nat) :
    heapAt (heap.setIfInBounds i x) j = if i = j ∧ j < 256 then x else heapAt heap j := getD_setIfInBounds _ _ _ _ _

theorem heapAt_swap (heap : Vector Nat 256) (i j k : Nat) (hi : i < 256) (hj : j < 256) :
    heapAt (swapHeap heap i j) k = if k = j then heapAt heap i else if k = i then heapAt heap j else heapAt heap k := by
  rw [swapHeap, heapAt_set, heapAt_set]
  by_cases h1 : k = j
  · subst h1; simp [hj]
  · by_cases h2 : k = i
    · subst h2; simp [hi, h1, Ne.symm h1]
    · simp [h1, h2, Ne.symm h1, Ne.symm h2]

@[simp] theorem heapAt_replicate (j : Nat) : heapAt (Vector.replicate 256 NIL) j = NIL := by
  simp [heapAt]

end Sys2Proof.Machine
end

