-- ==== Sys2Proof/Laws/Histogram.lean ====
section
/-! SUPPORT. The histogram: what HIST_SCAN's loop counts (R117), and how many symbols have a count (R118, R120). -/

namespace Sys2Proof.Machine

variable {cfg : Config} {r : Regs} {q : Ports}

theorem mem_symbols (b : Byte) : b ∈ symbols := by
  refine List.mem_map.2 ⟨b.toNat, List.mem_range.2 b.isLt, ?_⟩
  simp

theorem nodup_symbols : symbols.Nodup := by
  refine List.Nodup.map_on ?_ List.nodup_range
  intro a ha b hb h
  have := congrArg BitVec.toNat h
  simpa [Nat.mod_eq_of_lt (List.mem_range.1 ha), Nat.mod_eq_of_lt (List.mem_range.1 hb)] using this

theorem length_symbols : symbols.length = 256 := by simp [symbols]

theorem mem_present {b : Byte} : b ∈ r.present ↔ r.histAt b ≠ 0 := by
  simp [Regs.present, mem_symbols]

theorem nodup_present : r.present.Nodup := nodup_symbols.filter _

theorem distinct_eq : r.distinct = r.present.length := by
  simp [Regs.distinct, Regs.present, List.countP_eq_length_filter]

theorem length_present_le : r.present.length ≤ 256 := by
  have := List.length_filter_le (fun s => r.histAt s != 0) symbols
  rwa [length_symbols] at this

/-- Two different symbols have a count exactly when at least two symbols have one. -/
theorem two_le_present : 2 ≤ r.present.length ↔ ∃ x y : Byte, x ≠ y ∧ r.histAt x ≠ 0 ∧ r.histAt y ≠ 0 := by
  constructor
  · intro h
    refine ⟨r.present[0], r.present[1], ?_, mem_present.1 (List.getElem_mem _), mem_present.1 (List.getElem_mem _)⟩
    intro he
    have := (List.Nodup.getElem_inj_iff nodup_present).1 he
    omega
  · rintro ⟨x, y, hxy, hx, hy⟩
    have hsub : [x, y] ⊆ r.present := by
      intro z hz
      rcases List.mem_cons.1 hz with rfl | hz
      · exact mem_present.2 hx
      · rw [List.mem_singleton.1 hz]; exact mem_present.2 hy
    exact (List.subperm_of_subset (by simp [hxy]) hsub).length_le

theorem histAt_eq (h : Vector Word 256) (b : Byte) : ({ r with hist := h } : Regs).histAt b = h.getD b.toNat 0 := rfl

/-- HIST_SCAN's loop counts the bytes pre one after the other where no count overflows (R117). -/
theorem goesOn_scanBytes {pre rest : List Byte} (hq : q.Granting) (hw : r.inp.Wf cfg.block) (ha : r.inp.bitPos % 8 = 0)
    (hu : unreadBytes r.inp q = pre ++ rest) (hs : r.scanCount.toNat + pre.length < 2 ^ 64)
    (hh : ∀ b, (r.histAt b).toNat + pre.count b < 2 ^ 64) :
    ∃ h i pos, Taken cfg.block r.inp q i pos (8 * pre.length) ∧
      (∀ b : Byte, (h.getD b.toNat 0).toNat = (r.histAt b).toNat + pre.count b) ∧
      ∀ fuel, GoesOn (scanLoop (fuel + pre.length)) cfg r q (scanLoop fuel)
        ({ r with hist := h, scanCount := r.scanCount + BitVec.ofNat 64 pre.length }.withInput i (pos - q.srcPos))
        { q with srcPos := pos } := by
  induction pre generalizing r q with
  | nil =>
    refine ⟨r.hist, r.inp, q.srcPos, Taken.refl hw hq.2.2, fun b => by simp [Regs.histAt], fun fuel => ?_⟩
    have e : ({ r with hist := r.hist, scanCount := r.scanCount + BitVec.ofNat 64 0 } : Regs).withInput r.inp 0 = r := by
      simp [Regs.withInput]
    rw [Nat.sub_self]
    simp only [List.length_nil, e]
    exact GoesOn.refl _
  | cons b pre ih =>
    rw [List.cons_append] at hu
    rw [List.length_cons] at hs
    obtain ⟨i, pos, hr, ht, -⟩ := runs_inByte (cfg := cfg) hq hw ha hu
    have hrest : unreadBytes i { q with srcPos := pos } = pre ++ rest := by
      have := Taken.unreadBytes (n := 1) ht ha
      simpa [hu] using this
    have hb := hh b
    rw [List.count_cons_self] at hb
    let r1 := (r.withInput i (pos - q.srcPos)).scanned b
    have hsc : r1.scanCount.toNat = r.scanCount.toNat + 1 := by
      change (r.scanCount + 1).toNat = _
      rw [BitVec.toNat_add]; simp; omega
    have hat : ∀ x, (r1.histAt x).toNat = (r.histAt x).toNat + if (b == x) = true then 1 else 0 := by
      intro x
      change (((r.withInput i (pos - q.srcPos)).scanned b).histAt x).toNat = _
      rw [Regs.histAt_scanned]
      by_cases hx : b = x
      · subst hx
        rw [if_pos rfl, if_pos (by simp)]
        change (r.histAt b + 1).toNat = _
        rw [BitVec.toNat_add]; simp; omega
      · rw [if_neg hx, if_neg (by simpa using hx)]; rfl
    obtain ⟨h, j, pos2, t2, hc, hgo⟩ := ih (r := r1) (q := { q with srcPos := pos }) (Ports.granting_at hq ht.bound) ht.wf
      (by change i.bitPos % 8 = 0; rw [ht.aligned]; omega) hrest (by rw [hsc]; omega) (fun x => by
        have := hh x
        rw [List.count_cons] at this
        rw [hat]; omega)
    have f1 := ht.forward
    have f2 : pos ≤ pos2 := t2.forward
    refine ⟨h, j, pos2, ?_, fun x => ?_, fun fuel => ?_⟩
    · have : Taken cfg.block r.inp q j pos2 _ := ht.trans t2
      rwa [List.length_cons, show 8 * (pre.length + 1) = 8 + 8 * pre.length by omega]
    · rw [hc, hat, List.count_cons]; omega
    · have e : ({ r1 with hist := h, scanCount := r1.scanCount + BitVec.ofNat 64 pre.length } : Regs).withInput j
          (pos2 - ({ q with srcPos := pos } : Ports).srcPos) =
          ({ r with hist := h, scanCount := r.scanCount + BitVec.ofNat 64 (b :: pre).length } : Regs).withInput j
            (pos2 - q.srcPos) := by
        simp only [r1, Regs.scanned, Regs.withInput, Regs.bumpHist, Regs.setHist, List.length_cons]
        congr 1
        · rw [Nat.add_comm pre.length, BitVec.ofNat_add, ← BitVec.add_assoc]; rfl
        · rw [BitVec.add_assoc, ← BitVec.ofNat_add]; congr 2; omega
      rw [← e]
      refine GoesOn.trans ?_ (hgo fuel)
      change GoesOn (scanLoop (fuel + pre.length + 1)) cfg r q _ _ _
      rw [scanLoop]
      refine hr.goesOn.trans ?_
      have hok : (!((r.withInput i (pos - q.srcPos)).histFull b ||
          (r.withInput i (pos - q.srcPos)).scanCount.toNat == freqMax)) = true := by
        have h1 : (r.withInput i (pos - q.srcPos)).histFull b = false := by
          change ((r.histAt b).toNat == freqMax) = false
          simp only [beq_eq_false_iff_ne, freqMax]; omega
        have h2 : ((r.withInput i (pos - q.srcPos)).scanCount.toNat == freqMax) = false := by
          change (r.scanCount.toNat == freqMax) = false
          simp only [beq_eq_false_iff_ne, freqMax]; omega
        rw [h1, h2]; rfl
      refine (Runs.goesOn (p := getRegs) (runs_getRegs.2 ⟨rfl, rfl, rfl⟩)).trans ?_
      refine (Runs.goesOn (a := ()) (runs_require.2 ⟨hok, rfl, rfl⟩)).trans ?_
      exact Runs.goesOn (a := ()) (runs_modifyRegs.2 ⟨rfl, rfl⟩)

/-- HIST_SCAN's loop counts every byte that is left and stops at the end of the stream (R117). -/
theorem runs_scanLoop {fuel : Nat} (hq : q.Granting) (hw : r.inp.Wf cfg.block) (ha : r.inp.bitPos % 8 = 0)
    (hf : (unreadBytes r.inp q).length < fuel)
    (hs : r.scanCount.toNat + (unreadBytes r.inp q).length < 2 ^ 64)
    (hh : ∀ b, (r.histAt b).toNat + (unreadBytes r.inp q).count b < 2 ^ 64) :
    ∃ h i, Runs (scanLoop fuel) cfg r q ()
        ({ r with
          hist := h
          scanCount := r.scanCount + BitVec.ofNat 64 (unreadBytes r.inp q).length }.withInput i
            (undelivered r.inp q).length)
        { q with srcPos := q.srcPos + (undelivered r.inp q).length } ∧
      (∀ b : Byte, (h.getD b.toNat 0).toNat = (r.histAt b).toNat + (unreadBytes r.inp q).count b) ∧
      i.eof = true ∧ i.bitPos = 8 * i.buf.length ∧ i.Wf cfg.block := by
  obtain ⟨h, i, pos, ht, hc, hgo⟩ := goesOn_scanBytes (cfg := cfg) (rest := []) hq hw ha (List.append_nil _).symm hs hh
  have ha1 : i.bitPos % 8 = 0 := by rw [ht.aligned]; omega
  obtain ⟨j, hend, t2, he, hb⟩ := runs_inByte_end (cfg := cfg)
    (r := ({ r with hist := h, scanCount := r.scanCount + BitVec.ofNat 64 (unreadBytes r.inp q).length } : Regs).withInput i
      (pos - q.srcPos)) (q := { q with srcPos := pos }) (Ports.granting_at hq ht.bound) ht.wf ha1
    (by change unreadBytes i _ = []; rw [ht.unreadBytes ha, List.drop_length])
  have htot := ht.total
  have hfw := ht.forward
  refine ⟨h, j, ?_, hc, he, hb, t2.wf⟩
  obtain ⟨k, rfl⟩ : ∃ k, fuel = k + 1 + (unreadBytes r.inp q).length := ⟨fuel - 1 - (unreadBytes r.inp q).length, by omega⟩
  refine (hgo (k + 1)).runs ?_
  rw [scanLoop]
  refine Runs.bind hend (runs_pure.2 ⟨rfl, ?_, ?_⟩)
  · rw [Regs.withInput_withInput]; congr 1; simp only [Regs.withInput_inp]; omega
  · simp only [Regs.withInput_inp]; congr 1

/-- HIST_SCAN's loop stops at the byte whose count, or the number of bytes, would pass 2^64 - 1; the counts of the bytes
before it stay (R117, R220(b)). -/
theorem fails_scanLoop {fuel : Nat} {pre rest : List Byte} {b : Byte} (hq : q.Granting) (hw : r.inp.Wf cfg.block)
    (ha : r.inp.bitPos % 8 = 0) (hu : unreadBytes r.inp q = pre ++ b :: rest) (hf : pre.length < fuel)
    (hs : r.scanCount.toNat + pre.length < 2 ^ 64) (hh : ∀ x, (r.histAt x).toNat + pre.count x < 2 ^ 64)
    (hfull : (r.histAt b).toNat + pre.count b = 2 ^ 64 - 1 ∨ r.scanCount.toNat + pre.length = 2 ^ 64 - 1) :
    ∃ h i pos, Fails (scanLoop fuel) cfg r q .freqOverflow
        ({ r with hist := h, scanCount := r.scanCount + BitVec.ofNat 64 pre.length }.withInput i (pos - q.srcPos))
        { q with srcPos := pos } ∧
      (∀ x : Byte, (h.getD x.toNat 0).toNat = (r.histAt x).toNat + pre.count x) ∧
      q.srcPos ≤ pos ∧ unreadBytes i { q with srcPos := pos } = rest := by
  obtain ⟨h, i, pos, ht, hc, hgo⟩ := goesOn_scanBytes (cfg := cfg) hq hw ha hu hs hh
  have ha1 : i.bitPos % 8 = 0 := by rw [ht.aligned]; omega
  have hu1 : unreadBytes i { q with srcPos := pos } = b :: rest := by rw [ht.unreadBytes ha, hu, List.drop_left]
  let r1 := ({ r with hist := h, scanCount := r.scanCount + BitVec.ofNat 64 pre.length } : Regs).withInput i (pos - q.srcPos)
  obtain ⟨j, pos2, hrun, t2, -⟩ := runs_inByte (cfg := cfg) (r := r1) (q := { q with srcPos := pos })
    (Ports.granting_at hq ht.bound) ht.wf ha1 hu1
  have f1 := ht.forward
  have f2 : pos ≤ pos2 := t2.forward
  refine ⟨h, j, pos2, ?_, hc, f1.trans f2, ?_⟩
  · obtain ⟨k, rfl⟩ : ∃ k, fuel = k + 1 + pre.length := ⟨fuel - 1 - pre.length, by omega⟩
    refine (hgo (k + 1)).fails ?_
    rw [scanLoop]
    refine Runs.bind_fails hrun ?_
    have e : r1.withInput j (pos2 - ({ q with srcPos := pos } : Ports).srcPos) =
        ({ r with hist := h, scanCount := r.scanCount + BitVec.ofNat 64 pre.length } : Regs).withInput j (pos2 - q.srcPos) := by
      rw [Regs.withInput_withInput]; congr 1; simp only; omega
    rw [e]
    simp only [fails_getRegs_bind, fails_require_bind]
    refine .inl ⟨?_, trivial, trivial, trivial⟩
    have h1 : (({ r with hist := h, scanCount := r.scanCount + BitVec.ofNat 64 pre.length } : Regs).withInput j
        (pos2 - q.srcPos)).histFull b = ((r.histAt b).toNat + pre.count b == 2 ^ 64 - 1) := by
      rw [← hc]; rfl
    have h2 : (({ r with hist := h, scanCount := r.scanCount + BitVec.ofNat 64 pre.length } : Regs).withInput j
        (pos2 - q.srcPos)).scanCount.toNat = r.scanCount.toNat + pre.length := by
      change (r.scanCount + BitVec.ofNat 64 pre.length).toNat = _
      rw [BitVec.toNat_add, BitVec.toNat_ofNat, Nat.mod_eq_of_lt (a := pre.length) (by omega), Nat.mod_eq_of_lt (by omega)]
    rw [h1, h2]
    rcases hfull with h | h
    · simp [h]
    · simp [h, freqMax]
  · have := Taken.unreadBytes (n := 1) t2 ha1
    change unreadBytes j { q with srcPos := pos2 } = (unreadBytes i { q with srcPos := pos }).drop 1 at this
    rw [this, hu1]; rfl

end Sys2Proof.Machine
end

