-- ==== Sys2Proof/Laws/Pool.lean ====
section
/-! SUPPORT. The node pool: two pools with the same nodes are the same, and what counting, dumping and holding a tree
depend on (R45, R46, R125, R129, R131, R148, R149). -/

namespace Sys2Proof.Machine

variable {cfg : Config} {r : Regs} {q : Ports} {p p' : Pool}

/-- A pool is what its nodes read as, and its other fields. -/
theorem Pool.ext_node (nodes : ∀ k, p.node k = p'.node k) (count : p.count = p'.count) (root : p.root = p'.root)
    (unique : p.unique = p'.unique) (heap : p.heap = p'.heap) (size : p.size = p'.size) (cap : p.cap = p'.cap)
    (stack : p.stack = p'.stack) : p = p' := by
  have h := nodes_ext nodes
  cases p; cases p'
  simp_all

/-- An internal node over two others. -/
abbrev innerNode (held : Held) (freq : Word) (left right : Nat) : Node :=
  { kind := .internal, held := held, sym := 0, freq := freq, left := left, right := right }

/-! ### Allocation and the node check -/

theorem runs_alloc {kind : Kind} {sym : Byte} {freq : Word} {left right : Nat} {e : ErrName} (h : r.pool.count ≠ 511) :
    Runs (alloc kind sym freq left right e) cfg r q r.pool.count
      { r with pool := (r.pool.grown
          { kind := kind, held := .unowned, sym := sym, freq := freq, left := left, right := right }) } q := by
  simp [alloc, h]

theorem fails_alloc {kind : Kind} {sym : Byte} {freq : Word} {left right : Nat} {e : ErrName} (h : r.pool.count = 511) :
    Fails (alloc kind sym freq left right e) cfg r q e r q := by
  simp [alloc, h]

theorem runs_checkFree {n : Nat} (hn : n < r.pool.count) (hh : (r.pool.node n).held = .unowned) :
    Runs (checkFree n) cfg r q () r q := by
  simp [checkFree, hn, hh]

theorem fails_checkFree_badNode {n : Nat} (hn : r.pool.count ≤ n) : Fails (checkFree n) cfg r q .badNode r q := by
  simp [checkFree, hn]

theorem fails_checkFree_nodeHeld {n : Nat} (hn : n < r.pool.count) (hh : (r.pool.node n).held ≠ .unowned) :
    Fails (checkFree n) cfg r q .nodeHeld r q := by
  simp [checkFree, hn, hh]

/-! ### Updates as record updates -/

theorem Pool.setHeld_eq (i : Nat) (h : Held) : p.setHeld i h = { p with nodes := (p.setHeld i h).nodes } := rfl

theorem Pool.releaseRoot_eq : p.releaseRoot = { p with nodes := p.releaseRoot.nodes } := by
  unfold Pool.releaseRoot; split <;> rfl

theorem Pool.releaseQueued_eq (n : Nat) : p.releaseQueued n = { p with nodes := (p.releaseQueued n).nodes } := by
  induction n with
  | zero => rfl
  | succ n ih => rw [Pool.releaseQueued, ih]; rfl

theorem Pool.node_releaseQueued (n k : Nat) :
    (p.releaseQueued n).node k =
      if ∃ j, j < n ∧ heapAt p.heap j = k then { p.node k with held := .unowned } else p.node k := by
  induction n with
  | zero => simp [Pool.releaseQueued]
  | succ n ih =>
    rw [Pool.releaseQueued, Pool.node_setHeld, ih]
    by_cases h : heapAt p.heap n = k
    · have hex : ∃ j, j < n + 1 ∧ heapAt p.heap j = k := ⟨n, by omega, h⟩
      rw [if_pos hex]
      by_cases hk : k < 511
      · rw [if_pos ⟨h, hk⟩]; split <;> rfl
      · rw [if_neg (fun hc => hk hc.2), p.node_of_le k (by omega)]
        split <;> rfl
    · have hiff : (∃ j, j < n + 1 ∧ heapAt p.heap j = k) ↔ ∃ j, j < n ∧ heapAt p.heap j = k :=
        ⟨fun ⟨j, h1, h2⟩ => ⟨j, by rcases Nat.lt_succ_iff_lt_or_eq.1 h1 with h3 | h3
                                   · exact h3
                                   · subst h3; contradiction, h2⟩,
          fun ⟨j, h1, h2⟩ => ⟨j, by omega, h2⟩⟩
      rw [if_neg (fun hc => h hc.1)]
      simp only [hiff]

theorem Pool.node_releaseRoot (k : Nat) :
    p.releaseRoot.node k = if k = p.root ∧ k < 511 then { p.node k with held := .unowned } else p.node k := by
  unfold Pool.releaseRoot
  split
  · rename_i h
    rw [if_neg (by rw [h]; rintro ⟨rfl, hk⟩; exact absurd hk (by decide))]
  · rw [Pool.node_setHeld]
    by_cases h : p.root = k
    · simp [h]
    · simp [h, Ne.symm h]

/-! ### Trees -/

/-- Two pools that agree on kinds, symbols and links. -/
def SameShape (p p' : Pool) : Prop :=
  ∀ k, (p.node k).kind = (p'.node k).kind ∧ (p.node k).sym = (p'.node k).sym ∧ (p.node k).left = (p'.node k).left ∧
    (p.node k).right = (p'.node k).right

theorem SameShape.refl (p : Pool) : SameShape p p := fun _ => ⟨rfl, rfl, rfl, rfl⟩

theorem SameShape.trans {p'' : Pool} (h : SameShape p p') (h' : SameShape p' p'') : SameShape p p'' := fun k =>
  ⟨(h k).1.trans (h' k).1, (h k).2.1.trans (h' k).2.1, (h k).2.2.1.trans (h' k).2.2.1, (h k).2.2.2.trans (h' k).2.2.2⟩

theorem SameShape.symm (h : SameShape p p') : SameShape p' p := fun k =>
  ⟨(h k).1.symm, (h k).2.1.symm, (h k).2.2.1.symm, (h k).2.2.2.symm⟩

theorem sameShape_setHeld (p : Pool) (i : Nat) (h : Held) : SameShape (p.setHeld i h) p := fun k => by simp

theorem SameShape.leavesTo (h : SameShape p p') (fuel n : Nat) : leavesTo p fuel n = leavesTo p' fuel n := by
  induction fuel generalizing n with
  | zero => rfl
  | succ fuel ih =>
    obtain ⟨h1, -, h3, h4⟩ := h n
    simp only [Machine.leavesTo, h1, h3, h4, ih]

theorem SameShape.leaves (h : SameShape p p') (n : Nat) : p.leaves n = p'.leaves n := h.leavesTo _ _

theorem Pool.Holds.lt {t : CodeTree} {n : Nat} (h : p.Holds t n) : n < p.count := by
  cases t <;> exact h.1

theorem Pool.Holds.kind_ne_free {t : CodeTree} {n : Nat} (h : p.Holds t n) : (p.node n).kind ≠ .free := by
  cases t with
  | leaf s => rw [h.2.1]; decide
  | node l r => rw [h.2.1]; decide

/-- A tree is held alike by every pool that agrees on the slots up to its root. -/
theorem Pool.Holds.congr {t : CodeTree} {n : Nat} (h : p.Holds t n) (hc : n < p'.count)
    (hs : ∀ k, k ≤ n → (p.node k).kind = (p'.node k).kind ∧ (p.node k).sym = (p'.node k).sym ∧
      (p.node k).left = (p'.node k).left ∧ (p.node k).right = (p'.node k).right) : p'.Holds t n := by
  induction t generalizing n with
  | leaf s =>
    obtain ⟨-, h2, h3⟩ := h
    obtain ⟨k1, k2, -, -⟩ := hs n le_rfl
    exact ⟨hc, k1 ▸ h2, k2 ▸ h3⟩
  | node l r ihl ihr =>
    obtain ⟨-, h2, h3, h4, h5, h6⟩ := h
    obtain ⟨k1, -, k3, k4⟩ := hs n le_rfl
    refine ⟨hc, k1 ▸ h2, k3 ▸ h3, k4 ▸ h4, ?_, ?_⟩
    · rw [← k3]; exact ihl h5 (by omega) fun k hk => hs k (by omega)
    · rw [← k4]; exact ihr h6 (by omega) fun k hk => hs k (by omega)

theorem SameShape.holds {t : CodeTree} {n : Nat} (hs : SameShape p p') (hc : p.count = p'.count) (h : p.Holds t n) :
    p'.Holds t n :=
  h.congr (hc ▸ h.lt) fun k _ => hs k

/-- A node holds one tree only. -/
theorem Pool.Holds.unique {t t' : CodeTree} {n : Nat} (h : p.Holds t n) (h' : p.Holds t' n) : t = t' := by
  induction t generalizing t' n with
  | leaf s =>
    cases t' with
    | leaf s' => rw [← h.2.2, ← h'.2.2]
    | node l r => have := h.2.1.symm.trans h'.2.1; contradiction
  | node l r ihl ihr =>
    cases t' with
    | leaf s' => have := h.2.1.symm.trans h'.2.1; contradiction
    | node l' r' => rw [ihl h.2.2.2.2.1 h'.2.2.2.2.1, ihr h.2.2.2.2.2 h'.2.2.2.2.2]

theorem leavesTo_of_holds {t : CodeTree} {n fuel : Nat} (h : p.Holds t n) (hf : n < fuel) : leavesTo p fuel n = t.leaves := by
  induction t generalizing n fuel with
  | leaf s =>
    obtain ⟨fuel, rfl⟩ := Nat.exists_eq_add_of_lt hf
    simp [leavesTo, h.2.1, CodeTree.leaves]
  | node l r ihl ihr =>
    obtain ⟨k, rfl⟩ := Nat.exists_eq_succ_of_ne_zero (by omega : fuel ≠ 0)
    obtain ⟨-, h2, h3, h4, h5, h6⟩ := h
    rw [leavesTo, h2, if_neg (by decide), ihl h5 (by omega), ihr h6 (by omega)]
    rfl

/-- `Leaves` of a node that holds a tree counts the tree's leaves (R148). -/
theorem leaves_of_holds {t : CodeTree} {n : Nat} (h : p.Holds t n) : p.leaves n = t.leaves := leavesTo_of_holds h (by omega)

theorem dumpTo_of_holds {c : Config} {t : CodeTree} {n fuel : Nat} (h : p.Holds t n) (hf : n < fuel) :
    dumpTo c p fuel n = t.dump c := by
  induction t generalizing n fuel with
  | leaf s =>
    obtain ⟨fuel, rfl⟩ := Nat.exists_eq_add_of_lt hf
    simp [dumpTo, h.2.1, h.2.2, CodeTree.dump]
  | node l r ihl ihr =>
    obtain ⟨k, rfl⟩ := Nat.exists_eq_succ_of_ne_zero (by omega : fuel ≠ 0)
    obtain ⟨-, h2, h3, h4, h5, h6⟩ := h
    rw [dumpTo, h2, if_neg (by decide), ihl h5 (by omega), ihr h6 (by omega)]
    rfl

/-- `Dump` of a node that holds a tree is the tree's dump (R149). -/
theorem dump_of_holds {c : Config} {t : CodeTree} {n : Nat} (h : p.Holds t n) : p.dump c n = t.dump c :=
  dumpTo_of_holds h (by omega)

theorem CodeTree.leaves_pos (t : CodeTree) : 1 ≤ t.leaves := by
  induction t with
  | leaf s => exact le_rfl
  | node l r ihl ihr => simp only [CodeTree.leaves]; omega

theorem CodeTree.length_dump (c : Config) (t : CodeTree) : (t.dump c).length = 3 * t.leaves - 1 := by
  induction t with
  | leaf s => rfl
  | node l r ihl ihr =>
    have := l.leaves_pos
    have := r.leaves_pos
    simp only [CodeTree.dump, CodeTree.leaves, List.length_append, List.length_singleton, ihl, ihr]
    omega

theorem CodeTree.length_symbols (t : CodeTree) : t.symbols.length = t.leaves := by
  induction t with
  | leaf s => rfl
  | node l r ihl ihr => simp [CodeTree.symbols, CodeTree.leaves, ihl, ihr]

theorem CodeTree.length_slots (t : CodeTree) (h : Held) (base : Nat) : (t.slots h base).length = 2 * t.leaves - 1 := by
  induction t generalizing h base with
  | leaf s => rfl
  | node l r ihl ihr =>
    have := l.leaves_pos
    have := r.leaves_pos
    simp only [CodeTree.slots, CodeTree.leaves, List.length_append, List.length_singleton, ihl, ihr]
    omega

end Sys2Proof.Machine
end

