-- ==== Sys2Proof/Laws/Heap.lean ====
section
/-! SUPPORT. The priority queue (R47, R130, R135): each sift restores the heap order and only moves entries about; what
HeapInsert and HeapExtract do to the queue; the entry at the top is a minimum. -/

namespace Sys2Proof.Machine

variable {p : Pool} {heap : Vector Nat 256} {m i : Nat}

/-- key(PQH[j]) (R130). -/
def keyAt (p : Pool) (heap : Vector Nat 256) (j : Nat) : Nat := (p.node (heapAt heap j)).freq.toNat

/-- The first m entries of the array. -/
def entriesOf (heap : Vector Nat 256) (m : Nat) : List Nat := (List.range m).map (heapAt heap)

theorem take_toList (heap : Vector Nat 256) {m : Nat} (h : m ≤ 256) : heap.toList.take m = entriesOf heap m := by
  refine List.ext_getElem (by simp [entriesOf, h]) fun j h1 h2 => ?_
  have hj : j < 256 := by simp at h1; omega
  simp [entriesOf, heapAt, getD_eq_dite, hj]

theorem mem_entriesOf {x : Nat} : x ∈ entriesOf heap m ↔ ∃ j, j < m ∧ heapAt heap j = x := by simp [entriesOf]

theorem nodup_entriesOf :
    (entriesOf heap m).Nodup ↔ ∀ j k, j < m → k < m → heapAt heap j = heapAt heap k → j = k := by
  rw [entriesOf, List.nodup_map_iff_inj_on List.nodup_range]
  simp only [List.mem_range]
  exact ⟨fun h j k hj hk => h j hj k hk, fun h j hj k hk => h j k hj hk⟩

theorem keyLess_iff (j k : Nat) : keyLess p heap j k = true ↔ keyAt p heap j < keyAt p heap k := by
  simp [keyLess, keyAt, BitVec.ult]

theorem keyAt_swap (i j k : Nat) (hi : i < 256) (hj : j < 256) :
    keyAt p (swapHeap heap i j) k =
      if k = j then keyAt p heap i else if k = i then keyAt p heap j else keyAt p heap k := by
  unfold keyAt
  rw [heapAt_swap heap i j k hi hj]
  split
  · rfl
  · split <;> rfl

theorem entriesOf_swap (i j : Nat) (hi : i < m) (hj : j < m) (hm : m ≤ 256) :
    (entriesOf (swapHeap heap i j) m).Perm (entriesOf heap m) := by
  have hmap : entriesOf (swapHeap heap i j) m = ((List.range m).map (Equiv.swap i j)).map (heapAt heap) := by
    rw [entriesOf, List.map_map]
    refine List.map_congr_left fun k _ => ?_
    rw [heapAt_swap heap i j k (by omega) (by omega), Function.comp, Equiv.swap_apply_def]
    by_cases h1 : k = j
    · subst h1
      by_cases h2 : k = i <;> simp [h2]
    · by_cases h2 : k = i
      · subst h2; simp [h1]
      · simp [h1, h2]
  rw [hmap, entriesOf]
  refine List.Perm.map _ ?_
  rw [List.perm_ext_iff_of_nodup (List.nodup_range.map (Equiv.injective _)) List.nodup_range]
  intro k
  simp only [List.mem_map, List.mem_range]
  constructor
  · rintro ⟨a, ha, rfl⟩
    rw [Equiv.swap_apply_def]; split
    · exact hj
    · split
      · exact hi
      · exact ha
  · intro hk
    refine ⟨Equiv.swap i j k, ?_, Equiv.swap_apply_self i j k⟩
    rw [Equiv.swap_apply_def]; split
    · exact hj
    · split
      · exact hi
      · exact hk

/-- No key above its children's, among the first m entries (R135). -/
def Ordered (p : Pool) (heap : Vector Nat 256) (m : Nat) : Prop :=
  ∀ k, 0 < k → k < m → keyAt p heap ((k - 1) / 2) ≤ keyAt p heap k

/-! ### Sift-up -/

/-- Ordered but for entry i against its parent. -/
structure UpTo (p : Pool) (heap : Vector Nat 256) (m i : Nat) : Prop where
  others : ∀ k, 0 < k → k < m → k ≠ i → keyAt p heap ((k - 1) / 2) ≤ keyAt p heap k
  below : ∀ k, 0 < k → k < m → (k - 1) / 2 = i → 0 < i → keyAt p heap ((i - 1) / 2) ≤ keyAt p heap k

theorem UpTo.step (h : UpTo p heap m i) (hm : m ≤ 256) (hi : i < m) (hl : keyAt p heap i < keyAt p heap ((i - 1) / 2)) :
    UpTo p (swapHeap heap i ((i - 1) / 2)) m ((i - 1) / 2) := by
  have hpos : 0 < i := by
    rcases Nat.eq_zero_or_pos i with rfl | h0
    · simp at hl
    · exact h0
  have hsw := keyAt_swap (p := p) (heap := heap) i ((i - 1) / 2)
  constructor
  · intro k h0 hk hne
    rw [hsw k (by omega) (by omega), hsw _ (by omega) (by omega), if_neg hne]
    by_cases h1 : k = i
    · subst h1
      simp only [if_pos]
      exact hl.le
    · rw [if_neg h1]
      by_cases h2 : (k - 1) / 2 = (i - 1) / 2
      · rw [if_pos h2]
        exact hl.le.trans (h2 ▸ h.others k h0 hk h1)
      · rw [if_neg h2]
        by_cases h3 : (k - 1) / 2 = i
        · rw [if_pos h3]; exact h.below k h0 hk h3 hpos
        · rw [if_neg h3]; exact h.others k h0 hk h1
  · intro k h0 hk hpar hi'
    rw [hsw k (by omega) (by omega), hsw _ (by omega) (by omega)]
    have e1 : ((i - 1) / 2 - 1) / 2 ≠ (i - 1) / 2 := by omega
    have e2 : ((i - 1) / 2 - 1) / 2 ≠ i := by omega
    have e3 : k ≠ (i - 1) / 2 := by omega
    rw [if_neg e1, if_neg e2, if_neg e3]
    have hup := h.others ((i - 1) / 2) hi' (by omega) (by omega)
    by_cases h1 : k = i
    · rw [if_pos h1]; exact hup
    · rw [if_neg h1]
      exact hup.trans (hpar ▸ h.others k h0 hk h1)

theorem siftUp_spec (fuel : Nat) (hm : m ≤ 256) (hi : i < m) (hf : i ≤ fuel) (h : UpTo p heap m i) :
    Ordered p (siftUp p fuel heap i) m ∧ (entriesOf (siftUp p fuel heap i) m).Perm (entriesOf heap m) ∧
      ∀ j, m ≤ j → heapAt (siftUp p fuel heap i) j = heapAt heap j := by
  induction fuel generalizing heap i with
  | zero =>
    obtain rfl : i = 0 := by omega
    exact ⟨fun k h0 hk => h.others k h0 hk (by omega), List.Perm.refl _, fun _ _ => rfl⟩
  | succ fuel ih =>
    unfold siftUp
    split
    · rename_i hl
      rw [keyLess_iff] at hl
      have hpos : 0 < i := by
        rcases Nat.eq_zero_or_pos i with rfl | h0
        · simp at hl
        · exact h0
      obtain ⟨h1, h2, h3⟩ := ih (by omega) (by omega) (h.step hm hi hl)
      refine ⟨h1, h2.trans (entriesOf_swap _ _ hi (by omega) hm), fun j hj => ?_⟩
      rw [h3 j hj, heapAt_swap heap _ _ j (by omega) (by omega), if_neg (by omega), if_neg (by omega)]
    · rename_i hl
      rw [keyLess_iff, Nat.not_lt] at hl
      refine ⟨fun k h0 hk => ?_, List.Perm.refl _, fun _ _ => rfl⟩
      by_cases hk' : k = i
      · subst hk'; exact hl
      · exact h.others k h0 hk hk'

/-! ### Sift-down -/

/-- Ordered but for the children of entry i against it. -/
structure DownTo (p : Pool) (heap : Vector Nat 256) (m i : Nat) : Prop where
  others : ∀ k, 0 < k → k < m → (k - 1) / 2 ≠ i → keyAt p heap ((k - 1) / 2) ≤ keyAt p heap k
  below : ∀ k, 0 < k → k < m → (k - 1) / 2 = i → 0 < i → keyAt p heap ((i - 1) / 2) ≤ keyAt p heap k

/-- What the sift-down loop swaps with: nothing when no child is below i, else the smaller child. -/
theorem smallerChild_spec (p : Pool) (heap : Vector Nat 256) (m i : Nat) :
    (smallerChild p heap m i = i ∧ ∀ k, 0 < k → k < m → (k - 1) / 2 = i → keyAt p heap i ≤ keyAt p heap k) ∨
    (∃ c, smallerChild p heap m i = c ∧ 0 < c ∧ c < m ∧ (c - 1) / 2 = i ∧ keyAt p heap c < keyAt p heap i ∧
      ∀ k, 0 < k → k < m → (k - 1) / 2 = i → keyAt p heap c ≤ keyAt p heap k) := by
  have hkid : ∀ k, 0 < k → (k - 1) / 2 = i → k = 2 * i + 1 ∨ k = 2 * i + 2 := by omega
  unfold smallerChild
  simp only [Bool.and_eq_true, decide_eq_true_eq, keyLess_iff]
  by_cases hl : 2 * i + 1 < m ∧ keyAt p heap (2 * i + 1) < keyAt p heap i
  · rw [if_pos hl]
    by_cases hq : 2 * i + 2 < m ∧ keyAt p heap (2 * i + 2) < keyAt p heap (2 * i + 1)
    · rw [if_pos hq]
      refine .inr ⟨_, rfl, by omega, hq.1, by omega, hq.2.trans hl.2, fun k h0 hk hp => ?_⟩
      rcases hkid k h0 hp with rfl | rfl
      · exact hq.2.le
      · exact le_rfl
    · rw [if_neg hq]
      refine .inr ⟨_, rfl, by omega, hl.1, by omega, hl.2, fun k h0 hk hp => ?_⟩
      rcases hkid k h0 hp with rfl | rfl
      · exact le_rfl
      · by_contra hc; exact hq ⟨hk, by omega⟩
  · rw [if_neg hl]
    by_cases hq : 2 * i + 2 < m ∧ keyAt p heap (2 * i + 2) < keyAt p heap i
    · rw [if_pos hq]
      refine .inr ⟨_, rfl, by omega, hq.1, by omega, hq.2, fun k h0 hk hp => ?_⟩
      rcases hkid k h0 hp with rfl | rfl
      · by_contra hc; exact hl ⟨hk, by omega⟩
      · exact le_rfl
    · rw [if_neg hq]
      refine .inl ⟨rfl, fun k h0 hk hp => ?_⟩
      rcases hkid k h0 hp with rfl | rfl
      · by_contra hc; exact hl ⟨hk, by omega⟩
      · by_contra hc; exact hq ⟨hk, by omega⟩

theorem siftDown_spec (fuel : Nat) (hm : m ≤ 256) (hf : m ≤ i + fuel) (h : DownTo p heap m i) :
    Ordered p (siftDown p m fuel heap i) m ∧ (entriesOf (siftDown p m fuel heap i) m).Perm (entriesOf heap m) ∧
      ∀ j, m ≤ j → heapAt (siftDown p m fuel heap i) j = heapAt heap j := by
  induction fuel generalizing heap i with
  | zero => exact ⟨fun k h0 hk => h.others k h0 hk (by omega), List.Perm.refl _, fun _ _ => rfl⟩
  | succ fuel ih =>
    unfold siftDown
    rcases smallerChild_spec p heap m i with ⟨hc, hall⟩ | ⟨c, hc, h0, hcm, hpar, hlt, hmin⟩
    · rw [hc]
      simp only [if_pos]
      refine ⟨fun k h0 hk => ?_, List.Perm.refl _, by simp⟩
      by_cases hp : (k - 1) / 2 = i
      · rw [hp]; exact hall k h0 hk hp
      · exact h.others k h0 hk hp
    · have hci : c ≠ i := by omega
      rw [hc]
      simp only [if_neg hci]
      have hsw := keyAt_swap (p := p) (heap := heap) i c
      have hd : DownTo p (swapHeap heap i c) m c := by
        constructor
        · intro k hk0 hk hne
          rw [hsw k (by omega) (by omega), hsw _ (by omega) (by omega), if_neg hne]
          by_cases h1 : (k - 1) / 2 = i
          · rw [if_pos h1]
            by_cases h2 : k = c
            · rw [if_pos h2]; exact hlt.le
            · rw [if_neg h2, if_neg (by omega)]; exact hmin k hk0 hk h1
          · rw [if_neg h1, if_neg (by rintro rfl; exact h1 hpar)]
            by_cases h2 : k = i
            · subst h2
              rw [if_pos rfl]; exact h.below c h0 hcm hpar hk0
            · rw [if_neg h2]; exact h.others k hk0 hk h1
        · intro k hk0 hk hp _
          rw [hsw k (by omega) (by omega), hsw _ (by omega) (by omega), hpar, if_neg (Ne.symm hci), if_pos rfl,
            if_neg (by omega), if_neg (by omega)]
          have := h.others k hk0 hk (by omega)
          rwa [hp] at this
      obtain ⟨h1, h2, h3⟩ := ih (by omega) hd
      refine ⟨h1, h2.trans (entriesOf_swap _ _ (by omega) hcm hm), fun j hj => ?_⟩
      rw [h3 j hj, heapAt_swap heap _ _ j (by omega) (by omega), if_neg (by omega), if_neg (by omega)]

/-! ### HeapInsert and HeapExtract -/

theorem keyAt_congr {p' : Pool} {heap' : Vector Nat 256} {j : Nat} (hf : ∀ k, (p.node k).freq = (p'.node k).freq)
    (hh : heapAt heap j = heapAt heap' j) : keyAt p heap j = keyAt p' heap' j := by
  simp only [keyAt, hh, hf]

/-- The queue's entries. -/
abbrev Pool.queue (p : Pool) : List Nat := entriesOf p.heap p.size

theorem Pool.QueueWf.ordered (h : p.QueueWf) : Ordered p p.heap p.size := h.order

/-- The entry at the top is a minimum (R135). -/
theorem Ordered.top_le (h : Ordered p heap m) (j : Nat) (hj : j < m) : keyAt p heap 0 ≤ keyAt p heap j := by
  induction j using Nat.strong_induction_on with
  | _ j ih =>
    rcases Nat.eq_zero_or_pos j with rfl | h0
    · exact le_rfl
    · exact (ih ((j - 1) / 2) (by omega) (by omega)).trans (h j h0 hj)


theorem Pool.node_heapInsert (x k : Nat) :
    (p.heapInsert x).node k = if x = k ∧ k < 511 then { p.node k with held := .pq } else p.node k := by
  rw [Pool.heapInsert, Pool.node_setHeld]; rfl

theorem Pool.node_heapExtract (k : Nat) :
    p.heapExtract.node k = if p.heapTop = k ∧ k < 511 then { p.node k with held := .unowned } else p.node k := by
  rw [Pool.heapExtract, Pool.node_setHeld]; rfl

theorem Pool.heapInsert_spec (x : Nat) (hs : p.size < 256) (ho : Ordered p p.heap p.size) :
    Ordered (p.heapInsert x) (p.heapInsert x).heap (p.size + 1) ∧ (p.heapInsert x).queue.Perm (x :: p.queue) ∧
      ∀ j, p.size + 1 ≤ j → heapAt (p.heapInsert x).heap j = heapAt p.heap j := by
  have hset : ∀ j, j ≠ p.size → heapAt (p.heap.setIfInBounds p.size x) j = heapAt p.heap j := fun j hj => by
    rw [heapAt_set, if_neg (fun h => hj h.1.symm)]
  have hup : UpTo p (p.heap.setIfInBounds p.size x) (p.size + 1) p.size := by
    constructor
    · intro k h0 hk hne
      rw [keyAt_congr (fun _ => rfl) (hset k hne), keyAt_congr (fun _ => rfl) (hset ((k - 1) / 2) (by omega))]
      exact ho k h0 (by omega)
    · intro k h0 hk hp _
      omega
  obtain ⟨h1, h2, h3⟩ := siftUp_spec p.size (show p.size + 1 ≤ 256 by omega) (by omega) le_rfl hup
  refine ⟨fun k h0 hk => ?_, ?_, fun j hj => ?_⟩
  · have hf : ∀ k, ((p.heapInsert x).node k).freq = (p.node k).freq := fun k => by
      rw [Pool.node_heapInsert]; split <;> rfl
    rw [keyAt_congr hf rfl, keyAt_congr hf rfl]
    exact h1 k h0 hk
  · refine h2.trans ?_
    rw [entriesOf, List.range_succ, List.map_append, List.map_singleton, heapAt_set, if_pos ⟨rfl, hs⟩]
    refine List.perm_append_comm.trans ?_
    rw [List.singleton_append]
    refine List.Perm.cons _ (List.Perm.of_eq ?_)
    exact List.map_congr_left fun j hj => hset j (by have := List.mem_range.1 hj; omega)
  · exact (h3 j hj).trans (hset j (by omega))

theorem Pool.heapExtract_spec (hs : 0 < p.size) (hm : p.size ≤ 256) (ho : Ordered p p.heap p.size) :
    Ordered p.heapExtract p.heapExtract.heap (p.size - 1) ∧ p.queue.Perm (p.heapTop :: p.heapExtract.queue) ∧
      ∀ j, p.size - 1 ≤ j → heapAt p.heapExtract.heap j = if j = p.size - 1 then NIL else heapAt p.heap j := by
  obtain ⟨n, hn⟩ : ∃ n, p.size = n + 1 := ⟨p.size - 1, by omega⟩
  have hmoved : ∀ j, heapAt ((p.heap.setIfInBounds 0 (heapAt p.heap n)).setIfInBounds n NIL) j =
      if j = n then NIL else if j = 0 then heapAt p.heap n else heapAt p.heap j := fun j => by
    rw [heapAt_set, heapAt_set]
    by_cases h1 : j = n
    · subst h1; simp; omega
    · by_cases h2 : j = 0
      · subst h2; simp [h1, Ne.symm h1]
      · simp [h1, h2, Ne.symm h1, Ne.symm h2]
  have hd : DownTo p ((p.heap.setIfInBounds 0 (heapAt p.heap n)).setIfInBounds n NIL) n 0 := by
    constructor
    · intro k h0 hk hne
      have hkey : ∀ j, j ≠ n → j ≠ 0 → keyAt p ((p.heap.setIfInBounds 0 (heapAt p.heap n)).setIfInBounds n NIL) j =
          keyAt p p.heap j := fun j h1 h2 => keyAt_congr (fun _ => rfl) (by rw [hmoved, if_neg h1, if_neg h2])
      rw [hkey k (by omega) (by omega), hkey _ (by omega) hne]
      exact ho k h0 (by omega)
    · intro k _ _ _ h; omega
  obtain ⟨h1, h2, h3⟩ := siftDown_spec n (show n ≤ 256 by omega) (by omega) hd
  have hheap : p.heapExtract.heap =
      siftDown p n n ((p.heap.setIfInBounds 0 (heapAt p.heap n)).setIfInBounds n NIL) 0 := by
    simp only [Pool.heapExtract, hn, Nat.add_sub_cancel]; rfl
  have hsz : p.size - 1 = n := by omega
  rw [Pool.queue, Pool.queue, Pool.heapExtract_size, hsz, hheap, hn]
  refine ⟨fun k h0 hk => ?_, ?_, fun j hj => ?_⟩
  · have hf : ∀ k, (p.heapExtract.node k).freq = (p.node k).freq := fun k => by
      rw [Pool.node_heapExtract]; split <;> rfl
    rw [keyAt_congr hf rfl, keyAt_congr hf rfl]
    exact h1 k h0 hk
  · refine List.Perm.trans ?_ (List.Perm.cons _ h2.symm)
    rw [entriesOf, List.range_succ_eq_map, List.map_cons]
    refine List.Perm.cons _ ?_
    rw [List.map_map]
    rcases Nat.eq_zero_or_pos n with rfl | hpos
    · exact List.Perm.refl _
    · obtain ⟨k, rfl⟩ : ∃ k, n = k + 1 := ⟨n - 1, by omega⟩
      have e1 : (List.range (k + 1)).map (heapAt p.heap ∘ Nat.succ) =
          (List.range k).map (heapAt p.heap ∘ Nat.succ) ++ [heapAt p.heap (k + 1)] := by
        rw [List.range_succ, List.map_append]; rfl
      have e2 : entriesOf ((p.heap.setIfInBounds 0 (heapAt p.heap (k + 1))).setIfInBounds (k + 1) NIL) (k + 1) =
          heapAt p.heap (k + 1) :: (List.range k).map (heapAt p.heap ∘ Nat.succ) := by
        rw [entriesOf, List.range_succ_eq_map, List.map_cons, List.map_map, hmoved, if_neg (by omega), if_pos rfl]
        congr 1
        refine List.map_congr_left fun j hj => ?_
        have := List.mem_range.1 hj
        simp only [Function.comp]
        rw [hmoved, if_neg (by omega), if_neg (by omega)]
      rw [e1, e2]
      exact List.perm_append_comm
  · rw [h3 j hj, hmoved]
    split
    · rfl
    · rw [if_neg (by omega)]

/-! ### The queue's invariant -/

theorem Pool.queueWf_iff : p.QueueWf ↔ p.size ≤ 256 ∧ (∀ x ∈ p.queue, x < p.count ∧ (p.node x).held = .pq) ∧ p.queue.Nodup ∧
    (∀ i, (p.node i).held = .pq → i ∈ p.queue) ∧ (∀ j, p.size ≤ j → heapAt p.heap j = NIL) ∧ Ordered p p.heap p.size := by
  constructor
  · rintro ⟨h1, h2, h3, h4, h5, h6⟩
    refine ⟨h1, fun x hx => ?_, nodup_entriesOf.2 h3, fun i hi => mem_entriesOf.2 (h4 i hi), h5, h6⟩
    obtain ⟨j, hj, rfl⟩ := mem_entriesOf.1 hx
    exact h2 j hj
  · rintro ⟨h1, h2, h3, h4, h5, h6⟩
    exact ⟨h1, fun j hj => h2 _ (mem_entriesOf.2 ⟨j, hj, rfl⟩), nodup_entriesOf.1 h3, fun i hi => mem_entriesOf.1 (h4 i hi),
      h5, h6⟩

/-- HeapInsert of an unowned node keeps the queue's invariant (R130, R135). -/
theorem Pool.QueueWf.insert (h : p.QueueWf) {x : Nat} (hx : x < p.count) (hc : p.count ≤ 511)
    (hh : (p.node x).held = .unowned) (hs : p.size < 256) : (p.heapInsert x).QueueWf := by
  rw [Pool.queueWf_iff] at h ⊢
  obtain ⟨h1, h2, h3, h4, h5, h6⟩ := h
  obtain ⟨k1, k2, k3⟩ := Pool.heapInsert_spec x hs h6
  have hnew : x ∉ p.queue := fun hm => by have := (h2 x hm).2; rw [hh] at this; cases this
  refine ⟨by simp; omega, fun y hy => ?_, ?_, fun i hi => ?_, fun j hj => ?_, k1⟩
  · rw [k2.mem_iff, List.mem_cons] at hy
    rw [Pool.heapInsert_count, Pool.node_heapInsert]
    rcases hy with rfl | hy
    · exact ⟨hx, by rw [if_pos ⟨rfl, by omega⟩]⟩
    · obtain ⟨a, b⟩ := h2 y hy
      refine ⟨a, ?_⟩
      split
      · rfl
      · exact b
  · rw [k2.nodup_iff]; exact List.nodup_cons.2 ⟨hnew, h3⟩
  · rw [k2.mem_iff, List.mem_cons]
    rw [Pool.node_heapInsert] at hi
    split at hi
    · rename_i hxi; exact .inl hxi.1.symm
    · exact .inr (h4 i hi)
  · rw [k3 j hj]; exact h5 j (by simp at hj; omega)

/-- HeapExtract keeps the queue's invariant (R130, R135). -/
theorem Pool.QueueWf.extract (h : p.QueueWf) (hs : 0 < p.size) (hc : p.count ≤ 511) : p.heapExtract.QueueWf := by
  rw [Pool.queueWf_iff] at h ⊢
  obtain ⟨h1, h2, h3, h4, h5, h6⟩ := h
  obtain ⟨k1, k2, k3⟩ := Pool.heapExtract_spec hs h1 h6
  have hnd := (k2.nodup_iff).1 h3
  rw [List.nodup_cons] at hnd
  refine ⟨by simp; omega, fun y hy => ?_, hnd.2, fun i hi => ?_, fun j hj => ?_, k1⟩
  · have hy' : y ∈ p.queue := k2.mem_iff.2 (List.mem_cons_of_mem _ hy)
    obtain ⟨a, b⟩ := h2 y hy'
    refine ⟨a, ?_⟩
    rw [Pool.node_heapExtract, if_neg (fun hxy : p.heapTop = y ∧ y < 511 => hnd.1 (hxy.1 ▸ hy))]
    exact b
  · rw [Pool.node_heapExtract] at hi
    split at hi
    · cases hi
    · rename_i hne
      have hq := k2.mem_iff.1 (h4 i hi)
      rcases List.mem_cons.1 hq with rfl | hq
      · have := (h2 _ (h4 _ hi)).1
        exact absurd ⟨rfl, by omega⟩ hne
      · exact hq
  · rw [k3 j hj]
    split
    · rfl
    · exact h5 j (by simp at hj; omega)

/-- The node at the top is allocated, held by the queue, and its frequency is a minimum over the queue (R135). -/
theorem Pool.QueueWf.top (h : p.QueueWf) (hs : 0 < p.size) :
    p.heapTop < p.count ∧ (p.node p.heapTop).held = .pq ∧
      ∀ y ∈ p.queue, (p.node p.heapTop).freq.toNat ≤ (p.node y).freq.toNat := by
  refine ⟨(h.entries 0 hs).1, (h.entries 0 hs).2, fun y hy => ?_⟩
  obtain ⟨j, hj, rfl⟩ := mem_entriesOf.1 hy
  exact h.ordered.top_le j hj

end Sys2Proof.Machine
end

