-- ==== Sys2Proof/Laws/PoolWf.lean ====
section
/-! SUPPORT. The invariant of the node pool (R46) under each change the commands make, and the tree that each allocated
node holds. -/

namespace Sys2Proof.Machine

variable {p p' : Pool} {n : Nat}

/-! ### Simple consequences -/

theorem Pool.Wf.lt_of_kind (h : p.Wf) (hn : (p.node n).kind ≠ .free) : n < p.count := by
  by_contra hc
  rw [h.free n (by omega)] at hn
  exact hn rfl

theorem Pool.Wf.lt_of_held (h : p.Wf) (hn : (p.node n).held ≠ .unowned) : n < p.count := by
  by_contra hc
  rw [h.free n (by omega)] at hn
  exact hn rfl

theorem Pool.Wf.root_lt (h : p.Wf) (hr : p.root ≠ NIL) : p.root < p.count :=
  h.lt_of_held (by rw [(h.rootHeld p.root).2 ⟨rfl, hr⟩]; decide)

theorem Pool.Wf.left_lt (h : p.Wf) (hn : (p.node n).kind = .internal) : (p.node n).left < p.count :=
  h.lt_of_held (by rw [(h.childHeld n hn).1]; decide)

theorem Pool.Wf.right_lt (h : p.Wf) (hn : (p.node n).kind = .internal) : (p.node n).right < p.count :=
  h.lt_of_held (by rw [(h.childHeld n hn).2]; decide)

theorem Pool.Wf.leaf_or_internal (h : p.Wf) (hn : n < p.count) : (p.node n).kind = .leaf ∨ (p.node n).kind = .internal := by
  have := h.allocated n hn
  cases hk : (p.node n).kind with
  | free => exact absurd hk this
  | leaf => exact .inl rfl
  | internal => exact .inr rfl

/-- Counting the leaves below a node looks at the nodes up to it only. -/
theorem leavesTo_congr (hs : ∀ k, k ≤ n → (p.node k).kind = (p'.node k).kind ∧ (p.node k).left = (p'.node k).left ∧
      (p.node k).right = (p'.node k).right)
    (hb : ∀ k, k ≤ n → (p.node k).kind ≠ .leaf → (p.node k).left ≤ n ∧ (p.node k).right ≤ n) (fuel m : Nat) (hm : m ≤ n) :
    leavesTo p fuel m = leavesTo p' fuel m := by
  induction fuel generalizing m with
  | zero => rfl
  | succ fuel ih =>
    obtain ⟨h1, h2, h3⟩ := hs m hm
    rw [leavesTo, leavesTo, ← h1, ← h2, ← h3]
    split
    · rfl
    · rename_i hk
      obtain ⟨h4, h5⟩ := hb m hm hk
      rw [ih _ h4, ih _ h5]

theorem Pool.Wf.leaves_congr (h : p.Wf) (hn : n < p.count)
    (hs : ∀ k, k ≤ n → (p.node k).kind = (p'.node k).kind ∧ (p.node k).left = (p'.node k).left ∧
      (p.node k).right = (p'.node k).right) : p.leaves n = p'.leaves n := by
  refine leavesTo_congr hs (fun k hk hkind => ?_) _ _ le_rfl
  have hi := (h.leaf_or_internal (n := k) (by omega)).resolve_left hkind
  have := h.below k hi
  omega

/-- The invariant is about nodes, NODE_COUNT, ROOT and UNIQUE. -/
theorem Pool.Wf.congr (h : p.Wf) (nodes : ∀ k, p'.node k = p.node k) (count : p'.count = p.count) (root : p'.root = p.root)
    (unique : p'.unique = p.unique) : p'.Wf := by
  have hl : ∀ m, p'.leaves m = p.leaves m := fun m => SameShape.leaves (fun k => by simp [nodes]) m
  constructor
  case bound => rw [count]; exact h.bound
  case unique => rw [unique, root, hl]; exact h.unique
  all_goals simp only [nodes, count, root]
  exacts [h.allocated, h.free, h.leafLinks, h.below, h.differ, h.internalSym, h.childHeld, h.oneParent, h.hasParent,
    h.freqSum, h.rootHeld]

/-! ### Owners -/

/-- A node that neither a parent nor the root holds may change hands between nobody and the queue. -/
theorem Pool.Wf.setHeld (h : p.Wf) {held : Held} (h1 : (p.node n).held ≠ .parent) (h2 : (p.node n).held ≠ .root)
    (h3 : held ≠ .parent) (h4 : held ≠ .root) (hn : n < p.count) : (p.setHeld n held).Wf := by
  have hb := h.bound
  have hheld : ∀ k, ((p.setHeld n held).node k).held = if n = k ∧ k < 511 then held else (p.node k).held :=
    fun k => p.setHeld_held n k held
  have hroot : (p.setHeld n held).root = p.root := rfl
  have hcount : (p.setHeld n held).count = p.count := rfl
  have hl : ∀ m, (p.setHeld n held).leaves m = p.leaves m := fun m => (sameShape_setHeld p n held).leaves m
  constructor
  case bound => exact h.bound
  case free =>
    intro i hi
    rw [Pool.node_setHeld, if_neg (by rw [hcount] at hi; omega)]
    exact h.free i hi
  case unique => rw [hl, hroot]; exact h.unique
  case childHeld =>
    intro i hi
    simp only [Pool.setHeld_kind, Pool.setHeld_left, Pool.setHeld_right] at hi ⊢
    obtain ⟨a, b⟩ := h.childHeld i hi
    rw [hheld, hheld, if_neg, if_neg]
    · exact ⟨a, b⟩
    · rintro ⟨rfl, -⟩; exact h1 b
    · rintro ⟨rfl, -⟩; exact h1 a
  case hasParent =>
    intro k hk
    rw [hheld] at hk
    simp only [Pool.setHeld_kind, Pool.setHeld_left, Pool.setHeld_right]
    split at hk
    · exact absurd hk h3
    · exact h.hasParent k hk
  case rootHeld =>
    intro i
    rw [hheld, hroot]
    split
    · rename_i hi
      refine ⟨fun hc => absurd hc h4, fun hc => ?_⟩
      exact absurd (hi.1 ▸ (h.rootHeld i).2 hc) h2
    · exact h.rootHeld i
  all_goals simp only [Pool.setHeld_kind, Pool.setHeld_left, Pool.setHeld_right, Pool.setHeld_sym, Pool.setHeld_freq, hcount]
  exacts [h.allocated, h.leafLinks, h.below, h.differ, h.internalSym, h.oneParent, h.freqSum]

theorem Pool.Wf.heapInsert (h : p.Wf) (hn : n < p.count) (hh : (p.node n).held = .unowned) : (p.heapInsert n).Wf :=
  (h.setHeld (held := .pq) (n := n) (by rw [hh]; decide) (by rw [hh]; decide) (by decide) (by decide) hn).congr
    (fun k => by rw [Pool.node_heapInsert, Pool.node_setHeld]) rfl rfl rfl

theorem Pool.Wf.heapExtract (h : p.Wf) (hq : p.QueueWf) (hs : 0 < p.size) : p.heapExtract.Wf := by
  obtain ⟨h1, h2, -⟩ := hq.top hs
  exact (h.setHeld (held := .unowned) (n := p.heapTop) (by rw [h2]; decide) (by rw [h2]; decide) (by decide) (by decide) h1).congr
    (fun k => by rw [Pool.node_heapExtract, Pool.node_setHeld]) rfl rfl rfl

/-- PQ_CREATE's release of the queue (R131). -/
theorem Pool.Wf.releaseQueued (h : p.Wf) (hq : p.QueueWf) (m : Nat) (hm : m ≤ p.size) : (p.releaseQueued m).Wf := by
  induction m with
  | zero => exact h
  | succ m ih =>
    have hroot : (p.releaseQueued m).count = p.count := by rw [Pool.releaseQueued_eq]
    have hheld : ((p.releaseQueued m).node (heapAt p.heap m)).held ≠ .parent ∧
        ((p.releaseQueued m).node (heapAt p.heap m)).held ≠ .root := by
      have hpq := (hq.entries m (by omega)).2
      rw [Pool.node_releaseQueued]
      split
      · exact ⟨fun h => (by cases h), fun h => (by cases h)⟩
      · rw [hpq]; exact ⟨by decide, by decide⟩
    exact (ih (by omega)).setHeld hheld.1 hheld.2 (by decide) (by decide) (by rw [hroot]; exact (hq.entries m (by omega)).1)

/-! ### Allocation -/

/-- A new node with no owner that is a leaf (R125). -/
theorem Pool.Wf.grown_leaf (h : p.Wf) (hc : p.count ≠ 511) {sym : Byte} {freq : Word} :
    (p.grown { kind := .leaf, held := .unowned, sym := sym, freq := freq, left := NIL, right := NIL }).Wf := by
  have hb := h.bound
  have hnode := p.node_grown { kind := .leaf, held := .unowned, sym := sym, freq := freq, left := NIL, right := NIL }
  generalize hp' : p.grown { kind := .leaf, held := .unowned, sym := sym, freq := freq, left := NIL, right := NIL } = g at hnode
  have hcount : g.count = p.count + 1 := by rw [← hp']; rfl
  have hroot : g.root = p.root := by rw [← hp']; rfl
  have hunique : g.unique = p.unique := by rw [← hp']; rfl
  have hold : ∀ k, k < p.count → g.node k = p.node k := fun k hk => by rw [hnode, if_neg (by omega)]
  have hnew : (g.node p.count).kind = .leaf ∧ (g.node p.count).held = .unowned ∧ (g.node p.count).left = NIL ∧
      (g.node p.count).right = NIL := by rw [hnode, if_pos ⟨rfl, by omega⟩]; exact ⟨rfl, rfl, rfl, rfl⟩
  have hint : ∀ k, (g.node k).kind = .internal → (p.node k).kind = .internal ∧ k < p.count ∧ g.node k = p.node k := by
    intro k hk
    rw [hnode] at hk
    split at hk
    · cases hk
    · rename_i hne
      refine ⟨hk, h.lt_of_kind (by rw [hk]; decide), ?_⟩
      rw [hnode, if_neg hne]
  constructor
  case bound => omega
  case allocated =>
    intro i hi
    rcases Nat.lt_or_ge i p.count with h1 | h1
    · rw [hold i h1]; exact h.allocated i h1
    · obtain rfl : i = p.count := by omega
      rw [hnew.1]; decide
  case free =>
    intro i hi
    rw [hnode, if_neg (by omega)]
    exact h.free i (by omega)
  case leafLinks =>
    intro i hi
    rw [hnode] at hi ⊢
    split at hi
    · rename_i hc'; rw [if_pos hc']; exact ⟨rfl, rfl⟩
    · rename_i hc'; rw [if_neg hc']; exact h.leafLinks i hi
  case below => intro i hi; obtain ⟨a, b, c⟩ := hint i hi; rw [c]; exact h.below i a
  case differ => intro i hi; obtain ⟨a, b, c⟩ := hint i hi; rw [c]; exact h.differ i a
  case internalSym => intro i hi; obtain ⟨a, b, c⟩ := hint i hi; rw [c]; exact h.internalSym i a
  case childHeld =>
    intro i hi
    obtain ⟨a, b, c⟩ := hint i hi
    rw [c, hold _ (h.left_lt a), hold _ (h.right_lt a)]
    exact h.childHeld i a
  case oneParent =>
    intro i j k hi hj h1 h2
    obtain ⟨a, b, c⟩ := hint i hi
    obtain ⟨a', b', c'⟩ := hint j hj
    rw [c] at h1; rw [c'] at h2
    exact h.oneParent i j k a a' h1 h2
  case hasParent =>
    intro k hk
    rw [hnode] at hk
    split at hk
    · cases hk
    · obtain ⟨i, hi, hor⟩ := h.hasParent k hk
      have := hold i (h.lt_of_kind (by rw [hi]; decide))
      exact ⟨i, by rw [this]; exact hi, by rw [this]; exact hor⟩
  case freqSum =>
    intro i hi
    obtain ⟨a, b, c⟩ := hint i hi
    rw [c, hold _ (h.left_lt a), hold _ (h.right_lt a)]
    exact h.freqSum i a
  case rootHeld =>
    intro i
    rw [hroot, hnode]
    split
    · rename_i hi
      refine ⟨fun hc => (by cases hc), fun hc => ?_⟩
      have := h.root_lt hc.2
      omega
    · exact h.rootHeld i
  case unique =>
    rw [hunique, hroot, h.unique]
    split
    · rfl
    · rename_i hr
      have := h.root_lt hr
      exact h.leaves_congr this fun k hk => by rw [hold k (by omega)]; exact ⟨rfl, rfl, rfl⟩

/-- A new internal node over two nodes without an owner, which it then holds (R128, R145, R153). -/
theorem Pool.Wf.join (h : p.Wf) (hc : p.count ≠ 511) {a b : Nat} {freq : Word} (ha : a < p.count) (hb : b < p.count)
    (hab : a ≠ b) (ha' : (p.node a).held = .unowned) (hb' : (p.node b).held = .unowned)
    (hf : freq.toNat = (p.node a).freq.toNat + (p.node b).freq.toNat) :
    ((p.grown { kind := .internal, held := .unowned, sym := 0, freq := freq, left := a, right := b }).adopt a b).Wf := by
  have hbound := h.bound
  generalize hp' : (p.grown { kind := .internal, held := .unowned, sym := 0, freq := freq, left := a, right := b }).adopt a b = g
  have hnode : ∀ k, g.node k =
      if k = p.count then { kind := .internal, held := .unowned, sym := 0, freq := freq, left := a, right := b }
      else if k = a ∨ k = b then { p.node k with held := .parent } else p.node k := by
    intro k
    rw [← hp', Pool.adopt, Pool.node_setHeld, Pool.node_setHeld, Pool.node_grown]
    by_cases h1 : k = p.count
    · subst h1
      rw [if_neg (by omega), if_neg (by omega), if_pos ⟨rfl, by omega⟩, if_pos rfl]
    · rw [if_neg h1, if_neg (by omega : ¬ (p.count = k ∧ k < 511))]
      by_cases h2 : k = a
      · subst h2
        rw [if_neg (by omega), if_pos ⟨rfl, by omega⟩, if_pos (.inl rfl)]
      · rw [if_neg (by omega : ¬ (a = k ∧ k < 511))]
        by_cases h3 : k = b
        · subst h3; rw [if_pos ⟨rfl, by omega⟩, if_pos (.inr rfl)]
        · rw [if_neg (by omega), if_neg (by omega)]
  have hcount : g.count = p.count + 1 := by rw [← hp']; rfl
  have hroot : g.root = p.root := by rw [← hp']; rfl
  have hunique : g.unique = p.unique := by rw [← hp']; rfl
  have hnew : g.node p.count = { kind := .internal, held := .unowned, sym := 0, freq := freq, left := a, right := b } := by
    rw [hnode, if_pos rfl]
  have hold : ∀ k, k ≠ p.count → (g.node k).kind = (p.node k).kind ∧ (g.node k).sym = (p.node k).sym ∧
      (g.node k).freq = (p.node k).freq ∧ (g.node k).left = (p.node k).left ∧ (g.node k).right = (p.node k).right := by
    intro k hk
    rw [hnode, if_neg hk]
    split <;> exact ⟨rfl, rfl, rfl, rfl, rfl⟩
  have hheld : ∀ k, k ≠ p.count → (g.node k).held = if k = a ∨ k = b then .parent else (p.node k).held := by
    intro k hk
    rw [hnode, if_neg hk]
    split <;> rfl
  have hint : ∀ k, (g.node k).kind = .internal → k ≠ p.count → (p.node k).kind = .internal := by
    intro k hk hne; rw [(hold k hne).1] at hk; exact hk
  have hnotchild : ∀ i, (p.node i).kind = .internal → ∀ k, ((p.node i).left = k ∨ (p.node i).right = k) → k ≠ a ∧ k ≠ b := by
    intro i hi k hk
    obtain ⟨c1, c2⟩ := h.childHeld i hi
    have : (p.node k).held = .parent := by rcases hk with rfl | rfl <;> assumption
    constructor <;> rintro rfl
    · rw [ha'] at this; cases this
    · rw [hb'] at this; cases this
  constructor
  case bound => omega
  case allocated =>
    intro i hi
    by_cases h1 : i = p.count
    · rw [h1, hnew]; intro hx; cases hx
    · rw [(hold i h1).1]; exact h.allocated i (by omega)
  case free =>
    intro i hi
    rw [hnode, if_neg (by omega), if_neg (by omega)]
    exact h.free i (by omega)
  case leafLinks =>
    intro i hi
    by_cases h1 : i = p.count
    · rw [h1, hnew] at hi; cases hi
    · obtain ⟨k1, -, -, k2, k3⟩ := hold i h1
      rw [k2, k3]; exact h.leafLinks i (k1 ▸ hi)
  case below =>
    intro i hi
    by_cases h1 : i = p.count
    · rw [h1, hnew]; exact ⟨ha, hb⟩
    · obtain ⟨k1, -, -, k2, k3⟩ := hold i h1
      rw [k2, k3]; exact h.below i (k1 ▸ hi)
  case differ =>
    intro i hi
    by_cases h1 : i = p.count
    · rw [h1, hnew]; exact hab
    · obtain ⟨k1, -, -, k2, k3⟩ := hold i h1
      rw [k2, k3]; exact h.differ i (k1 ▸ hi)
  case internalSym =>
    intro i hi
    by_cases h1 : i = p.count
    · rw [h1, hnew]
    · obtain ⟨k1, k2, -⟩ := hold i h1
      rw [k2]; exact h.internalSym i (k1 ▸ hi)
  case childHeld =>
    intro i hi
    by_cases h1 : i = p.count
    · rw [h1, hnew]
      simp only
      rw [hheld a (by omega), hheld b (by omega), if_pos (.inl rfl), if_pos (.inr rfl)]
      exact ⟨rfl, rfl⟩
    · obtain ⟨k1, -, -, k2, k3⟩ := hold i h1
      have hi' := k1 ▸ hi
      obtain ⟨c1, c2⟩ := h.childHeld i hi'
      have l1 := h.left_lt hi'
      have l2 := h.right_lt hi'
      rw [k2, k3, hheld _ (by omega), hheld _ (by omega), c1, c2]
      constructor <;> split <;> rfl
  case oneParent =>
    intro i j k hi hj hik hjk
    by_cases h1 : i = p.count
    · by_cases h2 : j = p.count
      · rw [h1, h2]
      · obtain ⟨k1, -, -, k2, k3⟩ := hold j h2
        rw [k2, k3] at hjk
        have := hnotchild j (k1 ▸ hj) k hjk
        rw [h1, hnew] at hik
        rcases hik with rfl | rfl
        · exact absurd rfl this.1
        · exact absurd rfl this.2
    · obtain ⟨k1, -, -, k2, k3⟩ := hold i h1
      rw [k2, k3] at hik
      by_cases h2 : j = p.count
      · have := hnotchild i (k1 ▸ hi) k hik
        rw [h2, hnew] at hjk
        rcases hjk with rfl | rfl
        · exact absurd rfl this.1
        · exact absurd rfl this.2
      · obtain ⟨m1, -, -, m2, m3⟩ := hold j h2
        rw [m2, m3] at hjk
        exact h.oneParent i j k (k1 ▸ hi) (m1 ▸ hj) hik hjk
  case hasParent =>
    intro k hk
    by_cases h1 : k = p.count
    · rw [h1, hnew] at hk; cases hk
    · rw [hheld k h1] at hk
      split at hk
      · rename_i hor
        refine ⟨p.count, by rw [hnew], ?_⟩
        rw [hnew]
        rcases hor with rfl | rfl
        · exact .inl rfl
        · exact .inr rfl
      · obtain ⟨i, hi, hor⟩ := h.hasParent k hk
        have hlt := h.lt_of_kind (n := i) (by rw [hi]; decide)
        obtain ⟨k1, -, -, k2, k3⟩ := hold i (by omega)
        exact ⟨i, k1.trans hi, by rw [k2, k3]; exact hor⟩
  case freqSum =>
    intro i hi
    by_cases h1 : i = p.count
    · rw [h1, hnew]
      simp only
      rw [(hold a (by omega)).2.2.1, (hold b (by omega)).2.2.1]
      exact hf
    · obtain ⟨k1, -, kf, k2, k3⟩ := hold i h1
      have hi' := k1 ▸ hi
      have l1 := h.left_lt hi'
      have l2 := h.right_lt hi'
      rw [kf, k2, k3, (hold _ (by omega)).2.2.1, (hold _ (by omega)).2.2.1]
      exact h.freqSum i hi'
  case rootHeld =>
    intro i
    rw [hroot]
    by_cases h1 : i = p.count
    · rw [h1, hnew]
      refine ⟨fun hc => (by cases hc), fun hc => ?_⟩
      have := h.root_lt hc.2
      omega
    · rw [hheld i h1]
      split
      · rename_i hor
        refine ⟨fun hc => (by cases hc), fun hc => ?_⟩
        have := (h.rootHeld i).2 hc
        rcases hor with rfl | rfl
        · rw [ha'] at this; cases this
        · rw [hb'] at this; cases this
      · exact h.rootHeld i
  case unique =>
    rw [hunique, hroot, h.unique]
    split
    · rfl
    · rename_i hr
      have := h.root_lt hr
      exact h.leaves_congr this fun k hk => by
        obtain ⟨k1, -, -, k2, k3⟩ := hold k (by omega)
        exact ⟨k1.symm, k2.symm, k3.symm⟩

/-! ### The root -/

/-- Without a root (R147). -/
theorem Pool.Wf.dropRoot (h : p.Wf) : ({ p.releaseRoot with root := NIL, unique := 0 } : Pool).Wf := by
  have hb := h.bound
  generalize hp' : ({ p.releaseRoot with root := NIL, unique := 0 } : Pool) = g
  have hnode : ∀ k, g.node k = if k = p.root ∧ k < 511 then { p.node k with held := .unowned } else p.node k := by
    intro k; rw [← hp']; exact p.node_releaseRoot k
  have hshape : ∀ k, (g.node k).kind = (p.node k).kind ∧ (g.node k).sym = (p.node k).sym ∧
      (g.node k).freq = (p.node k).freq ∧ (g.node k).left = (p.node k).left ∧ (g.node k).right = (p.node k).right := by
    intro k; rw [hnode]; split <;> exact ⟨rfl, rfl, rfl, rfl, rfl⟩
  have hheld : ∀ k, (g.node k).held = if k = p.root ∧ k < 511 then .unowned else (p.node k).held := by
    intro k; rw [hnode]; split <;> rfl
  have hcount : g.count = p.count := by rw [← hp', Pool.releaseRoot_eq]
  have hroot : g.root = NIL := by rw [← hp']
  have hrootheld : ∀ k, k = p.root ∧ k < 511 → (p.node k).held = .root := fun k hk =>
    (h.rootHeld k).2 ⟨hk.1, by rw [← hk.1]; simp only [NIL]; omega⟩
  constructor
  case bound => omega
  case free =>
    intro i hi
    rw [hnode, if_neg]
    · exact h.free i (by omega)
    · intro hc
      have := hrootheld i hc
      rw [h.free i (by omega)] at this; cases this
  case childHeld =>
    intro i hi
    obtain ⟨k1, -, -, k2, k3⟩ := hshape i
    obtain ⟨c1, c2⟩ := h.childHeld i (k1 ▸ hi)
    rw [k2, k3, hheld, hheld, if_neg, if_neg]
    · exact ⟨c1, c2⟩
    · intro hc; have := hrootheld _ hc; rw [c2] at this; cases this
    · intro hc; have := hrootheld _ hc; rw [c1] at this; cases this
  case hasParent =>
    intro k hk
    rw [hheld] at hk
    split at hk
    · cases hk
    · obtain ⟨i, hi, hor⟩ := h.hasParent k hk
      obtain ⟨k1, -, -, k2, k3⟩ := hshape i
      exact ⟨i, k1.trans hi, by rw [k2, k3]; exact hor⟩
  case rootHeld =>
    intro i
    rw [hroot, hheld]
    refine ⟨fun hc => ?_, fun hc => absurd rfl hc.2⟩
    split at hc
    · cases hc
    · rename_i hne
      obtain ⟨r1, r2⟩ := (h.rootHeld i).1 hc
      have := h.lt_of_held (n := i) (by rw [hc]; decide)
      exact absurd ⟨r1, by omega⟩ hne
  case unique => rw [hroot, ← hp']; rfl
  case allocated => intro i hi; rw [(hshape i).1]; exact h.allocated i (by omega)
  case leafLinks => intro i hi; obtain ⟨k1, -, -, k2, k3⟩ := hshape i; rw [k2, k3]; exact h.leafLinks i (k1 ▸ hi)
  case below => intro i hi; obtain ⟨k1, -, -, k2, k3⟩ := hshape i; rw [k2, k3]; exact h.below i (k1 ▸ hi)
  case differ => intro i hi; obtain ⟨k1, -, -, k2, k3⟩ := hshape i; rw [k2, k3]; exact h.differ i (k1 ▸ hi)
  case internalSym => intro i hi; obtain ⟨k1, k2, -⟩ := hshape i; rw [k2]; exact h.internalSym i (k1 ▸ hi)
  case oneParent =>
    intro i j k hi hj hik hjk
    obtain ⟨k1, -, -, k2, k3⟩ := hshape i
    obtain ⟨m1, -, -, m2, m3⟩ := hshape j
    rw [k2, k3] at hik; rw [m2, m3] at hjk
    exact h.oneParent i j k (k1 ▸ hi) (m1 ▸ hj) hik hjk
  case freqSum =>
    intro i hi
    obtain ⟨k1, -, kf, k2, k3⟩ := hshape i
    rw [kf, k2, k3, (hshape _).2.2.1, (hshape _).2.2.1]
    exact h.freqSum i (k1 ▸ hi)

/-- A node without an owner becomes the root, where there is none (R145, R147, R153). -/
theorem Pool.Wf.makeRoot (h : p.Wf) (hroot : p.root = NIL) (hn : n < p.count) (hh : (p.node n).held = .unowned) :
    (p.makeRoot n).Wf := by
  have hb := h.bound
  have hnil : n ≠ NIL := by simp only [NIL]; omega
  have hheld : ∀ k, ((p.makeRoot n).node k).held = if n = k ∧ k < 511 then .root else (p.node k).held :=
    fun k => p.setHeld_held n k .root
  have hs : ∀ k, ((p.makeRoot n).node k).kind = (p.node k).kind ∧ ((p.makeRoot n).node k).sym = (p.node k).sym ∧
      ((p.makeRoot n).node k).freq = (p.node k).freq ∧ ((p.makeRoot n).node k).left = (p.node k).left ∧
      ((p.makeRoot n).node k).right = (p.node k).right := fun k =>
    ⟨p.setHeld_kind n k .root, p.setHeld_sym n k .root, p.setHeld_freq n k .root, p.setHeld_left n k .root,
      p.setHeld_right n k .root⟩
  have hcount : (p.makeRoot n).count = p.count := rfl
  have hr : (p.makeRoot n).root = n := rfl
  constructor
  case bound => exact h.bound
  case free =>
    intro i hi
    have : (p.makeRoot n).node i = (p.setHeld n .root).node i := rfl
    rw [this, Pool.node_setHeld, if_neg (by rw [hcount] at hi; omega)]
    exact h.free i hi
  case childHeld =>
    intro i hi
    obtain ⟨k1, -, -, k2, k3⟩ := hs i
    obtain ⟨c1, c2⟩ := h.childHeld i (k1 ▸ hi)
    rw [k2, k3, hheld, hheld, if_neg, if_neg]
    · exact ⟨c1, c2⟩
    · intro hc; rw [← hc.1, hh] at c2; cases c2
    · intro hc; rw [← hc.1, hh] at c1; cases c1
  case hasParent =>
    intro k hk
    rw [hheld] at hk
    split at hk
    · cases hk
    · obtain ⟨i, hi, hor⟩ := h.hasParent k hk
      obtain ⟨k1, -, -, k2, k3⟩ := hs i
      exact ⟨i, k1.trans hi, by rw [k2, k3]; exact hor⟩
  case rootHeld =>
    intro i
    rw [hr, hheld]
    split
    · rename_i hi; exact ⟨fun _ => ⟨hi.1.symm, hnil⟩, fun _ => rfl⟩
    · rename_i hi
      refine ⟨fun hc => ?_, fun hc => absurd ⟨hc.1.symm, by omega⟩ hi⟩
      exact absurd hroot ((h.rootHeld i).1 hc).2
  case unique =>
    rw [hr, if_neg hnil]
    exact SameShape.leaves (p := p.setHeld n .root) (p' := p.makeRoot n) (fun k => ⟨rfl, rfl, rfl, rfl⟩) n
  case allocated => intro i hi; rw [(hs i).1]; exact h.allocated i hi
  case leafLinks => intro i hi; obtain ⟨k1, -, -, k2, k3⟩ := hs i; rw [k2, k3]; exact h.leafLinks i (k1 ▸ hi)
  case below => intro i hi; obtain ⟨k1, -, -, k2, k3⟩ := hs i; rw [k2, k3]; exact h.below i (k1 ▸ hi)
  case differ => intro i hi; obtain ⟨k1, -, -, k2, k3⟩ := hs i; rw [k2, k3]; exact h.differ i (k1 ▸ hi)
  case internalSym => intro i hi; obtain ⟨k1, k2, -⟩ := hs i; rw [k2]; exact h.internalSym i (k1 ▸ hi)
  case oneParent =>
    intro i j k hi hj hik hjk
    obtain ⟨k1, -, -, k2, k3⟩ := hs i
    obtain ⟨m1, -, -, m2, m3⟩ := hs j
    rw [k2, k3] at hik; rw [m2, m3] at hjk
    exact h.oneParent i j k (k1 ▸ hi) (m1 ▸ hj) hik hjk
  case freqSum =>
    intro i hi
    obtain ⟨k1, -, kf, k2, k3⟩ := hs i
    rw [kf, k2, k3, (hs _).2.2.1, (hs _).2.2.1]
    exact h.freqSum i (k1 ▸ hi)

/-- The pool of NODE_RESET and of hardware reset (R54, R126). -/
theorem Pool.wf_of_empty (hn : ∀ k, p.node k = Node.free) (hc : p.count = 0) (hr : p.root = NIL) (hu : p.unique = 0) : p.Wf := by
  constructor <;> simp [hn, hc, hr, hu, Node.free]

theorem Pool.queueWf_of_empty (hn : ∀ k, (p.node k).held ≠ .pq) (hs : p.size = 0) (hh : ∀ j, heapAt p.heap j = NIL) :
    p.QueueWf := by
  constructor <;> simp [hn, hs, hh]

/-! ### Trees -/

/-- The tree below a node, to a depth of at most fuel. -/
def treeTo (p : Pool) : (fuel : Nat) → Nat → CodeTree
  | 0, n => .leaf (p.node n).sym
  | fuel + 1, n =>
    if (p.node n).kind = .leaf then .leaf (p.node n).sym
    else .node (treeTo p fuel (p.node n).left) (treeTo p fuel (p.node n).right)

/-- The tree below a node. -/
def Pool.tree (p : Pool) (n : Nat) : CodeTree := treeTo p (n + 1) n

theorem Pool.Wf.holds_treeTo (h : p.Wf) {fuel : Nat} (hf : n < fuel) (hn : n < p.count) : p.Holds (treeTo p fuel n) n := by
  induction fuel generalizing n with
  | zero => omega
  | succ fuel ih =>
    unfold treeTo
    split
    · rename_i hk; exact ⟨hn, hk, rfl⟩
    · rename_i hk
      have hi := (h.leaf_or_internal hn).resolve_left hk
      obtain ⟨b1, b2⟩ := h.below n hi
      exact ⟨hn, hi, b1, b2, ih (by omega) (by omega), ih (by omega) (by omega)⟩

/-- Every allocated node holds a tree (R46, R148). -/
theorem Pool.Wf.holds (h : p.Wf) (hn : n < p.count) : p.Holds (p.tree n) n := h.holds_treeTo (Nat.lt_succ_self n) hn

theorem Pool.Holds.tree_eq {t : CodeTree} (h : p.Wf) (ht : p.Holds t n) : p.tree n = t := (h.holds ht.lt).unique ht

end Sys2Proof.Machine
end

