-- ==== Sys2Proof/Laws/Build.lean ====
section
/-! SUPPORT. BUILD_TREE (R145, R146): the leaves go into the queue in symbol order, and each pass joins the two minimum
nodes into the next slot, until one is left or, where the counts add up to 2^64 or more, a sum does not fit. -/

namespace Sys2Proof.Machine

variable {cfg : Config} {r : Regs} {q : Ports} {p : Pool}

/-! ### The steps -/

theorem runs_mustInsert (x : Nat) (h : r.pool.size ≠ r.pool.cap) :
    Runs (mustInsert x) cfg r q () { r with pool := r.pool.heapInsert x } q := by
  simp [mustInsert, h]

theorem runs_heapExtract : Runs heapExtract cfg r q r.pool.heapTop { r with pool := r.pool.heapExtract } q := by
  simp [heapExtract]

theorem runs_mustExtract (h : r.pool.size ≠ 0) :
    Runs mustExtract cfg r q r.pool.heapTop { r with pool := r.pool.heapExtract } q := by
  unfold mustExtract
  simp only [runs_getRegs_bind, runs_require_bind]
  exact ⟨by simpa using h, runs_heapExtract⟩

/-- A new node without an owner leaves the queue alone. -/
theorem Pool.QueueWf.grown (h : p.QueueWf) (n : Node) (hn : n.held = .unowned) : (p.grown n).QueueWf := by
  have hnode := p.node_grown n
  have hlt : ∀ j, j < p.size → (p.grown n).node (heapAt p.heap j) = p.node (heapAt p.heap j) := fun j hj => by
    rw [hnode, if_neg]
    have := (h.entries j hj).1
    omega
  constructor
  case size => exact h.size
  case entries =>
    intro j hj
    obtain ⟨a, b⟩ := h.entries j hj
    exact ⟨Nat.lt_succ_of_lt a, by rw [show (p.grown n).heap = p.heap from rfl, hlt j hj]; exact b⟩
  case distinct => exact h.distinct
  case held =>
    intro i hi
    rw [hnode] at hi
    split at hi
    · rw [hn] at hi; cases hi
    · exact h.held i hi
  case vacant => exact h.vacant
  case order =>
    intro i h0 hi
    rw [show (p.grown n).heap = p.heap from rfl, hlt _ (show (i - 1) / 2 < p.size from by
      have : i < p.size := hi
      omega), hlt i hi]
    exact h.order i h0 hi

/-- A node outside the queue may change hands outside it. -/
theorem Pool.QueueWf.setHeld (h : p.QueueWf) {n : Nat} {held : Held} (h1 : (p.node n).held ≠ .pq) (h2 : held ≠ .pq) :
    (p.setHeld n held).QueueWf := by
  have hheld := fun k => p.setHeld_held n k held
  constructor
  case size => exact h.size
  case entries =>
    intro j hj
    obtain ⟨a, b⟩ := h.entries j hj
    refine ⟨a, ?_⟩
    rw [show (p.setHeld n held).heap = p.heap from rfl, hheld, if_neg]
    · exact b
    · rintro ⟨hc, -⟩; rw [hc] at h1; exact h1 b
  case distinct => exact h.distinct
  case held =>
    intro i hi
    rw [hheld] at hi
    split at hi
    · exact absurd hi h2
    · exact h.held i hi
  case vacant => exact h.vacant
  case order =>
    intro i h0 hi
    simp only [Pool.setHeld_freq]
    exact h.order i h0 hi

/-! ### The leaves -/

/-- The leaf of a symbol in the queue. -/
abbrev queuedLeaf (sym : Byte) (freq : Word) : Node :=
  { kind := .leaf, held := .pq, sym := sym, freq := freq, left := NIL, right := NIL }

/-- The pool with the leaves of some symbols, all of them in the queue. -/
structure Enqueued (r : Regs) (ds : List Byte) (p : Pool) : Prop where
  wf : p.Wf
  queue : p.QueueWf
  count : p.count = ds.length
  size : p.size = ds.length
  cap : p.cap = 256
  root : p.root = NIL
  stack : p.stack = r.pool.stack
  nodes : ∀ k sym, ds[k]? = some sym → p.node k = queuedLeaf sym (r.histAt sym)

theorem enqueued_nil : Enqueued r [] { r.pool.cleared with cap := 256 } where
  wf := Pool.wf_of_empty (fun k => r.pool.node_cleared k) rfl rfl rfl
  queue := Pool.queueWf_of_empty (fun k => by
    rw [show Pool.node { r.pool.cleared with cap := 256 } k = Node.free from r.pool.node_cleared k]; decide) rfl
      (fun j => heapAt_replicate j)
  count := rfl
  size := rfl
  cap := rfl
  root := rfl
  stack := rfl
  nodes := fun k sym h => by simp at h

theorem Enqueued.snoc {ds : List Byte} (h : Enqueued r ds p) (sym : Byte) (hl : ds.length < 256) :
    Enqueued r (ds ++ [sym]) ((p.grown
      { kind := .leaf, held := .unowned, sym := sym, freq := r.histAt sym, left := NIL, right := NIL }).heapInsert p.count) := by
  have hc := h.count
  have hs := h.size
  have hb := h.wf.bound
  have h511 : p.count ≠ 511 := by omega
  generalize hg : p.grown { kind := .leaf, held := .unowned, sym := sym, freq := r.histAt sym, left := NIL, right := NIL } = g
  have hnode : ∀ k, g.node k = if p.count = k ∧ k < 511 then
      { kind := .leaf, held := .unowned, sym := sym, freq := r.histAt sym, left := NIL, right := NIL } else p.node k := by
    intro k; rw [← hg]; exact p.node_grown _ k
  have hgw : g.Wf := hg ▸ h.wf.grown_leaf h511
  have hgq : g.QueueWf := hg ▸ h.queue.grown _ rfl
  have hgc : g.count = p.count + 1 := by rw [← hg]; rfl
  have hgs : g.size = p.size := by rw [← hg]; rfl
  have hun : (g.node p.count).held = .unowned := by rw [hnode, if_pos ⟨rfl, by omega⟩]
  constructor
  case wf => exact hgw.heapInsert (by omega) hun
  case queue => exact hgq.insert (by omega) (by omega) hun (by omega)
  case count => simp [hgc, hc]
  case size => simp [hgs, hs]
  case cap => rw [← hg]; exact h.cap
  case root => rw [← hg]; exact h.root
  case stack => rw [← hg]; exact h.stack
  case nodes =>
    intro k s hk
    rw [Pool.node_heapInsert, hnode]
    by_cases hkc : p.count = k
    · subst hkc
      rw [if_pos ⟨rfl, by omega⟩, if_pos ⟨rfl, by omega⟩]
      rw [hc, List.getElem?_append_right le_rfl, Nat.sub_self] at hk
      simp only [List.getElem?_cons_zero, Option.some.injEq] at hk
      rw [← hk]
    · rw [if_neg (by omega), if_neg (by omega)]
      refine h.nodes k s ?_
      rwa [List.getElem?_append_left] at hk
      have := List.getElem?_eq_some_iff.1 hk
      obtain ⟨hlt, -⟩ := this
      simp at hlt; omega

theorem runs_enqueueLeaves {l ds : List Byte} (h : Enqueued r ds p)
    (hl : ds.length + (l.filter fun s => r.histAt s != 0).length ≤ 256) :
    ∃ p', Runs (enqueueLeaves l) cfg { r with pool := p } q () { r with pool := p' } q ∧
      Enqueued r (ds ++ l.filter fun s => r.histAt s != 0) p' := by
  induction l generalizing ds p with
  | nil => exact ⟨p, by simp [enqueueLeaves], by simpa using h⟩
  | cons s l ih =>
    unfold enqueueLeaves
    simp only [runs_getRegs_bind, runs_ite]
    have hh : Regs.histAt { r with pool := p } s = r.histAt s := rfl
    rw [hh]
    by_cases h0 : r.histAt s = 0
    · simp only [if_pos h0]
      have hf : (s :: l).filter (fun s => r.histAt s != 0) = l.filter fun s => r.histAt s != 0 :=
        List.filter_cons_of_neg (by simpa using h0)
      rw [hf] at hl ⊢
      exact ih h hl
    · simp only [if_neg h0]
      have hf : (s :: l).filter (fun s => r.histAt s != 0) = s :: l.filter fun s => r.histAt s != 0 :=
        List.filter_cons_of_pos (by simpa using h0)
      rw [hf, List.length_cons] at hl
      have hlt : ds.length < 256 := by omega
      have hc := h.count
      have hs := h.size
      have hcap := h.cap
      obtain ⟨p', hrun, hp'⟩ := ih (h.snoc s hlt) (by rw [List.length_append, List.length_singleton]; omega)
      refine ⟨p', ?_, by rw [hf]; simpa using hp'⟩
      refine Runs.bind (runs_alloc (r := { r with pool := p }) (by simp only; omega)) ?_
      refine Runs.bind (runs_mustInsert _ (by simp [Pool.grown]; omega)) ?_
      exact hrun

/-! ### The joins -/

/-- The pool while BUILD_TREE joins: every node is in the queue or is a child; the queue's nodes hold the symbols and the
whole count; each internal node has joined two minimum nodes. -/
structure Forest (r : Regs) (ds : List Byte) (total : Nat) (p : Pool) : Prop where
  wf : p.Wf
  queue : p.QueueWf
  cap : p.cap = 256
  root : p.root = NIL
  stack : p.stack = r.pool.stack
  size : 0 < p.size
  sum : p.count + p.size = 2 * ds.length
  base : ds.length ≤ p.count
  leaves : ∀ k sym, ds[k]? = some sym →
    (p.node k).kind = .leaf ∧ (p.node k).sym = sym ∧ (p.node k).freq = r.histAt sym
  internal : ∀ k, ds.length ≤ k → k < p.count → (p.node k).kind = .internal
  owned : ∀ k, k < p.count → (p.node k).held = .pq ∨ (p.node k).held = .parent
  last : p.count - 1 ∈ p.queue
  freqs : (p.queue.map fun x => (p.node x).freq.toNat).sum = total
  symbols : (p.queue.flatMap fun x => (p.tree x).symbols).Perm ds
  minima : ∀ i, (p.node i).kind = .internal →
    (p.node (p.node i).left).freq.toNat ≤ (p.node (p.node i).right).freq.toNat ∧
    ∀ k, k < i → (∀ j, j ≤ i → (p.node j).kind = .internal → (p.node j).left ≠ k ∧ (p.node j).right ≠ k) →
      (p.node (p.node i).right).freq.toNat ≤ (p.node k).freq.toNat

theorem Enqueued.queue_perm {ds : List Byte} (h : Enqueued r ds p) : p.queue.Perm (List.range ds.length) := by
  obtain ⟨-, h2, h3, h4, -, -⟩ := Pool.queueWf_iff.1 h.queue
  rw [List.perm_ext_iff_of_nodup h3 List.nodup_range]
  intro x
  rw [List.mem_range]
  constructor
  · intro hx; have := (h2 x hx).1; rwa [h.count] at this
  · intro hx
    refine h4 x ?_
    rw [h.nodes x ds[x] (by simp [hx])]

theorem Enqueued.forest {ds : List Byte} (h : Enqueued r ds p) (hne : ds ≠ []) :
    Forest r ds (ds.map fun s => (r.histAt s).toNat).sum p := by
  have hlen := List.length_pos_of_ne_nil hne
  have hc := h.count
  have hs := h.size
  have hperm := h.queue_perm
  have hnode : ∀ k (hk : k < ds.length), p.node k = queuedLeaf ds[k] (r.histAt ds[k]) := fun k hk =>
    h.nodes k _ (by simp [hk])
  have hnoint : ∀ i, (p.node i).kind ≠ .internal := by
    intro i hi
    have hlt := h.wf.lt_of_kind (n := i) (by rw [hi]; decide)
    rw [hnode i (by omega)] at hi; cases hi
  have hmap : ∀ {β : Type} (f : Byte → β), (List.range ds.length).map (fun k => f (ds.getD k 0)) = ds.map f := by
    intro β f
    refine List.ext_getElem (by simp) fun k h1 h2 => ?_
    simp at h1
    simp [h1]
  constructor
  case wf => exact h.wf
  case queue => exact h.queue
  case cap => exact h.cap
  case root => exact h.root
  case stack => exact h.stack
  case size => omega
  case sum => omega
  case base => omega
  case leaves => intro k sym hk; rw [h.nodes k sym hk]; exact ⟨rfl, rfl, rfl⟩
  case internal => intro k h1 h2; omega
  case owned => intro k hk; rw [hnode k (by omega)]; exact .inl rfl
  case last => rw [hperm.mem_iff, List.mem_range]; omega
  case freqs =>
    rw [(hperm.map _).sum_eq, ← hmap fun s => (r.histAt s).toNat]
    refine congrArg List.sum (List.map_congr_left fun k hk => ?_)
    have hk := List.mem_range.1 hk
    rw [hnode k hk]; simp [hk]
  case symbols =>
    refine (hperm.flatMap_right _).trans (List.Perm.of_eq ?_)
    have e1 : (List.range ds.length).flatMap (fun x => (p.tree x).symbols) =
        (List.range ds.length).flatMap fun k => [ds.getD k 0] := by
      refine List.flatMap_congr fun k hk => ?_
      have hk := List.mem_range.1 hk
      have ht : p.Holds (.leaf ds[k]) k := ⟨by omega, by rw [hnode k hk], by rw [hnode k hk]⟩
      rw [ht.tree_eq h.wf]
      simp [CodeTree.symbols, hk]
    have e2 := hmap id
    rw [List.map_id] at e2
    rw [e1, ← List.map_eq_flatMap]; exact e2
  case minima => intro i hi; exact absurd hi (hnoint i)

theorem Forest.count_lt {ds : List Byte} {total : Nat} (h : Forest r ds total p) : ∀ x ∈ p.queue, x < p.count :=
  fun x hx => ((Pool.queueWf_iff.1 h.queue).2.1 x hx).1

/-- The pool after one pass of the join loop (R145). -/
def Pool.joined (p : Pool) : Pool :=
  let p2 := p.heapExtract.heapExtract
  let l := p.heapTop
  let x := p.heapExtract.heapTop
  (((p2.grown (innerNode .unowned ((p2.node l).freq + (p2.node x).freq) l x)).adopt l x).heapInsert p.count)

/-- What the two extractions of a pass find: the nodes l and x, the minimum of the queue and of what is left of it, and the
pool p2 without them in the queue. -/
structure Extracted (p : Pool) (l x : Nat) (p2 : Pool) : Prop where
  wf : p2.Wf
  queue : p2.QueueWf
  left_lt : l < p.count
  right_lt : x < p.count
  differ : l ≠ x
  node : ∀ k, p2.node k = if k = l ∨ k = x then { p.node k with held := .unowned } else p.node k
  perm1 : p.queue.Perm (l :: p.heapExtract.queue)
  perm2 : p.heapExtract.queue.Perm (x :: p2.queue)
  min1 : ∀ k ∈ p.queue, (p.node l).freq.toNat ≤ (p.node k).freq.toNat
  min2 : ∀ k ∈ p.heapExtract.queue, (p.node x).freq.toNat ≤ (p.node k).freq.toNat

theorem Forest.extracted {ds : List Byte} {total : Nat} (h : Forest r ds total p) (hsz : 1 < p.size) :
    Extracted p p.heapTop p.heapExtract.heapTop p.heapExtract.heapExtract := by
  have hsum := h.sum
  have hb := h.wf.bound
  -- the first extraction
  obtain ⟨tl1, tl2, tl3⟩ := h.queue.top (by omega)
  obtain ⟨q1, q2, q3, q4, q5, q6⟩ := Pool.queueWf_iff.1 h.queue
  obtain ⟨-, perm1, -⟩ := Pool.heapExtract_spec (p := p) (by omega) (by omega) q6
  have hw1 : p.heapExtract.QueueWf := h.queue.extract (by omega) hb
  have hp1 : p.heapExtract.Wf := h.wf.heapExtract h.queue (by omega)
  -- the second
  have hs1 : p.heapExtract.size = p.size - 1 := rfl
  obtain ⟨tx1, tx2, tx3⟩ := hw1.top (by omega)
  obtain ⟨-, -, -, -, -, o6⟩ := Pool.queueWf_iff.1 hw1
  obtain ⟨-, perm2, -⟩ := Pool.heapExtract_spec (p := p.heapExtract) (by omega) (by rw [hs1]; omega) o6
  have hnd := perm1.nodup_iff.1 q3
  rw [List.nodup_cons] at hnd
  have hxq1 : p.heapExtract.heapTop ∈ p.heapExtract.queue := perm2.mem_iff.2 List.mem_cons_self
  have hne : p.heapTop ≠ p.heapExtract.heapTop := fun hc => hnd.1 (hc ▸ hxq1)
  have hxlt : p.heapExtract.heapTop < p.count := tx1
  refine ⟨hp1.heapExtract hw1 (by omega), hw1.extract (by omega) hb, tl1, hxlt, hne, fun k => ?_, perm1, perm2, tl3,
    fun k hk => ?_⟩
  · rw [p.heapExtract.node_heapExtract, p.node_heapExtract]
    by_cases h1 : k = p.heapExtract.heapTop
    · subst h1
      rw [if_pos ⟨rfl, by omega⟩, if_neg (fun hc => hne hc.1), if_pos (.inr rfl)]
    · rw [if_neg (fun hc => h1 hc.1.symm)]
      by_cases h2 : k = p.heapTop
      · subst h2; rw [if_pos ⟨rfl, by omega⟩, if_pos (.inl rfl)]
      · rw [if_neg (fun hc => h2 hc.1.symm), if_neg (by rintro (hc | hc); exacts [h2 hc, h1 hc])]
  · have := tx3 k hk
    rw [p.node_heapExtract, p.node_heapExtract] at this
    have e1 : ∀ y, (if p.heapTop = y ∧ y < 511 then { p.node y with held := .unowned } else p.node y : Node).freq =
        (p.node y).freq := by
      intro y; split <;> rfl
    rwa [e1, e1] at this

/-- The counts of the queue are those of the two nodes and of the rest. -/
theorem Forest.freqs_extracted {ds : List Byte} {total : Nat} {l x : Nat} {p2 : Pool} (h : Forest r ds total p)
    (he : Extracted p l x p2) :
    (p.node l).freq.toNat + ((p.node x).freq.toNat + (p2.queue.map fun y => (p.node y).freq.toNat).sum) = total := by
  rw [← h.freqs, (he.perm1.map fun y => (p.node y).freq.toNat).sum_eq, List.map_cons, List.sum_cons,
    (he.perm2.map fun y => (p.node y).freq.toNat).sum_eq, List.map_cons, List.sum_cons]

theorem Forest.step {ds : List Byte} {total : Nat} (h : Forest r ds total p) (hl : ds.length ≤ 256) (hsz : 1 < p.size)
    (ht : (p.node p.heapTop).freq.toNat + (p.node p.heapExtract.heapTop).freq.toNat < 2 ^ 64) :
    Forest r ds total p.joined ∧ p.joined.size = p.size - 1 ∧
      p.heapExtract.heapExtract.node p.heapTop = { p.node p.heapTop with held := .unowned } ∧
      p.heapExtract.heapExtract.node p.heapExtract.heapTop = { p.node p.heapExtract.heapTop with held := .unowned } := by
  have hsum := h.sum
  have hb := h.wf.bound
  have he := h.extracted hsz
  have hfr' := h.freqs_extracted he
  obtain ⟨hp2, hw2, tl1, hxlt, hne, hnode, perm1, perm2, tl3, tx3⟩ := he
  obtain ⟨q1, q2, q3, q4, q5, q6⟩ := Pool.queueWf_iff.1 h.queue
  have hxq : p.heapExtract.heapTop ∈ p.queue :=
    perm1.mem_iff.2 (List.mem_cons_of_mem _ (perm2.mem_iff.2 List.mem_cons_self))
  generalize hgl : p.heapTop = l at *
  generalize hgx : p.heapExtract.heapTop = x at *
  generalize hg2 : p.heapExtract.heapExtract = p2 at *
  have hfreq2 : ∀ k, (p2.node k).freq = (p.node k).freq := fun k => by rw [hnode]; split <;> rfl
  have hcount2 : p2.count = p.count := by rw [← hg2]; rfl
  have hsize2 : p2.size = p.size - 2 := by rw [← hg2]; rfl
  have hcap2 : p2.cap = p.cap := by rw [← hg2]; rfl
  have hroot2 : p2.root = p.root := by rw [← hg2]; rfl
  have hstack2 : p2.stack = p.stack := by rw [← hg2]; rfl
  have hln : p2.node l = { p.node l with held := .unowned } := by rw [hnode, if_pos (.inl rfl)]
  have hxn : p2.node x = { p.node x with held := .unowned } := by rw [hnode, if_pos (.inr rfl)]
  have hadd : ((p2.node l).freq + (p2.node x).freq).toNat = (p.node l).freq.toNat + (p.node x).freq.toNat := by
    rw [hfreq2, hfreq2, BitVec.toNat_add, Nat.mod_eq_of_lt ht]
  -- the new node
  have h511 : p2.count ≠ 511 := by omega
  have hw4 := hp2.join (a := l) (b := x) (freq := (p2.node l).freq + (p2.node x).freq) h511 (by omega) (by omega) hne
    (by rw [hln]) (by rw [hxn]) (by rw [hadd, hfreq2, hfreq2])
  have hq4 : ((p2.grown (innerNode .unowned ((p2.node l).freq + (p2.node x).freq) l x)).adopt l x).QueueWf := by
    have g3 := hw2.grown (innerNode .unowned ((p2.node l).freq + (p2.node x).freq) l x) rfl
    have g3l : ((p2.grown (innerNode .unowned ((p2.node l).freq + (p2.node x).freq) l x)).node l).held ≠ .pq := by
      rw [Pool.node_grown, if_neg (by omega), hln]; intro hc; cases hc
    have g4 := g3.setHeld (held := .parent) g3l (by decide)
    refine g4.setHeld ?_ (by decide)
    rw [Pool.setHeld_held, if_neg (fun hc => hne hc.1), Pool.node_grown, if_neg (by omega), hxn]; intro hc; cases hc
  have hj : p.joined = ((p2.grown (innerNode .unowned ((p2.node l).freq + (p2.node x).freq) l x)).adopt l x).heapInsert p.count := by
    simp only [Pool.joined, hg2, hgl, hgx]
  generalize hg4 : (p2.grown (innerNode .unowned ((p2.node l).freq + (p2.node x).freq) l x)).adopt l x = p4 at *
  have hnode4 : ∀ k, p4.node k = if k = p.count then
      (innerNode .unowned ((p2.node l).freq + (p2.node x).freq) l x)
      else if k = l ∨ k = x then { p.node k with held := .parent } else p.node k := by
    intro k
    rw [← hg4, Pool.adopt, Pool.node_setHeld, Pool.node_setHeld, Pool.node_grown, hcount2]
    by_cases h1 : k = p.count
    · subst h1; rw [if_neg (by omega), if_neg (by omega), if_pos ⟨rfl, by omega⟩, if_pos rfl]
    · rw [if_neg (by omega : ¬ (p.count = k ∧ k < 511)), if_neg h1]
      by_cases h2 : k = x
      · subst h2
        rw [if_pos ⟨rfl, by omega⟩, if_neg (fun hc : l = k ∧ k < 511 => hne hc.1), if_pos (.inr rfl), hxn]
      · rw [if_neg (by omega : ¬ (x = k ∧ k < 511))]
        by_cases h3 : k = l
        · subst h3; rw [if_pos ⟨rfl, by omega⟩, if_pos (.inl rfl), hln]
        · rw [if_neg (by omega), if_neg (by omega), hnode, if_neg (by omega)]
  have hcount4 : p4.count = p.count + 1 := by rw [← hg4, ← hcount2]; rfl
  have hsize4 : p4.size = p.size - 2 := by rw [← hg4, ← hsize2]; rfl
  have hqueue4 : p4.queue = p2.queue := by rw [← hg4]; rfl
  have hnew4 := hnode4 p.count
  rw [if_pos rfl] at hnew4
  obtain ⟨-, perm5, -⟩ := Pool.heapInsert_spec (p := p4) p.count (by omega) (Pool.queueWf_iff.1 hq4).2.2.2.2.2
  rw [hqueue4] at perm5
  have hw5 : (p4.heapInsert p.count).Wf := hw4.heapInsert (by omega) (by rw [hnew4])
  have hq5 : (p4.heapInsert p.count).QueueWf := hq4.insert (by omega) (by omega) (by rw [hnew4]) (by omega)
  rw [hj]
  have hnode5 : ∀ k, (p4.heapInsert p.count).node k = if k = p.count then
      innerNode .pq ((p2.node l).freq + (p2.node x).freq) l x
      else if k = l ∨ k = x then { p.node k with held := .parent } else p.node k := by
    intro k
    rw [Pool.node_heapInsert, hnode4]
    by_cases h1 : k = p.count
    · subst h1; rw [if_pos ⟨rfl, by omega⟩, if_pos rfl, if_pos rfl]
    · rw [if_neg (fun hc => h1 hc.1.symm), if_neg h1, if_neg h1]
  have hnew5 := hnode5 p.count
  rw [if_pos rfl] at hnew5
  have hcount5 : (p4.heapInsert p.count).count = p.count + 1 := hcount4
  generalize hg5 : p4.heapInsert p.count = p5 at *
  have hshape : ∀ k, k ≠ p.count → (p5.node k).kind = (p.node k).kind ∧ (p5.node k).sym = (p.node k).sym ∧
      (p5.node k).freq = (p.node k).freq ∧ (p5.node k).left = (p.node k).left ∧ (p5.node k).right = (p.node k).right := by
    intro k hk
    rw [hnode5, if_neg hk]
    split <;> exact ⟨rfl, rfl, rfl, rfl, rfl⟩
  have hp2q : ∀ y ∈ p2.queue, y ∈ p.queue := fun y hy =>
    perm1.mem_iff.2 (List.mem_cons_of_mem _ (perm2.mem_iff.2 (List.mem_cons_of_mem _ hy)))
  have htree : ∀ y, y < p.count → p5.tree y = p.tree y := by
    intro y hy
    have hh := h.wf.holds hy
    have : p5.Holds (p.tree y) y := hh.congr (by omega) fun k hk => by
      obtain ⟨a1, a2, -, a4, a5⟩ := hshape k (by omega)
      exact ⟨a1.symm, a2.symm, a4.symm, a5.symm⟩
    exact this.tree_eq hw5
  have htreenew : p5.tree p.count = .node (p.tree l) (p.tree x) := by
    have hl5 : p5.Holds (p.tree l) l := htree l tl1 ▸ hw5.holds (by omega)
    have hx5 : p5.Holds (p.tree x) x := htree x hxlt ▸ hw5.holds (by omega)
    have : p5.Holds (.node (p.tree l) (p.tree x)) p.count := by
      refine ⟨by omega, by rw [hnew5], by rw [hnew5]; exact tl1, by rw [hnew5]; exact hxlt, ?_, ?_⟩
      · rw [hnew5]; exact hl5
      · rw [hnew5]; exact hx5
    exact this.tree_eq hw5
  refine ⟨?_, by rw [← hg5, Pool.heapInsert_size, hsize4]; omega, hln, hxn⟩
  constructor
  case wf => exact hw5
  case queue => exact hq5
  case cap => rw [← hg5, ← h.cap, ← hcap2, ← hg4]; rfl
  case root => rw [← hg5, ← h.root, ← hroot2, ← hg4]; rfl
  case stack => rw [← hg5, ← h.stack, ← hstack2, ← hg4]; rfl
  case size => rw [← hg5, Pool.heapInsert_size]; omega
  case base => rw [hcount5]; have := h.base; omega
  case sum => rw [hcount5, ← hg5, Pool.heapInsert_size, hsize4]; omega
  case leaves =>
    intro k sym hk
    have hlt : k < ds.length := (List.getElem?_eq_some_iff.1 hk).1
    obtain ⟨a1, a2, a3, -, -⟩ := hshape k (by have := h.base; omega)
    rw [a1, a2, a3]
    exact h.leaves k sym hk
  case internal =>
    intro k h1 h2
    by_cases hk : k = p.count
    · rw [hk, hnew5]
    · rw [(hshape k hk).1]; exact h.internal k h1 (by omega)
  case owned =>
    intro k hk
    rw [hnode5]
    split
    · exact .inl rfl
    · split
      · exact .inr rfl
      · exact h.owned k (by omega)
  case last =>
    rw [hcount5, Nat.add_sub_cancel, perm5.mem_iff]
    exact List.mem_cons_self
  case freqs =>
    rw [(perm5.map _).sum_eq, List.map_cons, List.sum_cons, hnew5]
    simp only
    rw [hadd, ← hfr', Nat.add_assoc]
    congr 3
    refine List.map_congr_left fun y hy => ?_
    rw [(hshape y (by have := h.count_lt y (hp2q y hy); omega)).2.2.1]
  case symbols =>
    refine (perm5.flatMap_right _).trans ?_
    rw [List.flatMap_cons, htreenew, CodeTree.symbols]
    have hrest : p2.queue.flatMap (fun y => (p5.tree y).symbols) = p2.queue.flatMap fun y => (p.tree y).symbols := by
      refine List.flatMap_congr fun y hy => ?_
      rw [htree y (h.count_lt y (hp2q y hy))]
    rw [hrest]
    refine List.Perm.trans ?_ h.symbols
    refine List.Perm.trans ?_ (perm1.flatMap_right _).symm
    rw [List.flatMap_cons, List.append_assoc]
    refine List.Perm.append_left _ ?_
    refine List.Perm.trans ?_ (perm2.flatMap_right _).symm
    rw [List.flatMap_cons]
  case minima =>
    intro i hi
    by_cases hic : i = p.count
    · subst hic
      rw [hnew5]
      simp only
      rw [(hshape l (by omega)).2.2.1, (hshape x (by omega)).2.2.1]
      refine ⟨tl3 x hxq, fun k hk hno => ?_⟩
      rw [(hshape k (by omega)).2.2.1]
      have hkn := hno p.count le_rfl (by rw [hnew5])
      rw [hnew5] at hkn
      have hheld : (p.node k).held = .pq := by
        refine (h.owned k hk).resolve_right fun hpar => ?_
        obtain ⟨i0, hi0, hor⟩ := h.wf.hasParent k hpar
        have hlt := h.wf.lt_of_kind (n := i0) (by rw [hi0]; decide)
        obtain ⟨a1, -, -, a4, a5⟩ := hshape i0 (by omega)
        have := hno i0 (by omega) (a1.trans hi0)
        rw [a4, a5] at this
        rcases hor with hc | hc
        · exact this.1 hc
        · exact this.2 hc
      have hkq := perm1.mem_iff.1 (q4 k hheld)
      rcases List.mem_cons.1 hkq with hc | hkq
      · exact absurd hc.symm hkn.1
      · exact tx3 k hkq
    · obtain ⟨a1, -, -, a4, a5⟩ := hshape i hic
      have hi' := a1 ▸ hi
      have hlt := h.wf.lt_of_kind (n := i) (by rw [hi']; decide)
      have l1 := h.wf.below i hi'
      obtain ⟨m1, m2⟩ := h.minima i hi'
      rw [a4, a5, (hshape _ (by omega)).2.2.1, (hshape _ (by omega)).2.2.1]
      refine ⟨m1, fun k hk hno => ?_⟩
      rw [(hshape k (by omega)).2.2.1]
      refine m2 k hk fun j hj hjk => ?_
      obtain ⟨b1, -, -, b4, b5⟩ := hshape j (by omega)
      have := hno j hj (b1.trans hjk)
      rwa [b4, b5] at this

/-- A pass up to the sum of its two frequencies. -/
theorem goesOn_joinTwo {ds : List Byte} {total : Nat} (h : Forest r ds total p) (hsz : 1 < p.size) :
    GoesOn joinTwo cfg { r with pool := p } q (do
      let f ← joinedFreq (p.node p.heapTop).freq (p.node p.heapExtract.heapTop).freq
      let y ← alloc .internal 0 f p.heapTop p.heapExtract.heapTop .nodePoolFull
      modifyPool (·.adopt p.heapTop p.heapExtract.heapTop)
      mustInsert y) { r with pool := p.heapExtract.heapExtract } q := by
  have he := h.extracted hsz
  have h2 := congrArg Node.freq (he.node p.heapTop)
  have h3 := congrArg Node.freq (he.node p.heapExtract.heapTop)
  rw [if_pos (.inl rfl)] at h2
  rw [if_pos (.inr rfl)] at h3
  unfold joinTwo
  refine (runs_heapExtract (r := { r with pool := p })).goesOn.trans ?_
  refine (runs_mustExtract (r := { r with pool := p.heapExtract }) (by simp; omega)).goesOn.trans ?_
  refine (Runs.goesOn (p := getRegs) (runs_getRegs.2 ⟨rfl, rfl, rfl⟩)).trans ?_
  simp only [h2, h3]
  exact GoesOn.refl _

theorem runs_joinTwo {ds : List Byte} {total : Nat} (h : Forest r ds total p) (hl : ds.length ≤ 256) (hsz : 1 < p.size)
    (ht : (p.node p.heapTop).freq.toNat + (p.node p.heapExtract.heapTop).freq.toNat < 2 ^ 64) :
    Runs joinTwo cfg { r with pool := p } q () { r with pool := p.joined } q := by
  obtain ⟨-, -, h2, h3⟩ := h.step hl hsz ht
  have hsum := h.sum
  have hcap := h.cap
  have hs := h.queue.size
  have hc2 : p.heapExtract.heapExtract.count = p.count := rfl
  refine (goesOn_joinTwo h hsz).runs ?_
  have hfreq : Runs (joinedFreq (p.node p.heapTop).freq (p.node p.heapExtract.heapTop).freq) cfg
      { r with pool := p.heapExtract.heapExtract } q ((p.node p.heapTop).freq + (p.node p.heapExtract.heapTop).freq)
      { r with pool := p.heapExtract.heapExtract } q := by
    simp only [joinedFreq, runs_require_bind, runs_pure, decide_eq_true_eq, and_true, freqMax]
    omega
  refine Runs.bind hfreq ?_
  refine Runs.bind (runs_alloc (r := { r with pool := p.heapExtract.heapExtract }) (by simp only [hc2]; omega)) ?_
  simp only [runs_modifyPool_bind]
  have hj : p.joined = (((p.heapExtract.heapExtract).grown (innerNode .unowned
      ((p.node p.heapTop).freq + (p.node p.heapExtract.heapTop).freq) p.heapTop p.heapExtract.heapTop)).adopt p.heapTop
        p.heapExtract.heapTop).heapInsert p.count := by
    simp only [Pool.joined, h2, h3]
  rw [hj]
  exact runs_mustInsert _ (by simp [Pool.adopt, Pool.grown, Pool.setHeld, Pool.setNode]; omega)

/-- The pool when the two minimum nodes have frequencies whose sum passes 2^64 - 1 (R145, R220(b)): BUILD_TREE stops with
both out of the queue. -/
structure Halted (r : Regs) (ds : List Byte) (p : Pool) : Prop where
  wf : p.Wf
  queue : p.QueueWf
  cap : p.cap = 256
  root : p.root = NIL
  sum : p.count + p.size + 2 = 2 * ds.length
  base : ds.length ≤ p.count
  leaves : ∀ k sym, ds[k]? = some sym →
    (p.node k).kind = .leaf ∧ (p.node k).sym = sym ∧ (p.node k).freq = r.histAt sym
  internal : ∀ k, ds.length ≤ k → k < p.count → (p.node k).kind = .internal
  pair : ∃ l x, l ≠ x ∧ l < p.count ∧ x < p.count ∧ (p.node l).held = .unowned ∧ (p.node x).held = .unowned ∧
    2 ^ 64 ≤ (p.node l).freq.toNat + (p.node x).freq.toNat ∧
    ∀ k, (p.node k).held = .pq → (p.node l).freq.toNat ≤ (p.node k).freq.toNat ∧ (p.node x).freq.toNat ≤ (p.node k).freq.toNat

theorem Forest.halted {ds : List Byte} {total : Nat} (h : Forest r ds total p) (hsz : 1 < p.size)
    (ht : 2 ^ 64 ≤ (p.node p.heapTop).freq.toNat + (p.node p.heapExtract.heapTop).freq.toNat) :
    Halted r ds p.heapExtract.heapExtract := by
  have he := h.extracted hsz
  have hsum := h.sum
  have hsize : p.heapExtract.heapExtract.size = p.size - 2 := rfl
  have hcount : p.heapExtract.heapExtract.count = p.count := rfl
  have hfreq : ∀ k, (p.heapExtract.heapExtract.node k).freq = (p.node k).freq := fun k => by rw [he.node]; split <;> rfl
  have hkind : ∀ k, (p.heapExtract.heapExtract.node k).kind = (p.node k).kind := fun k => by rw [he.node]; split <;> rfl
  have hsym : ∀ k, (p.heapExtract.heapExtract.node k).sym = (p.node k).sym := fun k => by rw [he.node]; split <;> rfl
  constructor
  case wf => exact he.wf
  case queue => exact he.queue
  case cap => exact h.cap
  case root => exact h.root
  case sum => omega
  case base => exact h.base
  case leaves => intro k sym hk; rw [hkind, hsym, hfreq]; exact h.leaves k sym hk
  case internal => intro k h1 h2; rw [hkind]; exact h.internal k h1 h2
  case pair =>
    refine ⟨_, _, he.differ, he.left_lt, he.right_lt, by rw [he.node, if_pos (.inl rfl)], by rw [he.node, if_pos (.inr rfl)],
      by rw [hfreq, hfreq]; exact ht, fun k hk => ?_⟩
    rw [hfreq, hfreq, hfreq]
    have hk2 := (Pool.queueWf_iff.1 he.queue).2.2.2.1 k hk
    have hk1 := he.perm2.mem_iff.2 (List.mem_cons_of_mem _ hk2)
    exact ⟨he.min1 k (he.perm1.mem_iff.2 (List.mem_cons_of_mem _ hk1)), he.min2 k hk1⟩

/-- One node alone cannot carry a count of 2^64 or more. -/
theorem Forest.two_left {ds : List Byte} {total : Nat} (h : Forest r ds total p) (ht : 2 ^ 64 ≤ total) : 1 < p.size := by
  by_contra hc
  have h1 : p.size = 1 := by have := h.size; omega
  have hq : p.queue = [p.heapTop] := by rw [Pool.queue, h1]; rfl
  have := h.freqs
  rw [hq, List.map_singleton, List.sum_singleton] at this
  have := (p.node p.heapTop).freq.isLt
  omega

/-- With counts that add up to 2^64 or more, a pass meets two frequencies whose sum does not fit. -/
theorem fails_joinLoop {ds : List Byte} {total fuel : Nat} (h : Forest r ds total p) (hl : ds.length ≤ 256)
    (ht : 2 ^ 64 ≤ total) (hf : p.size ≤ fuel + 1) :
    ∃ p', Fails (joinLoop fuel) cfg { r with pool := p } q .freqOverflow { r with pool := p' } q ∧ Halted r ds p' := by
  have hsz := h.two_left ht
  induction fuel generalizing p with
  | zero => omega
  | succ fuel ih =>
    unfold joinLoop
    simp only [fails_getRegs_bind, if_pos hsz]
    rcases Nat.lt_or_ge ((p.node p.heapTop).freq.toNat + (p.node p.heapExtract.heapTop).freq.toNat) (2 ^ 64) with hlt | hge
    · obtain ⟨h1, h2, -⟩ := h.step hl hsz hlt
      obtain ⟨p', hfail, hp'⟩ := ih h1 (by omega) (h1.two_left ht)
      exact ⟨p', Runs.bind_fails (runs_joinTwo h hl hsz hlt) hfail, hp'⟩
    · refine ⟨_, Fails.bind ((goesOn_joinTwo h hsz).fails (Fails.bind ?_)), h.halted hsz hge⟩
      simp only [joinedFreq, fails_require_bind, decide_eq_false_iff_not, freqMax, and_true]
      exact .inl (by omega)

theorem runs_joinLoop {ds : List Byte} {total fuel : Nat} (h : Forest r ds total p) (hl : ds.length ≤ 256)
    (ht : total < 2 ^ 64) (hf : p.size ≤ fuel + 1) :
    ∃ p', Runs (joinLoop fuel) cfg { r with pool := p } q () { r with pool := p' } q ∧ Forest r ds total p' ∧ p'.size = 1 := by
  induction fuel generalizing p with
  | zero =>
    have := h.size
    exact ⟨p, by simp [joinLoop], h, by omega⟩
  | succ fuel ih =>
    unfold joinLoop
    simp only [runs_getRegs_bind, runs_ite]
    by_cases hsz : 1 < p.size
    · have hlt : (p.node p.heapTop).freq.toNat + (p.node p.heapExtract.heapTop).freq.toNat < 2 ^ 64 := by
        have := h.freqs_extracted (h.extracted hsz); omega
      obtain ⟨h1, h2, -⟩ := h.step hl hsz hlt
      obtain ⟨p', hrun, hf', hs'⟩ := ih h1 (by omega)
      exact ⟨p', by simp only [if_pos hsz]; exact Runs.bind (runs_joinTwo h hl hsz hlt) hrun, hf', hs'⟩
    · have := h.size
      exact ⟨p, by simp [if_neg hsz], h, by omega⟩

/-- The pool that BUILD_TREE leaves (R145, R146). -/
structure Built (r : Regs) (p : Pool) : Prop where
  wf : p.Wf
  queue : p.QueueWf
  unique : p.unique = r.present.length
  count : p.count = 2 * r.present.length - 1
  root : p.root = 2 * r.present.length - 2
  size : p.size = 0
  cap : p.cap = 256
  stack : p.stack = r.pool.stack
  freq : (p.node p.root).freq.toNat = r.total
  leaves : ∀ k sym, r.present[k]? = some sym →
    (p.node k).kind = .leaf ∧ (p.node k).sym = sym ∧ (p.node k).freq = r.histAt sym
  internal : ∀ k, r.present.length ≤ k → k < p.count → (p.node k).kind = .internal
  holds : p.Holds (p.tree p.root) p.root
  symbols : (p.tree p.root).symbols.Perm r.present
  minima : ∀ i, (p.node i).kind = .internal →
    (p.node (p.node i).left).freq.toNat ≤ (p.node (p.node i).right).freq.toNat ∧
    ∀ k, k < i → (∀ j, j ≤ i → (p.node j).kind = .internal → (p.node j).left ≠ k ∧ (p.node j).right ≠ k) →
      (p.node (p.node i).right).freq.toNat ≤ (p.node k).freq.toNat

theorem Forest.built {total : Nat} (h : Forest r r.present total p) (ht : total = r.total) (hs : p.size = 1) :
    Built r (p.heapExtract.makeRoot p.heapTop) ∧ p.heapTop = 2 * r.present.length - 2 := by
  have hsum := h.sum
  have hb := h.wf.bound
  obtain ⟨t1, t2, -⟩ := h.queue.top (by omega)
  obtain ⟨q1, q2, q3, q4, q5, q6⟩ := Pool.queueWf_iff.1 h.queue
  have hq : p.queue = [p.heapTop] := by rw [Pool.queue, hs]; rfl
  have htop : p.heapTop = p.count - 1 := by
    have := h.last; rw [hq, List.mem_singleton] at this; exact this.symm
  have hw1 : p.heapExtract.QueueWf := h.queue.extract (by omega) hb
  have hp1 : p.heapExtract.Wf := h.wf.heapExtract h.queue (by omega)
  have hun : (p.heapExtract.node p.heapTop).held = .unowned := by
    rw [Pool.node_heapExtract, if_pos ⟨rfl, by omega⟩]
  have hw := hp1.makeRoot h.root t1 hun
  have hroot : (p.heapExtract.makeRoot p.heapTop).root = p.heapTop := rfl
  have hcount : (p.heapExtract.makeRoot p.heapTop).count = p.count := rfl
  have hunique : (p.heapExtract.makeRoot p.heapTop).unique = (p.heapExtract.setHeld p.heapTop .root).leaves p.heapTop := rfl
  have hshape : ∀ k, ((p.heapExtract.makeRoot p.heapTop).node k).kind = (p.node k).kind ∧
      ((p.heapExtract.makeRoot p.heapTop).node k).sym = (p.node k).sym ∧
      ((p.heapExtract.makeRoot p.heapTop).node k).freq = (p.node k).freq ∧
      ((p.heapExtract.makeRoot p.heapTop).node k).left = (p.node k).left ∧
      ((p.heapExtract.makeRoot p.heapTop).node k).right = (p.node k).right := by
    intro k
    rw [show (p.heapExtract.makeRoot p.heapTop).node k = (p.heapExtract.setHeld p.heapTop .root).node k from rfl,
      Pool.node_setHeld, Pool.node_heapExtract]
    split <;> exact ⟨rfl, rfl, rfl, rfl, rfl⟩
  have hqwf : (p.heapExtract.makeRoot p.heapTop).QueueWf := by
    have := hw1.setHeld (n := p.heapTop) (held := .root) (by rw [hun]; decide) (by decide)
    exact ⟨this.size, this.entries, this.distinct, this.held, this.vacant, this.order⟩
  have hholds : (p.heapExtract.makeRoot p.heapTop).Holds (p.tree p.heapTop) p.heapTop :=
    (h.wf.holds t1).congr t1 fun k _ => by
      obtain ⟨a1, a2, -, a4, a5⟩ := hshape k
      exact ⟨a1.symm, a2.symm, a4.symm, a5.symm⟩
  have htree := hholds.tree_eq hw
  have hsyms := h.symbols
  rw [hq, List.flatMap_singleton] at hsyms
  refine ⟨?_, by omega⟩
  constructor
  case wf => exact hw
  case queue => exact hqwf
  case unique =>
    rw [hunique]
    have h1 : (p.heapExtract.setHeld p.heapTop .root).leaves p.heapTop =
        (p.heapExtract.makeRoot p.heapTop).leaves p.heapTop :=
      SameShape.leaves (p := p.heapExtract.setHeld p.heapTop .root) (p' := p.heapExtract.makeRoot p.heapTop)
        (fun k => ⟨rfl, rfl, rfl, rfl⟩) _
    rw [h1, leaves_of_holds hholds, ← CodeTree.length_symbols]
    exact hsyms.length_eq
  case count => rw [hcount]; omega
  case root => rw [hroot]; omega
  case size => simp [Pool.makeRoot, hs]
  case cap => exact h.cap
  case stack => exact h.stack
  case freq =>
    rw [hroot, (hshape _).2.2.1, ← ht, ← h.freqs, hq]
    simp
  case leaves => intro k sym hk; obtain ⟨a1, a2, a3, -, -⟩ := hshape k; rw [a1, a2, a3]; exact h.leaves k sym hk
  case internal => intro k h1 h2; rw [(hshape k).1]; exact h.internal k h1 h2
  case holds => rw [hroot, htree]; exact hholds
  case symbols => rw [hroot, htree]; exact hsyms
  case minima =>
    intro i hi
    obtain ⟨a1, -, -, a4, a5⟩ := hshape i
    obtain ⟨m1, m2⟩ := h.minima i (a1 ▸ hi)
    rw [a4, a5, (hshape _).2.2.1, (hshape _).2.2.1]
    refine ⟨m1, fun k hk hno => ?_⟩
    rw [(hshape k).2.2.1]
    refine m2 k hk fun j hj hjk => ?_
    obtain ⟨b1, -, -, b4, b5⟩ := hshape j
    have := hno j hj (b1.trans hjk)
    rwa [b4, b5] at this

theorem Regs.total_present : (r.present.map fun s => (r.histAt s).toNat).sum = r.total := by
  unfold Regs.present Regs.total
  generalize symbols = l
  induction l with
  | nil => rfl
  | cons s l ih =>
    by_cases h : r.histAt s = 0
    · rw [List.filter_cons_of_neg (by simpa using h), ih, List.map_cons, List.sum_cons, h]; simp
    · rw [List.filter_cons_of_pos (by simpa using h), List.map_cons, List.sum_cons, ih, List.map_cons, List.sum_cons]

/-- BUILD_TREE over at least one symbol, with a sum of counts below 2^64 (R145, R146). -/
theorem runs_buildTree (hne : r.present ≠ []) (ht : r.total < 2 ^ 64) :
    ∃ p, Runs buildTree cfg r q p.root { r with pool := p } q ∧ Built r p := by
  have hlen := length_present_le (r := r)
  unfold buildTree
  simp only [runs_modifyPool_bind]
  obtain ⟨p1, hrun1, h1⟩ := runs_enqueueLeaves (cfg := cfg) (q := q) (l := symbols) (enqueued_nil (r := r)) (by
    change 0 + r.present.length ≤ 256; omega)
  rw [List.nil_append] at h1
  have hf := Enqueued.forest (ds := r.present) h1 hne
  rw [Regs.total_present] at hf
  obtain ⟨p2, hrun2, h2, hs2⟩ := runs_joinLoop (cfg := cfg) (q := q) (fuel := p1.size) hf hlen ht (by omega)
  obtain ⟨hb, htop⟩ := h2.built rfl hs2
  refine ⟨p2.heapExtract.makeRoot p2.heapTop, ?_, hb⟩
  refine Runs.bind hrun1 ?_
  simp only [runs_getRegs_bind, runs_require_bind]
  refine ⟨by have := hf.size; simp; omega, Runs.bind hrun2 ?_⟩
  refine Runs.bind (runs_heapExtract (r := { r with pool := p2 })) ?_
  simp [Pool.makeRoot]

/-- BUILD_TREE with a sum of counts of 2^64 or more (R145). -/
theorem fails_buildTree (ht : 2 ^ 64 ≤ r.total) :
    ∃ p, Fails buildTree cfg r q .freqOverflow { r with pool := p } q ∧ Halted r r.present p := by
  have hlen := length_present_le (r := r)
  have hne : r.present ≠ [] := by
    intro hc
    rw [← Regs.total_present, hc] at ht
    simp at ht
  unfold buildTree
  simp only [fails_modifyPool_bind]
  obtain ⟨p1, hrun1, h1⟩ := runs_enqueueLeaves (cfg := cfg) (q := q) (l := symbols) (enqueued_nil (r := r)) (by
    change 0 + r.present.length ≤ 256; omega)
  rw [List.nil_append] at h1
  have hf := Enqueued.forest (ds := r.present) h1 hne
  rw [Regs.total_present] at hf
  obtain ⟨p2, hfail, h2⟩ := fails_joinLoop (cfg := cfg) (q := q) (fuel := p1.size) hf hlen ht (by omega)
  refine ⟨p2, Runs.bind_fails hrun1 ?_, h2⟩
  simp only [fails_getRegs_bind, fails_require_bind]
  exact .inr ⟨by have := hf.size; simp; omega, hfail.bind⟩

end Sys2Proof.Machine
end

