-- ==== Sys2Proof/Laws/Rebuild.lean ====
section
/-! SUPPORT. REBUILD_TREE on the dump of a tree (R153, R154): reading a subtree's dump pushes one node, below which the
subtree stands in the slots behind those already used. -/

namespace Sys2Proof.Machine

variable {cfg : Config} {r : Regs} {q : Ports} {p : Pool}

/-! ### The slots of a tree -/

theorem CodeTree.two_leaves_pos (t : CodeTree) : 1 ≤ 2 * t.leaves - 1 := by have := t.leaves_pos; omega

/-- The owner of a tree's own node is the owner of its last slot only. -/
theorem CodeTree.slots_getD (t : CodeTree) (h h' : Held) (base k : Nat) (d : Node) :
    (t.slots h base).getD k d =
      if k = 2 * t.leaves - 2 then { (t.slots h' base).getD k d with held := h } else (t.slots h' base).getD k d := by
  cases t with
  | leaf s =>
    cases k with
    | zero => rfl
    | succ k => simp [CodeTree.slots, CodeTree.leaves]
  | node l r =>
    have h1 := l.two_leaves_pos
    have h2 := r.two_leaves_pos
    have hl : (l.slots .parent base ++ r.slots .parent (base + (2 * l.leaves - 1))).length = 2 * (l.leaves + r.leaves) - 2 := by
      rw [List.length_append, CodeTree.length_slots, CodeTree.length_slots]; omega
    simp only [CodeTree.slots, CodeTree.leaves, List.getD_eq_getElem?_getD]
    rcases Nat.lt_trichotomy k (2 * (l.leaves + r.leaves) - 2) with hk | hk | hk
    · have e : ∀ x : Node, (l.slots .parent base ++ r.slots .parent (base + (2 * l.leaves - 1)) ++ [x])[k]? =
          (l.slots .parent base ++ r.slots .parent (base + (2 * l.leaves - 1)))[k]? := fun x =>
        List.getElem?_append_left (by omega)
      rw [if_neg (by omega), e, e]
    · rw [if_pos hk, List.getElem?_append_right (by omega), List.getElem?_append_right (by omega), hl, hk, Nat.sub_self]
      rfl
    · rw [if_neg (by omega), List.getElem?_append_right (by omega), List.getElem?_append_right (by omega), hl,
        List.getElem?_eq_none (by simp; omega), List.getElem?_eq_none (by simp; omega)]

/-- A pool whose slots from base on are those of a tree holds it there. -/
theorem Pool.holds_of_slots {t : CodeTree} {h : Held} {base : Nat} (hb : base + (2 * t.leaves - 1) ≤ p.count)
    (hs : ∀ k, k < 2 * t.leaves - 1 → p.node (base + k) = (t.slots h base).getD k Node.free) :
    p.Holds t (base + (2 * t.leaves - 2)) := by
  induction t generalizing h base with
  | leaf s =>
    have h0 := hs 0 (by simp [CodeTree.leaves])
    simp only [CodeTree.slots, List.getD_cons_zero, Nat.add_zero] at h0
    simp only [CodeTree.leaves] at hb ⊢
    exact ⟨by omega, by rw [show base + (2 * 1 - 2) = base by omega, h0], by rw [show base + (2 * 1 - 2) = base by omega, h0]⟩
  | node l r ihl ihr =>
    have h1 := l.two_leaves_pos
    have h2 := r.two_leaves_pos
    simp only [CodeTree.leaves] at hb hs ⊢
    have hlen : (l.slots .parent base ++ r.slots .parent (base + (2 * l.leaves - 1))).length = 2 * (l.leaves + r.leaves) - 2 := by
      rw [List.length_append, CodeTree.length_slots, CodeTree.length_slots]; omega
    have htop := hs (2 * (l.leaves + r.leaves) - 2) (by omega)
    rw [CodeTree.slots, List.getD_eq_getElem?_getD, List.getElem?_append_right (by omega), hlen, Nat.sub_self,
      List.getElem?_cons_zero, Option.getD_some] at htop
    refine ⟨by omega, by rw [htop], by rw [htop]; simp only; omega, by rw [htop]; simp only; omega, ?_, ?_⟩
    · rw [htop]
      simp only
      rw [show base + (2 * l.leaves - 1) - 1 = base + (2 * l.leaves - 2) by omega]
      refine ihl (h := .parent) (by omega) fun k hk => ?_
      rw [hs k (by omega), CodeTree.slots, List.getD_eq_getElem?_getD, List.getD_eq_getElem?_getD,
        List.getElem?_append_left (by omega), List.getElem?_append_left (by rw [CodeTree.length_slots]; omega)]
    · rw [htop]
      simp only
      rw [show base + (2 * l.leaves - 1) + (2 * r.leaves - 1) - 1 = base + (2 * l.leaves - 1) + (2 * r.leaves - 2) by omega]
      refine ihr (h := .parent) (by omega) fun k hk => ?_
      have hll : (l.slots .parent base).length = 2 * l.leaves - 1 := CodeTree.length_slots _ _ _
      rw [Nat.add_assoc, hs (2 * l.leaves - 1 + k) (by omega), CodeTree.slots, List.getD_eq_getElem?_getD,
        List.getD_eq_getElem?_getD, List.getElem?_append_left (by omega), List.getElem?_append_right (by omega), hll,
        Nat.add_sub_cancel_left]

/-! ### Reading a byte of the dump -/

theorem runs_dumpByte {b : Byte} {rest : List Byte} (hq : q.Granting) (hw : r.inp.Wf cfg.block)
    (ha : r.inp.bitPos % 8 = 0) (hu : unreadBytes r.inp q = b :: rest) :
    ∃ i pos, Runs dumpByte cfg r q b (r.withInput i (pos - q.srcPos)) { q with srcPos := pos } ∧
      Taken cfg.block r.inp q i pos 8 ∧
      (∀ c, ReadTo cfg.block r.inp q c → ReadTo cfg.block i { q with srcPos := pos } (c + 8)) ∧
      unreadBytes i { q with srcPos := pos } = rest ∧ i.bitPos % 8 = 0 ∧ ({ q with srcPos := pos } : Ports).Granting := by
  obtain ⟨i, pos, hrun, ht, hc⟩ := runs_inByte (cfg := cfg) hq hw ha hu
  refine ⟨i, pos, Runs.bind hrun (by simp), ht, hc, ?_, by rw [ht.aligned]; omega, Ports.granting_at hq ht.bound⟩
  have := Taken.unreadBytes (n := 1) ht ha
  simpa [hu] using this

theorem fails_dumpByte (hq : q.Granting) (hw : r.inp.Wf cfg.block) (ha : r.inp.bitPos % 8 = 0)
    (hu : unreadBytes r.inp q = []) :
    ∃ i pos, Fails dumpByte cfg r q .treeTruncated (r.withInput i (pos - q.srcPos)) { q with srcPos := pos } ∧
      q.srcPos ≤ pos ∧ pos ≤ q.src.length ∧ unreadBytes i { q with srcPos := pos } = [] := by
  obtain ⟨i, hrun, ht, -⟩ := runs_inByte_end (cfg := cfg) hq hw ha hu
  refine ⟨i, _, Runs.bind_fails hrun (fails_raise.2 ⟨rfl, ?_, rfl⟩), ht.forward, ht.bound, ?_⟩
  · rw [Nat.add_sub_cancel_left]
  · rw [Taken.unreadBytes (n := 0) ht ha, hu]; rfl

/-! ### A subtree -/

/-- The pool p' is p with the slots of a tree behind p's, and the tree's own node pushed on the rebuild stack. -/
structure Rebuilt (t : CodeTree) (p p' : Pool) : Prop where
  count : p'.count = p.count + (2 * t.leaves - 1)
  stack : p'.stack = (p.count + (2 * t.leaves - 2)) :: p.stack
  old : ∀ k, k < p.count → p'.node k = p.node k
  new : ∀ k, p'.node (p.count + k) = (t.slots .unowned p.count).getD k Node.free
  root : p'.root = p.root
  unique : p'.unique = p.unique
  heap : p'.heap = p.heap
  size : p'.size = p.size
  cap : p'.cap = p.cap

theorem runs_rebuildLeaf (s : Byte) (hs : r.pool.stack.length ≠ 256) (hc : r.pool.count ≠ 511) :
    Runs (rebuildLeaf s) cfg r q ()
      { r with pool := (r.pool.grown
          { kind := .leaf, held := .unowned, sym := s, freq := 0, left := NIL, right := NIL }).pushStack r.pool.count } q := by
  unfold rebuildLeaf
  simp only [runs_getRegs_bind, runs_require_bind]
  exact ⟨by simpa using hs, Runs.bind (runs_alloc hc) (by simp)⟩

theorem runs_rebuildInternal {a b : Nat} {st : List Nat} (hs : r.pool.stack = b :: a :: st) (hc : r.pool.count ≠ 511) :
    Runs rebuildInternal cfg r q ()
      { r with
        pool := ((({ r.pool with stack := st } : Pool).grown (innerNode .unowned 0 a b)).adopt a b).pushStack
          r.pool.count } q := by
  unfold rebuildInternal
  simp only [runs_getRegs_bind, hs, runs_modifyPool_bind]
  refine Runs.bind (runs_alloc (r := { r with pool := { r.pool with stack := st } }) hc) ?_
  simp [innerNode]

theorem rebuilt_leaf (s : Byte) (hc : p.count ≠ 511) (hb : p.count ≤ 511) (hfree : ∀ k, p.count ≤ k → p.node k = Node.free) :
    Rebuilt (.leaf s) p ((p.grown
      { kind := .leaf, held := .unowned, sym := s, freq := 0, left := NIL, right := NIL }).pushStack p.count) where
  count := rfl
  stack := rfl
  old k hk := by
    rw [show (Pool.pushStack (p.grown _) p.count).node k = (p.grown _).node k from rfl, Pool.node_grown, if_neg (by omega)]
  new k := by
    rw [show (Pool.pushStack (p.grown _) p.count).node (p.count + k) = (p.grown _).node (p.count + k) from rfl,
      Pool.node_grown]
    cases k with
    | zero => rw [if_pos ⟨rfl, by omega⟩]; rfl
    | succ k => rw [if_neg (by omega), hfree _ (by omega)]; simp [CodeTree.slots]
  root := rfl
  unique := rfl
  heap := rfl
  size := rfl
  cap := rfl

theorem rebuilt_node {l t : CodeTree} {p1 p2 : Pool} (h1 : Rebuilt l p p1) (h2 : Rebuilt t p1 p2)
    (hc : p.count + (2 * (l.leaves + t.leaves) - 1) ≤ 511) :
    Rebuilt (.node l t) p
      (((({ p2 with stack := p.stack } : Pool).grown
        (innerNode .unowned 0 (p.count + (2 * l.leaves - 2)) (p1.count + (2 * t.leaves - 2)))).adopt (p.count + (2 * l.leaves - 2))
            (p1.count + (2 * t.leaves - 2))).pushStack p2.count) := by
  have hl := l.two_leaves_pos
  have ht := t.two_leaves_pos
  have c1 := h1.count
  have c2 := h2.count
  have hlen : (l.slots .parent p.count ++ t.slots .parent (p.count + (2 * l.leaves - 1))).length =
      2 * (l.leaves + t.leaves) - 2 := by
    rw [List.length_append, CodeTree.length_slots, CodeTree.length_slots]; omega
  have hll : (l.slots .parent p.count).length = 2 * l.leaves - 1 := CodeTree.length_slots _ _ _
  -- the node at any index
  generalize hg : (((({ p2 with stack := p.stack } : Pool).grown
        (innerNode .unowned 0 (p.count + (2 * l.leaves - 2)) (p1.count + (2 * t.leaves - 2)))).adopt (p.count + (2 * l.leaves - 2))
            (p1.count + (2 * t.leaves - 2))).pushStack p2.count) = g
  have hnode : ∀ k, g.node k =
      if k = p2.count then (innerNode .unowned 0 (p.count + (2 * l.leaves - 2)) (p1.count + (2 * t.leaves - 2)))
      else if k = p.count + (2 * l.leaves - 2) ∨ k = p1.count + (2 * t.leaves - 2) then { p2.node k with held := .parent }
      else p2.node k := by
    intro k
    rw [← hg]
    change (Pool.adopt _ _ _).node k = _
    rw [Pool.adopt, Pool.node_setHeld, Pool.node_setHeld, Pool.node_grown]
    have e : ({ p2 with stack := p.stack } : Pool).node k = p2.node k := rfl
    have e' : ({ p2 with stack := p.stack } : Pool).count = p2.count := rfl
    rw [e, e']
    by_cases k1 : k = p2.count
    · rw [if_neg (by omega), if_neg (by omega), if_pos (by omega), if_pos k1]
    · rw [if_neg (by omega : ¬ (p2.count = k ∧ k < 511)), if_neg k1]
      by_cases k2 : k = p1.count + (2 * t.leaves - 2)
      · rw [if_pos ⟨k2.symm, by omega⟩, if_neg (by omega), if_pos (.inr k2)]
      · rw [if_neg (by omega : ¬ (p1.count + (2 * t.leaves - 2) = k ∧ k < 511))]
        by_cases k3 : k = p.count + (2 * l.leaves - 2)
        · rw [if_pos ⟨k3.symm, by omega⟩, if_pos (.inl k3)]
        · rw [if_neg (by omega), if_neg (by omega)]
  have hl1 : (CodeTree.node l t).leaves = l.leaves + t.leaves := rfl
  constructor
  case count => rw [← hg, hl1]; change p2.count + 1 = _; omega
  case stack =>
    rw [← hg, hl1]
    change p2.count :: p.stack = _
    rw [show p2.count = p.count + (2 * (l.leaves + t.leaves) - 2) by omega]
  case old =>
    intro k hk
    rw [hnode, if_neg (by omega), if_neg (by omega), h2.old k (by omega), h1.old k hk]
  case new =>
    intro k
    rw [hnode, CodeTree.slots, List.getD_eq_getElem?_getD]
    rcases Nat.lt_trichotomy k (2 * (l.leaves + t.leaves) - 2) with hk | hk | hk
    · rw [if_neg (by omega), List.getElem?_append_left (by omega)]
      rcases Nat.lt_or_ge k (2 * l.leaves - 1) with hk1 | hk1
      · rw [List.getElem?_append_left (by omega), ← List.getD_eq_getElem?_getD, h2.old _ (by omega), h1.new,
          l.slots_getD .parent .unowned]
        by_cases hk2 : k = 2 * l.leaves - 2
        · rw [if_pos (.inl (by omega)), if_pos hk2]
        · rw [if_neg (by omega), if_neg hk2]
      · rw [List.getElem?_append_right (by omega), hll, ← List.getD_eq_getElem?_getD]
        have e : p.count + k = p1.count + (k - (2 * l.leaves - 1)) := by omega
        rw [e, h2.new, c1, t.slots_getD .parent .unowned]
        by_cases hk2 : k - (2 * l.leaves - 1) = 2 * t.leaves - 2
        · rw [if_pos (.inr (by omega)), if_pos hk2]
        · rw [if_neg (by omega), if_neg hk2]
    · rw [if_pos (by omega), List.getElem?_append_right (by omega), hlen, hk, Nat.sub_self]
      simp only [List.getElem?_cons_zero, Option.getD_some]
      rw [c1, show p.count + (2 * l.leaves - 1) - 1 = p.count + (2 * l.leaves - 2) by omega,
        show p.count + (2 * l.leaves - 1) + (2 * t.leaves - 1) - 1 = p.count + (2 * l.leaves - 1) + (2 * t.leaves - 2) by omega]
    · rw [if_neg (by omega), if_neg (by omega), List.getElem?_append_right (by omega), hlen,
        List.getElem?_eq_none (by simp; omega)]
      have e : p.count + k = p1.count + (k - (2 * l.leaves - 1)) := by omega
      rw [e, h2.new, List.getD_eq_getElem?_getD, List.getElem?_eq_none (by rw [CodeTree.length_slots]; omega)]
  case root => rw [← hg]; exact h2.root.trans h1.root
  case unique => rw [← hg]; exact h2.unique.trans h1.unique
  case heap => rw [← hg]; exact h2.heap.trans h1.heap
  case size => rw [← hg]; exact h2.size.trans h1.size
  case cap => rw [← hg]; exact h2.cap.trans h1.cap

theorem Rebuilt.free {t : CodeTree} {p' : Pool} (h : Rebuilt t p p') (k : Nat) (hk : p'.count ≤ k) : p'.node k = Node.free := by
  have hc := h.count
  have := h.new (k - p.count)
  rw [show p.count + (k - p.count) = k by omega, List.getD_eq_getElem?_getD,
    List.getElem?_eq_none (by rw [CodeTree.length_slots]; omega)] at this
  exact this

theorem CodeTree.dump_pos (c : Config) (t : CodeTree) : 2 ≤ (t.dump c).length := by
  rw [CodeTree.length_dump]; have := t.leaves_pos; omega

theorem internal_ne_leaf (c : Config) : c.internalMarker ≠ c.leafMarker := by
  have := c.markersDiffer
  simp only [bne_iff_ne, ne_eq] at this
  exact fun h => this h.symm

theorem CodeTree.depth_pos (t : CodeTree) : 1 ≤ t.depth := by
  induction t with
  | leaf s => exact le_rfl
  | node l r ihl ihr => simp only [CodeTree.depth]; omega

/-- A tree has at least as many leaves as nodes stand on the stack while it is read. -/
theorem CodeTree.depth_le_leaves (t : CodeTree) : t.depth ≤ t.leaves := by
  induction t with
  | leaf s => exact le_rfl
  | node l r ihl ihr =>
    have := l.leaves_pos
    simp only [CodeTree.depth, CodeTree.leaves]; omega

/-- Reading the dump of a subtree pushes its node; the loop goes on with the bytes that are left of HDR_TREE_SIZE. -/
theorem goesOn_rebuildDump {t : CodeTree} {rest : List Byte} (hq : q.Granting) (hw : r.inp.Wf cfg.block)
    (ha : r.inp.bitPos % 8 = 0) (hu : unreadBytes r.inp q = t.dump cfg ++ rest)
    (hc : r.pool.count + (2 * t.leaves - 1) ≤ 511) (hs : r.pool.stack.length + t.depth ≤ 256)
    (hfree : ∀ k, r.pool.count ≤ k → r.pool.node k = Node.free) :
    ∃ i pos p', Taken cfg.block r.inp q i pos (8 * (t.dump cfg).length) ∧
      (∀ c, ReadTo cfg.block r.inp q c → ReadTo cfg.block i { q with srcPos := pos } (c + 8 * (t.dump cfg).length)) ∧
      Rebuilt t r.pool p' ∧
      ∀ rem, GoesOn (rebuildLoop (rem + (t.dump cfg).length)) cfg r q (rebuildLoop rem)
        ({ r with pool := p' }.withInput i (pos - q.srcPos)) { q with srcPos := pos } := by
  induction t generalizing r q rest with
  | leaf s =>
    rw [CodeTree.dump, List.cons_append, List.cons_append, List.nil_append] at hu
    obtain ⟨i, pos, hrun, ht, hr1, hu1, ha1, hq1⟩ := runs_dumpByte (cfg := cfg) hq hw ha hu
    obtain ⟨j, pos', hrun2, ht2, hr2, hu2, ha2, hq2⟩ := runs_dumpByte (cfg := cfg) (r := r.withInput i (pos - q.srcPos))
      (q := { q with srcPos := pos }) hq1 ht.wf ha1 hu1
    have hl : (CodeTree.leaf s).leaves = 1 := rfl
    rw [hl] at hc
    have hd : (CodeTree.leaf s).depth = 1 := rfl
    rw [hd] at hs
    have h1 := ht.forward
    have h2 := ht2.forward
    simp only at h2
    refine ⟨j, pos', _, ht.trans ht2, fun c h => ?_, rebuilt_leaf s (by omega) (by omega) hfree, fun rem => ?_⟩
    · have := hr2 _ (hr1 c h)
      rwa [Nat.add_assoc] at this
    · have hgo := (runs_rebuildLeaf (cfg := cfg) (q := { q with srcPos := pos' })
        (r := (r.withInput i (pos - q.srcPos)).withInput j (pos' - pos)) s
        (by change r.pool.stack.length ≠ 256; omega) (by change r.pool.count ≠ 511; omega)).goesOn
        (f := fun _ => rebuildLoop rem)
      rw [Regs.withInput_withInput, show pos - q.srcPos + (pos' - pos) = pos' - q.srcPos by omega] at hgo
      change GoesOn (rebuildLoop (rem + 2)) cfg r q _ _ _
      rw [rebuildLoop, goesOn_getConfig_bind]
      refine hrun.goesOn.trans ?_
      simp only [if_true]
      refine hrun2.goesOn.trans ?_
      rw [Regs.withInput_withInput, show pos - q.srcPos + (pos' - pos) = pos' - q.srcPos by omega]
      exact hgo
  | node l t ihl iht =>
    have hl0 := l.two_leaves_pos
    have ht0 := t.two_leaves_pos
    have hll : (CodeTree.node l t).leaves = l.leaves + t.leaves := rfl
    rw [hll] at hc
    have hdd : (CodeTree.node l t).depth = max l.depth (1 + t.depth) := rfl
    rw [hdd] at hs
    rw [CodeTree.dump, List.append_assoc, List.append_assoc] at hu
    obtain ⟨i1, pos1, p1, t1, c1, b1, go1⟩ := ihl hq hw ha hu (by omega) (by omega) hfree
    have ha1 : i1.bitPos % 8 = 0 := by rw [t1.aligned]; omega
    have hq1 : ({ q with srcPos := pos1 } : Ports).Granting := Ports.granting_at hq t1.bound
    have hu1 : unreadBytes i1 { q with srcPos := pos1 } = t.dump cfg ++ ([cfg.internalMarker] ++ rest) := by
      rw [t1.unreadBytes ha, hu, List.drop_left]
    have hb1 := b1.count
    have hst1 := b1.stack
    obtain ⟨i2, pos2, p2, t2, c2, b2, go2⟩ := iht (r := { r with pool := p1 }.withInput i1 (pos1 - q.srcPos))
      (q := { q with srcPos := pos1 }) hq1 t1.wf ha1 hu1 (by change p1.count + _ ≤ _; omega)
      (by change p1.stack.length + _ ≤ _; rw [hst1, List.length_cons]; omega) (fun k hk => b1.free k hk)
    have b2 : Rebuilt t p1 p2 := b2
    have ha2 : i2.bitPos % 8 = 0 := by rw [t2.aligned]; change (i1.bitPos + _) % 8 = 0; omega
    have hq2 : ({ q with srcPos := pos2 } : Ports).Granting := Ports.granting_at hq t2.bound
    have hu2 : unreadBytes i2 { q with srcPos := pos2 } = cfg.internalMarker :: rest := by
      have := t2.unreadBytes ha1
      rw [show unreadBytes i2 { q with srcPos := pos2 } = unreadBytes i2 { ({ q with srcPos := pos1 } : Ports) with srcPos := pos2 }
        from rfl, this]
      change (unreadBytes i1 { q with srcPos := pos1 }).drop _ = _
      rw [hu1, List.drop_left]; rfl
    obtain ⟨i3, pos3, hrun3, t3, c3, hu3, ha3, hq3⟩ := runs_dumpByte (cfg := cfg)
      (r := { r with pool := p2 }.withInput i2 (pos2 - q.srcPos)) (q := { q with srcPos := pos2 }) hq2 t2.wf ha2 hu2
    have hb2 := b2.count
    have hst2 := b2.stack
    have f1 := t1.forward
    have f2 : pos1 ≤ pos2 := t2.forward
    have f3 : pos2 ≤ pos3 := t3.forward
    have hlen : ((CodeTree.node l t).dump cfg).length = (l.dump cfg).length + (t.dump cfg).length + 1 := by
      simp [CodeTree.dump]; omega
    have t12 : Taken cfg.block r.inp q i2 pos2 (8 * (l.dump cfg).length + 8 * (t.dump cfg).length) := t1.trans t2
    refine ⟨i3, pos3, _, ?_, fun c h => ?_, rebuilt_node b1 b2 (by omega), fun rem => ?_⟩
    · have := t12.trans t3
      rw [hlen]
      rwa [show 8 * ((l.dump cfg).length + (t.dump cfg).length + 1) =
        8 * (l.dump cfg).length + 8 * (t.dump cfg).length + 8 by omega]
    · have := c3 _ (c2 _ (c1 c h))
      rw [hlen]
      rwa [show c + 8 * ((l.dump cfg).length + (t.dump cfg).length + 1) =
        c + 8 * (l.dump cfg).length + 8 * (t.dump cfg).length + 8 by omega]
    · rw [hlen, show rem + ((l.dump cfg).length + (t.dump cfg).length + 1) =
        (rem + 1 + (t.dump cfg).length) + (l.dump cfg).length by omega]
      refine (go1 _).trans ((go2 _).trans ?_)
      have key := runs_rebuildInternal (cfg := cfg) (q := { q with srcPos := pos3 })
        (r := (({ r with pool := p2 }.withInput i2 (pos2 - q.srcPos))).withInput i3 (pos3 - pos2))
        (b := p1.count + (2 * t.leaves - 2)) (a := r.pool.count + (2 * l.leaves - 2)) (st := r.pool.stack)
        (by change p2.stack = _; rw [hst2, hst1]) (by change p2.count ≠ 511; omega)
      rw [Regs.withInput_withInput, show pos2 - q.srcPos + (pos3 - pos2) = pos3 - q.srcPos by omega] at key
      have e : (({ ({ r with pool := p1 }.withInput i1 (pos1 - q.srcPos) : Regs) with pool := p2 } : Regs)).withInput i2
          (pos2 - ({ q with srcPos := pos1 } : Ports).srcPos) = { r with pool := p2 }.withInput i2 (pos2 - q.srcPos) := by
        have : ({ ({ r with pool := p1 }.withInput i1 (pos1 - q.srcPos) : Regs) with pool := p2 } : Regs) =
          { r with pool := p2 }.withInput i1 (pos1 - q.srcPos) := rfl
        rw [this, Regs.withInput_withInput]
        congr 1
        simp only
        omega
      rw [e]
      cases rem with
      | zero =>
        rw [Nat.zero_add, rebuildLoop, rebuildLoop, goesOn_getConfig_bind]
        refine hrun3.goesOn.trans ?_
        simp only [internal_ne_leaf, if_false, if_true]
        rw [Regs.withInput_withInput, show pos2 - q.srcPos + (pos3 - pos2) = pos3 - q.srcPos by omega]
        exact key.goesOn_pure
      | succ rem =>
        rw [rebuildLoop, goesOn_getConfig_bind]
        refine hrun3.goesOn.trans ?_
        simp only [internal_ne_leaf, if_false, if_true]
        rw [Regs.withInput_withInput, show pos2 - q.srcPos + (pos3 - pos2) = pos3 - q.srcPos by omega]
        exact key.goesOn

/-! ### The whole command -/

/-- The pool that REBUILD_TREE leaves (R153, R154). -/
structure RebuiltTree (t : CodeTree) (cap : Nat) (p : Pool) : Prop where
  holds : p.Holds t p.root
  root : p.root = 2 * t.leaves - 2
  count : p.count = 2 * t.leaves - 1
  unique : p.unique = t.leaves
  nodes : ∀ k, p.node k = (t.slots .root 0).getD k Node.free
  heap : p.heap = Vector.replicate 256 NIL
  size : p.size = 0
  cap : p.cap = cap
  stack : p.stack = []

/-- REBUILD_TREE's body on the dump of a tree with an inner root and at most 256 leaves (R154). -/
theorem runs_rebuildTree {l t : CodeTree} {rest : List Byte} (hq : q.Granting) (hw : r.inp.Wf cfg.block)
    (ha : r.inp.bitPos % 8 = 0) (hu : unreadBytes r.inp q = (CodeTree.node l t).dump cfg ++ rest)
    (hsize : r.hdr.treeSize.toNat = ((CodeTree.node l t).dump cfg).length) (hleaves : (CodeTree.node l t).leaves ≤ 256) :
    ∃ i pos p, Runs rebuildTree cfg r q p.root ({ r with pool := p }.withInput i (pos - q.srcPos)) { q with srcPos := pos } ∧
      Taken cfg.block r.inp q i pos (8 * ((CodeTree.node l t).dump cfg).length) ∧
      (∀ c, ReadTo cfg.block r.inp q c →
        ReadTo cfg.block i { q with srcPos := pos } (c + 8 * ((CodeTree.node l t).dump cfg).length)) ∧
      RebuiltTree (.node l t) r.pool.cap p := by
  have hpos := (CodeTree.node l t).leaves_pos
  have h2 : 2 ≤ (CodeTree.node l t).leaves := by
    have := l.leaves_pos; have := t.leaves_pos; simp only [CodeTree.leaves]; omega
  obtain ⟨i, pos, p', h1, hr, hb, hgo⟩ := goesOn_rebuildDump (cfg := cfg) (q := q)
    (r := { r with pool := { r.pool.cleared with stack := [] } }) (t := .node l t) hq hw ha hu
    (by change 0 + _ ≤ 511; omega)
    (by change 0 + _ ≤ 256; have := (CodeTree.node l t).depth_le_leaves; omega) (fun k _ => r.pool.node_cleared k)
  have hcount : p'.count = 2 * (CodeTree.node l t).leaves - 1 := hb.count.trans (Nat.zero_add _)
  have hnew : ∀ k, p'.node k = ((CodeTree.node l t).slots .unowned 0).getD k Node.free := fun k => by
    have := hb.new k
    rwa [show ({ r.pool.cleared with stack := [] } : Pool).count = 0 from rfl, Nat.zero_add] at this
  have hstack : p'.stack = [2 * (CodeTree.node l t).leaves - 2] := by
    have := hb.stack
    rwa [show ({ r.pool.cleared with stack := [] } : Pool).count = 0 from rfl, Nat.zero_add] at this
  generalize hx : 2 * (CodeTree.node l t).leaves - 2 = x at hstack
  generalize hfin : ({ p' with stack := [] } : Pool).makeRoot x = f
  have hfnode : ∀ k, f.node k = ((CodeTree.node l t).slots .root 0).getD k Node.free := by
    intro k
    rw [← hfin, show (Pool.makeRoot { p' with stack := [] } x).node k = (p'.setHeld x .root).node k from rfl,
      Pool.node_setHeld, hnew, (CodeTree.node l t).slots_getD .root .unowned, hx]
    by_cases hk : k = x
    · rw [if_pos ⟨hk.symm, by omega⟩, if_pos hk]
    · rw [if_neg (by omega), if_neg hk]
  have hholds : f.Holds (.node l t) x := by
    have := Pool.holds_of_slots (p := f) (t := .node l t) (h := .root) (base := 0)
      (by rw [← hfin]; change 0 + _ ≤ p'.count; omega) (fun k _ => by rw [Nat.zero_add]; exact hfnode k)
    rwa [Nat.zero_add, hx] at this
  have hkind : (p'.node x).kind = .internal := by
    have := hholds.2.1
    rwa [← hfin, show (Pool.makeRoot { p' with stack := [] } x).node x = (p'.setHeld x .root).node x from rfl,
      Pool.setHeld_kind] at this
  have hunique : f.unique = (CodeTree.node l t).leaves := by
    have h5 := leaves_of_holds hholds
    rw [← h5, ← hfin]
    exact SameShape.leaves (p := ({ p' with stack := [] } : Pool).setHeld x .root)
      (p' := ({ p' with stack := [] } : Pool).makeRoot x) (fun k => ⟨rfl, rfl, rfl, rfl⟩) _
  have hroot : f.root = x := by rw [← hfin]; rfl
  refine ⟨i, pos, f, ?_, h1, hr, ?_⟩
  · unfold rebuildTree requireInAligned
    simp only [bind_assoc, runs_getRegs_bind, runs_require_bind, runs_modifyPool_bind]
    refine ⟨by simp [ha], ?_⟩
    rw [hsize]
    have hend : Runs rebuiltRoot cfg ({ r with pool := p' }.withInput i (pos - q.srcPos)) { q with srcPos := pos } x
        ({ r with pool := f }.withInput i (pos - q.srcPos)) { q with srcPos := pos } := by
      unfold rebuiltRoot
      have hs : ({ r with pool := p' }.withInput i (pos - q.srcPos)).pool.stack = [x] := hstack
      have hk : (({ r with pool := p' }.withInput i (pos - q.srcPos)).pool.node x).kind ≠ .leaf := by
        change (p'.node x).kind ≠ .leaf
        rw [hkind]; decide
      simp only [runs_getRegs_bind, hs, runs_modifyPool_bind, runs_require_bind, runs_pure, and_true, true_and]
      refine ⟨by simpa using hk, ?_⟩
      rw [← hfin]; rfl
    rw [hroot]
    have hz := (hgo 0).runs (a := ()) (r' := { r with pool := p' }.withInput i (pos - q.srcPos)) (q' := { q with srcPos := pos })
      (by simp only [rebuildLoop, runs_pure, and_true])
    rw [Nat.zero_add] at hz
    exact Runs.bind hz hend
  · constructor
    case holds => rw [hroot]; exact hholds
    case root => rw [hroot, hx]
    case count => rw [← hfin]; exact hcount
    case unique => exact hunique
    case nodes => exact hfnode
    case heap => rw [← hfin]; exact hb.heap
    case size => rw [← hfin]; exact hb.size
    case cap => rw [← hfin]; exact hb.cap
    case stack => rw [← hfin]; rfl

end Sys2Proof.Machine
end

