-- ==== Sys2Proof/Laws/Forest.lean ====
section
/-! SUPPORT. REBUILD_TREE on any bytes (R153): the dumps of trees are read one after the other, each leaving its tree on
the rebuild stack, until the bytes make a tree with an internal root or one of the rule's errors. -/

namespace Sys2Proof.Machine

variable {cfg : Config} {r : Regs} {q : Ports} {p : Pool} {ts : List CodeTree}

/-! ### The trees on the stack -/

@[simp] theorem forestDump_nil (c : Config) : forestDump c [] = [] := rfl

@[simp] theorem forestDump_cons (c : Config) (t : CodeTree) : forestDump c (t :: ts) = t.dump c ++ forestDump c ts := rfl

@[simp] theorem forestNodes_nil : forestNodes [] = 0 := rfl

@[simp] theorem forestNodes_cons (t : CodeTree) : forestNodes (t :: ts) = 2 * t.leaves - 1 + forestNodes ts := rfl

theorem forestDump_append (c : Config) (us : List CodeTree) : forestDump c (ts ++ us) = forestDump c ts ++ forestDump c us :=
  List.flatMap_append

theorem forestNodes_append (us : List CodeTree) : forestNodes (ts ++ us) = forestNodes ts + forestNodes us := by
  simp [forestNodes]

theorem length_forestSlots (base : Nat) : (forestSlots base ts).length = forestNodes ts := by
  induction ts generalizing base with
  | nil => rfl
  | cons t ts ih => rw [forestSlots, List.length_append, CodeTree.length_slots, ih, forestNodes_cons]

theorem ForestFits.length_le (h : ForestFits ts) : ts.length ≤ 256 := by
  rcases Nat.eq_zero_or_pos ts.length with h0 | h0
  · omega
  · have := h.2 (ts.length - 1) (ts[ts.length - 1]) (List.getElem?_eq_getElem _)
    have := (ts[ts.length - 1]).depth_pos
    omega

/-- The pool p' is p with the slots of the trees behind p's, and the trees' own nodes pushed on the rebuild stack. -/
structure RebuiltForest (ts : List CodeTree) (p p' : Pool) : Prop where
  count : p'.count = p.count + forestNodes ts
  stack : ∃ l, p'.stack = l ++ p.stack ∧ l.length = ts.length ∧ (∀ t, ts = [t] → l = [p.count + (2 * t.leaves - 2)])
  old : ∀ k, k < p.count → p'.node k = p.node k
  new : ∀ k, p'.node (p.count + k) = (forestSlots p.count ts).getD k Node.free
  root : p'.root = p.root
  unique : p'.unique = p.unique
  heap : p'.heap = p.heap
  size : p'.size = p.size
  cap : p'.cap = p.cap

theorem rebuiltForest_nil (hfree : ∀ k, p.count ≤ k → p.node k = Node.free) : RebuiltForest [] p p where
  count := rfl
  stack := ⟨[], rfl, rfl, fun t h => by simp at h⟩
  old _ _ := rfl
  new k := by rw [hfree _ (by omega)]; rfl
  root := rfl
  unique := rfl
  heap := rfl
  size := rfl
  cap := rfl

theorem rebuiltForest_cons {t : CodeTree} {p1 p2 : Pool} (h1 : Rebuilt t p p1) (h2 : RebuiltForest ts p1 p2) :
    RebuiltForest (t :: ts) p p2 := by
  have c1 := h1.count
  have c2 := h2.count
  have ht := t.two_leaves_pos
  constructor
  case count => rw [forestNodes_cons]; omega
  case stack =>
    obtain ⟨l, e1, e2, e3⟩ := h2.stack
    refine ⟨l ++ [p.count + (2 * t.leaves - 2)], ?_, by simp [e2], fun u hu => ?_⟩
    · rw [e1, h1.stack, List.append_assoc]; rfl
    · obtain ⟨rfl, rfl⟩ := List.cons.inj hu
      rw [List.length_eq_zero_iff.1 e2]; rfl
  case old => intro k hk; rw [h2.old k (by omega), h1.old k hk]
  case new =>
    intro k
    rw [forestSlots, List.getD_eq_getElem?_getD]
    rcases Nat.lt_or_ge k (2 * t.leaves - 1) with hk | hk
    · rw [List.getElem?_append_left (by rw [CodeTree.length_slots]; exact hk), ← List.getD_eq_getElem?_getD, ← h1.new,
        h2.old _ (by omega)]
    · rw [List.getElem?_append_right (by rw [CodeTree.length_slots]; exact hk), CodeTree.length_slots, ← List.getD_eq_getElem?_getD,
        ← c1, ← h2.new]
      congr 1; omega
  case root => exact h2.root.trans h1.root
  case unique => exact h2.unique.trans h1.unique
  case heap => exact h2.heap.trans h1.heap
  case size => exact h2.size.trans h1.size
  case cap => exact h2.cap.trans h1.cap

/-- Reading the dumps of trees pushes their nodes; the loop goes on with the bytes that are left of HDR_TREE_SIZE. -/
theorem goesOn_rebuildForest {rest : List Byte} (hq : q.Granting) (hw : r.inp.Wf cfg.block)
    (ha : r.inp.bitPos % 8 = 0) (hu : unreadBytes r.inp q = forestDump cfg ts ++ rest)
    (hc : r.pool.count + forestNodes ts ≤ 511)
    (hs : ∀ i t, ts[i]? = some t → r.pool.stack.length + i + t.depth ≤ 256)
    (hfree : ∀ k, r.pool.count ≤ k → r.pool.node k = Node.free) :
    ∃ i pos p', Taken cfg.block r.inp q i pos (8 * (forestDump cfg ts).length) ∧ RebuiltForest ts r.pool p' ∧
      ∀ rem, GoesOn (rebuildLoop (rem + (forestDump cfg ts).length)) cfg r q (rebuildLoop rem)
        ({ r with pool := p' }.withInput i (pos - q.srcPos)) { q with srcPos := pos } := by
  induction ts generalizing r q with
  | nil =>
    refine ⟨r.inp, q.srcPos, r.pool, Taken.refl hw hq.2.2, rebuiltForest_nil hfree, fun rem => ?_⟩
    rw [Nat.sub_self]
    have e : ({ r with pool := r.pool } : Regs).withInput r.inp 0 = r := Regs.withInput_self
    rw [e]
    exact GoesOn.refl _
  | cons t ts ih =>
    rw [forestDump_cons, List.append_assoc] at hu
    rw [forestNodes_cons] at hc
    obtain ⟨i1, pos1, p1, t1, -, b1, go1⟩ := goesOn_rebuildDump (cfg := cfg) hq hw ha hu (by omega)
      (by have := hs 0 t rfl; omega) hfree
    have ha1 : i1.bitPos % 8 = 0 := by rw [t1.aligned]; omega
    have hb1 := b1.count
    obtain ⟨i2, pos2, p2, t2, b2, go2⟩ := ih (r := { r with pool := p1 }.withInput i1 (pos1 - q.srcPos))
      (q := { q with srcPos := pos1 }) (Ports.granting_at hq t1.bound) t1.wf ha1
      (by change unreadBytes i1 _ = _; rw [t1.unreadBytes ha, hu, List.drop_left]) (by change p1.count + _ ≤ _; omega)
      (fun i u hi => by
        have := hs (i + 1) u hi
        change p1.stack.length + i + u.depth ≤ 256
        rw [b1.stack, List.length_cons]; omega)
      (fun k hk => b1.free k hk)
    have b2 : RebuiltForest ts p1 p2 := b2
    refine ⟨i2, pos2, p2, ?_, rebuiltForest_cons b1 b2, fun rem => ?_⟩
    · have : Taken cfg.block r.inp q i2 pos2 _ := t1.trans t2
      rwa [forestDump_cons, List.length_append, Nat.mul_add]
    · rw [forestDump_cons, List.length_append, Nat.add_comm (t.dump cfg).length, ← Nat.add_assoc]
      have f1 := t1.forward
      have f2 : pos1 ≤ pos2 := t2.forward
      have e : ({ ({ r with pool := p1 } : Regs).withInput i1 (pos1 - q.srcPos) with pool := p2 } : Regs).withInput i2
          (pos2 - ({ q with srcPos := pos1 } : Ports).srcPos) = { r with pool := p2 }.withInput i2 (pos2 - q.srcPos) := by
        have : ({ ({ r with pool := p1 } : Regs).withInput i1 (pos1 - q.srcPos) with pool := p2 } : Regs) =
          ({ r with pool := p2 } : Regs).withInput i1 (pos1 - q.srcPos) := rfl
        rw [this, Regs.withInput_withInput]
        congr 1
        simp only
        omega
      have := (go1 (rem + (forestDump cfg ts).length)).trans (go2 rem)
      rwa [e] at this

/-! ### What goes wrong -/

/-- The procedure raises e with the bytes `rest` unread; the read side and the rebuild stack apart, nothing changes. -/
def Refuses {α : Type} (p : Proc α) (cfg : Config) (r : Regs) (q : Ports) (e : ErrName) (rest : List Byte) : Prop :=
  ∃ i pos stack, Fails p cfg r q e ({ r with pool := { r.pool with stack := stack } }.withInput i (pos - q.srcPos))
    { q with srcPos := pos } ∧ q.srcPos ≤ pos ∧ pos ≤ q.src.length ∧ unreadBytes i { q with srcPos := pos } = rest

/-- The first byte of a pass, whichever it is. -/
theorem refuses_marker {rem : Nat} {m : Byte} {rest : List Byte} {e : ErrName} (hq : q.Granting) (hw : r.inp.Wf cfg.block)
    (ha : r.inp.bitPos % 8 = 0) (hu : unreadBytes r.inp q = m :: rest)
    (hl : m = cfg.leafMarker → e = .treeLeafSplit ∧ rem = 0)
    (hi : m = cfg.internalMarker →
      (e = .treeUnderflow ∧ r.pool.stack.length < 2) ∨ (e = .treeOverflow ∧ 2 ≤ r.pool.stack.length ∧ r.pool.count = 511))
    (hb : m ≠ cfg.leafMarker → m ≠ cfg.internalMarker → e = .treeBadMarker) :
    Refuses (rebuildLoop (rem + 1)) cfg r q e rest := by
  obtain ⟨i, pos, hrun, ht, -, hu1, -, -⟩ := runs_dumpByte (cfg := cfg) hq hw ha hu
  have hint : m = cfg.internalMarker → ∃ stack, Fails rebuildInternal cfg (r.withInput i (pos - q.srcPos)) { q with srcPos := pos } e
      ({ r with pool := { r.pool with stack := stack } }.withInput i (pos - q.srcPos)) { q with srcPos := pos } := by
    intro hm
    unfold rebuildInternal
    simp only [fails_getRegs_bind]
    change ∃ stack, Fails (match r.pool.stack with
      | right :: left :: rest => _
      | _ => _) cfg _ _ e _ _
    rcases hi hm with ⟨rfl, h2⟩ | ⟨rfl, h2, h3⟩
    · refine ⟨r.pool.stack, ?_⟩
      cases hs : r.pool.stack with
      | nil => simp only [fails_raise, true_and, and_true]; rw [← hs]
      | cons a l =>
        cases l with
        | nil => simp only [fails_raise, true_and, and_true]; rw [← hs]
        | cons b l => rw [hs] at h2; simp at h2
    · cases hs : r.pool.stack with
      | nil => rw [hs] at h2; simp at h2
      | cons a l =>
        cases l with
        | nil => rw [hs] at h2; simp at h2
        | cons b l =>
          refine ⟨l, ?_⟩
          simp only [fails_modifyPool_bind]
          refine Fails.bind ?_
          unfold alloc
          simp only [fails_getRegs_bind, fails_require_bind]
          refine .inl ⟨?_, trivial, rfl, trivial⟩
          change (r.pool.count != nodePool) = false
          rw [h3]; rfl
  by_cases hm : m = cfg.leafMarker
  · obtain ⟨rfl, rfl⟩ := hl hm
    refine ⟨i, pos, r.pool.stack, ?_, ht.forward, ht.bound, hu1⟩
    unfold rebuildLoop
    simp only [fails_getConfig_bind]
    refine Runs.bind_fails hrun ?_
    simp only [hm, if_true, fails_raise, and_true]
  · by_cases hm' : m = cfg.internalMarker
    · obtain ⟨stack, hf⟩ := hint hm'
      refine ⟨i, pos, stack, ?_, ht.forward, ht.bound, hu1⟩
      cases rem with
      | zero =>
        unfold rebuildLoop
        simp only [fails_getConfig_bind]
        refine Runs.bind_fails hrun ?_
        rw [if_neg hm, if_pos hm']
        exact hf
      | succ rem =>
        unfold rebuildLoop
        simp only [fails_getConfig_bind]
        refine Runs.bind_fails hrun ?_
        rw [if_neg hm, if_pos hm']
        exact hf.bind
    · obtain rfl := hb hm hm'
      refine ⟨i, pos, r.pool.stack, ?_, ht.forward, ht.bound, hu1⟩
      cases rem <;>
      · unfold rebuildLoop
        simp only [fails_getConfig_bind]
        refine Runs.bind_fails hrun ?_
        rw [if_neg hm, if_neg hm']
        exact fails_raise.2 ⟨rfl, rfl, rfl⟩

theorem refuses_end {rem : Nat} (hq : q.Granting) (hw : r.inp.Wf cfg.block) (ha : r.inp.bitPos % 8 = 0)
    (hu : unreadBytes r.inp q = []) : Refuses (rebuildLoop (rem + 1)) cfg r q .treeTruncated [] := by
  obtain ⟨i, pos, hf, h1, h2, h3⟩ := fails_dumpByte (cfg := cfg) hq hw ha hu
  refine ⟨i, pos, r.pool.stack, ?_, h1, h2, h3⟩
  cases rem <;>
  · unfold rebuildLoop
    simp only [fails_getConfig_bind]
    exact hf.bind

/-- A leaf marker that is not the last byte: its symbol is missing, or it finds no room. -/
theorem refuses_leaf {rem : Nat} {rest : List Byte} {e : ErrName} (hq : q.Granting) (hw : r.inp.Wf cfg.block)
    (ha : r.inp.bitPos % 8 = 0)
    (h : (unreadBytes r.inp q = [cfg.leafMarker] ∧ e = .treeTruncated ∧ rest = []) ∨
      ((∃ s, unreadBytes r.inp q = cfg.leafMarker :: s :: rest) ∧ e = .treeOverflow ∧
        (r.pool.stack.length = 256 ∨ r.pool.count = 511))) :
    Refuses (rebuildLoop (rem + 2)) cfg r q e rest := by
  obtain ⟨u, hu⟩ : ∃ u, unreadBytes r.inp q = cfg.leafMarker :: u := by
    rcases h with ⟨h, -⟩ | ⟨⟨s, h⟩, -⟩ <;> exact ⟨_, h⟩
  obtain ⟨i, pos, hrun, ht, -, hu1, ha1, hq1⟩ := runs_dumpByte (cfg := cfg) hq hw ha hu
  have hgo : ∀ {r' q'}, Fails (dumpByte >>= fun sym => rebuildLeaf sym >>= fun _ => rebuildLoop rem) cfg
      (r.withInput i (pos - q.srcPos)) { q with srcPos := pos } e r' q' → Fails (rebuildLoop (rem + 2)) cfg r q e r' q' := by
    intro r' q' hf
    unfold rebuildLoop
    simp only [fails_getConfig_bind]
    refine Runs.bind_fails hrun ?_
    rw [if_pos rfl]
    exact hf
  have f1 := ht.forward
  rcases h with ⟨h, rfl, rfl⟩ | ⟨⟨s, h⟩, rfl, hfull⟩
  · obtain ⟨j, pos', hf, h1, h2, h3⟩ := fails_dumpByte (cfg := cfg) (r := r.withInput i (pos - q.srcPos)) hq1 ht.wf ha1
      (by change unreadBytes i _ = _; rw [hu1]; rw [hu] at h; exact (List.cons.inj h).2)
    refine ⟨j, pos', r.pool.stack, hgo ?_, f1.trans h1, h2, h3⟩
    rw [Regs.withInput_withInput, show pos - q.srcPos + (pos' - pos) = pos' - q.srcPos by simp only at h1; omega] at hf
    exact hf.bind
  · obtain ⟨j, pos', hrun2, ht2, -, hu2, -, -⟩ := runs_dumpByte (cfg := cfg) (r := r.withInput i (pos - q.srcPos)) hq1 ht.wf ha1
      (by change unreadBytes i _ = _; rw [hu1]; rw [hu] at h; exact (List.cons.inj h).2)
    have f2 := ht2.forward
    refine ⟨j, pos', r.pool.stack, hgo ?_, f1.trans f2, ht2.bound, hu2⟩
    rw [Regs.withInput_withInput, show pos - q.srcPos + (pos' - pos) = pos' - q.srcPos by simp only at f2; omega] at hrun2
    refine Runs.bind_fails hrun2 (Fails.bind ?_)
    unfold rebuildLeaf
    simp only [fails_getRegs_bind, fails_require_bind]
    change (r.pool.stack.length != stackCap) = false ∧ _ ∨ (r.pool.stack.length != stackCap) = true ∧ _
    by_cases hs : r.pool.stack.length = 256
    · exact .inl ⟨by rw [hs]; rfl, trivial, trivial, trivial⟩
    · refine .inr ⟨by simpa [stackCap] using hs, Fails.bind ?_⟩
      unfold alloc
      simp only [fails_getRegs_bind, fails_require_bind]
      refine .inl ⟨?_, trivial, trivial, trivial⟩
      change (r.pool.count != nodePool) = false
      rw [hfull.resolve_left hs]; rfl

/-- The pool that REBUILD_TREE leaves when it fails behind the trees ts (R126, R153). -/
structure RefusedPool (ts : List CodeTree) (cap : Nat) (p : Pool) : Prop where
  nodes : ∀ k, p.node k = (forestSlots 0 ts).getD k Node.free
  count : p.count = forestNodes ts
  root : p.root = NIL
  unique : p.unique = 0
  heap : p.heap = Vector.replicate 256 NIL
  size : p.size = 0
  cap : p.cap = cap

/-- REBUILD_TREE's body on bytes that are no dump (R153). -/
theorem fails_rebuildTree {e : ErrName} {rest : List Byte} (hq : q.Granting) (hw : r.inp.Wf cfg.block)
    (ha : r.inp.bitPos % 8 = 0) (hf : ForestFits ts)
    (he : DumpError cfg r.hdr.treeSize.toNat (unreadBytes r.inp q) ts e rest) :
    ∃ i pos p, Fails rebuildTree cfg r q e ({ r with pool := p }.withInput i (pos - q.srcPos)) { q with srcPos := pos } ∧
      q.srcPos ≤ pos ∧ pos ≤ q.src.length ∧ unreadBytes i { q with srcPos := pos } = rest ∧ RefusedPool ts r.pool.cap p := by
  obtain ⟨u, hu⟩ : ∃ u, unreadBytes r.inp q = forestDump cfg ts ++ u := by
    cases he with
    | truncated _ h => exact ⟨[], by rw [h, List.append_nil]⟩
    | badMarker _ _ _ h => exact ⟨_, h⟩
    | leafSplit _ _ h => exact ⟨_, h⟩
    | truncatedLeaf _ h => exact ⟨_, h⟩
    | leafOverflow _ _ _ h => exact ⟨_, h⟩
    | underflow _ _ h => exact ⟨_, h⟩
    | internalOverflow _ _ h => exact ⟨_, h⟩
    | depth _ _ h => exact ⟨_, h⟩
    | degenerate _ _ _ _ h => exact ⟨_, h⟩
  obtain ⟨i, pos, p, ht, hb, hgo⟩ := goesOn_rebuildForest (cfg := cfg) (q := q)
    (r := { r with pool := { r.pool.cleared with stack := [] } }) hq hw ha hu
    (by change 0 + _ ≤ 511; rw [Nat.zero_add]; exact hf.1) (fun k t hk => by
      change 0 + k + _ ≤ 256; rw [Nat.zero_add]; exact hf.2 k t hk) (fun k _ => r.pool.node_cleared k)
  have hcount : p.count = forestNodes ts := hb.count.trans (Nat.zero_add _)
  obtain ⟨l, hl1, hl2, hl3⟩ := hb.stack
  replace hl1 : p.stack = l := hl1.trans (List.append_nil _)
  have hq1 : ({ q with srcPos := pos } : Ports).Granting := Ports.granting_at hq ht.bound
  have ha1 : i.bitPos % 8 = 0 := by rw [ht.aligned]; change (r.inp.bitPos + _) % 8 = 0; omega
  have hu1 : unreadBytes i { q with srcPos := pos } = u := by
    rw [ht.unreadBytes ha, hu, List.drop_left]
  have hpool : ∀ stack, RefusedPool ts r.pool.cap { p with stack := stack } := fun stack => by
    refine ⟨fun k => ?_, hcount, hb.root, hb.unique, hb.heap, hb.size, hb.cap⟩
    have := hb.new k
    rw [show ({ r.pool.cleared with stack := [] } : Pool).count = 0 from rfl, Nat.zero_add] at this
    exact this
  -- from the loop behind the trees to the whole body
  have key : ∀ rem, r.hdr.treeSize.toNat = rem + (forestDump cfg ts).length →
      Refuses (rebuildLoop rem >>= fun _ => rebuiltRoot) cfg ({ r with pool := p }.withInput i (pos - q.srcPos))
        { q with srcPos := pos } e rest →
      ∃ i pos p, Fails rebuildTree cfg r q e ({ r with pool := p }.withInput i (pos - q.srcPos)) { q with srcPos := pos } ∧
        q.srcPos ≤ pos ∧ pos ≤ q.src.length ∧ unreadBytes i { q with srcPos := pos } = rest ∧ RefusedPool ts r.pool.cap p := by
    intro rem hrem ⟨j, pos', stack, hfail, h1, h2, h3⟩
    refine ⟨j, pos', { p with stack := stack }, ?_, ht.forward.trans h1, h2, h3, hpool stack⟩
    unfold rebuildTree requireInAligned
    simp only [bind_assoc, fails_getRegs_bind, fails_require_bind, fails_modifyPool_bind]
    refine .inr ⟨by simp [ha], ?_⟩
    rw [hrem]
    have f1 := ht.forward
    have e : ({ ({ r with pool := p } : Regs).withInput i (pos - q.srcPos) with
          pool := { (({ r with pool := p } : Regs).withInput i (pos - q.srcPos)).pool with stack := stack } } : Regs).withInput j
          (pos' - ({ q with srcPos := pos } : Ports).srcPos) =
        { r with pool := { p with stack := stack } }.withInput j (pos' - q.srcPos) := by
      have : ({ ({ r with pool := p } : Regs).withInput i (pos - q.srcPos) with
          pool := { (({ r with pool := p } : Regs).withInput i (pos - q.srcPos)).pool with stack := stack } } : Regs) =
        ({ r with pool := { p with stack := stack } } : Regs).withInput i (pos - q.srcPos) := rfl
      rw [this, Regs.withInput_withInput]
      congr 1
      simp only at h1 ⊢
      omega
    rw [e] at hfail
    exact (hgo rem).bind.fails hfail
  have loop : ∀ rem, r.hdr.treeSize.toNat = rem + (forestDump cfg ts).length →
      Refuses (rebuildLoop rem) cfg ({ r with pool := p }.withInput i (pos - q.srcPos)) { q with srcPos := pos } e rest → _ :=
    fun rem h ⟨j, pos', stack, hfail, h'⟩ => key rem h ⟨j, pos', stack, hfail.bind, h'⟩
  have hstack : ({ r with pool := p }.withInput i (pos - q.srcPos)).pool.stack.length = ts.length := by
    change p.stack.length = _; rw [hl1, hl2]
  have hcount1 : ({ r with pool := p }.withInput i (pos - q.srcPos)).pool.count = forestNodes ts := hcount
  have hrest : ∀ v, unreadBytes r.inp q = forestDump cfg ts ++ v → v = u := fun v hv =>
    List.append_cancel_left (hv.symm.trans hu)
  generalize hr1 : { r with pool := p }.withInput i (pos - q.srcPos) = r1 at *
  have hin : r1.inp = i := by rw [← hr1]; rfl
  have hw1 : r1.inp.Wf cfg.block := by rw [hin]; exact ht.wf
  rw [← hin] at ha1 hu1
  cases he with
  | truncated h1 h2 =>
    obtain rfl := hrest [] (by rw [h2, List.append_nil])
    refine loop (r.hdr.treeSize.toNat - (forestDump cfg ts).length - 1 + 1) (by omega) (refuses_end hq1 hw1 ha1 hu1)
  | badMarker m rest h1 h2 h3 h4 =>
    obtain rfl := hrest _ h2
    exact loop (r.hdr.treeSize.toNat - (forestDump cfg ts).length - 1 + 1) (by omega)
      (refuses_marker hq1 hw1 ha1 hu1 (fun h => absurd h h3) (fun h => absurd h h4) fun _ _ => rfl)
  | leafSplit rest h1 h2 =>
    obtain rfl := hrest _ h2
    exact loop (0 + 1) (by omega) (refuses_marker hq1 hw1 ha1 hu1 (fun _ => ⟨rfl, rfl⟩)
      (fun h => absurd h.symm (internal_ne_leaf cfg)) fun h => absurd rfl h)
  | truncatedLeaf h1 h2 =>
    obtain rfl := hrest _ h2
    exact loop (r.hdr.treeSize.toNat - (forestDump cfg ts).length - 2 + 2) (by omega)
      (refuses_leaf hq1 hw1 ha1 (.inl ⟨hu1, rfl, rfl⟩))
  | leafOverflow s rest h1 h2 h3 =>
    obtain rfl := hrest _ h2
    exact loop (r.hdr.treeSize.toNat - (forestDump cfg ts).length - 2 + 2) (by omega)
      (refuses_leaf hq1 hw1 ha1 (.inr ⟨⟨s, hu1⟩, rfl, by rw [hstack, hcount1]; exact h3⟩))
  | underflow rest h1 h2 h3 =>
    obtain rfl := hrest _ h2
    exact loop (r.hdr.treeSize.toNat - (forestDump cfg ts).length - 1 + 1) (by omega)
      (refuses_marker hq1 hw1 ha1 hu1 (fun h => absurd h (internal_ne_leaf cfg))
        (fun _ => .inl ⟨rfl, by rw [hstack]; exact h3⟩) fun _ h => absurd rfl h)
  | internalOverflow rest h1 h2 h3 h4 =>
    obtain rfl := hrest _ h2
    exact loop (r.hdr.treeSize.toNat - (forestDump cfg ts).length - 1 + 1) (by omega)
      (refuses_marker hq1 hw1 ha1 hu1 (fun h => absurd h (internal_ne_leaf cfg))
        (fun _ => .inr ⟨rfl, by rw [hstack]; exact h3, by rw [hcount1]; exact h4⟩) fun _ h => absurd rfl h)
  | depth rest h1 h2 h3 =>
    obtain rfl := hrest _ h2
    refine key 0 (by omega) ⟨r1.inp, pos, r1.pool.stack, ?_, le_rfl, ht.bound, hu1⟩
    have e : ({ r1 with pool := { r1.pool with stack := r1.pool.stack } } : Regs).withInput r1.inp
        (pos - ({ q with srcPos := pos } : Ports).srcPos) = r1 := by
      rw [Nat.sub_self]; exact Regs.withInput_self
    rw [e]
    refine Runs.bind_fails (a := ()) (r1 := r1) (q1 := { q with srcPos := pos }) (by simp [rebuildLoop]) ?_
    unfold rebuiltRoot
    simp only [fails_getRegs_bind]
    rw [← hstack] at h3
    cases hs : r1.pool.stack with
    | nil => exact fails_raise.2 ⟨rfl, rfl, rfl⟩
    | cons a l =>
      cases l with
      | nil => rw [hs] at h3; exact absurd rfl h3
      | cons b l => exact fails_raise.2 ⟨rfl, rfl, rfl⟩
  | degenerate s rest h0 h1 h2 =>
    obtain rfl := hrest _ h2
    obtain rfl := h0
    have hs : r1.pool.stack = [0] := by
      rw [← hr1]; exact hl1.trans (hl3 _ rfl)
    have hleaf : (r1.pool.node 0).kind = .leaf := by
      have := (hpool []).nodes 0
      rw [← hr1]
      change (p.node 0).kind = _
      rw [show p.node 0 = _ from this]; rfl
    refine key 0 (by simpa [forestDump, CodeTree.dump] using h1) ⟨r1.inp, pos, [], ?_, le_rfl, ht.bound, hu1⟩
    have e : ({ r1 with pool := { r1.pool with stack := [] } } : Regs).withInput r1.inp
        (pos - ({ q with srcPos := pos } : Ports).srcPos) = { r1 with pool := { r1.pool with stack := [] } } := by
      rw [Nat.sub_self]; exact Regs.withInput_self
    rw [e]
    refine Runs.bind_fails (a := ()) (r1 := r1) (q1 := { q with srcPos := pos }) (by simp [rebuildLoop]) ?_
    unfold rebuiltRoot
    simp only [fails_getRegs_bind, hs, fails_modifyPool_bind, fails_require_bind]
    exact .inl ⟨by rw [hleaf]; rfl, trivial, trivial, trivial⟩

/-! ### Nothing is left out -/

theorem ForestFits.snoc {t : CodeTree} (h : ForestFits ts) (hn : forestNodes ts + (2 * t.leaves - 1) ≤ 511)
    (hd : ts.length + t.depth ≤ 256) : ForestFits (ts ++ [t]) := by
  refine ⟨by rw [forestNodes_append]; exact hn, fun i u hi => ?_⟩
  rcases Nat.lt_or_ge i ts.length with hlt | hge
  · rw [List.getElem?_append_left hlt] at hi; exact h.2 i u hi
  · rw [List.getElem?_append_right hge] at hi
    obtain ⟨h1, rfl⟩ := List.getElem?_eq_some_iff.1 hi
    have : i - ts.length = 0 := by simp at h1; omega
    simp only [this, List.getElem_cons_zero]
    omega

/-- The next pass over bytes that begin with the dumps of ts goes wrong, or reads one more leaf or joins two trees. -/
theorem forest_step {c : Config} {size : Nat} {u v : List Byte} (hf : ForestFits ts) (hu : u = forestDump c ts ++ v)
    (hl : (forestDump c ts).length < size) :
    (∃ e rest, DumpError c size u ts e rest) ∨
      ∃ ts' v', ForestFits ts' ∧ u = forestDump c ts' ++ v' ∧ (forestDump c ts).length < (forestDump c ts').length ∧
        (forestDump c ts').length ≤ size := by
  cases v with
  | nil => exact .inl ⟨_, _, .truncated hl (by rw [hu, List.append_nil])⟩
  | cons m v =>
    by_cases hm : m = c.leafMarker
    · subst hm
      by_cases h1 : (forestDump c ts).length + 1 = size
      · exact .inl ⟨_, _, .leafSplit v h1 hu⟩
      cases v with
      | nil => exact .inl ⟨_, _, .truncatedLeaf (by omega) hu⟩
      | cons s v =>
        by_cases h2 : ts.length = 256 ∨ forestNodes ts = 511
        · exact .inl ⟨_, _, .leafOverflow s v (by omega) hu h2⟩
        · have hn := hf.1
          have hlen := hf.length_le
          refine .inr ⟨ts ++ [.leaf s], v, hf.snoc (by simp only [CodeTree.leaves]; omega) (by simp only [CodeTree.depth]; omega), ?_, ?_, ?_⟩
          · rw [hu, forestDump_append]; simp [forestDump, CodeTree.dump]
          · rw [forestDump_append]; simp [forestDump, CodeTree.dump]
          · rw [forestDump_append]; simp [forestDump, CodeTree.dump] at hl h1 ⊢; omega
    · by_cases hm' : m = c.internalMarker
      · subst hm'
        by_cases h2 : ts.length < 2
        · exact .inl ⟨_, _, .underflow v hl hu h2⟩
        by_cases h3 : forestNodes ts = 511
        · exact .inl ⟨_, _, .internalOverflow v hl hu (by omega) h3⟩
        obtain ⟨us, l, r, rfl⟩ : ∃ us l r, ts = us ++ [l, r] := by
          refine ⟨ts.take (ts.length - 2), ts[ts.length - 2], ts[ts.length - 1], ?_⟩
          conv_lhs => rw [← List.take_append_drop (ts.length - 2) ts]
          rw [List.drop_eq_getElem_cons (by omega), List.drop_eq_getElem_cons (by omega), List.drop_of_length_le (by omega)]
          simp only [show ts.length - 2 + 1 = ts.length - 1 by omega]
        have hn := hf.1
        have hl1 := hf.2 us.length l (by simp)
        have hr1 := hf.2 (us.length + 1) r (by rw [List.getElem?_append_right (by omega)]; simp)
        have e1 := l.two_leaves_pos
        have e2 := r.two_leaves_pos
        simp only [forestNodes_append, forestNodes_cons, forestNodes_nil] at hn h3
        refine .inr ⟨us ++ [.node l r], v, ForestFits.snoc ⟨by omega, fun i t hi => hf.2 i t ?_⟩ ?_ ?_, ?_, ?_, ?_⟩
        · rw [List.getElem?_append_left (List.getElem?_eq_some_iff.1 hi).1]; exact hi
        · simp only [CodeTree.leaves]; omega
        · simp only [CodeTree.depth]; omega
        · rw [hu, forestDump_append, forestDump_append]; simp [forestDump, CodeTree.dump]
        · rw [forestDump_append, forestDump_append]; simp [forestDump, CodeTree.dump]
        · rw [forestDump_append] at hl ⊢; simp [forestDump, CodeTree.dump] at hl ⊢; omega
      · exact .inl ⟨_, _, .badMarker m v hl hu hm hm'⟩

/-- At the end of the bytes to read, one tree with an internal root is left, or something goes wrong. -/
theorem forest_end {c : Config} {u v : List Byte} (hf : ForestFits ts) (hu : u = forestDump c ts ++ v) :
    (∃ l r, ts = [.node l r] ∧ (CodeTree.node l r).leaves ≤ 256) ∨
      ∃ e rest, DumpError c (forestDump c ts).length u ts e rest := by
  cases ts with
  | nil => exact .inr ⟨_, _, .depth v rfl hu (by simp)⟩
  | cons t ts =>
    cases ts with
    | cons t' ts => exact .inr ⟨_, _, .depth v rfl hu (by simp)⟩
    | nil =>
      cases t with
      | leaf s => exact .inr ⟨_, _, .degenerate s v rfl rfl hu⟩
      | node l r =>
        have := hf.1
        simp only [forestNodes_cons, forestNodes_nil] at this
        exact .inl ⟨l, r, rfl, by omega⟩

end Sys2Proof.Machine
end

