-- ==== Sys2Proof/Laws/Codes.lean ====
section
/-! SUPPORT. Codes as lists of bits: the code register as a stack (R161 to R163), what Walk records (R163, R164), and what the
codes of a tree are (R165, R167). -/

namespace Sys2Proof.Machine

variable {cfg : Config} {r : Regs} {q : Ports} {p : Pool}

/-! ### The code register -/

/-- The code register that holds these bits, the first pushed first. -/
def Code.of (l : List Bool) : Code := { len := l.length, bits := BitVec.ofNat 256 (ofBits l) }

theorem getLsbD_ofBits (l : List Bool) (k : Nat) :
    (BitVec.ofNat 256 (ofBits l)).getLsbD k = (decide (k < 256) && l.getD k false) := by
  rw [BitVec.getLsbD_ofNat, testBit_ofBits]

theorem getLsbD_setBit (bits : BitVec 256) (k j : Nat) (b : Bool) (hj : j < 256) :
    (setBit bits k b).getLsbD j = if j = k then b else bits.getLsbD j := by
  simp only [setBit, BitVec.getLsbD_or, BitVec.getLsbD_and, BitVec.getLsbD_not, BitVec.getLsbD_shiftLeft, hj,
    decide_true, Bool.true_and, BitVec.getLsbD_ofNat, BitVec.getLsbD_setWidth, BitVec.getLsbD_ofBool]
  by_cases hjk : j = k
  · subst hjk; simp
  · rcases Nat.lt_or_ge j k with h | h
    · simp [h, hjk]
    · have h1 : ¬ j < k := by omega
      have h2 : j - k ≠ 0 := by omega
      have h3 : Nat.testBit 1 (j - k) = false := by
        rw [Nat.testBit_one_eq_true_iff_self_eq_zero.not.2 h2 |> Bool.eq_false_of_not_eq_true]
      simp [h1, h2, h3, hjk]

theorem Code.push_of (l : List Bool) (b : Bool) : (Code.of l).push b = Code.of (l ++ [b]) := by
  simp only [Code.push, Code.of, List.length_append, List.length_singleton]
  congr 1
  refine BitVec.eq_of_getLsbD_eq fun j hj => ?_
  rw [getLsbD_setBit _ _ _ _ hj, getLsbD_ofBits, getLsbD_ofBits]
  simp only [hj, decide_true, Bool.true_and]
  rcases Nat.lt_trichotomy j l.length with h1 | h1 | h1
  · rw [if_neg (by omega), List.getD_append _ _ _ _ h1]
  · rw [if_pos h1, List.getD_append_right _ _ _ _ (by omega)]
    simp [h1]
  · rw [if_neg (by omega), List.getD_eq_default _ _ (by omega), List.getD_eq_default _ _ (by simp; omega)]

theorem Code.pop_of (l : List Bool) (b : Bool) : (Code.of (l ++ [b])).pop = Code.of l := by
  simp only [Code.pop, Code.of, List.length_append, List.length_singleton, Nat.add_sub_cancel]
  congr 1
  refine BitVec.eq_of_getLsbD_eq fun j hj => ?_
  rw [getLsbD_setBit _ _ _ _ hj, getLsbD_ofBits, getLsbD_ofBits]
  simp only [hj, decide_true, Bool.true_and]
  rcases Nat.lt_trichotomy j l.length with h1 | h1 | h1
  · rw [if_neg (by omega), List.getD_append _ _ _ _ h1]
  · rw [if_pos h1, List.getD_eq_default _ _ (by omega)]
  · rw [if_neg (by omega), List.getD_eq_default _ _ (by simp; omega), List.getD_eq_default _ _ (by omega)]

/-- An entry's bits are the code it was made of (R166). -/
theorem codeBits_of (l : List Bool) (h : l.length ≤ 256) :
    codeBits (CodeEntry.of l).len (CodeEntry.of l).bits = l := by
  refine List.ext_getElem (by simp [codeBits, CodeEntry.of]) fun k h1 h2 => ?_
  simp only [codeBits, CodeEntry.of, List.getElem_map, List.getElem_range, getLsbD_ofBits]
  rw [List.getD_eq_getElem _ _ h2, decide_eq_true (by omega), Bool.true_and]

/-! ### The codes of a tree -/

theorem CodeTree.map_fst_codes (t : CodeTree) : t.codes.map (·.1) = t.symbols := by
  induction t with
  | leaf s => rfl
  | node l r ihl ihr => simp [CodeTree.codes, CodeTree.symbols, ← ihl, ← ihr, Function.comp_def]

theorem CodeTree.length_codes (t : CodeTree) : t.codes.length = t.leaves := by
  rw [← List.length_map (f := (·.1)), CodeTree.map_fst_codes, CodeTree.length_symbols]

/-- Every path is shorter than the number of leaves. -/
theorem CodeTree.code_length_lt {t : CodeTree} {e : Byte × List Bool} (h : e ∈ t.codes) : e.2.length < t.leaves := by
  induction t generalizing e with
  | leaf s => rw [CodeTree.codes, List.mem_singleton] at h; subst h; exact Nat.one_pos
  | node l r ihl ihr =>
    have := l.leaves_pos
    have := r.leaves_pos
    rw [CodeTree.codes, List.mem_append, List.mem_map, List.mem_map] at h
    simp only [CodeTree.leaves]
    rcases h with ⟨f, hf, rfl⟩ | ⟨f, hf, rfl⟩
    · have := ihl hf; simp only [List.length_cons]; omega
    · have := ihr hf; simp only [List.length_cons]; omega

/-- No path of a tree is a prefix of another one (R167(c)). -/
theorem CodeTree.codes_prefix {t : CodeTree} {e f : Byte × List Bool} (he : e ∈ t.codes) (hf : f ∈ t.codes)
    (h : e.2 <+: f.2) : e = f := by
  induction t generalizing e f with
  | leaf s =>
    rw [CodeTree.codes, List.mem_singleton] at he hf
    rw [he, hf]
  | node l r ihl ihr =>
    rw [CodeTree.codes, List.mem_append, List.mem_map, List.mem_map] at he hf
    rcases he with ⟨e', he, rfl⟩ | ⟨e', he, rfl⟩ <;> rcases hf with ⟨f', hf, rfl⟩ | ⟨f', hf, rfl⟩
    · rw [ihl he hf (List.cons_prefix_cons.1 h).2]
    · exact absurd (List.cons_prefix_cons.1 h).1 (by decide)
    · exact absurd (List.cons_prefix_cons.1 h).1 (by decide)
    · rw [ihr he hf (List.cons_prefix_cons.1 h).2]

/-- The paths fill the code space exactly (R167(d)). -/
theorem CodeTree.kraft (t : CodeTree) (n : Nat) (h : t.leaves ≤ n + 1) :
    (t.codes.map fun e => 2 ^ (n - e.2.length)).sum = 2 ^ n := by
  induction t generalizing n with
  | leaf s => simp [CodeTree.codes]
  | node l r ihl ihr =>
    have := l.leaves_pos
    have := r.leaves_pos
    simp only [CodeTree.leaves] at h
    obtain ⟨m, rfl⟩ : ∃ m, n = m + 1 := ⟨n - 1, by omega⟩
    simp only [CodeTree.codes, List.map_append, List.map_map, List.sum_append, Function.comp_def, List.length_cons,
      Nat.add_sub_add_right]
    rw [ihl m (by omega), ihr m (by omega)]
    omega

/-- Following a path through the pool leads to its leaf (R167(e)). -/
theorem walk_of_holds {t : CodeTree} {n : Nat} (h : p.Holds t n) {e : Byte × List Bool} (he : e ∈ t.codes) :
    (p.node (e.2.foldl p.child n)).kind = .leaf ∧ (p.node (e.2.foldl p.child n)).sym = e.1 := by
  induction t generalizing n e with
  | leaf s =>
    rw [CodeTree.codes, List.mem_singleton] at he
    subst he
    exact ⟨h.2.1, h.2.2⟩
  | node l r ihl ihr =>
    rw [CodeTree.codes, List.mem_append, List.mem_map, List.mem_map] at he
    rcases he with ⟨f, hf, rfl⟩ | ⟨f, hf, rfl⟩
    · exact ihl h.2.2.2.2.1 hf
    · exact ihr h.2.2.2.2.2 hf

/-! ### How many nodes a tree has (R165) -/

/-- The slots of a tree that the pool holds at n, the root last. -/
def treeNodes (p : Pool) : CodeTree → Nat → List Nat
  | .leaf _, n => [n]
  | .node l r, n => treeNodes p l (p.node n).left ++ treeNodes p r (p.node n).right ++ [n]

theorem length_treeNodes (t : CodeTree) (n : Nat) : (treeNodes p t n).length = 2 * t.leaves - 1 := by
  induction t generalizing n with
  | leaf s => rfl
  | node l r ihl ihr =>
    have := l.leaves_pos
    have := r.leaves_pos
    simp only [treeNodes, CodeTree.leaves, List.length_append, List.length_singleton, ihl, ihr]
    omega

theorem treeNodes_le {t : CodeTree} {n : Nat} (h : p.Holds t n) {k : Nat} (hk : k ∈ treeNodes p t n) : k ≤ n := by
  induction t generalizing n with
  | leaf s => rw [treeNodes, List.mem_singleton] at hk; omega
  | node l r ihl ihr =>
    obtain ⟨-, -, h3, h4, h5, h6⟩ := h
    rw [treeNodes, List.mem_append, List.mem_append, List.mem_singleton] at hk
    rcases hk with (hk | hk) | hk
    · have := ihl h5 hk; omega
    · have := ihr h6 hk; omega
    · omega

/-- Every slot of a tree but its root has its parent in the tree. -/
theorem treeNodes_parent {t : CodeTree} {n : Nat} (h : p.Holds t n) {k : Nat} (hk : k ∈ treeNodes p t n) (hn : k ≠ n) :
    ∃ i ∈ treeNodes p t n, (p.node i).kind = .internal ∧ ((p.node i).left = k ∨ (p.node i).right = k) := by
  induction t generalizing n with
  | leaf s => rw [treeNodes, List.mem_singleton] at hk; contradiction
  | node l r ihl ihr =>
    obtain ⟨-, h2, -, -, h5, h6⟩ := h
    rw [treeNodes, List.mem_append, List.mem_append, List.mem_singleton] at hk
    rcases hk with (hk | hk) | hk
    · by_cases hl : k = (p.node n).left
      · exact ⟨n, by simp [treeNodes], h2, .inl hl.symm⟩
      · obtain ⟨i, hi, h⟩ := ihl h5 hk hl
        exact ⟨i, by simp [treeNodes, hi], h⟩
    · by_cases hl : k = (p.node n).right
      · exact ⟨n, by simp [treeNodes], h2, .inr hl.symm⟩
      · obtain ⟨i, hi, h⟩ := ihr h6 hk hl
        exact ⟨i, by simp [treeNodes, hi], h⟩
    · contradiction

theorem nodup_treeNodes (hw : p.Wf) {t : CodeTree} {n : Nat} (h : p.Holds t n) : (treeNodes p t n).Nodup := by
  induction t generalizing n with
  | leaf s => simp [treeNodes]
  | node l r ihl ihr =>
    obtain ⟨-, h2, h3, h4, h5, h6⟩ := h
    have hd := hw.differ n h2
    have hdisj : ∀ m k, n - k ≤ m → k ∈ treeNodes p l (p.node n).left → k ∉ treeNodes p r (p.node n).right := by
      intro m
      induction m with
      | zero =>
        intro k hk hkl
        have := treeNodes_le h5 hkl
        omega
      | succ m ih =>
        intro k hk hkl hkr
        have hkl' := treeNodes_le h5 hkl
        have hkr' := treeNodes_le h6 hkr
        by_cases hl : k = (p.node n).left
        · obtain ⟨i, hi, hi1, hi2⟩ := treeNodes_parent h6 hkr (by omega)
          have := hw.oneParent i n k hi1 h2 hi2 (.inl hl.symm)
          have := treeNodes_le h6 hi
          omega
        · obtain ⟨i, hi, hi1, hi2⟩ := treeNodes_parent h5 hkl hl
          by_cases hr : k = (p.node n).right
          · have := hw.oneParent i n k hi1 h2 hi2 (.inr hr.symm)
            have := treeNodes_le h5 hi
            omega
          · obtain ⟨j, hj, hj1, hj2⟩ := treeNodes_parent h6 hkr hr
            have hij := hw.oneParent i j k hi1 hj1 hi2 hj2
            subst hij
            have hb := hw.below i hi1
            exact ih i (by rcases hi2 with h | h <;> omega) hi hj
    rw [treeNodes, List.nodup_append, List.nodup_append]
    refine ⟨⟨ihl h5, ihr h6, fun a ha b hb hab => hdisj n a (by omega) ha (hab ▸ hb)⟩, by simp, ?_⟩
    intro a ha b hb hab
    rw [List.mem_singleton] at hb
    rcases List.mem_append.1 ha with ha | ha
    · have := treeNodes_le h5 ha; omega
    · have := treeNodes_le h6 ha; omega

/-- A tree in the pool has at most 256 leaves, and every path at most 255 edges (R10, R165). -/
theorem leaves_le (hw : p.Wf) {t : CodeTree} {n : Nat} (h : p.Holds t n) : t.leaves ≤ 256 := by
  have hsub : treeNodes p t n ⊆ List.range p.count := fun k hk => by
    have := treeNodes_le h hk
    have := h.lt
    exact List.mem_range.2 (by omega)
  have hlen := (List.subperm_of_subset (nodup_treeNodes hw h) hsub).length_le
  rw [length_treeNodes, List.length_range] at hlen
  have := hw.bound
  omega

/-! ### Walk -/

/-- The table after these leaves have been recorded, one after the other. -/
def recordAll (table : Vector CodeEntry 256) (leaves : List (Byte × List Bool)) : Vector CodeEntry 256 :=
  leaves.foldl (fun tb e => tb.setIfInBounds e.1.toNat (CodeEntry.of e.2)) table

theorem recordAll_append (table : Vector CodeEntry 256) (a b : List (Byte × List Bool)) :
    recordAll table (a ++ b) = recordAll (recordAll table a) b := by simp [recordAll]

/-- The leaf recorded last wins (R164). -/
theorem getD_recordAll (table : Vector CodeEntry 256) (leaves : List (Byte × List Bool)) (b : Byte) :
    (recordAll table leaves).getD b.toNat CodeEntry.invalid =
      match (leaves.reverse.find? fun e => e.1 == b).map (·.2) with
      | some code => CodeEntry.of code
      | none => table.getD b.toNat CodeEntry.invalid := by
  have hb := b.isLt
  induction leaves using List.reverseRecOn with
  | nil => simp [recordAll]
  | append_singleton l e ih =>
    rw [recordAll_append, List.reverse_append, List.reverse_singleton, List.singleton_append, List.find?_cons]
    simp only [recordAll, List.foldl_cons, List.foldl_nil, getD_setIfInBounds, byte_toNat_inj, hb, and_true] at ih ⊢
    by_cases he : e.1 = b
    · simp [he]
    · simp only [he, if_false, beq_eq_false_iff_ne.2 he]
      exact ih

/-- `Walk` records every leaf of the subtree with the path to it, left to right, and leaves the code register as it found
it (R163). -/
theorem runs_walkTo {t : CodeTree} {n fuel : Nat} {path : List Bool} (h : r.pool.Holds t n) (hf : n < fuel)
    (hc : r.code = Code.of path) (hl : path.length + t.leaves ≤ 257) :
    Runs (walkTo fuel n) cfg r q ()
      { r with table := recordAll r.table (t.codes.map fun e => (e.1, path ++ e.2)) } q := by
  induction t generalizing n fuel path r with
  | leaf s =>
    obtain ⟨k, rfl⟩ := Nat.exists_eq_succ_of_ne_zero (by omega : fuel ≠ 0)
    obtain ⟨-, h2, h3⟩ := h
    simp [walkTo, h2, h3, CodeTree.codes, recordAll, Regs.record, hc, Code.of, CodeEntry.of]
  | node l rt ihl ihr =>
    obtain ⟨k, rfl⟩ := Nat.exists_eq_succ_of_ne_zero (by omega : fuel ≠ 0)
    obtain ⟨-, h2, h3, h4, h5, h6⟩ := h
    have := l.leaves_pos
    have := rt.leaves_pos
    simp only [CodeTree.leaves] at hl
    have hpush : ∀ b, (Code.of path).push b = Code.of (path ++ [b]) := fun b => Code.push_of path b
    have hlen : ((Code.of path).len != codeCap) = true := by
      simp only [Code.of, bne_iff_ne, codeCap]; omega
    rw [walkTo]
    simp only [runs_getRegs_bind, h2, reduceCtorEq, if_false]
    simp only [walkPush, bind_assoc, runs_getRegs_bind, runs_require_bind, runs_modifyRegs_bind, hc, hpush, hlen, true_and]
    refine Runs.bind (ihl (path := path ++ [false]) h5 (by omega) rfl (by simp; omega)) ?_
    simp only [walkPop, runs_modifyRegs_bind, Code.pop_of, runs_getRegs_bind, runs_require_bind, hlen, true_and, hpush]
    refine Runs.bind (ihr (path := path ++ [true]) h6 (by omega) rfl (by simp; omega)) ?_
    simp only [runs_modifyRegs, Code.pop_of, and_true, ← recordAll_append]
    rw [CodeTree.codes, List.map_append, List.map_map, List.map_map]
    simp only [Function.comp_def, List.append_assoc, List.singleton_append]

/-! ### The table of a tree -/

theorem codeOf_eq_some {t : CodeTree} {b : Byte} {code : List Bool} (h : t.codeOf b = some code) : (b, code) ∈ t.codes := by
  rw [CodeTree.codeOf, Option.map_eq_some_iff] at h
  obtain ⟨e, he, rfl⟩ := h
  have h1 := List.find?_some he
  have h2 := List.mem_of_find?_eq_some he
  rw [List.mem_reverse] at h2
  have : e.1 = b := by simpa using h1
  rwa [← this]

theorem codeOf_eq_none {t : CodeTree} {b : Byte} : t.codeOf b = none ↔ b ∉ t.symbols := by
  rw [CodeTree.codeOf, Option.map_eq_none_iff, List.find?_eq_none, ← CodeTree.map_fst_codes, List.mem_map]
  constructor
  · rintro h ⟨e, he, rfl⟩
    exact h e (List.mem_reverse.2 he) (by simp)
  · intro h e he hb
    exact h ⟨e, List.mem_reverse.1 he, by simpa using hb⟩

/-- Without duplicate symbols, every leaf's path is its symbol's code. -/
theorem codeOf_of_mem {t : CodeTree} (hn : t.symbols.Nodup) {e : Byte × List Bool} (h : e ∈ t.codes) :
    t.codeOf e.1 = some e.2 := by
  cases hc : t.codeOf e.1 with
  | none =>
    have := codeOf_eq_none.1 hc
    rw [← CodeTree.map_fst_codes] at this
    exact absurd (List.mem_map_of_mem h) this
  | some code =>
    have h' := codeOf_eq_some hc
    rw [← CodeTree.map_fst_codes] at hn
    have := List.inj_on_of_nodup_map hn h' h rfl
    rw [← this]

/-- BUILD_CODES' body on a tree with an inner root (R164). -/
theorem runs_buildCodes {l t : CodeTree} (hroot : r.pool.root ≠ NIL) (hw : r.pool.Wf)
    (h : r.pool.Holds (.node l t) r.pool.root) :
    Runs buildCodes cfg r q ()
      { r with
        code := Code.empty
        table := recordAll (Vector.replicate 256 CodeEntry.invalid) (CodeTree.node l t).codes } q := by
  unfold buildCodes rootOperand
  have h1 := leaves_le hw h
  simp only [bind_assoc, runs_getRegs_bind, runs_require_bind, pure_bind, runs_modifyRegs_bind, h.2.1]
  refine ⟨by simpa using hroot, by decide, ?_⟩
  have := runs_walkTo (cfg := cfg) (q := q) (r := r.clearCodes) (path := []) (fuel := r.pool.root + 1) h (by omega) rfl
    (by simp; omega)
  simpa [Regs.clearCodes] using this

/-- An entry of the table that BUILD_CODES leaves (R164). -/
theorem entry_recordAll {t : CodeTree} (b : Byte)
    (h : r.table = recordAll (Vector.replicate 256 CodeEntry.invalid) t.codes) :
    r.entry b = match t.codeOf b with
      | some code => CodeEntry.of code
      | none => CodeEntry.invalid := by
  have hb := b.isLt
  rw [Regs.entry, h, getD_recordAll, CodeTree.codeOf]
  split <;> simp [*]

end Sys2Proof.Machine
end

