-- ==== Sys2Proof/Laws/Header.lean ====
section
/-! SUPPORT. The 14 header bytes (R170): what they are, byte by byte, that the fields come back from them, and how they are
put out (R171) and read (R173). -/

namespace Sys2Proof.Machine

variable {cfg : Config} {r : Regs} {q : Ports}

@[simp] theorem length_littleEndian (n v : Nat) : (littleEndian n v).length = n := by
  induction n generalizing v with
  | zero => rfl
  | succ n ih => simp [littleEndian, ih]

theorem ofLittleEndian_littleEndian (n v : Nat) : ofLittleEndian (littleEndian n v) = v % 256 ^ n := by
  induction n generalizing v with
  | zero => simp [littleEndian, ofLittleEndian, Nat.mod_one]
  | succ n ih =>
    rw [littleEndian, ofLittleEndian, ih, BitVec.toNat_ofNat, Nat.pow_succ _ n, Nat.mul_comm _ 256, Nat.mod_mul]

/-- The wire order of a field (R67): byte k holds bits 8k+7 to 8k. -/
theorem littleEndian_eq_map {w : Nat} (n : Nat) (v : BitVec w) :
    littleEndian n v.toNat = (List.range n).map fun k => v.extractLsb' (8 * k) 8 := by
  have gen : ∀ (n j : Nat), littleEndian n (v.toNat / 256 ^ j) =
      (List.range n).map fun k => v.extractLsb' (8 * (j + k)) 8 := by
    intro n
    induction n with
    | zero => intro j; rfl
    | succ n ih =>
      intro j
      rw [littleEndian, List.range_succ_eq_map, List.map_cons, List.map_map, Nat.div_div_eq_div_mul, ← Nat.pow_succ, ih]
      congr 1
      · apply BitVec.eq_of_toNat_eq
        rw [BitVec.toNat_ofNat, BitVec.extractLsb'_toNat, Nat.shiftRight_eq_div_pow, Nat.pow_mul]
        rfl
      · refine List.map_congr_left fun k _ => ?_
        simp only [Function.comp_apply]
        congr 2; omega
  simpa using gen n 0

@[simp] theorem length_headerBytes (m p t : BitVec 16) (f : Word) : (headerBytes m p t f).length = 14 := by
  simp [headerBytes]

/-- The 14 bytes, one by one (R170). -/
theorem headerBytes_eq (m p t : BitVec 16) (f : Word) : headerBytes m p t f =
    [m.extractLsb' 0 8, m.extractLsb' 8 8, p.extractLsb' 0 8, p.extractLsb' 8 8, t.extractLsb' 0 8,
      t.extractLsb' 8 8] ++ (List.range 8).map fun k => f.extractLsb' (8 * k) 8 := by
  simp [headerBytes, littleEndian_eq_map, List.range_succ_eq_map]

/-- The fields come back from the bytes. -/
theorem headerOf_headerBytes (m p t : BitVec 16) (f : Word) :
    headerOf (headerBytes m p t f) = { magic := m, perm := p, treeSize := t, fileSize := f } := by
  have hm := m.isLt
  have hp := p.isLt
  have ht := t.isLt
  have hf := f.isLt
  simp only [headerOf, headerBytes, List.append_assoc]
  have e1 : (littleEndian 2 m.toNat ++ (littleEndian 2 p.toNat ++ (littleEndian 2 t.toNat ++ littleEndian 8 f.toNat))).take 2 =
      littleEndian 2 m.toNat := List.take_left' (by simp)
  have e2 : (littleEndian 2 m.toNat ++ (littleEndian 2 p.toNat ++ (littleEndian 2 t.toNat ++ littleEndian 8 f.toNat))).drop 2 =
      littleEndian 2 p.toNat ++ (littleEndian 2 t.toNat ++ littleEndian 8 f.toNat) := List.drop_left' (by simp)
  have e4 : (littleEndian 2 m.toNat ++ (littleEndian 2 p.toNat ++ (littleEndian 2 t.toNat ++ littleEndian 8 f.toNat))).drop 4 =
      littleEndian 2 t.toNat ++ littleEndian 8 f.toNat := by
    rw [show 4 = 2 + 2 from rfl, ← List.drop_drop, e2]; exact List.drop_left' (by simp)
  have e6 : (littleEndian 2 m.toNat ++ (littleEndian 2 p.toNat ++ (littleEndian 2 t.toNat ++ littleEndian 8 f.toNat))).drop 6 =
      littleEndian 8 f.toNat := by
    rw [show 6 = 4 + 2 from rfl, ← List.drop_drop, e4]; exact List.drop_left' (by simp)
  rw [e1, e2, e4, e6, List.take_left' (by simp), List.take_left' (by simp), List.take_of_length_le (by simp)]
  simp only [ofLittleEndian_littleEndian]
  congr 1 <;> apply BitVec.eq_of_toNat_eq <;> simp <;> omega

/-- HDR_WRITE's body (R171). -/
theorem runs_hdrWrite {l : List Bool} (hq : q.Granting) (hr : r.out = OutSide.of l) (hl : l.length < 8 * cfg.block)
    (h8 : l.length % 8 = 0) :
    Runs hdrWrite cfg r q ()
      ({ r with hdr := { r.hdr with magic := cfg.magic } }.emitted cfg.block
        (l ++ bitsOf (headerBytes cfg.magic r.hdr.perm r.hdr.treeSize r.hdr.fileSize)))
      (q.emitted cfg.block (l ++ bitsOf (headerBytes cfg.magic r.hdr.perm r.hdr.treeSize r.hdr.fileSize))) := by
  unfold hdrWrite requireOutAligned
  simp only [bind_assoc, runs_getRegs_bind, runs_require_bind, runs_getConfig_bind, runs_modifyRegs_bind, hr,
    OutSide.of_bitPos, h8, beq_self_eq_true, true_and, Regs.header]
  have := runs_outBytes (cfg := cfg) (r := { r with hdr := { r.hdr with magic := cfg.magic } })
    (headerBytes cfg.magic r.hdr.perm r.hdr.treeSize r.hdr.fileSize) hq hr hl h8
  rwa [hr] at this

/-- HDR_READ's loop takes the next bytes. -/
theorem runs_headerRead {n : Nat} {bytes rest : List Byte} (hq : q.Granting) (hw : r.inp.Wf cfg.block)
    (ha : r.inp.bitPos % 8 = 0) (hn : bytes.length = n) (hu : unreadBytes r.inp q = bytes ++ rest) :
    ∃ i pos, Runs (headerRead n) cfg r q bytes (r.withInput i (pos - q.srcPos)) { q with srcPos := pos } ∧
      Taken cfg.block r.inp q i pos (8 * n) ∧
      ∀ c, ReadTo cfg.block r.inp q c → ReadTo cfg.block i { q with srcPos := pos } (c + 8 * n) := by
  induction n generalizing r q bytes with
  | zero =>
    rw [List.length_eq_zero_iff] at hn
    subst hn
    refine ⟨r.inp, q.srcPos, ?_, Taken.refl hw hq.2.2, fun c hc => hc⟩
    simp [headerRead, Regs.withInput]
  | succ n ih =>
    obtain ⟨b, bytes, rfl⟩ := List.exists_cons_of_length_eq_add_one hn
    obtain ⟨i, pos, hr, ht, hc⟩ := runs_inByte (cfg := cfg) hq hw ha hu
    have hrest : unreadBytes i { q with srcPos := pos } = bytes ++ rest := by
      have := Taken.unreadBytes (n := 1) ht ha
      simpa [hu] using this
    obtain ⟨j, pos', hr2, ht2, hc2⟩ := ih (r := r.withInput i (pos - q.srcPos)) (q := { q with srcPos := pos })
      (Ports.granting_at hq ht.bound) ht.wf (by rw [Regs.withInput_inp, ht.aligned]; omega) (by simpa using hn) hrest
    have h1 := ht.forward
    have h2 := ht2.forward
    refine ⟨j, pos', ?_, ?_, fun c h => ?_⟩
    · unfold headerRead
      refine Runs.bind hr (Runs.bind hr2 ?_)
      simp only [runs_pure, Regs.withInput_withInput, and_true, true_and]
      congr 1
      simp only at h2 ⊢
      omega
    · have := ht.trans ht2
      rwa [show 8 + 8 * n = 8 * (n + 1) by omega] at this
    · have := hc2 _ (hc c h)
      rwa [show c + 8 + 8 * n = c + 8 * (n + 1) by omega] at this

/-- HDR_READ's loop at the end of the input (R173). -/
theorem fails_headerRead {n : Nat} (hq : q.Granting) (hw : r.inp.Wf cfg.block)
    (ha : r.inp.bitPos % 8 = 0) (hn : (unreadBytes r.inp q).length < n) :
    ∃ i pos, Fails (headerRead n) cfg r q .headerTruncated (r.withInput i (pos - q.srcPos)) { q with srcPos := pos } ∧
      q.srcPos ≤ pos ∧ unreadBytes i { q with srcPos := pos } = [] := by
  induction n generalizing r q with
  | zero => omega
  | succ n ih =>
    unfold headerRead
    rcases hu : unreadBytes r.inp q with _ | ⟨b, rest⟩
    · obtain ⟨i, hr, ht, -⟩ := runs_inByte_end (cfg := cfg) hq hw ha hu
      refine ⟨i, q.srcPos + (undelivered r.inp q).length, ?_, Nat.le_add_right _ _, ?_⟩
      · refine Runs.bind_fails hr ?_
        simp
      · have := Taken.unreadBytes (n := 0) ht ha
        simpa [hu] using this
    · obtain ⟨i, pos, hr, ht, hc⟩ := runs_inByte (cfg := cfg) hq hw ha hu
      have hrest : unreadBytes i { q with srcPos := pos } = rest := by
        have := Taken.unreadBytes (n := 1) ht ha
        simpa [hu] using this
      rw [hu, List.length_cons] at hn
      obtain ⟨j, pos', hf, h2, h3⟩ := ih (r := r.withInput i (pos - q.srcPos)) (q := { q with srcPos := pos })
        (Ports.granting_at hq ht.bound) ht.wf (by rw [Regs.withInput_inp, ht.aligned]; omega)
        (by rw [Regs.withInput_inp, hrest]; omega)
      have h1 := ht.forward
      simp only at h2
      refine ⟨j, pos', Runs.bind_fails hr (Fails.bind ?_), by omega, h3⟩
      rw [Regs.withInput_withInput] at hf
      rwa [show pos - q.srcPos + (pos' - pos) = pos' - q.srcPos by omega] at hf

end Sys2Proof.Machine
end

