-- ==== Sys2Proof/Laws/Payload.lean ====
section
/-! SUPPORT. The payload loops: encoding puts out the codes of the bytes that are left (R200), and decoding takes the paths
of leaves and puts out their symbols (R201). -/

namespace Sys2Proof.Machine

variable {cfg : Config} {r : Regs} {q : Ports}

/-- The bits of a symbol's entry (R184). -/
def Regs.codeOf (r : Regs) (b : Byte) : List Bool := codeBits (r.entry b).len (r.entry b).bits

theorem runs_outCode {l : List Bool} (b : Byte) (hq : q.Granting) (hr : r.out = OutSide.of l)
    (hl : l.length < 8 * cfg.block) :
    Runs (outCode b) cfg r q () (r.emitted cfg.block (l ++ r.codeOf b)) (q.emitted cfg.block (l ++ r.codeOf b)) := by
  unfold outCode
  simp only [runs_getRegs_bind]
  exact runs_outBits _ hq hr hl

/-! ### Encoding -/

/-- Every byte of a list passes a test, or there is a first one that does not. -/
theorem split_first (p : Byte → Bool) (l : List Byte) :
    (∀ b ∈ l.takeWhile p, p b = true) ∧
      (l.takeWhile p = l ∨ ∃ b rest, l = l.takeWhile p ++ b :: rest ∧ p b = false) := by
  refine ⟨fun b hb => List.mem_takeWhile_imp hb, ?_⟩
  have h := List.takeWhile_append_dropWhile (p := p) (l := l)
  cases hd : l.dropWhile p with
  | nil => rw [hd, List.append_nil] at h; exact .inl h
  | cons b rest =>
    have hb := List.head?_dropWhile_not p l
    rw [hd] at h hb
    exact .inr ⟨b, rest, h.symm, by simpa using hb⟩

/-- Taking bits does not look at the sink. -/
theorem Taken.of_emitted {i i' : InSide} {pos n b : Nat} {bits : List Bool}
    (h : Taken cfg.block i (q.emitted b bits) i' pos n) : Taken cfg.block i q i' pos n :=
  ⟨h.wf, h.forward, h.bound, h.unread, h.aligned, h.total⟩

/-- The loop encodes the bytes pre, each of which has a code (R200). -/
theorem goesOn_encodeBytes {pre rest : List Byte} {l : List Bool} (hq : q.Granting) (hw : r.inp.Wf cfg.block)
    (ha : r.inp.bitPos % 8 = 0) (hr : r.out = OutSide.of l) (hl : l.length < 8 * cfg.block)
    (hu : unreadBytes r.inp q = pre ++ rest) (hv : ∀ b ∈ pre, (r.entry b).valid = true) :
    ∃ i pos, Taken cfg.block r.inp q i pos (8 * pre.length) ∧
      ∀ e fuel n, GoesOn (encodeLoop e (fuel + pre.length) n) cfg r q (encodeLoop e fuel (n + pre.length))
        ((r.withInput i (pos - q.srcPos)).emitted cfg.block (l ++ pre.flatMap r.codeOf))
        (({ q with srcPos := pos } : Ports).emitted cfg.block (l ++ pre.flatMap r.codeOf)) := by
  induction pre generalizing r q l with
  | nil =>
    refine ⟨r.inp, q.srcPos, Taken.refl hw hq.2.2, fun e fuel n => ?_⟩
    have e1 : (r.withInput r.inp (q.srcPos - q.srcPos)).emitted cfg.block (l ++ [].flatMap r.codeOf) = r := by
      rw [Nat.sub_self, Regs.withInput_self, List.flatMap_nil, List.append_nil, Regs.emitted_pending hr hl]
    have e2 : ({ q with srcPos := q.srcPos } : Ports).emitted cfg.block (l ++ [].flatMap r.codeOf) = q := by
      rw [List.flatMap_nil, List.append_nil]; exact Ports.emitted_pending hl
    rw [e1, e2]
    exact GoesOn.refl _
  | cons b pre ih =>
    rw [List.cons_append] at hu
    obtain ⟨i, pos, hrun, ht, -⟩ := runs_inByte (cfg := cfg) hq hw ha hu
    have hrest : unreadBytes i { q with srcPos := pos } = pre ++ rest := by
      have := Taken.unreadBytes (n := 1) ht ha
      simpa [hu] using this
    have hq1 : ({ q with srcPos := pos } : Ports).Granting := Ports.granting_at hq ht.bound
    have hcode : Runs (outCode b) cfg (r.withInput i (pos - q.srcPos)) { q with srcPos := pos } ()
        ((r.withInput i (pos - q.srcPos)).emitted cfg.block (l ++ r.codeOf b))
        (({ q with srcPos := pos } : Ports).emitted cfg.block (l ++ r.codeOf b)) := runs_outCode b hq1 hr hl
    obtain ⟨j, pos2, t2, hgo⟩ := ih (r := (r.withInput i (pos - q.srcPos)).emitted cfg.block (l ++ r.codeOf b))
      (q := ({ q with srcPos := pos } : Ports).emitted cfg.block (l ++ r.codeOf b))
      (l := leftOver cfg.block (l ++ r.codeOf b)) hq1 ht.wf (by change i.bitPos % 8 = 0; rw [ht.aligned]; omega) rfl
      (length_leftOver_lt cfg.block_pos _) hrest fun x hx => hv x (List.mem_cons_of_mem _ hx)
    have f1 := ht.forward
    have f2 : pos ≤ pos2 := t2.forward
    have t12 : Taken cfg.block r.inp q j pos2 _ := ht.trans (Taken.of_emitted t2)
    refine ⟨j, pos2, by rwa [List.length_cons, show 8 * (pre.length + 1) = 8 + 8 * pre.length by omega], fun e fuel n => ?_⟩
    have e1 : (((r.withInput i (pos - q.srcPos)).emitted cfg.block (l ++ r.codeOf b)).withInput j (pos2 - pos)).emitted cfg.block
        (leftOver cfg.block (l ++ r.codeOf b) ++ pre.flatMap r.codeOf) =
        (r.withInput j (pos2 - q.srcPos)).emitted cfg.block (l ++ (b :: pre).flatMap r.codeOf) := by
      have : ((r.withInput i (pos - q.srcPos)).emitted cfg.block (l ++ r.codeOf b)).withInput j (pos2 - pos) =
          ((r.withInput i (pos - q.srcPos)).withInput j (pos2 - pos)).emitted cfg.block (l ++ r.codeOf b) := rfl
      rw [this, Regs.withInput_withInput, Regs.emitted_emitted, List.flatMap_cons, List.append_assoc]
      congr 2; omega
    have e2 : ({ ({ q with srcPos := pos } : Ports).emitted cfg.block (l ++ r.codeOf b) with srcPos := pos2 } : Ports).emitted
        cfg.block (leftOver cfg.block (l ++ r.codeOf b) ++ pre.flatMap r.codeOf) =
        ({ q with srcPos := pos2 } : Ports).emitted cfg.block (l ++ (b :: pre).flatMap r.codeOf) := by
      have : ({ ({ q with srcPos := pos } : Ports).emitted cfg.block (l ++ r.codeOf b) with srcPos := pos2 } : Ports) =
          ({ q with srcPos := pos2 } : Ports).emitted cfg.block (l ++ r.codeOf b) := rfl
      rw [this, Ports.emitted_emitted, List.flatMap_cons, List.append_assoc]
    rw [← e1, ← e2, List.length_cons, show n + (pre.length + 1) = n + 1 + pre.length by omega]
    refine GoesOn.trans ?_ (hgo e fuel (n + 1))
    change GoesOn (encodeLoop e (fuel + pre.length + 1) n) cfg r q _ _ _
    rw [encodeLoop]
    refine hrun.goesOn.trans ?_
    refine (Runs.goesOn (p := getRegs) (runs_getRegs.2 ⟨rfl, rfl, rfl⟩)).trans ?_
    refine (Runs.goesOn (a := ()) (runs_require.2 ⟨hv b List.mem_cons_self, rfl, rfl⟩)).trans ?_
    exact hcode.goesOn

theorem runs_encodeLoop {e : ErrName} {fuel n : Nat} {l : List Bool} (hq : q.Granting) (hw : r.inp.Wf cfg.block)
    (ha : r.inp.bitPos % 8 = 0) (hr : r.out = OutSide.of l) (hl : l.length < 8 * cfg.block)
    (hf : (unreadBytes r.inp q).length < fuel) (hv : ∀ b ∈ unreadBytes r.inp q, (r.entry b).valid = true) :
    ∃ i, Runs (encodeLoop e fuel n) cfg r q (n + (unreadBytes r.inp q).length)
        ((r.withInput i (undelivered r.inp q).length).emitted cfg.block
          (l ++ (unreadBytes r.inp q).flatMap r.codeOf))
        ({ q with srcPos := q.srcPos + (undelivered r.inp q).length }.emitted cfg.block
          (l ++ (unreadBytes r.inp q).flatMap r.codeOf)) ∧
      i.eof = true ∧ i.bitPos = 8 * i.buf.length ∧ i.Wf cfg.block := by
  obtain ⟨i, pos, ht, hgo⟩ := goesOn_encodeBytes (cfg := cfg) (rest := []) hq hw ha hr hl (List.append_nil _).symm hv
  have ha1 : i.bitPos % 8 = 0 := by rw [ht.aligned]; omega
  have htot := ht.total
  have hfw := ht.forward
  have hq1 : ({ q with srcPos := pos } : Ports).Granting := Ports.granting_at hq ht.bound
  generalize hW : l ++ (unreadBytes r.inp q).flatMap r.codeOf = W at *
  obtain ⟨j, hend, t2, he, hb⟩ := runs_inByte_end (cfg := cfg) (r := (r.withInput i (pos - q.srcPos)).emitted cfg.block W)
    (q := ({ q with srcPos := pos } : Ports).emitted cfg.block W) hq1 ht.wf ha1
    (by change unreadBytes i { q with srcPos := pos } = []; rw [ht.unreadBytes ha, List.drop_length])
  refine ⟨j, ?_, he, hb, t2.wf⟩
  obtain ⟨k, rfl⟩ : ∃ k, fuel = k + 1 + (unreadBytes r.inp q).length := ⟨fuel - 1 - (unreadBytes r.inp q).length, by omega⟩
  refine (hgo e (k + 1) n).runs ?_
  rw [encodeLoop]
  have e1 : (undelivered ((r.withInput i (pos - q.srcPos)).emitted cfg.block W).inp
      (({ q with srcPos := pos } : Ports).emitted cfg.block W)).length = (undelivered i { q with srcPos := pos }).length := rfl
  refine Runs.bind hend (runs_pure.2 ⟨rfl, ?_, ?_⟩)
  · rw [e1]
    change ((r.withInput i (pos - q.srcPos)).withInput j _).emitted cfg.block W = _
    rw [Regs.withInput_withInput]; congr 2; omega
  · rw [e1]
    change ({ q with srcPos := pos + _ } : Ports).emitted cfg.block W = _
    congr 2

/-- A byte without a code ends the loop with its error, the codes of the bytes before it put out (R200, R220(b)). -/
theorem fails_encodeLoop {e : ErrName} {fuel n : Nat} {l : List Bool} {pre rest : List Byte} {b : Byte} (hq : q.Granting)
    (hw : r.inp.Wf cfg.block) (ha : r.inp.bitPos % 8 = 0) (hr : r.out = OutSide.of l) (hl : l.length < 8 * cfg.block)
    (hf : pre.length < fuel) (hu : unreadBytes r.inp q = pre ++ b :: rest) (hv : ∀ x ∈ pre, (r.entry x).valid = true)
    (hb : (r.entry b).valid = false) :
    ∃ i pos, Fails (encodeLoop e fuel n) cfg r q e
        ((r.withInput i (pos - q.srcPos)).emitted cfg.block (l ++ pre.flatMap r.codeOf))
        (({ q with srcPos := pos } : Ports).emitted cfg.block (l ++ pre.flatMap r.codeOf)) ∧
      q.srcPos ≤ pos ∧ unreadBytes i { q with srcPos := pos } = rest := by
  obtain ⟨i, pos, ht, hgo⟩ := goesOn_encodeBytes (cfg := cfg) hq hw ha hr hl hu hv
  have ha1 : i.bitPos % 8 = 0 := by rw [ht.aligned]; omega
  have hu1 : unreadBytes i { q with srcPos := pos } = b :: rest := by rw [ht.unreadBytes ha, hu, List.drop_left]
  have hq1 : ({ q with srcPos := pos } : Ports).Granting := Ports.granting_at hq ht.bound
  generalize hW : l ++ pre.flatMap r.codeOf = W at *
  obtain ⟨j, pos2, hrun, t2, -⟩ := runs_inByte (cfg := cfg) (r := (r.withInput i (pos - q.srcPos)).emitted cfg.block W)
    (q := ({ q with srcPos := pos } : Ports).emitted cfg.block W) hq1 ht.wf ha1 hu1
  have f1 := ht.forward
  have f2 : pos ≤ pos2 := t2.forward
  refine ⟨j, pos2, ?_, f1.trans f2, ?_⟩
  · obtain ⟨k, rfl⟩ : ∃ k, fuel = k + 1 + pre.length := ⟨fuel - 1 - pre.length, by omega⟩
    refine (hgo e (k + 1) n).fails ?_
    rw [encodeLoop]
    have e1 : ((r.withInput i (pos - q.srcPos)).emitted cfg.block W).withInput j (pos2 - pos) =
        (r.withInput j (pos2 - q.srcPos)).emitted cfg.block W := by
      change ((r.withInput i (pos - q.srcPos)).withInput j (pos2 - pos)).emitted cfg.block W = _
      rw [Regs.withInput_withInput]; congr 2; omega
    refine Runs.bind_fails hrun ?_
    change Fails _ cfg (((r.withInput i (pos - q.srcPos)).emitted cfg.block W).withInput j (pos2 - pos)) _ _ _ _
    rw [e1]
    simp only [fails_getRegs_bind, fails_require_bind]
    exact .inl ⟨hb, trivial, trivial, rfl⟩
  · have := Taken.unreadBytes (n := 1) t2 ha1
    change unreadBytes j { q with srcPos := pos2 } = (unreadBytes i { q with srcPos := pos }).drop 1 at this
    rw [this, hu1]; rfl

/-! ### Decoding -/

/-- The walk from an inner node: the bits of a path lead to its leaf, whose symbol is put out (R201). -/
theorem runs_decodePath {t : CodeTree} {x : Nat} {l rest : List Bool} {e : Byte × List Bool} (hq : q.Granting)
    (hw : r.inp.Wf cfg.block) (hr : r.out = OutSide.of l) (hl : l.length < 8 * cfg.block) (h8 : l.length % 8 = 0)
    (hx : r.pool.Holds t x) (he : e ∈ t.codes) (hne : e.2 ≠ []) (hu : unreadBits r.inp q = e.2 ++ rest) :
    ∃ i pos, Taken cfg.block r.inp q i pos e.2.length ∧
      (∀ c, ReadTo cfg.block r.inp q c → ReadTo cfg.block i { q with srcPos := pos } (c + e.2.length)) ∧
      ∀ fuel todo, GoesOn (decodeLoop (fuel + e.2.length) (todo + 1) x) cfg r q (decodeLoop fuel todo r.pool.root)
        ((r.withInput i (pos - q.srcPos)).emitted cfg.block (l ++ byteBits e.1))
        (({ q with srcPos := pos } : Ports).emitted cfg.block (l ++ byteBits e.1)) := by
  induction t generalizing x r q e with
  | leaf s =>
    rw [CodeTree.codes, List.mem_singleton] at he
    subst he
    exact absurd rfl hne
  | node lt rt ihl ihr =>
    obtain ⟨-, h2, h3, h4, h5, h6⟩ := hx
    obtain ⟨b, f, t', hf, rfl, hh, hcase⟩ : ∃ (b : Bool) (f : Byte × List Bool) (t' : CodeTree),
        f ∈ t'.codes ∧ e = (f.1, b :: f.2) ∧ r.pool.Holds t' (r.pool.child x b) ∧ (t' = lt ∨ t' = rt) := by
      rw [CodeTree.codes, List.mem_append, List.mem_map, List.mem_map] at he
      rcases he with ⟨f, hf, rfl⟩ | ⟨f, hf, rfl⟩
      · exact ⟨false, f, lt, hf, rfl, h5, .inl rfl⟩
      · exact ⟨true, f, rt, hf, rfl, h6, .inr rfl⟩
    obtain ⟨i, pos, hrun, ht, hc⟩ := runs_inBit (cfg := cfg) (rest := f.2 ++ rest) hq hw (by rw [hu]; rfl)
    have hq1 : ({ q with srcPos := pos } : Ports).Granting := Ports.granting_at hq ht.bound
    have hlen : ∀ fuel, fuel + (f.1, b :: f.2).2.length = (fuel + f.2.length) + 1 := by intro fuel; simp; omega
    have hpool : (r.withInput i (pos - q.srcPos)).pool = r.pool := rfl
    cases t' with
    | leaf s =>
      rw [CodeTree.codes, List.mem_singleton] at hf
      subst hf
      refine ⟨i, pos, ht, hc, fun fuel todo => ?_⟩
      rw [hlen, decodeLoop]
      refine hrun.goesOn.trans ((runs_getRegs.2 ⟨rfl, rfl, rfl⟩).goesOn.trans ?_)
      rw [hpool, if_pos hh.2.1, hh.2.2]
      exact (runs_outByte (r := r.withInput i (pos - q.srcPos)) s hq1 hr hl h8).goesOn
    | node a c =>
      have hne' : f.2 ≠ [] := by
        rw [CodeTree.codes, List.mem_append, List.mem_map, List.mem_map] at hf
        rcases hf with ⟨g, -, rfl⟩ | ⟨g, -, rfl⟩ <;> simp
      have hu' : unreadBits i { q with srcPos := pos } = f.2 ++ rest := by
        rw [ht.unread, hu]; simp
      obtain ⟨j, pos', ht', hc', hgo⟩ : ∃ j pos', Taken cfg.block i { q with srcPos := pos } j pos' f.2.length ∧
          (∀ c, ReadTo cfg.block i { q with srcPos := pos } c →
            ReadTo cfg.block j { q with srcPos := pos' } (c + f.2.length)) ∧
          ∀ fuel todo, GoesOn (decodeLoop (fuel + f.2.length) (todo + 1) (r.pool.child x b)) cfg
            (r.withInput i (pos - q.srcPos)) { q with srcPos := pos } (decodeLoop fuel todo r.pool.root)
            (((r.withInput i (pos - q.srcPos)).withInput j (pos' - pos)).emitted cfg.block (l ++ byteBits f.1))
            (({ q with srcPos := pos' } : Ports).emitted cfg.block (l ++ byteBits f.1)) := by
        rcases hcase with rfl | rfl
        · exact ihl (r := r.withInput i (pos - q.srcPos)) (q := { q with srcPos := pos }) (e := f) hq1 ht.wf hr
            hh hf hne' hu'
        · exact ihr (r := r.withInput i (pos - q.srcPos)) (q := { q with srcPos := pos }) (e := f) hq1 ht.wf hr
            hh hf hne' hu'
      have h1 := ht.forward
      have h2 := ht'.forward
      simp only at h2
      refine ⟨j, pos', ?_, fun c h => ?_, fun fuel todo => ?_⟩
      · have := ht.trans ht'
        rwa [Nat.add_comm] at this
      · have := hc' _ (hc c h)
        rwa [show c + 1 + f.2.length = c + (f.1, b :: f.2).2.length by simp; omega] at this
      · rw [hlen, decodeLoop]
        refine hrun.goesOn.trans ((runs_getRegs.2 ⟨rfl, rfl, rfl⟩).goesOn.trans ?_)
        rw [hpool, if_neg (by rw [hh.2.1]; decide)]
        have := hgo fuel todo
        rwa [Regs.withInput_withInput, show pos - q.srcPos + (pos' - pos) = pos' - q.srcPos by omega] at this

/-- A leaf below an inner node has a path of at least one bit. -/
theorem CodeTree.codes_node_ne_nil {l r : CodeTree} {e : Byte × List Bool} (h : e ∈ (CodeTree.node l r).codes) :
    e.2 ≠ [] := by
  rw [CodeTree.codes, List.mem_append, List.mem_map, List.mem_map] at h
  rcases h with ⟨g, -, rfl⟩ | ⟨g, -, rfl⟩ <;> simp

/-- Decoding the paths of leaves puts out their symbols (R201); the loop goes on with what is left. -/
theorem runs_decodePaths {lt rt : CodeTree} {l rest : List Bool} {leaves : List (Byte × List Bool)}
    (hq : q.Granting) (hw : r.inp.Wf cfg.block) (hr : r.out = OutSide.of l) (hl : l.length < 8 * cfg.block)
    (h8 : l.length % 8 = 0) (hx : r.pool.Holds (.node lt rt) r.pool.root)
    (he : ∀ e ∈ leaves, e ∈ (CodeTree.node lt rt).codes) (hu : unreadBits r.inp q = leaves.flatMap (·.2) ++ rest) :
    ∃ i pos, Taken cfg.block r.inp q i pos (leaves.flatMap (·.2)).length ∧
      (∀ c, ReadTo cfg.block r.inp q c →
        ReadTo cfg.block i { q with srcPos := pos } (c + (leaves.flatMap (·.2)).length)) ∧
      ∀ fuel todo, GoesOn (decodeLoop (fuel + (leaves.flatMap (·.2)).length) (todo + leaves.length) r.pool.root) cfg r q
        (decodeLoop fuel todo r.pool.root)
        ((r.withInput i (pos - q.srcPos)).emitted cfg.block (l ++ bitsOf (leaves.map (·.1))))
        (({ q with srcPos := pos } : Ports).emitted cfg.block (l ++ bitsOf (leaves.map (·.1)))) := by
  induction leaves generalizing r q l with
  | nil =>
    refine ⟨r.inp, q.srcPos, Taken.refl hw hq.2.2, fun c h => h, fun fuel todo => ?_⟩
    have h1 : (r.withInput r.inp (q.srcPos - q.srcPos)).emitted cfg.block (l ++ bitsOf []) = r := by
      rw [Nat.sub_self, Regs.withInput_self, bitsOf_nil, List.append_nil, Regs.emitted_pending hr hl]
    have h2 : ({ q with srcPos := q.srcPos } : Ports).emitted cfg.block (l ++ bitsOf []) = q := by
      rw [bitsOf_nil, List.append_nil, Ports.emitted_pending hl]
    rw [List.map_nil, h1, h2]
    exact GoesOn.refl _
  | cons e leaves ih =>
    have hmem := he e List.mem_cons_self
    rw [List.flatMap_cons, List.append_assoc] at hu
    obtain ⟨i, pos, ht, hc, hgo⟩ := runs_decodePath hq hw hr hl h8 hx hmem (CodeTree.codes_node_ne_nil hmem) hu
    have hq1 : ({ q with srcPos := pos } : Ports).Granting := Ports.granting_at hq ht.bound
    obtain ⟨j, pos', ht', hc', hgo'⟩ := ih
      (r := (r.withInput i (pos - q.srcPos)).emitted cfg.block (l ++ byteBits e.1))
      (q := ({ q with srcPos := pos } : Ports).emitted cfg.block (l ++ byteBits e.1))
      (l := leftOver cfg.block (l ++ byteBits e.1)) hq1 ht.wf rfl (length_leftOver_lt cfg.block_pos _)
      (by
        rw [length_leftOver, List.length_append, length_byteBits]
        have h8b : 8 ∣ 8 * cfg.block := ⟨_, rfl⟩
        rw [Nat.mod_mod_of_dvd _ h8b]; omega) hx (fun e h => he e (List.mem_cons_of_mem _ h)) (by
        change unreadBits i { q with srcPos := pos } = _
        rw [ht.unread, hu]; simp)
    have h1 := ht.forward
    have h2 : pos ≤ pos' := ht'.forward
    have ht2 : Taken cfg.block i { q with srcPos := pos } j pos' (leaves.flatMap (·.2)).length := by
      obtain ⟨a1, a2, a3, a4, a5, a6⟩ := ht'
      exact ⟨a1, a2, a3, a4, a5, a6⟩
    refine ⟨j, pos', ?_, fun c h => ?_, fun fuel todo => ?_⟩
    · have := ht.trans ht2
      rw [List.flatMap_cons, List.length_append]
      exact this
    · have := hc' _ (hc c h)
      rw [List.flatMap_cons, List.length_append, ← Nat.add_assoc]
      exact this
    · rw [List.flatMap_cons, List.length_append, Nat.add_comm e.2.length, ← Nat.add_assoc, List.length_cons,
        ← Nat.add_assoc]
      refine (hgo _ _).trans ?_
      have e1 : (((r.withInput i (pos - q.srcPos)).emitted cfg.block (l ++ byteBits e.1)).withInput j
            (pos' - pos)).emitted cfg.block (leftOver cfg.block (l ++ byteBits e.1) ++ bitsOf (leaves.map (·.1))) =
          (r.withInput j (pos' - q.srcPos)).emitted cfg.block (l ++ bitsOf ((e :: leaves).map (·.1))) := by
        have : ((r.withInput i (pos - q.srcPos)).emitted cfg.block (l ++ byteBits e.1)).withInput j (pos' - pos) =
          ((r.withInput i (pos - q.srcPos)).withInput j (pos' - pos)).emitted cfg.block (l ++ byteBits e.1) := rfl
        rw [this, Regs.withInput_withInput, show pos - q.srcPos + (pos' - pos) = pos' - q.srcPos by omega,
          Regs.emitted_emitted]
        simp [bitsOf, List.append_assoc]
      have e2 : (({ q with srcPos := pos' } : Ports).emitted cfg.block (l ++ byteBits e.1)).emitted cfg.block
            (leftOver cfg.block (l ++ byteBits e.1) ++ bitsOf (leaves.map (·.1))) =
          ({ q with srcPos := pos' } : Ports).emitted cfg.block (l ++ bitsOf ((e :: leaves).map (·.1))) := by
        rw [Ports.emitted_emitted]
        simp [bitsOf, List.append_assoc]
      rw [← e1, ← e2]
      exact hgo' fuel todo

end Sys2Proof.Machine
end

