-- ==== Sys2Proof/Laws/Drivers.lean ====
section
/-! SUPPORT. The stream drivers (R200 to R203): what ENCODE writes for a whole source, and what DECODE reads back, each
procedure's own lemma composed in the order the driver runs them. -/

namespace Sys2Proof.Machine

variable {cfg : Config} {r : Regs} {q : Ports}

/-! ### HIST_FORCE -/

theorem runs_histForce (h0 : (r.histAt 0).toNat ≠ 2 ^ 64 - 1) (h1 : (r.histAt 255).toNat ≠ 2 ^ 64 - 1) :
    Runs histForce cfg r q () (if r.present.length < 2 then (r.bumpHist 0).bumpHist 255 else r) q := by
  unfold histForce
  simp only [runs_getRegs_bind, runs_ite, distinct_eq]
  split
  · simp only [runs_require_bind, runs_modifyRegs, and_true]
    simp [Regs.histFull, freqMax] at h0 h1 ⊢
    exact ⟨h0, h1⟩
  · simp

/-! ### The payload -/

/-- A path is no longer than the index of the node it starts from: children lie below their parent (R46(b)). -/
theorem Pool.Holds.code_length_le {p : Pool} {t : CodeTree} {n : Nat} (h : p.Holds t n) {e : Byte × List Bool}
    (he : e ∈ t.codes) : e.2.length ≤ n := by
  induction t generalizing n e with
  | leaf s =>
    rw [CodeTree.codes, List.mem_singleton] at he
    simp [he]
  | node l r ihl ihr =>
    obtain ⟨-, -, h3, h4, h5, h6⟩ := h
    rw [CodeTree.codes, List.mem_append, List.mem_map, List.mem_map] at he
    rcases he with ⟨f, hf, rfl⟩ | ⟨f, hf, rfl⟩
    · have := ihl h5 hf; simp only [List.length_cons]; omega
    · have := ihr h6 hf; simp only [List.length_cons]; omega

/-- Decoding stops with PAYLOAD_TRUNCATED where the input ends inside a path (R201). -/
theorem fails_decodePath {t : CodeTree} {x fuel todo : Nat} {e : Byte × List Bool} (hq : q.Granting)
    (hw : r.inp.Wf cfg.block) (hx : r.pool.Holds t x) (he : e ∈ t.codes) (hne : unreadBits r.inp q ≠ e.2)
    (hp : unreadBits r.inp q <+: e.2) (hf : e.2.length ≤ fuel) :
    ∃ i pos, Fails (decodeLoop fuel (todo + 1) x) cfg r q .payloadTruncated (r.withInput i (pos - q.srcPos))
        { q with srcPos := pos } ∧ q.srcPos ≤ pos ∧ pos ≤ q.src.length ∧ unreadBits i { q with srcPos := pos } = [] := by
  induction t generalizing x r q e fuel with
  | leaf s =>
    rw [CodeTree.codes, List.mem_singleton] at he
    subst he
    exact absurd (List.prefix_nil.1 hp) hne
  | node lt rt ihl ihr =>
    obtain ⟨-, h2, h3, h4, h5, h6⟩ := hx
    obtain ⟨b, f, t', hf', rfl, hh, hcase⟩ : ∃ (b : Bool) (f : Byte × List Bool) (t' : CodeTree),
        f ∈ t'.codes ∧ e = (f.1, b :: f.2) ∧ r.pool.Holds t' (r.pool.child x b) ∧ (t' = lt ∨ t' = rt) := by
      rw [CodeTree.codes, List.mem_append, List.mem_map, List.mem_map] at he
      rcases he with ⟨f, hf1, rfl⟩ | ⟨f, hf1, rfl⟩
      · exact ⟨false, f, lt, hf1, rfl, h5, .inl rfl⟩
      · exact ⟨true, f, rt, hf1, rfl, h6, .inr rfl⟩
    simp only [List.length_cons] at hf
    obtain ⟨k, rfl⟩ : ∃ k, fuel = k + 1 := ⟨fuel - 1, by omega⟩
    rw [decodeLoop]
    rcases hu : unreadBits r.inp q with _ | ⟨c, rest⟩
    · obtain ⟨j, hrun, ht, -⟩ := runs_inBit_end (cfg := cfg) hq hw hu
      refine ⟨j, _, Runs.bind_fails hrun (fails_raise.2 ⟨rfl, ?_, rfl⟩), ht.forward, ht.bound, ?_⟩
      · rw [Nat.add_sub_cancel_left]
      · rw [ht.unread, hu]; rfl
    · rw [hu] at hp hne
      obtain ⟨rfl, hp'⟩ := List.cons_prefix_cons.1 hp
      obtain ⟨i, pos, hrun, ht, -⟩ := runs_inBit (cfg := cfg) (rest := rest) hq hw hu
      have hu' : unreadBits i { q with srcPos := pos } = rest := by rw [ht.unread, hu]; rfl
      have hq1 : ({ q with srcPos := pos } : Ports).Granting := Ports.granting_at hq ht.bound
      have hne' : rest ≠ f.2 := fun h => hne (by rw [h])
      have hkind : (r.pool.node (r.pool.child x c)).kind ≠ .leaf := by
        cases t' with
        | leaf s =>
          rw [CodeTree.codes, List.mem_singleton] at hf'
          subst hf'
          exact absurd (List.prefix_nil.1 hp') hne'
        | node a d => rw [hh.2.1]; decide
      have key : ∃ j pos', Fails (decodeLoop k (todo + 1) (r.pool.child x c)) cfg (r.withInput i (pos - q.srcPos))
          { q with srcPos := pos } .payloadTruncated ((r.withInput i (pos - q.srcPos)).withInput j (pos' - pos))
          { q with srcPos := pos' } ∧ pos ≤ pos' ∧ pos' ≤ q.src.length ∧ unreadBits j { q with srcPos := pos' } = [] := by
        rcases hcase with rfl | rfl
        · exact ihl (r := r.withInput i (pos - q.srcPos)) (q := { q with srcPos := pos }) hq1 ht.wf hh hf'
            (by rw [Regs.withInput_inp, hu']; exact hne') (by rw [Regs.withInput_inp, hu']; exact hp') (by omega)
        · exact ihr (r := r.withInput i (pos - q.srcPos)) (q := { q with srcPos := pos }) hq1 ht.wf hh hf'
            (by rw [Regs.withInput_inp, hu']; exact hne') (by rw [Regs.withInput_inp, hu']; exact hp') (by omega)
      obtain ⟨j, pos', hfail, f2, b2, u2⟩ := key
      have f1 := ht.forward
      rw [Regs.withInput_withInput, show pos - q.srcPos + (pos' - pos) = pos' - q.srcPos by omega] at hfail
      refine ⟨j, pos', Runs.bind_fails hrun ?_, f1.trans f2, b2, u2⟩
      simp only [fails_getRegs_bind, fails_ite]
      have hpool : (r.withInput i (pos - q.srcPos)).pool = r.pool := rfl
      rw [hpool, if_neg hkind]
      exact hfail

/-- DECODE_PAYLOAD's body on the paths of leaves (R201). -/
theorem runs_decodePayload {lt rt : CodeTree} {l rest : List Bool} {leaves : List (Byte × List Bool)}
    (hq : q.Granting) (hw : r.inp.Wf cfg.block) (hr : r.out = OutSide.of l) (hl : l.length < 8 * cfg.block)
    (h8 : l.length % 8 = 0) (hroot : r.pool.root ≠ NIL) (hx : r.pool.Holds (.node lt rt) r.pool.root)
    (he : ∀ e ∈ leaves, e ∈ (CodeTree.node lt rt).codes) (hu : unreadBits r.inp q = leaves.flatMap (·.2) ++ rest)
    (hn : leaves.length = r.hdr.fileSize.toNat) (hf : (leaves.flatMap (·.2)).length ≤ 8 * inputPasses) :
    ∃ i pos, Runs decodePayload cfg r q r.hdr.fileSize.toNat
        ((r.withInput i (pos - q.srcPos)).flushed (l ++ bitsOf (leaves.map (·.1))))
        (({ q with srcPos := pos } : Ports).flushed (l ++ bitsOf (leaves.map (·.1)))) ∧
      Taken cfg.block r.inp q i pos (leaves.flatMap (·.2)).length ∧
      ∀ c, ReadTo cfg.block r.inp q c →
        ReadTo cfg.block i { q with srcPos := pos } (c + (leaves.flatMap (·.2)).length) := by
  obtain ⟨i, pos, ht, hc, hgo⟩ := runs_decodePaths hq hw hr hl h8 hx he hu
  refine ⟨i, pos, ?_, ht, hc⟩
  have hq1 : ({ q with srcPos := pos } : Ports).Granting := Ports.granting_at hq ht.bound
  have hk : ∀ fuel x, decodeLoop fuel 0 x = pure () := fun fuel x => by cases fuel <;> rfl
  obtain ⟨fuel, hfuel⟩ : ∃ fuel, 8 * inputPasses = fuel + (leaves.flatMap (·.2)).length :=
    ⟨8 * inputPasses - (leaves.flatMap (·.2)).length, by omega⟩
  have hloop : Runs (decodeLoop (8 * inputPasses) r.hdr.fileSize.toNat r.pool.root) cfg r q ()
      ((r.withInput i (pos - q.srcPos)).emitted cfg.block (l ++ bitsOf (leaves.map (·.1))))
      (({ q with srcPos := pos } : Ports).emitted cfg.block (l ++ bitsOf (leaves.map (·.1)))) := by
    have := (hgo fuel 0).runs (by rw [hk]; exact runs_pure.2 ⟨rfl, rfl, rfl⟩)
    rwa [Nat.zero_add, hn, ← hfuel] at this
  have hflush := runs_flushOut (cfg := cfg)
    (r := (r.withInput i (pos - q.srcPos)).emitted cfg.block (l ++ bitsOf (leaves.map (·.1))))
    (q := ({ q with srcPos := pos } : Ports).emitted cfg.block (l ++ bitsOf (leaves.map (·.1)))) hq1 rfl
  rw [Regs.emitted_flushed, Ports.emitted_flushed] at hflush
  unfold decodePayload rootOperand requireOutAligned
  simp only [bind_assoc, runs_getRegs_bind, runs_require_bind, pure_bind, hr, OutSide.of_bitPos, h8, hx.2.1]
  refine ⟨by simpa using hroot, by simp, by simp, Runs.bind hloop (Runs.bind hflush ?_)⟩
  simp

/-- DECODE_PAYLOAD's body where the input ends inside a path (R201): the symbols before it have been put out. -/
theorem fails_decodePayload {lt rt : CodeTree} {l rest : List Bool} {leaves : List (Byte × List Bool)} {e : Byte × List Bool}
    (hq : q.Granting) (hw : r.inp.Wf cfg.block) (hr : r.out = OutSide.of l) (hl : l.length < 8 * cfg.block)
    (h8 : l.length % 8 = 0) (hroot : r.pool.root ≠ NIL) (hx : r.pool.Holds (.node lt rt) r.pool.root)
    (he : ∀ e ∈ leaves, e ∈ (CodeTree.node lt rt).codes) (hu : unreadBits r.inp q = leaves.flatMap (·.2) ++ rest)
    (hn : leaves.length < r.hdr.fileSize.toNat) (hmem : e ∈ (CodeTree.node lt rt).codes) (hp : rest <+: e.2) (hne : rest ≠ e.2)
    (hf : (leaves.flatMap (·.2)).length + e.2.length ≤ 8 * inputPasses) :
    ∃ i pos, Fails decodePayload cfg r q .payloadTruncated
        ((r.withInput i (pos - q.srcPos)).emitted cfg.block (l ++ bitsOf (leaves.map (·.1))))
        (({ q with srcPos := pos } : Ports).emitted cfg.block (l ++ bitsOf (leaves.map (·.1)))) ∧
      q.srcPos ≤ pos ∧ pos ≤ q.src.length ∧ unreadBits i { q with srcPos := pos } = [] := by
  obtain ⟨i, pos, ht, -, hgo⟩ := runs_decodePaths hq hw hr hl h8 hx he hu
  have hq1 : ({ q with srcPos := pos } : Ports).Granting := Ports.granting_at hq ht.bound
  have hrest : unreadBits i { q with srcPos := pos } = rest := by rw [ht.unread, hu, List.drop_left]
  obtain ⟨fuel, hfuel⟩ : ∃ fuel, 8 * inputPasses = fuel + (leaves.flatMap (·.2)).length :=
    ⟨8 * inputPasses - (leaves.flatMap (·.2)).length, by omega⟩
  obtain ⟨j, pos', hfail, f2, b2, u2⟩ := fails_decodePath (cfg := cfg) (fuel := fuel)
    (todo := r.hdr.fileSize.toNat - leaves.length - 1)
    (r := (r.withInput i (pos - q.srcPos)).emitted cfg.block (l ++ bitsOf (leaves.map (·.1))))
    (q := ({ q with srcPos := pos } : Ports).emitted cfg.block (l ++ bitsOf (leaves.map (·.1))))
    hq1 ht.wf hx hmem (fun h => hne (hrest.symm.trans h))
    (by change unreadBits i { q with srcPos := pos } <+: _; rw [hrest]; exact hp) (by omega)
  have f1 := ht.forward
  have f2' : pos ≤ pos' := f2
  have hloop := (hgo fuel (r.hdr.fileSize.toNat - leaves.length - 1 + 1)).fails hfail
  rw [← hfuel, show r.hdr.fileSize.toNat - leaves.length - 1 + 1 + leaves.length = r.hdr.fileSize.toNat by omega] at hloop
  have e1 : ((r.withInput i (pos - q.srcPos)).emitted cfg.block (l ++ bitsOf (leaves.map (·.1)))).withInput j (pos' - pos) =
      (r.withInput j (pos' - q.srcPos)).emitted cfg.block (l ++ bitsOf (leaves.map (·.1))) := by
    change ((r.withInput i (pos - q.srcPos)).withInput j (pos' - pos)).emitted cfg.block _ = _
    rw [Regs.withInput_withInput]; congr 2; omega
  refine ⟨j, pos', ?_, f1.trans f2', b2, u2⟩
  unfold decodePayload rootOperand requireOutAligned
  simp only [bind_assoc, fails_getRegs_bind, fails_require_bind, pure_bind, hr, OutSide.of_bitPos, h8, hx.2.1]
  refine .inr ⟨by simpa using hroot, .inr ⟨by simp, .inr ⟨by simp, Fails.bind ?_⟩⟩⟩
  rw [← e1]
  exact hloop

/-! ### DECODE -/

theorem runs_startDriver {l : List Bool} (hq : q.Granting) (hr : r.out = OutSide.of l) (h8 : l.length % 8 = 0) :
    Runs startDriver cfg r q () { r with bytesRead := 0, bytesWritten := 0, inp := InSide.empty } { q with srcPos := 0 } := by
  unfold startDriver requireOutAligned
  simp only [bind_assoc, runs_getRegs_bind, runs_require_bind, hr, OutSide.of_bitPos, h8, runs_modifyRegs_bind]
  exact ⟨by simp, runs_rewind hq⟩

/-- What DECODE has done when the header is read (R203): the counters run from the rewind, the header registers are loaded. -/
def Regs.headerLoaded (r : Regs) (i : InSide) (pos : Nat) (hdr : HeaderRegs) : Regs :=
  { r with bytesRead := BitVec.ofNat 64 pos, bytesWritten := 0, inp := i, hdr := hdr }

/-- DECODE up to the end of the header (R203): a wrong magic ends it there. -/
theorem goesOn_decodeHeader {pending : List Bool} {magic perm treeSize : BitVec 16} {fileSize : Word} {rest : List Byte}
    (hq : q.Granting) (hr : r.out = OutSide.of pending) (h8 : pending.length % 8 = 0)
    (hu : q.src = headerBytes magic perm treeSize fileSize ++ rest) :
    ∃ i pos, Taken cfg.block InSide.empty { q with srcPos := 0 } i pos (8 * 14) ∧
      ReadTo cfg.block i { q with srcPos := pos } (8 * 14) ∧ i.bitPos % 8 = 0 ∧ unreadBytes i { q with srcPos := pos } = rest ∧
      (magic = cfg.magic → GoesOn decodeStream cfg r q (do
          let _ ← rebuildTree
          let n ← decodePayload
          modifyRegs Regs.nodeReset
          return (true, BitVec.ofNat 64 n)) (r.headerLoaded i pos ⟨magic, perm, treeSize, fileSize⟩) { q with srcPos := pos }) ∧
      (magic ≠ cfg.magic → Fails decodeStream cfg r q .badMagic (r.headerLoaded i pos ⟨magic, perm, treeSize, fileSize⟩)
        { q with srcPos := pos }) := by
  have hstart := runs_startDriver (cfg := cfg) (r := r) hq hr h8
  have hq1 : ({ q with srcPos := 0 } : Ports).Granting := ⟨hq.1, hq.2.1, Nat.zero_le _⟩
  have hu1 : unreadBytes InSide.empty { q with srcPos := 0 } = headerBytes magic perm treeSize fileSize ++ rest := by
    rw [unreadBytes_rewound, hu]
  obtain ⟨i, pos, hrun, ht, hc⟩ := runs_headerRead (cfg := cfg) (n := 14)
    (r := { r with bytesRead := 0, bytesWritten := 0, inp := InSide.empty }) (q := { q with srcPos := 0 })
    hq1 wf_empty rfl (by simp [headerBytes]) hu1
  have hload : ({ ({ r with bytesRead := 0, bytesWritten := 0, inp := InSide.empty } : Regs).withInput i (pos - 0) with
      hdr := headerOf (headerBytes magic perm treeSize fileSize) } : Regs) =
      r.headerLoaded i pos ⟨magic, perm, treeSize, fileSize⟩ := by
    rw [headerOf_headerBytes]
    simp only [Regs.withInput, Regs.headerLoaded, Nat.sub_zero]
    rw [show (0 : Word) + BitVec.ofNat 64 pos = BitVec.ofNat 64 pos from BitVec.zero_add _]
  refine ⟨i, pos, ht, ?_, by rw [ht.aligned]; change (0 + 8 * 14) % 8 = 0; rfl, ?_, fun hm => ?_, fun hm => ?_⟩
  · have := hc _ (readTo_rewound cfg.block_pos)
    rwa [Nat.zero_add] at this
  · have := Taken.unreadBytes (n := 14) ht rfl
    rw [show unreadBytes i { q with srcPos := pos } = unreadBytes i { ({ q with srcPos := 0 } : Ports) with srcPos := pos }
      from rfl, this]
    change (unreadBytes InSide.empty { q with srcPos := 0 }).drop 14 = _
    rw [hu1]
    exact List.drop_left' (by simp [headerBytes])
  · have hhdr : Runs hdrRead cfg { r with bytesRead := 0, bytesWritten := 0, inp := InSide.empty } { q with srcPos := 0 } ()
        (r.headerLoaded i pos ⟨magic, perm, treeSize, fileSize⟩) { q with srcPos := pos } := by
      unfold hdrRead requireInAligned
      simp only [bind_assoc, runs_getRegs_bind, runs_require_bind]
      refine ⟨rfl, Runs.bind hrun ?_⟩
      simp only [runs_modifyRegs_bind, runs_getConfig_bind, runs_getRegs_bind, runs_require]
      refine ⟨by rw [headerOf_headerBytes]; simpa using hm, hload, trivial⟩
    exact hstart.goesOn.trans hhdr.goesOn
  · have hhdr : Fails hdrRead cfg { r with bytesRead := 0, bytesWritten := 0, inp := InSide.empty } { q with srcPos := 0 }
        .badMagic (r.headerLoaded i pos ⟨magic, perm, treeSize, fileSize⟩) { q with srcPos := pos } := by
      unfold hdrRead requireInAligned
      simp only [bind_assoc, fails_getRegs_bind, fails_require_bind]
      refine .inr ⟨rfl, Runs.bind_fails hrun ?_⟩
      simp only [fails_modifyRegs_bind, fails_getConfig_bind, fails_getRegs_bind, fails_require]
      exact ⟨by rw [headerOf_headerBytes]; simpa using hm, trivial, hload, trivial⟩
    exact Runs.bind_fails hstart (Fails.bind hhdr)

/-- Reading on behind the header. -/
theorem Regs.withInput_headerLoaded {i i' : InSide} {pos pos' : Nat} {hdr : HeaderRegs} (p : Pool) (h : pos ≤ pos') :
    ({ r.headerLoaded i pos hdr with pool := p } : Regs).withInput i' (pos' - pos) =
      { r.headerLoaded i' pos' hdr with pool := p } := by
  simp only [Regs.withInput, Regs.headerLoaded]
  rw [← BitVec.ofNat_add]
  congr 2; omega

/-- DECODE of a stream that is too short for a header (R203). -/
theorem fails_decodeHeader {pending : List Bool} (hq : q.Granting) (hr : r.out = OutSide.of pending)
    (h8 : pending.length % 8 = 0) (hu : q.src.length < 14) :
    ∃ i pos, Fails decodeStream cfg r q .headerTruncated (r.headerLoaded i pos r.hdr) { q with srcPos := pos } := by
  have hstart := runs_startDriver (cfg := cfg) (r := r) hq hr h8
  have hq1 : ({ q with srcPos := 0 } : Ports).Granting := ⟨hq.1, hq.2.1, Nat.zero_le _⟩
  obtain ⟨i, pos, hf, -, -⟩ := fails_headerRead (cfg := cfg) (n := 14)
    (r := { r with bytesRead := 0, bytesWritten := 0, inp := InSide.empty }) (q := { q with srcPos := 0 })
    hq1 wf_empty rfl (by change (unreadBytes InSide.empty { q with srcPos := 0 }).length < 14; rw [unreadBytes_rewound]; exact hu)
  have hload : ({ r with bytesRead := 0, bytesWritten := 0, inp := InSide.empty } : Regs).withInput i (pos - 0) =
      r.headerLoaded i pos r.hdr := by
    simp only [Regs.withInput, Regs.headerLoaded, Nat.sub_zero]
    rw [show (0 : Word) + BitVec.ofNat 64 pos = BitVec.ofNat 64 pos from BitVec.zero_add _]
  refine ⟨i, pos, Runs.bind_fails hstart (Fails.bind ?_)⟩
  unfold hdrRead requireInAligned
  simp only [bind_assoc, fails_getRegs_bind, fails_require_bind]
  refine .inr ⟨rfl, Fails.bind ?_⟩
  rw [← hload]
  exact hf

/-- DECODE of a stream whose dump is no dump (R203). -/
theorem fails_decodeDump {pending : List Bool} {hdr : HeaderRegs} {rest unread : List Byte} {ts : List CodeTree} {e : ErrName}
    (hq : q.Granting) (hr : r.out = OutSide.of pending) (h8 : pending.length % 8 = 0) (hm : hdr.magic = cfg.magic)
    (hu : q.src = headerBytes hdr.magic hdr.perm hdr.treeSize hdr.fileSize ++ rest) (hf : ForestFits ts)
    (he : DumpError cfg hdr.treeSize.toNat rest ts e unread) :
    ∃ i pos p, Fails decodeStream cfg r q e { r.headerLoaded i pos hdr with pool := p } { q with srcPos := pos } := by
  obtain ⟨i, pos, ht, -, ha, hu1, hgo, -⟩ := goesOn_decodeHeader (cfg := cfg) hq hr h8 hu
  obtain ⟨j, pos', p, hfail, h1, -⟩ := fails_rebuildTree (cfg := cfg) (r := r.headerLoaded i pos hdr)
    (q := { q with srcPos := pos }) ⟨hq.1, hq.2.1, ht.bound⟩ ht.wf ha hf
    (by change DumpError cfg hdr.treeSize.toNat (unreadBytes i { q with srcPos := pos }) ts e unread; rw [hu1]; exact he)
  refine ⟨j, pos', p, (hgo hm).fails (Fails.bind ?_)⟩
  rw [← Regs.withInput_headerLoaded (i := i) p h1]
  exact hfail

/-- DECODE of a stream that ends inside a path (R203). -/
theorem fails_decodeStream {l t : CodeTree} {pending part : List Bool} {hdr : HeaderRegs} {payload : List Byte}
    {leaves : List (Byte × List Bool)} {last : Byte × List Bool} (hq : q.Granting) (hsrc : q.src.length < 2 ^ 64)
    (hr : r.out = OutSide.of pending) (hp : pending.length < 8 * cfg.block) (h8 : pending.length % 8 = 0)
    (hm : hdr.magic = cfg.magic) (hl : (CodeTree.node l t).leaves ≤ 256)
    (hsize : hdr.treeSize.toNat = 3 * (CodeTree.node l t).leaves - 1)
    (hu : q.src = headerBytes hdr.magic hdr.perm hdr.treeSize hdr.fileSize ++ ((CodeTree.node l t).dump cfg ++ payload))
    (hbits : bitsOf payload = leaves.flatMap (·.2) ++ part) (he : ∀ e ∈ leaves, e ∈ (CodeTree.node l t).codes)
    (hn : leaves.length < hdr.fileSize.toNat) (hlast : last ∈ (CodeTree.node l t).codes) (hpre : part <+: last.2)
    (hne : part ≠ last.2) :
    ∃ i pos p, Fails decodeStream cfg r q .payloadTruncated
      (({ r.headerLoaded i pos hdr with pool := p } : Regs).emitted cfg.block (pending ++ bitsOf (leaves.map (·.1))))
      (({ q with srcPos := pos } : Ports).emitted cfg.block (pending ++ bitsOf (leaves.map (·.1)))) := by
  have h2 : 2 ≤ (CodeTree.node l t).leaves := by
    have := l.leaves_pos; have := t.leaves_pos; simp only [CodeTree.leaves]; omega
  obtain ⟨i, pos, ht, -, ha, hu1, hgo, -⟩ := goesOn_decodeHeader (cfg := cfg) hq hr h8 hu
  obtain ⟨i2, pos2, p, hrun2, t2, -, hp2⟩ := runs_rebuildTree (cfg := cfg) (r := r.headerLoaded i pos hdr)
    (q := { q with srcPos := pos }) (l := l) (t := t) ⟨hq.1, hq.2.1, ht.bound⟩ ht.wf ha hu1
    (by rw [CodeTree.length_dump]; exact hsize) hl
  have ha2 : i2.bitPos % 8 = 0 := by rw [t2.aligned]; change (i.bitPos + _) % 8 = 0; omega
  have f2 : pos ≤ pos2 := t2.forward
  have hu3 : unreadBits i2 { q with srcPos := pos2 } = leaves.flatMap (·.2) ++ part := by
    rw [unreadBits_aligned ha2, ← hbits]
    have := Taken.unreadBytes t2 ha
    rw [show unreadBytes i2 { q with srcPos := pos2 } = unreadBytes i2 { ({ q with srcPos := pos } : Ports) with srcPos := pos2 }
      from rfl, this]
    change bitsOf ((unreadBytes i { q with srcPos := pos }).drop _) = _
    rw [hu1, List.drop_left]
  have hlen : (leaves.flatMap (·.2)).length + last.2.length ≤ 8 * inputPasses := by
    have e1 := congrArg List.length hbits
    have e2 := congrArg List.length hu
    have e3 := CodeTree.code_length_lt hlast
    simp only [List.length_append, length_bitsOf] at e1 e2
    simp only [inputPasses]; omega
  rw [Regs.withInput_headerLoaded p f2] at hrun2
  obtain ⟨i3, pos3, hfail, f3, -⟩ := fails_decodePayload (cfg := cfg) (r := { r.headerLoaded i2 pos2 hdr with pool := p })
    (q := { q with srcPos := pos2 }) (l := pending) ⟨hq.1, hq.2.1, t2.bound⟩ t2.wf hr hp h8
    (by change p.root ≠ NIL; rw [hp2.root]; simp only [NIL]; omega) hp2.holds he hu3 hn hlast hpre hne hlen
  have f3' : pos2 ≤ pos3 := f3
  change Fails decodePayload cfg _ _ _ ((({ r.headerLoaded i2 pos2 hdr with pool := p } : Regs).withInput i3 (pos3 - pos2)).emitted _ _) _
    at hfail
  rw [Regs.withInput_headerLoaded p f3'] at hfail
  exact ⟨i3, pos3, p, (hgo hm).fails (Runs.bind_fails hrun2 hfail.bind)⟩

/-- What DECODE leaves of a stream that starts with a header, a dump and the paths of leaves (R203). -/
theorem runs_decodeStream {l t : CodeTree} {pending : List Bool} {perm : BitVec 16} {leaves : List (Byte × List Bool)}
    {rest : List Byte} (hq : q.Granting) (hsrc : q.src.length < 2 ^ 64) (hr : r.out = OutSide.of pending)
    (hp : pending.length < 8 * cfg.block) (h8 : pending.length % 8 = 0) (hl : (CodeTree.node l t).leaves ≤ 256)
    (he : ∀ e ∈ leaves, e ∈ (CodeTree.node l t).codes) (hn : leaves.length < 2 ^ 64)
    (hu : q.src = headerBytes cfg.magic perm (BitVec.ofNat 16 (3 * (CodeTree.node l t).leaves - 1))
        (BitVec.ofNat 64 leaves.length) ++ (CodeTree.node l t).dump cfg ++ packBits (leaves.flatMap (·.2)) ++ rest) :
    ∃ i pos, Runs decodeStream cfg r q (true, BitVec.ofNat 64 leaves.length)
        { r with
          bytesRead := BitVec.ofNat 64 pos
          bytesWritten := BitVec.ofNat 64 ((packBits pending).length + leaves.length)
          inp := i, out := OutSide.of [], pool := { r.pool.cleared with stack := [] }
          hdr := { magic := cfg.magic, perm := perm, treeSize := BitVec.ofNat 16 (3 * (CodeTree.node l t).leaves - 1)
                   fileSize := BitVec.ofNat 64 leaves.length } }
        { q with srcPos := pos, snk := q.snk ++ packBits pending ++ leaves.map (·.1) } ∧
      pos = min q.src.length (cfg.block * ((8 * (14 + ((CodeTree.node l t).dump cfg).length) +
        (leaves.flatMap (·.2)).length + 8 * cfg.block - 1) / (8 * cfg.block))) := by
  have hb := cfg.block_pos
  have h2 : 2 ≤ (CodeTree.node l t).leaves := by
    have := l.leaves_pos; have := t.leaves_pos; simp only [CodeTree.leaves]; omega
  have hbits : (leaves.flatMap (·.2)).length ≤ 8 * inputPasses := by
    have := congrArg List.length hu
    simp only [List.length_append, length_packBits] at this
    simp only [inputPasses]; omega
  -- the header
  rw [List.append_assoc, List.append_assoc] at hu
  obtain ⟨i1, pos1, t1, c1, ha1, hu2, hgo, -⟩ := goesOn_decodeHeader (cfg := cfg) hq hr h8 hu
  have hq2 : ({ q with srcPos := pos1 } : Ports).Granting := ⟨hq.1, hq.2.1, t1.bound⟩
  let hd : HeaderRegs := ⟨cfg.magic, perm, BitVec.ofNat 16 (3 * (CodeTree.node l t).leaves - 1), BitVec.ofNat 64 leaves.length⟩
  let r2 : Regs := r.headerLoaded i1 pos1 hd
  -- the dump
  obtain ⟨i2, pos2, p, hrun2, t2, c2, hp2⟩ := runs_rebuildTree (cfg := cfg) (r := r2) (q := { q with srcPos := pos1 }) (l := l)
    (t := t) hq2 t1.wf ha1 hu2 (by
      change (BitVec.ofNat 16 (3 * (CodeTree.node l t).leaves - 1)).toNat = _
      rw [CodeTree.length_dump, BitVec.toNat_ofNat, Nat.mod_eq_of_lt (by omega)]) hl
  have hq3 : ({ q with srcPos := pos2 } : Ports).Granting := ⟨hq.1, hq.2.1, t2.bound⟩
  have ha2 : i2.bitPos % 8 = 0 := by rw [t2.aligned]; change (i1.bitPos + _) % 8 = 0; omega
  have f2 : pos1 ≤ pos2 := t2.forward
  have hu3 : unreadBits i2 { q with srcPos := pos2 } = leaves.flatMap (·.2) ++
      (List.replicate ((8 - (leaves.flatMap (·.2)).length % 8) % 8) false ++ bitsOf rest) := by
    rw [unreadBits_aligned ha2]
    have := Taken.unreadBytes t2 ha1
    rw [show unreadBytes i2 { q with srcPos := pos2 } = unreadBytes i2 { ({ q with srcPos := pos1 } : Ports) with srcPos := pos2 }
      from rfl, this]
    change bitsOf ((unreadBytes i1 { q with srcPos := pos1 }).drop _) = _
    rw [hu2, List.drop_left, bitsOf_append, bitsOf_packBits, List.append_assoc]
  -- the payload
  let r3 : Regs := { r2 with pool := p }.withInput i2 (pos2 - pos1)
  have hnil : p.root ≠ NIL := by rw [hp2.root]; simp only [NIL]; omega
  have hfs : hd.fileSize.toNat = leaves.length := by
    change (BitVec.ofNat 64 leaves.length).toNat = _
    rw [BitVec.toNat_ofNat, Nat.mod_eq_of_lt hn]
  obtain ⟨i3, pos3, hrun3, t3, c3⟩ := runs_decodePayload (cfg := cfg) (r := r3) (q := { q with srcPos := pos2 }) (l := pending)
    (leaves := leaves) hq3 t2.wf hr hp h8 hnil hp2.holds he hu3 hfs.symm hbits
  have f3 : pos2 ≤ pos3 := t3.forward
  refine ⟨i3, pos3, ?_, ?_⟩
  · refine (hgo rfl).runs (Runs.bind hrun2 (Runs.bind hrun3 ?_))
    simp only [runs_modifyRegs_bind, runs_pure]
    have hfs' : r3.hdr.fileSize.toNat = leaves.length := hfs
    have hclear : p.cleared = { r.pool.cleared with stack := [] } := by
      rw [Pool.cleared, Pool.cleared, hp2.cap, hp2.stack]; rfl
    have hpack : packBits (pending ++ bitsOf (leaves.map (·.1))) = packBits pending ++ leaves.map (·.1) := by
      rw [packBits_append _ _ h8, packBits_bitsOf]
    refine ⟨by rw [hfs'], ?_, ?_⟩
    · simp only [Regs.nodeReset, Regs.flushed, Regs.withInput, Regs.headerLoaded, r3, r2, hclear, hpack, OutSide.of_nil, hd]
      simp only [Regs.mk.injEq, true_and, List.length_append, List.length_map]
      refine ⟨?_, by simp⟩
      rw [← BitVec.ofNat_add, ← BitVec.ofNat_add]
      congr 1; omega
    · simp only [Ports.flushed, hpack, List.append_assoc]
  · obtain ⟨-, -, h9⟩ := c3 _ (c2 _ c1)
    simp only at h9
    rw [h9]
    congr 3
    omega

/-! ### ENCODE -/

theorem sum_count (l : List Byte) : (symbols.map fun b => l.count b).sum = l.length := by
  induction l with
  | nil => simp
  | cons x l ih =>
    have h1 : (symbols.map fun b => (x :: l).count b) = symbols.map fun b => l.count b + if b == x then 1 else 0 :=
      List.map_congr_left fun b _ => by
        rw [List.count_cons]
        by_cases h : b = x
        · subst h; simp
        · simp [h, Ne.symm h]
    have h2 : (symbols.map fun b => if b == x then 1 else 0).sum = symbols.count x := by
      rw [List.count, List.countP_eq_length_filter]
      generalize symbols = s
      induction s with
      | nil => rfl
      | cons y s ih2 =>
        rw [List.map_cons, List.sum_cons, ih2, List.filter_cons]
        split <;> simp; omega
    rw [h1, List.sum_map_add, ih, h2, List.count_eq_one_of_mem nodup_symbols (mem_symbols x), List.length_cons]

theorem sum_forced : (symbols.map fun b => if b = 0 ∨ b = 255 then 1 else 0).sum = 2 := by decide +kernel

/-- ENCODE up to the second pass (R202): the histogram of the source, the tree, the codes, the header and the dump. -/
def firstPass : Proc Unit := do
  startDriver
  histClear
  histScan
  histForce
  let _ ← buildTree
  buildCodes
  modifyRegs Regs.sizeHeader
  hdrWrite
  let _ ← dumpTree
  rewind

/-- ENCODE's second pass and its end (R202). -/
def secondPass : Proc Answer := do
  let n ← encodePayload .inputChanged
  let r ← getRegs
  require (n == r.hdr.fileSize.toNat) .inputChanged
  flushOut
  modifyRegs Regs.nodeReset
  return (true, r.hdr.fileSize)

theorem encodeStream_eq : encodeStream = firstPass >>= fun _ => secondPass := by
  simp only [encodeStream, firstPass, secondPass, bind_assoc]

/-- What the first pass over a source leaves in the registers (R202). -/
structure FirstPass (cfg : Config) (r : Regs) (src : List Byte) (pending : List Bool) (tree : CodeTree) (r9 : Regs) : Prop where
  nodup : tree.symbols.Nodup
  leaves : 2 ≤ tree.leaves ∧ tree.leaves ≤ 256
  symbols : ∀ b, b ∈ tree.symbols ↔ r9.histAt b ≠ 0
  hist : ∀ b, (r9.histAt b).toNat = src.count b +
    if (Machine.symbols.countP fun x => src.contains x) < 2 ∧ (b = 0 ∨ b = 255) then 1 else 0
  entry : ∀ b, r9.entry b = match tree.codeOf b with
    | some code => CodeEntry.of code
    | none => CodeEntry.invalid
  written : r9.bytesWritten = BitVec.ofNat 64 ((packBits pending).length + (14 + (tree.dump cfg).length))
  read : r9.bytesRead = BitVec.ofNat 64 src.length
  scanCount : r9.scanCount = BitVec.ofNat 64 src.length
  hdr : r9.hdr = { magic := cfg.magic, perm := r.hdr.perm, treeSize := BitVec.ofNat 16 (3 * tree.leaves - 1)
                   fileSize := BitVec.ofNat 64 src.length }
  arg : r9.arg = r.arg
  out : r9.out = OutSide.of []
  code : r9.code = Code.empty
  inp : r9.inp = InSide.empty

namespace FirstPass

variable {src : List Byte} {pending : List Bool} {tree : CodeTree} {r9 : Regs}

/-- A byte has a valid entry where the tree has a code for it (R164). -/
theorem valid (h : FirstPass cfg r src pending tree r9) (b : Byte) : (r9.entry b).valid = (tree.codeOf b).isSome := by
  rw [h.entry]
  cases tree.codeOf b <;> rfl

/-- The bits of a byte's entry are its code (R184). -/
theorem codeOf (h : FirstPass cfg r src pending tree r9) {b : Byte} (hb : (tree.codeOf b).isSome = true) :
    r9.codeOf b = (tree.codeOf b).getD [] := by
  obtain ⟨code, hcode⟩ := Option.isSome_iff_exists.1 hb
  rw [Regs.codeOf, h.entry, hcode]
  have := CodeTree.code_length_lt (codeOf_eq_some hcode)
  have := h.leaves.2
  exact codeBits_of _ (by simp only at *; omega)

/-- Every byte of the source has a code. -/
theorem has_code (h : FirstPass cfg r src pending tree r9) {b : Byte} (hb : b ∈ src) : (tree.codeOf b).isSome = true := by
  rw [Option.isSome_iff_ne_none, ne_eq, codeOf_eq_none, not_not, h.symbols]
  intro h0
  have := h.hist b
  have hpos := List.count_pos_iff.2 hb
  rw [h0] at this
  simp at this
  omega

end FirstPass

/-- ENCODE up to the second pass, for a source with room for the forced counts (R202). -/
theorem runs_firstPass {pending : List Bool} (hq : q.Granting) (hsrc : q.src.length + 2 < 2 ^ 64)
    (hr : r.out = OutSide.of pending) (hp : pending.length < 8 * cfg.block) (h8 : pending.length % 8 = 0) :
    ∃ (r9 : Regs) (l t : CodeTree), FirstPass cfg r q.src pending (.node l t) r9 ∧
      Runs firstPass cfg r q () r9
        { q with
          srcPos := 0
          snk := q.snk ++ packBits pending ++ (headerBytes cfg.magic r.hdr.perm
            (BitVec.ofNat 16 (3 * (CodeTree.node l t).leaves - 1)) (BitVec.ofNat 64 q.src.length) ++
              (CodeTree.node l t).dump cfg) } := by
  -- the start, the histogram
  have hstart := runs_startDriver (cfg := cfg) (r := r) hq hr h8
  have hq1 : ({ q with srcPos := 0 } : Ports).Granting := ⟨hq.1, hq.2.1, Nat.zero_le _⟩
  let r1 : Regs := { r with bytesRead := 0, bytesWritten := 0, inp := InSide.empty }
  let r3 : Regs := { r1 with hist := Vector.replicate 256 0, scanCount := 0 }
  have hu1 : unreadBytes r3.inp { q with srcPos := 0 } = q.src := unreadBytes_rewound
  have hund : undelivered r3.inp { q with srcPos := 0 } = q.src := by simp [undelivered, r3, r1, InSide.empty]
  have h0 : ∀ b, r3.histAt b = 0 := fun b => by simp [Regs.histAt, r3]
  obtain ⟨h, i1, hscan, hcount, he1, hbp1, hw1⟩ := runs_scanLoop (cfg := cfg) (fuel := inputPasses) (r := r3)
    (q := { q with srcPos := 0 }) hq1 wf_empty rfl (by rw [hu1]; simp only [inputPasses]; omega)
    (by rw [hu1]; change (0 : Word).toNat + _ < _; simp; omega)
    (by intro b; rw [hu1, h0]; have := List.count_le_length (a := b) (l := q.src); simp; omega)
  rw [hu1, hund] at hscan
  simp only [hu1, h0] at hcount
  have hq4 : ({ q with srcPos := 0 + q.src.length } : Ports).Granting := ⟨hq.1, hq.2.1, by simp⟩
  let r4 : Regs := { r3 with hist := h, scanCount := r3.scanCount + BitVec.ofNat 64 q.src.length }.withInput i1 q.src.length
  have hhist : Runs histScan cfg { r1 with hist := Vector.replicate 256 0 } { q with srcPos := 0 } () r4
      { q with srcPos := 0 + q.src.length } := by
    unfold histScan requireInAligned
    simp only [bind_assoc, runs_getRegs_bind, runs_require_bind, runs_modifyRegs_bind]
    exact ⟨rfl, hscan⟩
  have hc4 : ∀ b, (r4.histAt b).toNat = q.src.count b := fun b => by
    have := hcount b
    change (h.getD b.toNat 0).toNat = _
    rw [this]; exact Nat.zero_add _
  have hlen : ∀ b, q.src.count b ≤ q.src.length := fun b => List.count_le_length
  have hforce := runs_histForce (cfg := cfg) (r := r4) (q := { q with srcPos := 0 + q.src.length })
    (by rw [hc4]; have := hlen 0; omega) (by rw [hc4]; have := hlen 255; omega)
  have hpres4 : r4.present.length = symbols.countP fun x => q.src.contains x := by
    rw [Regs.present, List.countP_eq_length_filter]
    congr 1
    refine List.filter_congr fun b _ => ?_
    have := hc4 b
    rw [Bool.eq_iff_iff, bne_iff_ne, List.contains_iff_mem, ← List.count_pos_iff, ← this, ne_eq, BitVec.toNat_eq]
    simp [Nat.pos_iff_ne_zero]
  obtain ⟨h5, hr5⟩ : ∃ h5, (if r4.present.length < 2 then (r4.bumpHist 0).bumpHist 255 else r4) = { r4 with hist := h5 } := by
    split
    · exact ⟨((r4.bumpHist 0).bumpHist 255).hist, rfl⟩
    · exact ⟨r4.hist, rfl⟩
  rw [hr5] at hforce
  let r5 : Regs := { r4 with hist := h5 }
  have hc5 : ∀ b, (r5.histAt b).toNat = q.src.count b +
      if (symbols.countP fun x => q.src.contains x) < 2 ∧ (b = 0 ∨ b = 255) then 1 else 0 := by
    intro b
    rw [show r5 = { r4 with hist := h5 } from rfl, ← hr5, hpres4]
    by_cases hlt : (symbols.countP fun x => q.src.contains x) < 2
    · have hadd : ∀ x, (r4.histAt x + 1).toNat = q.src.count x + 1 := by
        intro x
        have h1 := hc4 x; have h2 := hlen x
        rw [BitVec.toNat_add, h1]; simp; omega
      rw [if_pos hlt, Regs.histAt_bumpHist, Regs.histAt_bumpHist, Regs.histAt_bumpHist]
      by_cases hb1 : b = 255
      · subst hb1
        rw [if_pos rfl, if_neg (by decide), if_pos ⟨hlt, .inr rfl⟩, hadd]
      · by_cases hb2 : b = 0
        · subst hb2
          rw [if_neg (by decide), if_pos rfl, if_pos ⟨hlt, .inl rfl⟩, hadd]
        · rw [if_neg (by first | exact hb1 | exact Ne.symm hb1), if_neg (by first | exact hb2 | exact Ne.symm hb2),
            if_neg (fun hc => hc.2.elim hb2 hb1), hc4, Nat.add_zero]
    · rw [if_neg hlt, if_neg (fun hc => hlt hc.1), hc4, Nat.add_zero]
  have htotal : r5.total < 2 ^ 64 := by
    have e1 : r5.total = (symbols.map fun b => q.src.count b +
        if (symbols.countP fun x => q.src.contains x) < 2 ∧ (b = 0 ∨ b = 255) then 1 else 0).sum := by
      rw [Regs.total]; exact congrArg List.sum (List.map_congr_left fun b _ => hc5 b)
    have e2 : (symbols.map fun b : Byte =>
        if (symbols.countP fun x => q.src.contains x) < 2 ∧ (b = 0 ∨ b = 255) then 1 else 0).sum ≤ 2 := by
      by_cases hlt : (symbols.countP fun x => q.src.contains x) < 2
      · rw [List.map_congr_left (g := fun b : Byte => if b = 0 ∨ b = 255 then 1 else 0) fun b _ => by
          simp only [hlt, true_and]]
        exact sum_forced.le
      · rw [List.map_congr_left (g := fun _ : Byte => 0) fun b _ => if_neg fun hc => hlt hc.1]
        simp
    rw [e1, List.sum_map_add, sum_count]
    omega
  have htwo : 2 ≤ r5.present.length := by
    by_cases hlt : (symbols.countP fun x => q.src.contains x) < 2
    · refine two_le_present.2 ⟨0, 255, by decide, ?_, ?_⟩
      · intro hz
        have h1 := hc5 0
        rw [hz, if_pos ⟨hlt, .inl rfl⟩] at h1
        exact absurd h1 (Nat.succ_ne_zero _).symm
      · intro hz
        have h1 := hc5 255
        rw [hz, if_pos ⟨hlt, .inr rfl⟩] at h1
        exact absurd h1 (Nat.succ_ne_zero _).symm
    · have : r5 = r4 := by rw [show r5 = { r4 with hist := h5 } from rfl, ← hr5, hpres4, if_neg hlt]
      rw [this, hpres4]; omega
  -- the tree and the codes
  obtain ⟨p, hbuild, hB⟩ := runs_buildTree (cfg := cfg) (r := r5) (q := { q with srcPos := 0 + q.src.length })
    (by intro hc; rw [hc] at htwo; simp at htwo) htotal
  have hU := length_present_le (r := r5)
  have hroot := hB.root
  have hcnt := hB.count
  have hint : (p.node p.root).kind = .internal := hB.internal _ (by omega) (by omega)
  have hnil : p.root ≠ NIL := by simp only [NIL]; omega
  obtain ⟨l, t, htree⟩ : ∃ l t, p.tree p.root = .node l t := by
    have := hB.holds
    cases ht : p.tree p.root with
    | leaf s => rw [ht] at this; rw [this.2.1] at hint; cases hint
    | node l t => exact ⟨l, t, rfl⟩
  have hholds := hB.holds
  have hsyms := hB.symbols
  rw [htree] at hholds hsyms
  have hleaves : (CodeTree.node l t).leaves = r5.present.length := by
    rw [← CodeTree.length_symbols]; exact hsyms.length_eq
  have hnodup : (CodeTree.node l t).symbols.Nodup := hsyms.nodup_iff.2 nodup_present
  have hsym : ∀ b, b ∈ (CodeTree.node l t).symbols ↔ r5.histAt b ≠ 0 := fun b => by rw [hsyms.mem_iff, mem_present]
  let table := recordAll (Vector.replicate 256 CodeEntry.invalid) (CodeTree.node l t).codes
  have hcodes := runs_buildCodes (cfg := cfg) (r := { r5 with pool := p }) (q := { q with srcPos := 0 + q.src.length }) hnil
    hB.wf hholds
  let r7 : Regs := { r5 with pool := p, code := Code.empty, table := table }
  -- the header and the dump
  let hd : HeaderRegs := ⟨cfg.magic, r.hdr.perm, BitVec.ofNat 16 (3 * (CodeTree.node l t).leaves - 1), BitVec.ofNat 64 q.src.length⟩
  let hb := headerBytes cfg.magic r.hdr.perm (BitVec.ofNat 16 (3 * (CodeTree.node l t).leaves - 1)) (BitVec.ofNat 64 q.src.length)
  have hsize : ({ r7.sizeHeader with hdr := { r7.sizeHeader.hdr with magic := cfg.magic } } : Regs) = { r7 with hdr := hd } := by
    have e1 : r7.pool.unique = (CodeTree.node l t).leaves := hB.unique.trans hleaves.symm
    have e2 : r7.scanCount = BitVec.ofNat 64 q.src.length := BitVec.zero_add _
    simp only [Regs.sizeHeader, e1, e2]; rfl
  have hsize' : r7.sizeHeader.hdr.treeSize = hd.treeSize ∧ r7.sizeHeader.hdr.fileSize = hd.fileSize := by
    have e1 : r7.pool.unique = (CodeTree.node l t).leaves := hB.unique.trans hleaves.symm
    have e2 : r7.scanCount = BitVec.ofNat 64 q.src.length := BitVec.zero_add _
    simp only [Regs.sizeHeader, e1, e2, hd, and_self]
  have hwrite := runs_hdrWrite (cfg := cfg) (r := r7.sizeHeader) (q := { q with srcPos := 0 + q.src.length }) (l := pending)
    hq4 hr hp h8
  rw [hsize, hsize'.1, hsize'.2] at hwrite
  change Runs hdrWrite cfg r7.sizeHeader _ () ({ r7 with hdr := hd }.emitted cfg.block (pending ++ bitsOf hb))
    (({ q with srcPos := 0 + q.src.length } : Ports).emitted cfg.block (pending ++ bitsOf hb)) at hwrite
  let r8 : Regs := { r7 with hdr := hd }
  let q8 : Ports := { q with srcPos := 0 + q.src.length }
  let D := (CodeTree.node l t).dump cfg
  have hleft : (leftOver cfg.block (pending ++ bitsOf hb)).length % 8 = 0 := by
    rw [length_leftOver, Nat.mod_mod_of_dvd _ (Nat.dvd_mul_right 8 cfg.block), List.length_append, length_bitsOf]; omega
  have hdump : Runs dumpTree cfg (r8.emitted cfg.block (pending ++ bitsOf hb)) (q8.emitted cfg.block (pending ++ bitsOf hb))
      D.length (r8.flushed (pending ++ bitsOf hb ++ bitsOf D)) (q8.flushed (pending ++ bitsOf hb ++ bitsOf D)) := by
    have hD : (r8.emitted cfg.block (pending ++ bitsOf hb)).pool.dump cfg
        (r8.emitted cfg.block (pending ++ bitsOf hb)).pool.root = D := dump_of_holds hholds
    have h1 := runs_outBytes (cfg := cfg) (r := r8.emitted cfg.block (pending ++ bitsOf hb))
      (q := q8.emitted cfg.block (pending ++ bitsOf hb)) D hq4 rfl (length_leftOver_lt cfg.block_pos _) hleft
    rw [Regs.emitted_emitted, Ports.emitted_emitted] at h1
    have h2 := runs_flushOut (cfg := cfg) (r := r8.emitted cfg.block (pending ++ bitsOf hb ++ bitsOf D))
      (q := q8.emitted cfg.block (pending ++ bitsOf hb ++ bitsOf D)) hq4 rfl
    rw [Regs.emitted_flushed, Ports.emitted_flushed] at h2
    unfold dumpTree rootOperand requireOutAligned
    simp only [bind_assoc, runs_getRegs_bind, runs_require_bind, pure_bind, runs_getConfig_bind]
    rw [hD]
    refine ⟨bne_iff_ne.2 hnil, by simp [hleft], Runs.bind h1 (Runs.bind h2 ?_)⟩
    simp
  have hq9 : (q8.flushed (pending ++ bitsOf hb ++ bitsOf D)).Granting := hq4
  have hrew := runs_rewind (cfg := cfg) (r := r8.flushed (pending ++ bitsOf hb ++ bitsOf D)) hq9
  let r9 : Regs := { r8.flushed (pending ++ bitsOf hb ++ bitsOf D) with inp := InSide.empty }
  have hentry : ∀ b, r9.entry b = match (CodeTree.node l t).codeOf b with
      | some code => CodeEntry.of code
      | none => CodeEntry.invalid := fun b => entry_recordAll b rfl
  have hle256 : (CodeTree.node l t).leaves ≤ 256 := by omega
  have hpack : packBits (pending ++ bitsOf hb ++ bitsOf D) = packBits pending ++ (hb ++ D) := by
    rw [List.append_assoc, ← bitsOf_append, packBits_append _ _ h8, packBits_bitsOf]
  refine ⟨r9, l, t, ⟨hnodup, ⟨by omega, hle256⟩, hsym, hc5, hentry, ?_, ?_, ?_, rfl, rfl, rfl, rfl, rfl⟩, ?_⟩
  · change (0#64) + BitVec.ofNat 64 (packBits (pending ++ bitsOf hb ++ bitsOf D)).length = _
    rw [BitVec.zero_add, hpack, List.length_append, List.length_append, length_headerBytes]
  · exact BitVec.zero_add _
  · exact BitVec.zero_add _
  · have hclear : Runs histClear cfg r1 { q with srcPos := 0 } () { r1 with hist := Vector.replicate 256 0 }
        { q with srcPos := 0 } := runs_modifyRegs.2 ⟨rfl, rfl⟩
    have hsizes : Runs (modifyRegs Regs.sizeHeader) cfg r7 q8 () r7.sizeHeader q8 := runs_modifyRegs.2 ⟨rfl, rfl⟩
    have hend : ({ q8.flushed (pending ++ bitsOf hb ++ bitsOf D) with srcPos := 0 } : Ports) =
        { q with srcPos := 0, snk := q.snk ++ packBits pending ++ (hb ++ D) } := by
      rw [List.append_assoc q.snk, ← hpack]; rfl
    rw [hend] at hrew
    exact Runs.bind hstart (Runs.bind hclear (Runs.bind hhist (Runs.bind hforce (Runs.bind hbuild
      (Runs.bind hcodes (Runs.bind hsizes (Runs.bind hwrite (Runs.bind hdump hrew))))))))

/-- The second pass over a source of the length that was counted, all of whose bytes have codes (R202). -/
theorem runs_secondPass (hq : q.Granting) (hpos : q.srcPos = 0) (hsrc : q.src.length < 2 ^ 64) (hi : r.inp = InSide.empty)
    (ho : r.out = OutSide.of []) (hv : ∀ b ∈ q.src, (r.entry b).valid = true) (hn : q.src.length = r.hdr.fileSize.toNat) :
    ∃ i, Runs secondPass cfg r q (true, r.hdr.fileSize)
      ((r.withInput i q.src.length).flushed (q.src.flatMap r.codeOf)).nodeReset
      (({ q with srcPos := q.src.length } : Ports).flushed (q.src.flatMap r.codeOf)) := by
  have hu : unreadBytes r.inp q = q.src := by
    rw [hi]; have := unreadBytes_rewound (q := q); rwa [← hpos] at this
  have hund : undelivered r.inp q = q.src := by simp [undelivered, hi, InSide.empty, hpos]
  obtain ⟨i, hpay, -⟩ := runs_encodeLoop (cfg := cfg) (e := .inputChanged) (fuel := inputPasses) (n := 0) (r := r) (q := q)
    (l := []) hq (by rw [hi]; exact wf_empty) (by rw [hi]; rfl) ho (by have := cfg.block_pos; rw [List.length_nil]; omega)
    (by rw [hu]; simp only [inputPasses]; omega) (by rw [hu]; exact hv)
  rw [hu, hund, List.nil_append, Nat.zero_add, hpos, Nat.zero_add] at hpay
  have hflush := runs_flushOut (cfg := cfg) (r := (r.withInput i q.src.length).emitted cfg.block (q.src.flatMap r.codeOf))
    (q := ({ q with srcPos := q.src.length } : Ports).emitted cfg.block (q.src.flatMap r.codeOf))
    ⟨hq.1, hq.2.1, le_rfl⟩ rfl
  rw [Regs.emitted_flushed, Ports.emitted_flushed] at hflush
  refine ⟨i, ?_⟩
  unfold secondPass encodePayload requireInAligned
  simp only [bind_assoc, runs_getRegs_bind, runs_require_bind]
  refine ⟨by rw [hi]; rfl, Runs.bind hpay ?_⟩
  simp only [runs_getRegs_bind, runs_require_bind]
  refine ⟨(beq_iff_eq (b := r.hdr.fileSize.toNat)).2 hn, Runs.bind hflush ?_⟩
  simp only [runs_modifyRegs_bind, runs_pure]
  exact ⟨rfl, trivial, trivial⟩

/-- The second pass over another source: the codes of the bytes before the first one without a code are put out, and the
pass fails at that byte, or at the end if the length is not the one that was counted (R202, R259). -/
theorem fails_secondPass (hq : q.Granting) (hpos : q.srcPos = 0) (hsrc : q.src.length < 2 ^ 64) (hi : r.inp = InSide.empty)
    (ho : r.out = OutSide.of [])
    (hn : ¬ ((q.src.takeWhile fun b => (r.entry b).valid) = q.src ∧ q.src.length = r.hdr.fileSize.toNat)) :
    ∃ i pos, Fails secondPass cfg r q .inputChanged
      ((r.withInput i pos).emitted cfg.block ((q.src.takeWhile fun b => (r.entry b).valid).flatMap r.codeOf))
      (({ q with srcPos := pos } : Ports).emitted cfg.block
        ((q.src.takeWhile fun b => (r.entry b).valid).flatMap r.codeOf)) := by
  have hu : unreadBytes r.inp q = q.src := by
    rw [hi]; have := unreadBytes_rewound (q := q); rwa [← hpos] at this
  have hund : undelivered r.inp q = q.src := by simp [undelivered, hi, InSide.empty, hpos]
  have hw : r.inp.Wf cfg.block := by rw [hi]; exact wf_empty
  have ha : r.inp.bitPos % 8 = 0 := by rw [hi]; rfl
  have hl : ([] : List Bool).length < 8 * cfg.block := by have := cfg.block_pos; rw [List.length_nil]; omega
  obtain ⟨hval, hsplit⟩ := split_first (fun b => (r.entry b).valid) q.src
  unfold secondPass encodePayload requireInAligned
  simp only [bind_assoc, fails_getRegs_bind, fails_require_bind]
  rcases hsplit with hall | ⟨b, rest, hsplit, hb⟩
  · rw [hall] at hval ⊢
    obtain ⟨i, hpay, -⟩ := runs_encodeLoop (cfg := cfg) (e := .inputChanged) (fuel := inputPasses) (n := 0) (r := r) (q := q)
      (l := []) hq hw ha ho hl (by rw [hu]; simp only [inputPasses]; omega) (by rw [hu]; exact hval)
    rw [hu, hund, List.nil_append, Nat.zero_add, hpos, Nat.zero_add] at hpay
    refine ⟨i, q.src.length, .inr ⟨by rw [hi]; rfl, Runs.bind_fails hpay ?_⟩⟩
    simp only [fails_getRegs_bind, fails_require_bind]
    exact .inl ⟨beq_false_of_ne fun h => hn ⟨hall, h⟩, trivial, trivial, trivial⟩
  · obtain ⟨i, pos, hfail, -, -⟩ := fails_encodeLoop (cfg := cfg) (e := .inputChanged) (fuel := inputPasses) (n := 0) (r := r)
      (q := q) (l := []) hq hw ha ho hl (by
        have := congrArg List.length hsplit
        simp only [List.length_append] at this
        simp only [inputPasses]; omega) (hu.trans hsplit) hval hb
    rw [List.nil_append, hpos, Nat.sub_zero] at hfail
    exact ⟨i, pos, .inr ⟨by rw [hi]; rfl, Fails.bind hfail⟩⟩

/-- What ENCODE leaves, for a source with room for the forced counts (R202). -/
theorem runs_encodeStream {pending : List Bool} (hq : q.Granting) (hsrc : q.src.length + 2 < 2 ^ 64)
    (hr : r.out = OutSide.of pending) (hp : pending.length < 8 * cfg.block) (h8 : pending.length % 8 = 0) :
    ∃ (r9 : Regs) (l t : CodeTree) (i : InSide), FirstPass cfg r q.src pending (.node l t) r9 ∧
      Runs encodeStream cfg r q (true, BitVec.ofNat 64 q.src.length)
        ((r9.withInput i q.src.length).flushed (q.src.flatMap fun b => ((CodeTree.node l t).codeOf b).getD [])).nodeReset
        { q with
          srcPos := q.src.length
          snk := q.snk ++ packBits pending ++ (headerBytes cfg.magic r.hdr.perm
            (BitVec.ofNat 16 (3 * (CodeTree.node l t).leaves - 1)) (BitVec.ofNat 64 q.src.length) ++
              (CodeTree.node l t).dump cfg ++ packBits (q.src.flatMap fun b => ((CodeTree.node l t).codeOf b).getD [])) } := by
  obtain ⟨r9, l, t, hf, hrun⟩ := runs_firstPass (cfg := cfg) (r := r) hq hsrc hr hp h8
  have hfs : r9.hdr.fileSize = BitVec.ofNat 64 q.src.length := by rw [hf.hdr]
  obtain ⟨i, hrun2⟩ := runs_secondPass (cfg := cfg) (r := r9)
    (q := { q with
            srcPos := 0
            snk := q.snk ++ packBits pending ++ (headerBytes cfg.magic r.hdr.perm
              (BitVec.ofNat 16 (3 * (CodeTree.node l t).leaves - 1)) (BitVec.ofNat 64 q.src.length) ++
                (CodeTree.node l t).dump cfg) })
    ⟨hq.1, hq.2.1, Nat.zero_le _⟩ rfl (show q.src.length < 2 ^ 64 by omega) hf.inp hf.out
    (fun b hb => (hf.valid b).trans (hf.has_code hb)) (by
      rw [hfs, BitVec.toNat_ofNat, Nat.mod_eq_of_lt (by omega)])
  have hcodes : q.src.flatMap r9.codeOf = q.src.flatMap fun b => ((CodeTree.node l t).codeOf b).getD [] :=
    List.flatMap_congr fun b hb => hf.codeOf (hf.has_code hb)
  simp only [hfs, hcodes] at hrun2
  refine ⟨r9, l, t, i, hf, ?_⟩
  rw [encodeStream_eq]
  have := Runs.bind (f := fun _ => secondPass) hrun hrun2
  simp only [Ports.flushed, List.append_assoc] at this ⊢
  exact this

end Sys2Proof.Machine
end

