-- ==== Sys2Proof/Laws/Compose.lean ====
section
/-! SUPPORT. A property of procedures that holds of the single statements and of sequences holds of every command's body,
given the three loops over the input, whose passes are counted. -/

namespace Sys2Proof.Machine

/-- J holds of the single statements of the pseudocode, of the port procedures, and of sequences. The registers are changed
by a statement that leaves both buffers alone, or by an operation of a buffer. -/
structure Composes (J : {α : Type} → Proc α → Prop) : Prop where
  pure : ∀ {α : Type} (a : α), J (Pure.pure a : Proc α)
  raise : ∀ {α : Type} (e : ErrName), J (Machine.raise e : Proc α)
  bind : ∀ {α β : Type} {p : Proc α} {f : α → Proc β}, J p → (∀ a, J (f a)) → J (p >>= f)
  getRegs : J Machine.getRegs
  getConfig : J Machine.getConfig
  modifyRegs : ∀ f : Regs → Regs, (∀ r, (f r).inp = r.inp) → (∀ r, (f r).out = r.out) → J (Machine.modifyRegs f)
  refill : J Machine.refill
  advance : ∀ n, J (Machine.modifyRegs fun r => { r with inp := r.inp.advance n })
  rewind : J Machine.rewind
  outBit : ∀ b, J (Machine.outBit b)
  outByte : ∀ v, J (Machine.outByte v)
  flushOut : J Machine.flushOut

/-- A property that does not look at the write buffer: it holds of the write side's operations if it holds of SnkWrite. -/
theorem composes_of_snkWrite {J : {α : Type} → Proc α → Prop}
    (pure : ∀ {α : Type} (a : α), J (Pure.pure a : Proc α)) (raise : ∀ {α : Type} (e : ErrName), J (Machine.raise e : Proc α))
    (bind : ∀ {α β : Type} {p : Proc α} {f : α → Proc β}, J p → (∀ a, J (f a)) → J (p >>= f))
    (getRegs : J Machine.getRegs) (getConfig : J Machine.getConfig)
    (modifyRegs : ∀ f : Regs → Regs, (∀ r, (f r).inp = r.inp) → J (Machine.modifyRegs f)) (refill : J Machine.refill)
    (advance : ∀ n, J (Machine.modifyRegs fun r => { r with inp := r.inp.advance n })) (rewind : J Machine.rewind)
    (snkWrite : ∀ bytes, J (request .snkFail 0 (Ports.accepted bytes))) : Composes J := by
  have write : ∀ bytes, J (Machine.snkWrite bytes) := fun bytes => bind (snkWrite _) fun _ => modifyRegs _ fun _ => rfl
  have full : J Machine.writeFullBlock := bind getConfig fun _ => bind getRegs fun _ => by
    split
    · exact bind (write _) fun _ => modifyRegs _ fun _ => rfl
    · exact pure _
  refine ⟨pure, raise, bind, getRegs, getConfig, fun f hi _ => modifyRegs f hi, refill, advance, rewind,
    fun b => bind (modifyRegs _ fun _ => rfl) fun _ => full, fun v => bind (modifyRegs _ fun _ => rfl) fun _ => full,
    bind getRegs fun _ => ?_⟩
  split
  · exact bind (write _) fun _ => modifyRegs _ fun _ => rfl
  · exact modifyRegs _ fun _ => rfl

namespace Composes

variable {α : Type} {J : {α : Type} → Proc α → Prop} (h : Composes J)

include h

omit h in
theorem ite {b : Prop} [Decidable b] {p q : Proc α} (hp : J p) (hq : J q) : J (if b then p else q) := by
  split <;> assumption

theorem require (b : Bool) (e : ErrName) : J (Machine.require b e) := Composes.ite (h.pure _) (h.raise _)

theorem modifyPool (f : Pool → Pool) : J (Machine.modifyPool f) := h.modifyRegs _ (fun _ => rfl) fun _ => rfl

/-! ### The shared operations -/

theorem outBits (bs : List Bool) : J (Machine.outBits bs) := by
  induction bs with
  | nil => exact h.pure _
  | cons b bs ih => exact h.bind (h.outBit b) fun _ => ih

theorem outBytes (vs : List Byte) : J (Machine.outBytes vs) := by
  induction vs with
  | nil => exact h.pure _
  | cons v vs ih => exact h.bind (h.outByte v) fun _ => ih

theorem outCode (s : Byte) : J (Machine.outCode s) := h.bind h.getRegs fun _ => h.outBits _

theorem inBit : J Machine.inBit :=
  h.bind h.refill fun _ => Composes.ite (h.bind h.getRegs fun _ => h.bind (h.advance _) fun _ => h.pure _) (h.pure _)

theorem inByte : J Machine.inByte :=
  h.bind h.refill fun _ => Composes.ite (h.bind h.getRegs fun _ => h.bind (h.advance _) fun _ => h.pure _) (h.pure _)

theorem requireOutAligned : J Machine.requireOutAligned := h.bind h.getRegs fun _ => h.require _ _

theorem requireInAligned : J Machine.requireInAligned := h.bind h.getRegs fun _ => h.require _ _

theorem alloc (kind : Kind) (sym : Byte) (freq : Word) (left right : Nat) (e : ErrName) :
    J (Machine.alloc kind sym freq left right e) :=
  h.bind h.getRegs fun _ => h.bind (h.require _ _) fun _ => h.bind (h.modifyPool _) fun _ => h.pure _

theorem heapExtract : J Machine.heapExtract := h.bind h.getRegs fun _ => h.bind (h.modifyPool _) fun _ => h.pure _

theorem checkFree (n : Nat) : J (Machine.checkFree n) :=
  h.bind h.getRegs fun _ => h.bind (h.require _ _) fun _ => h.require _ _

theorem rootOperand : J Machine.rootOperand := h.bind h.getRegs fun _ => h.bind (h.require _ _) fun _ => h.pure _

theorem joinedFreq (a b : Word) : J (Machine.joinedFreq a b) := h.bind (h.require _ _) fun _ => h.pure _

/-! ### The commands' bodies -/

theorem histAdd (sym : Byte) : J (Machine.histAdd sym) :=
  h.bind h.getRegs fun _ => h.bind (h.require _ _) fun _ => h.modifyRegs _ (fun _ => rfl) fun _ => rfl

theorem histScan (hS : J (scanLoop inputPasses)) : J Machine.histScan :=
  h.bind h.requireInAligned fun _ => h.bind (h.modifyRegs _ (fun _ => rfl) fun _ => rfl) fun _ => hS

theorem histForce : J Machine.histForce :=
  h.bind h.getRegs fun _ => Composes.ite (h.bind (h.require _ _) fun _ => h.modifyRegs _ (fun _ => rfl) fun _ => rfl) (h.pure _)

theorem nodeJoin (na nb : Nat) : J (Machine.nodeJoin na nb) :=
  h.bind (h.checkFree _) fun _ => h.bind (h.checkFree _) fun _ => h.bind (h.require _ _) fun _ =>
    h.bind h.getRegs fun _ => h.bind (h.joinedFreq _ _) fun _ => h.bind (h.alloc _ _ _ _ _ _) fun _ =>
      h.bind (h.modifyPool _) fun _ => h.pure _

theorem mustInsert (x : Nat) : J (Machine.mustInsert x) :=
  h.bind h.getRegs fun _ => h.bind (h.require _ _) fun _ => h.modifyPool _

theorem mustExtract : J Machine.mustExtract :=
  h.bind h.getRegs fun _ => h.bind (h.require _ _) fun _ => h.heapExtract

theorem enqueueLeaves (l : List Byte) : J (Machine.enqueueLeaves l) := by
  induction l with
  | nil => exact h.pure _
  | cons s l ih =>
    exact h.bind h.getRegs fun _ => Composes.ite ih
      (h.bind (h.alloc _ _ _ _ _ _) fun _ => h.bind (h.mustInsert _) fun _ => ih)

theorem joinTwo : J Machine.joinTwo :=
  h.bind h.heapExtract fun _ => h.bind h.mustExtract fun _ => h.bind h.getRegs fun _ => h.bind (h.joinedFreq _ _) fun _ =>
    h.bind (h.alloc _ _ _ _ _ _) fun _ => h.bind (h.modifyPool _) fun _ => h.mustInsert _

theorem joinLoop (fuel : Nat) : J (Machine.joinLoop fuel) := by
  induction fuel with
  | zero => exact h.pure _
  | succ fuel ih => exact h.bind h.getRegs fun _ => Composes.ite (h.bind h.joinTwo fun _ => ih) (h.pure _)

theorem buildTree : J Machine.buildTree :=
  h.bind (h.modifyPool _) fun _ => h.bind (h.enqueueLeaves _) fun _ => h.bind h.getRegs fun _ =>
    h.bind (h.require _ _) fun _ => h.bind (h.joinLoop _) fun _ => h.bind h.heapExtract fun _ =>
      h.bind (h.modifyPool _) fun _ => h.pure _

theorem setRoot (na : Nat) : J (Machine.setRoot na) :=
  Composes.ite (h.modifyPool _) (h.bind (h.checkFree _) fun _ => h.modifyPool _)

theorem dumpTree : J Machine.dumpTree :=
  h.bind h.rootOperand fun _ => h.bind h.requireOutAligned fun _ => h.bind h.getConfig fun _ => h.bind h.getRegs fun _ =>
    h.bind (h.outBytes _) fun _ => h.bind h.flushOut fun _ => h.pure _

theorem dumpByte : J Machine.dumpByte :=
  h.bind h.inByte fun o => by cases o with
    | none => exact h.raise _
    | some b => exact h.pure _

theorem rebuildLeaf (sym : Byte) : J (Machine.rebuildLeaf sym) :=
  h.bind h.getRegs fun _ => h.bind (h.require _ _) fun _ => h.bind (h.alloc _ _ _ _ _ _) fun _ => h.modifyPool _

theorem rebuildInternal : J Machine.rebuildInternal := by
  refine h.bind h.getRegs fun r => ?_
  split
  · exact h.bind (h.modifyPool _) fun _ => h.bind (h.alloc _ _ _ _ _ _) fun _ => h.bind (h.modifyPool _) fun _ =>
      h.modifyPool _
  · exact h.raise _

theorem rebuildLoop (rem : Nat) : J (Machine.rebuildLoop rem) := by
  induction rem using rebuildLoop.induct with
  | case1 => exact h.pure _
  | case2 =>
    exact h.bind h.getConfig fun _ => h.bind h.dumpByte fun _ => Composes.ite (h.raise _) <|
      Composes.ite h.rebuildInternal (h.raise _)
  | case3 rem ih1 ih2 =>
    exact h.bind h.getConfig fun _ => h.bind h.dumpByte fun _ => Composes.ite
      (h.bind h.dumpByte fun _ => h.bind (h.rebuildLeaf _) fun _ => ih1) <|
      Composes.ite (h.bind h.rebuildInternal fun _ => ih2) (h.raise _)

theorem rebuiltRoot : J Machine.rebuiltRoot := by
  refine h.bind h.getRegs fun r => ?_
  split
  · exact h.bind (h.modifyPool _) fun _ => h.bind (h.require _ _) fun _ => h.bind (h.modifyPool _) fun _ => h.pure _
  · exact h.raise _

theorem rebuildTree : J Machine.rebuildTree :=
  h.bind h.requireInAligned fun _ => h.bind (h.modifyPool _) fun _ => h.bind h.getRegs fun _ =>
    h.bind (h.rebuildLoop _) fun _ => h.rebuiltRoot

theorem walkTo (fuel n : Nat) : J (Machine.walkTo fuel n) := by
  induction fuel generalizing n with
  | zero => exact h.pure _
  | succ fuel ih =>
    have push : ∀ b, J (walkPush b) := fun b =>
      h.bind h.getRegs fun _ => h.bind (h.require _ _) fun _ => h.modifyRegs _ (fun _ => rfl) fun _ => rfl
    have pop : J walkPop := h.modifyRegs _ (fun _ => rfl) fun _ => rfl
    exact h.bind h.getRegs fun _ => Composes.ite (h.modifyRegs _ (fun _ => rfl) fun _ => rfl) <|
      h.bind (push _) fun _ => h.bind (ih _) fun _ => h.bind pop fun _ => h.bind (push _) fun _ =>
        h.bind (ih _) fun _ => pop

theorem buildCodes : J Machine.buildCodes :=
  h.bind h.rootOperand fun _ => h.bind h.getRegs fun _ => h.bind (h.require _ _) fun _ =>
    h.bind (h.modifyRegs _ (fun _ => rfl) fun _ => rfl) fun _ => h.walkTo _ _

theorem hdrWrite : J Machine.hdrWrite :=
  h.bind h.requireOutAligned fun _ => h.bind h.getConfig fun _ => h.bind (h.modifyRegs _ (fun _ => rfl) fun _ => rfl) fun _ =>
    h.bind h.getRegs fun _ => h.outBytes _

theorem headerRead (n : Nat) : J (Machine.headerRead n) := by
  induction n with
  | zero => exact h.pure _
  | succ n ih =>
    exact h.bind h.inByte fun o => by cases o with
      | none => exact h.raise _
      | some b => exact h.bind ih fun _ => h.pure _

theorem hdrRead : J Machine.hdrRead :=
  h.bind h.requireInAligned fun _ => h.bind (h.headerRead _) fun _ => h.bind (h.modifyRegs _ (fun _ => rfl) fun _ => rfl) fun _ =>
    h.bind h.getConfig fun _ => h.bind h.getRegs fun _ => h.require _ _

theorem encodePayload (e : ErrName) (hE : J (encodeLoop e inputPasses 0)) : J (Machine.encodePayload e) :=
  h.bind h.requireInAligned fun _ => hE

theorem decodePayload (hD : ∀ todo x, J (decodeLoop (8 * inputPasses) todo x)) : J Machine.decodePayload :=
  h.bind h.rootOperand fun _ => h.bind h.getRegs fun _ => h.bind (h.require _ _) fun _ =>
    h.bind h.requireOutAligned fun _ => h.bind (hD _ _) fun _ => h.bind h.flushOut fun _ => h.pure _

theorem startDriver : J Machine.startDriver :=
  h.bind h.requireOutAligned fun _ => h.bind (h.modifyRegs _ (fun _ => rfl) fun _ => rfl) fun _ => h.rewind

theorem encodeStream (hS : J (scanLoop inputPasses)) (hE : ∀ e, J (encodeLoop e inputPasses 0)) : J Machine.encodeStream :=
  h.bind h.startDriver fun _ => h.bind (h.modifyRegs _ (fun _ => rfl) fun _ => rfl) fun _ => h.bind (h.histScan hS) fun _ => h.bind h.histForce fun _ =>
    h.bind h.buildTree fun _ => h.bind h.buildCodes fun _ => h.bind (h.modifyRegs _ (fun _ => rfl) fun _ => rfl) fun _ => h.bind h.hdrWrite fun _ =>
      h.bind h.dumpTree fun _ => h.bind h.rewind fun _ => h.bind (h.encodePayload _ (hE _)) fun _ => h.bind h.getRegs fun _ =>
        h.bind (h.require _ _) fun _ => h.bind h.flushOut fun _ => h.bind (h.modifyRegs _ (fun _ => rfl) fun _ => rfl) fun _ => h.pure _

theorem decodeStream (hD : ∀ todo x, J (decodeLoop (8 * inputPasses) todo x)) : J Machine.decodeStream :=
  h.bind h.startDriver fun _ => h.bind h.hdrRead fun _ => h.bind h.rebuildTree fun _ =>
    h.bind (h.decodePayload hD) fun _ => h.bind (h.modifyRegs _ (fun _ => rfl) fun _ => rfl) fun _ => h.pure _

/-- Every command but SOFT_RESET runs a body of which J holds. The body does not depend on the state; CLEAR_ERR changes
STATUS first. -/
theorem exec_body (hS : J (scanLoop inputPasses)) (hE : ∀ e, J (encodeLoop e inputPasses 0))
    (hD : ∀ todo x, J (decodeLoop (8 * inputPasses) todo x)) (i : Instr) (hi : i ≠ .softReset) :
    ∃ body : Proc Answer, J body ∧ ∀ s : State, exec i s = .next (State.perform
      { s with status := if i = .clearErr then s.status.clearErr else s.status } i
      (decide (i = .encode ∨ i = .decode)) body) := by
  have hr := h.getRegs
  cases i with
  | nop => exact ⟨_, h.pure _, fun s => rfl⟩
  | softReset => exact absurd rfl hi
  | clearErr => exact ⟨_, h.pure _, fun s => rfl⟩
  | histClear =>
    exact ⟨_, h.bind (h.modifyRegs (fun r => { r with hist := Vector.replicate 256 0 }) (fun _ => rfl) fun _ => rfl) fun _ => h.pure _, fun s => rfl⟩
  | histAdd sym => exact ⟨_, h.bind (h.histAdd sym) fun _ => h.bind hr fun _ => h.pure _, fun s => rfl⟩
  | histScan => exact ⟨_, h.bind (h.histScan hS) fun _ => h.bind hr fun _ => h.pure _, fun s => rfl⟩
  | histForce => exact ⟨_, h.bind h.histForce fun _ => h.bind hr fun _ => h.pure _, fun s => rfl⟩
  | nodeReset => exact ⟨_, h.bind (h.modifyRegs Regs.nodeReset (fun _ => rfl) fun _ => rfl) fun _ => h.pure _, fun s => rfl⟩
  | nodeLeaf sym =>
    exact ⟨_, h.bind (h.bind hr fun r => h.pure r.arg) fun f => h.bind (h.alloc .leaf sym f NIL NIL .nodePoolFull) fun _ =>
      h.pure _, fun s => rfl⟩
  | nodeJoin na nb => exact ⟨_, h.bind (h.nodeJoin na nb) fun _ => h.pure _, fun s => rfl⟩
  | pqCreate cap =>
    exact ⟨_, h.bind (h.require _ _) fun _ => h.bind (h.modifyPool (·.queueCreated cap)) fun _ => h.pure _, fun s => rfl⟩
  | pqEnqueue na =>
    exact ⟨_, h.bind (h.checkFree na) fun _ => h.bind hr fun r => Composes.ite (h.pure _)
      (h.bind (h.modifyPool (·.heapInsert na)) fun _ => h.pure _), fun s => rfl⟩
  | pqDequeue =>
    exact ⟨_, h.bind hr fun r => Composes.ite (h.pure _) (h.bind h.heapExtract fun _ => h.pure _), fun s => rfl⟩
  | buildTree => exact ⟨_, h.bind h.buildTree fun _ => h.pure _, fun s => rfl⟩
  | setRoot na => exact ⟨_, h.bind (h.setRoot na) fun _ => h.pure _, fun s => rfl⟩
  | dumpTree => exact ⟨_, h.bind h.dumpTree fun _ => h.pure _, fun s => rfl⟩
  | rebuildTree => exact ⟨_, h.bind h.rebuildTree fun _ => h.pure _, fun s => rfl⟩
  | codeClear => exact ⟨_, h.bind (h.modifyRegs (fun r => { r with code := Code.empty }) (fun _ => rfl) fun _ => rfl) fun _ => h.pure _, fun s => rfl⟩
  | codePush b =>
    exact ⟨_, h.bind hr fun r => Composes.ite (h.pure _)
      (h.bind (h.modifyRegs (fun r => { r with code := r.code.push b }) (fun _ => rfl) fun _ => rfl) fun _ => h.pure _), fun s => rfl⟩
  | codePop =>
    exact ⟨_, h.bind hr fun r => Composes.ite (h.pure _)
      (h.bind (h.modifyRegs (fun r => { r with code := r.code.pop }) (fun _ => rfl) fun _ => rfl) fun _ => h.pure _), fun s => rfl⟩
  | buildCodes => exact ⟨_, h.bind h.buildCodes fun _ => h.bind hr fun _ => h.pure _, fun s => rfl⟩
  | hdrWrite => exact ⟨_, h.bind h.hdrWrite fun _ => h.pure _, fun s => rfl⟩
  | hdrRead => exact ⟨_, h.bind h.hdrRead fun _ => h.pure _, fun s => rfl⟩
  | bitWrite b => exact ⟨_, h.bind (h.outBit b) fun _ => h.bind hr fun _ => h.pure _, fun s => rfl⟩
  | codeWrite sym =>
    exact ⟨_, h.bind hr fun r => h.bind (h.require _ _) fun _ => h.bind (h.outCode sym) fun _ => h.pure _, fun s => rfl⟩
  | byteWrite v =>
    exact ⟨_, h.bind h.requireOutAligned fun _ => h.bind (h.outByte v) fun _ => h.bind hr fun _ => h.pure _, fun s => rfl⟩
  | flush => exact ⟨_, h.bind hr fun _ => h.bind h.flushOut fun _ => h.pure _, fun s => rfl⟩
  | bitRead =>
    refine ⟨_, h.bind (f := fun o => match o with
      | none => Pure.pure (false, 0)
      | some b => Pure.pure (true, (BitVec.ofBool b).setWidth 64)) h.inBit fun o => ?_, fun s => rfl⟩
    cases o <;> exact h.pure _
  | byteRead =>
    refine ⟨_, h.bind h.requireInAligned fun _ => h.bind (f := fun o => match o with
      | none => Pure.pure (false, 0)
      | some v => Pure.pure (true, v.setWidth 64)) h.inByte fun o => ?_, fun s => rfl⟩
    cases o <;> exact h.pure _
  | srcRewind => exact ⟨_, h.bind h.rewind fun _ => h.pure _, fun s => rfl⟩
  | encodePayload =>
    exact ⟨_, h.bind (h.encodePayload _ (hE _)) fun _ => h.bind h.flushOut fun _ => h.pure _, fun s => rfl⟩
  | decodePayload => exact ⟨_, h.bind (h.decodePayload hD) fun _ => h.pure _, fun s => rfl⟩
  | encode => exact ⟨_, h.encodeStream hS hE, fun s => rfl⟩
  | decode => exact ⟨_, h.decodeStream hD, fun s => rfl⟩

end Composes

end Sys2Proof.Machine
end

