-- ==== Sys2Proof/Laws/Frames.lean ====
section
/-! SUPPORT. What each procedure may write: a property that the writes of its unit leave alone is kept, however the
procedure ends. The units: the read side, the write side, the tree and queue unit, the histogram, the codes, the header. -/

namespace Sys2Proof.Machine

variable {α β : Type} {P : Ctx → Prop}

/-! ### Which writes leave a property alone -/

/-- P does not depend on the read side: INBUF, BYTES_READ, the host's position and its replies. -/
def ReadClosed (P : Ctx → Prop) : Prop :=
  ∀ c i n pos plan replay given, P c →
    P { c with
      regs := { c.regs with inp := i, bytesRead := n }, port := { c.port with srcPos := pos, plan := plan }
      replay := replay, given := given }

/-- P does not depend on the write side, but for what the sink had before. The answers stay the same ones, and a SnkWrite's
answer has no bytes. -/
def WriteClosed (P : Ctx → Prop) : Prop :=
  ∀ c o n bytes plan replay given, (∀ x, x ∈ replay ∨ x ∈ given → x ∈ c.replay ∨ x ∈ c.given ∨ x = []) → P c →
    P { c with
      regs := { c.regs with out := o, bytesWritten := n }, port := { c.port with snk := c.port.snk ++ bytes, plan := plan }
      replay := replay, given := given }

/-- P does not depend on the tree and queue unit. -/
def PoolClosed (P : Ctx → Prop) : Prop := ∀ c p, P c → P { c with regs := { c.regs with pool := p } }

/-- P does not depend on the histogram. -/
def HistClosed (P : Ctx → Prop) : Prop := ∀ c h, P c → P { c with regs := { c.regs with hist := h } }

/-- P does not depend on SCAN_COUNT. -/
def ScanClosed (P : Ctx → Prop) : Prop := ∀ c n, P c → P { c with regs := { c.regs with scanCount := n } }

/-- P does not depend on the code register. -/
def CodeClosed (P : Ctx → Prop) : Prop := ∀ c k, P c → P { c with regs := { c.regs with code := k } }

/-- P does not depend on the code table. -/
def TableClosed (P : Ctx → Prop) : Prop := ∀ c t, P c → P { c with regs := { c.regs with table := t } }

/-- P does not depend on the header registers. -/
def HeaderClosed (P : Ctx → Prop) : Prop := ∀ c h, P c → P { c with regs := { c.regs with hdr := h } }

/-! ### Statements -/

theorem keeps_pure (a : α) : Keeps P (pure a : Proc α) := Triple.pure a fun _ h => h

theorem keeps_raise (e : ErrName) : Keeps P (raise e : Proc α) := Triple.raise e fun _ h => h

theorem keeps_throw (e : Stop) : Keeps P (throw e : Proc α) := Triple.throw e fun _ h => h

theorem keeps_bind {p : Proc α} {f : α → Proc β} (hp : Keeps P p) (hf : ∀ a, Keeps P (f a)) : Keeps P (p >>= f) :=
  Triple.bind hp hf

theorem keeps_map {p : Proc α} (f : α → β) (hp : Keeps P p) : Keeps P (f <$> p) := Triple.map f hp

theorem keeps_ite {b : Prop} [Decidable b] {p q : Proc α} (hp : Keeps P p) (hq : Keeps P q) :
    Keeps P (if b then p else q) := Triple.ite (fun _ => hp) fun _ => hq

theorem keeps_getRegs : Keeps P getRegs := fun _ h => h

theorem keeps_getConfig : Keeps P getConfig := fun _ h => h

theorem keeps_require (b : Bool) (e : ErrName) : Keeps P (require b e) := Triple.require b e (fun _ h _ => h) fun _ h _ => h

theorem keeps_modifyRegs {f : Regs → Regs} (h : ∀ c, P c → P { c with regs := f c.regs }) : Keeps P (modifyRegs f) := h

theorem keeps_modifyPool (hP : PoolClosed P) (f : Pool → Pool) : Keeps P (modifyPool f) := fun c h => hP c (f c.regs.pool) h

/-! ### The shared operations -/

theorem keeps_request {e : ErrName} {n : Nat} {grant : Ports → Nat → List Byte × Ports}
    (h : ∀ c plan, P c → P { c with port := { c.port with plan := plan } })
    (hr : ∀ c bytes replay, c.replay = bytes :: replay → P c → P { c with replay := replay, given := c.given ++ [bytes] })
    (hg : ∀ c k, P c → P { c with port := (grant c.port k).2, given := c.given ++ [(grant c.port k).1] }) :
    Keeps P (request e n grant) := by
  intro c hc
  rcases c with ⟨cfg, r, p, rep, giv⟩
  cases rep with
  | cons bytes rep => simpa [request] using hr _ bytes rep rfl hc
  | nil =>
    cases hpl : p.plan with
    | nil =>
      cases hl : p.later with
      | ok => simpa [request, Ports.takeReply, hpl, hl] using hg _ n hc
      | okShort k => simpa [request, Ports.takeReply, hpl, hl] using hg _ (min k n) hc
      | fail => simpa [request, Ports.takeReply, hpl, hl] using hc
      | hold => simpa [request, Ports.takeReply, hpl, hl] using hc
    | cons reply plan =>
      have h1 := h _ plan hc
      cases reply with
      | ok => simpa [request, Ports.takeReply, hpl] using hg _ n h1
      | okShort k => simpa [request, Ports.takeReply, hpl] using hg _ (min k n) h1
      | fail => simpa [request, Ports.takeReply, hpl] using h1
      | hold => simpa [request, Ports.takeReply, hpl] using h1

theorem keeps_srcRead (hP : ReadClosed P) : Keeps P srcRead := by
  unfold srcRead
  refine keeps_bind keeps_getConfig fun cfg => keeps_bind (keeps_request ?_ ?_ ?_) fun bytes =>
    keeps_bind (keeps_modifyRegs ?_) fun _ => keeps_pure _
  · exact fun c plan h => hP c c.regs.inp c.regs.bytesRead c.port.srcPos plan c.replay c.given h
  · exact fun c bytes replay _ h => hP c c.regs.inp c.regs.bytesRead c.port.srcPos c.port.plan replay _ h
  · exact fun c k h => hP c c.regs.inp c.regs.bytesRead _ c.port.plan c.replay _ h
  · exact fun c h => hP c c.regs.inp _ c.port.srcPos c.port.plan c.replay c.given h

theorem keeps_srcRewind (hP : ReadClosed P) : Keeps P srcRewind := by
  unfold srcRewind
  refine keeps_bind (keeps_request ?_ ?_ ?_) fun _ => keeps_pure _
  · exact fun c plan h => hP c c.regs.inp c.regs.bytesRead c.port.srcPos plan c.replay c.given h
  · exact fun c bytes replay _ h => hP c c.regs.inp c.regs.bytesRead c.port.srcPos c.port.plan replay _ h
  · exact fun c k h => hP c c.regs.inp c.regs.bytesRead 0 c.port.plan c.replay _ h

theorem keeps_snkWrite (hP : WriteClosed P) (bytes : List Byte) : Keeps P (snkWrite bytes) := by
  unfold snkWrite
  refine keeps_bind (keeps_request ?_ ?_ ?_) fun _ => keeps_modifyRegs ?_
  · intro c plan h
    simpa using hP c c.regs.out c.regs.bytesWritten [] plan c.replay c.given (by tauto) h
  · intro c b replay hr h
    simpa using hP c c.regs.out c.regs.bytesWritten [] c.port.plan replay (c.given ++ [b]) (by
      simp only [hr, List.mem_append, List.mem_cons, List.not_mem_nil, or_false]; tauto) h
  · intro c k h
    exact hP c c.regs.out c.regs.bytesWritten bytes c.port.plan c.replay (c.given ++ [[]]) (by
      simp only [List.mem_append, List.mem_cons, List.not_mem_nil, or_false]; tauto) h
  · intro c h
    simpa using hP c c.regs.out (c.regs.bytesWritten + BitVec.ofNat 64 bytes.length) [] c.port.plan c.replay c.given
      (by tauto) h

theorem keeps_modifyOut (hP : WriteClosed P) (f : Regs → OutSide) :
    Keeps P (modifyRegs fun r => { r with out := f r }) := by
  intro c h
  simpa using hP c (f c.regs) c.regs.bytesWritten [] c.port.plan c.replay c.given (by tauto) h

theorem keeps_modifyIn (hP : ReadClosed P) (f : Regs → InSide) :
    Keeps P (modifyRegs fun r => { r with inp := f r }) :=
  fun c h => hP c (f c.regs) c.regs.bytesRead c.port.srcPos c.port.plan c.replay c.given h

theorem keeps_writeFullBlock (hP : WriteClosed P) : Keeps P writeFullBlock := by
  unfold writeFullBlock
  exact keeps_bind keeps_getConfig fun _ => keeps_bind keeps_getRegs fun _ =>
    keeps_ite (keeps_bind (keeps_snkWrite hP _) fun _ => keeps_modifyOut hP fun _ => OutSide.empty) (keeps_pure _)

theorem keeps_outBit (hP : WriteClosed P) (b : Bool) : Keeps P (outBit b) :=
  keeps_bind (keeps_modifyOut hP _) fun _ => keeps_writeFullBlock hP

theorem keeps_outByte (hP : WriteClosed P) (v : Byte) : Keeps P (outByte v) :=
  keeps_bind (keeps_modifyOut hP _) fun _ => keeps_writeFullBlock hP

theorem keeps_outBits (hP : WriteClosed P) (bs : List Bool) : Keeps P (outBits bs) := by
  induction bs with
  | nil => exact keeps_pure _
  | cons b bs ih => exact keeps_bind (keeps_outBit hP b) fun _ => ih

theorem keeps_outBytes (hP : WriteClosed P) (vs : List Byte) : Keeps P (outBytes vs) := by
  induction vs with
  | nil => exact keeps_pure _
  | cons v vs ih => exact keeps_bind (keeps_outByte hP v) fun _ => ih

theorem keeps_outCode (hP : WriteClosed P) (s : Byte) : Keeps P (outCode s) :=
  keeps_bind keeps_getRegs fun _ => keeps_outBits hP _

theorem keeps_flushOut (hP : WriteClosed P) : Keeps P flushOut := by
  unfold flushOut
  exact keeps_bind keeps_getRegs fun _ => keeps_ite
    (keeps_bind (keeps_snkWrite hP _) fun _ => keeps_modifyOut hP fun _ => OutSide.empty)
    (keeps_modifyOut hP fun _ => OutSide.empty)

theorem keeps_refill (hP : ReadClosed P) : Keeps P refill := by
  unfold refill
  exact keeps_bind keeps_getConfig fun _ => keeps_bind keeps_getRegs fun _ => keeps_ite (keeps_pure _) <|
    keeps_ite (keeps_pure _) <| keeps_bind (keeps_srcRead hP) fun _ => keeps_bind (keeps_modifyIn hP _) fun _ => keeps_pure _

theorem keeps_inBit (hP : ReadClosed P) : Keeps P inBit := by
  unfold inBit
  exact keeps_bind (keeps_refill hP) fun _ => keeps_ite
    (keeps_bind keeps_getRegs fun _ => keeps_bind (keeps_modifyIn hP _) fun _ => keeps_pure _) (keeps_pure _)

theorem keeps_inByte (hP : ReadClosed P) : Keeps P inByte := by
  unfold inByte
  exact keeps_bind (keeps_refill hP) fun _ => keeps_ite
    (keeps_bind keeps_getRegs fun _ => keeps_bind (keeps_modifyIn hP _) fun _ => keeps_pure _) (keeps_pure _)

theorem keeps_rewind (hP : ReadClosed P) : Keeps P rewind :=
  keeps_bind (keeps_srcRewind hP) fun _ => keeps_modifyIn hP fun _ => InSide.empty

theorem keeps_requireOutAligned : Keeps P requireOutAligned := keeps_bind keeps_getRegs fun _ => keeps_require _ _

theorem keeps_requireInAligned : Keeps P requireInAligned := keeps_bind keeps_getRegs fun _ => keeps_require _ _

theorem keeps_alloc (hP : PoolClosed P) (kind : Kind) (sym : Byte) (freq : Word) (left right : Nat) (e : ErrName) :
    Keeps P (alloc kind sym freq left right e) :=
  keeps_bind keeps_getRegs fun _ => keeps_bind (keeps_require _ _) fun _ => keeps_bind (keeps_modifyPool hP _) fun _ =>
    keeps_pure _

theorem keeps_heapExtract (hP : PoolClosed P) : Keeps P heapExtract :=
  keeps_bind keeps_getRegs fun _ => keeps_bind (keeps_modifyPool hP _) fun _ => keeps_pure _

theorem keeps_checkFree (n : Nat) : Keeps P (checkFree n) :=
  keeps_bind keeps_getRegs fun _ => keeps_bind (keeps_require _ _) fun _ => keeps_require _ _

theorem keeps_rootOperand : Keeps P rootOperand :=
  keeps_bind keeps_getRegs fun _ => keeps_bind (keeps_require _ _) fun _ => keeps_pure _

theorem keeps_frequencyOperand : Keeps P frequencyOperand := keeps_bind keeps_getRegs fun _ => keeps_pure _

theorem keeps_joinedFreq (a b : Word) : Keeps P (joinedFreq a b) := keeps_bind (keeps_require _ _) fun _ => keeps_pure _

/-! ### The commands' bodies -/

theorem keeps_histClear (hP : HistClosed P) : Keeps P histClear := fun c h => hP c _ h

theorem keeps_histAdd (hP : HistClosed P) (sym : Byte) : Keeps P (histAdd sym) :=
  keeps_bind keeps_getRegs fun _ => keeps_bind (keeps_require _ _) fun _ => fun c h => hP c _ h

theorem keeps_scanLoop (hR : ReadClosed P) (hH : HistClosed P) (hS : ScanClosed P) (fuel : Nat) :
    Keeps P (scanLoop fuel) := by
  induction fuel with
  | zero => exact keeps_throw _
  | succ fuel ih =>
    unfold scanLoop
    refine keeps_bind (keeps_inByte hR) fun o => ?_
    cases o with
    | none => exact keeps_pure _
    | some b =>
      exact keeps_bind keeps_getRegs fun _ => keeps_bind (keeps_require _ _) fun _ =>
        keeps_bind (fun c h => hS _ (c.regs.scanCount + 1) (hH c (c.regs.bumpHist b).hist h)) fun _ => ih

theorem keeps_histScan (hR : ReadClosed P) (hH : HistClosed P) (hS : ScanClosed P) : Keeps P histScan :=
  keeps_bind keeps_requireInAligned fun _ => keeps_bind (fun c h => hS c _ h) fun _ => keeps_scanLoop hR hH hS _

theorem keeps_histForce (hH : HistClosed P) : Keeps P histForce :=
  keeps_bind keeps_getRegs fun _ => keeps_ite
    (keeps_bind (keeps_require _ _) fun _ => fun c h => hH c _ h) (keeps_pure _)

theorem keeps_nodeJoin (hP : PoolClosed P) (na nb : Nat) : Keeps P (nodeJoin na nb) :=
  keeps_bind (keeps_checkFree _) fun _ => keeps_bind (keeps_checkFree _) fun _ => keeps_bind (keeps_require _ _) fun _ =>
    keeps_bind keeps_getRegs fun _ => keeps_bind (keeps_joinedFreq _ _) fun _ =>
      keeps_bind (keeps_alloc hP _ _ _ _ _ _) fun _ => keeps_bind (keeps_modifyPool hP _) fun _ => keeps_pure _

theorem keeps_mustInsert (hP : PoolClosed P) (x : Nat) : Keeps P (mustInsert x) :=
  keeps_bind keeps_getRegs fun _ => keeps_bind (keeps_require _ _) fun _ => keeps_modifyPool hP _

theorem keeps_mustExtract (hP : PoolClosed P) : Keeps P mustExtract :=
  keeps_bind keeps_getRegs fun _ => keeps_bind (keeps_require _ _) fun _ => keeps_heapExtract hP

theorem keeps_enqueueLeaves (hP : PoolClosed P) (l : List Byte) : Keeps P (enqueueLeaves l) := by
  induction l with
  | nil => exact keeps_pure _
  | cons s l ih =>
    exact keeps_bind keeps_getRegs fun _ => keeps_ite ih
      (keeps_bind (keeps_alloc hP _ _ _ _ _ _) fun _ => keeps_bind (keeps_mustInsert hP _) fun _ => ih)

theorem keeps_joinTwo (hP : PoolClosed P) : Keeps P joinTwo :=
  keeps_bind (keeps_heapExtract hP) fun _ => keeps_bind (keeps_mustExtract hP) fun _ => keeps_bind keeps_getRegs fun _ =>
    keeps_bind (keeps_joinedFreq _ _) fun _ => keeps_bind (keeps_alloc hP _ _ _ _ _ _) fun _ =>
      keeps_bind (keeps_modifyPool hP _) fun _ => keeps_mustInsert hP _

theorem keeps_joinLoop (hP : PoolClosed P) (fuel : Nat) : Keeps P (joinLoop fuel) := by
  induction fuel with
  | zero => exact keeps_pure _
  | succ fuel ih =>
    exact keeps_bind keeps_getRegs fun _ => keeps_ite (keeps_bind (keeps_joinTwo hP) fun _ => ih) (keeps_pure _)

theorem keeps_buildTree (hP : PoolClosed P) : Keeps P buildTree :=
  keeps_bind (keeps_modifyPool hP _) fun _ => keeps_bind (keeps_enqueueLeaves hP _) fun _ => keeps_bind keeps_getRegs fun _ =>
    keeps_bind (keeps_require _ _) fun _ => keeps_bind (keeps_joinLoop hP _) fun _ =>
      keeps_bind (keeps_heapExtract hP) fun _ => keeps_bind (keeps_modifyPool hP _) fun _ => keeps_pure _

theorem keeps_setRoot (hP : PoolClosed P) (na : Nat) : Keeps P (setRoot na) :=
  keeps_ite (keeps_modifyPool hP _) (keeps_bind (keeps_checkFree _) fun _ => keeps_modifyPool hP _)

theorem keeps_dumpTree (hP : WriteClosed P) : Keeps P dumpTree :=
  keeps_bind keeps_rootOperand fun _ => keeps_bind keeps_requireOutAligned fun _ => keeps_bind keeps_getConfig fun _ =>
    keeps_bind keeps_getRegs fun _ => keeps_bind (keeps_outBytes hP _) fun _ => keeps_bind (keeps_flushOut hP) fun _ =>
      keeps_pure _

theorem keeps_dumpByte (hP : ReadClosed P) : Keeps P dumpByte := by
  refine keeps_bind (keeps_inByte hP) fun o => ?_
  cases o with
  | none => exact keeps_raise _
  | some b => exact keeps_pure _

theorem keeps_rebuildLeaf (hP : PoolClosed P) (sym : Byte) : Keeps P (rebuildLeaf sym) :=
  keeps_bind keeps_getRegs fun _ => keeps_bind (keeps_require _ _) fun _ => keeps_bind (keeps_alloc hP _ _ _ _ _ _) fun _ =>
    keeps_modifyPool hP _

theorem keeps_rebuildInternal (hP : PoolClosed P) : Keeps P rebuildInternal := by
  refine keeps_bind keeps_getRegs fun r => ?_
  split
  · exact keeps_bind (keeps_modifyPool hP _) fun _ => keeps_bind (keeps_alloc hP _ _ _ _ _ _) fun _ =>
      keeps_bind (keeps_modifyPool hP _) fun _ => keeps_modifyPool hP _
  · exact keeps_raise _

theorem keeps_rebuildLoop (hR : ReadClosed P) (hP : PoolClosed P) (rem : Nat) : Keeps P (rebuildLoop rem) := by
  induction rem using rebuildLoop.induct with
  | case1 => exact keeps_pure _
  | case2 =>
    exact keeps_bind keeps_getConfig fun _ => keeps_bind (keeps_dumpByte hR) fun _ => keeps_ite (keeps_raise _) <|
      keeps_ite (keeps_rebuildInternal hP) (keeps_raise _)
  | case3 rem ih1 ih2 =>
    exact keeps_bind keeps_getConfig fun _ => keeps_bind (keeps_dumpByte hR) fun _ => keeps_ite
      (keeps_bind (keeps_dumpByte hR) fun _ => keeps_bind (keeps_rebuildLeaf hP _) fun _ => ih1) <|
      keeps_ite (keeps_bind (keeps_rebuildInternal hP) fun _ => ih2) (keeps_raise _)

theorem keeps_rebuiltRoot (hP : PoolClosed P) : Keeps P rebuiltRoot := by
  refine keeps_bind keeps_getRegs fun r => ?_
  split
  · exact keeps_bind (keeps_modifyPool hP _) fun _ => keeps_bind (keeps_require _ _) fun _ =>
      keeps_bind (keeps_modifyPool hP _) fun _ => keeps_pure _
  · exact keeps_raise _

theorem keeps_rebuildTree (hR : ReadClosed P) (hP : PoolClosed P) : Keeps P rebuildTree :=
  keeps_bind keeps_requireInAligned fun _ => keeps_bind (keeps_modifyPool hP _) fun _ => keeps_bind keeps_getRegs fun _ =>
    keeps_bind (keeps_rebuildLoop hR hP _) fun _ => keeps_rebuiltRoot hP

theorem keeps_walkTo (hT : TableClosed P) (hC : CodeClosed P) (fuel n : Nat) : Keeps P (walkTo fuel n) := by
  induction fuel generalizing n with
  | zero => exact keeps_pure _
  | succ fuel ih =>
    have push : ∀ b, Keeps P (walkPush b) := fun b =>
      keeps_bind keeps_getRegs fun _ => keeps_bind (keeps_require _ _) fun _ => fun c h => hC c _ h
    have pop : Keeps P walkPop := fun c h => hC c _ h
    unfold walkTo
    exact keeps_bind keeps_getRegs fun _ => keeps_ite (fun c h => hT c _ h) <|
      keeps_bind (push _) fun _ => keeps_bind (ih _) fun _ => keeps_bind pop fun _ => keeps_bind (push _) fun _ =>
        keeps_bind (ih _) fun _ => pop

theorem keeps_buildCodes (hT : TableClosed P) (hC : CodeClosed P) : Keeps P buildCodes :=
  keeps_bind keeps_rootOperand fun _ => keeps_bind keeps_getRegs fun _ => keeps_bind (keeps_require _ _) fun _ =>
    keeps_bind (fun c h => hC _ Code.empty (hT c (Vector.replicate 256 CodeEntry.invalid) h)) fun _ =>
      keeps_walkTo hT hC _ _

theorem keeps_hdrWrite (hW : WriteClosed P) (hH : HeaderClosed P) : Keeps P hdrWrite :=
  keeps_bind keeps_requireOutAligned fun _ => keeps_bind keeps_getConfig fun _ => keeps_bind (fun c h => hH c _ h) fun _ =>
    keeps_bind keeps_getRegs fun _ => keeps_outBytes hW _

theorem keeps_headerRead (hR : ReadClosed P) (n : Nat) : Keeps P (headerRead n) := by
  induction n with
  | zero => exact keeps_pure _
  | succ n ih =>
    unfold headerRead
    refine keeps_bind (keeps_inByte hR) fun o => ?_
    cases o with
    | none => exact keeps_raise _
    | some b => exact keeps_bind ih fun _ => keeps_pure _

theorem keeps_hdrRead (hR : ReadClosed P) (hH : HeaderClosed P) : Keeps P hdrRead :=
  keeps_bind keeps_requireInAligned fun _ => keeps_bind (keeps_headerRead hR _) fun _ => keeps_bind (fun c h => hH c _ h) fun _ =>
    keeps_bind keeps_getConfig fun _ => keeps_bind keeps_getRegs fun _ => keeps_require _ _

theorem keeps_encodeLoop (hR : ReadClosed P) (hW : WriteClosed P) (e : ErrName) (fuel n : Nat) :
    Keeps P (encodeLoop e fuel n) := by
  induction fuel generalizing n with
  | zero => exact keeps_throw _
  | succ fuel ih =>
    unfold encodeLoop
    refine keeps_bind (keeps_inByte hR) fun o => ?_
    cases o with
    | none => exact keeps_pure _
    | some b =>
      exact keeps_bind keeps_getRegs fun _ => keeps_bind (keeps_require _ _) fun _ => keeps_bind (keeps_outCode hW _) fun _ =>
        ih _

theorem keeps_encodePayload (hR : ReadClosed P) (hW : WriteClosed P) (e : ErrName) : Keeps P (encodePayload e) :=
  keeps_bind keeps_requireInAligned fun _ => keeps_encodeLoop hR hW _ _ _

theorem keeps_decodeLoop (hR : ReadClosed P) (hW : WriteClosed P) (fuel todo x : Nat) : Keeps P (decodeLoop fuel todo x) := by
  induction fuel generalizing todo x with
  | zero => cases todo <;> first | exact keeps_pure _ | exact keeps_throw _
  | succ fuel ih =>
    cases todo with
    | zero => exact keeps_pure _
    | succ todo =>
      unfold decodeLoop
      refine keeps_bind (keeps_inBit hR) fun o => ?_
      cases o with
      | none => exact keeps_raise _
      | some b =>
        exact keeps_bind keeps_getRegs fun _ => keeps_ite (keeps_bind (keeps_outByte hW _) fun _ => ih _ _) (ih _ _)

theorem keeps_decodePayload (hR : ReadClosed P) (hW : WriteClosed P) : Keeps P decodePayload :=
  keeps_bind keeps_rootOperand fun _ => keeps_bind keeps_getRegs fun _ => keeps_bind (keeps_require _ _) fun _ =>
    keeps_bind keeps_requireOutAligned fun _ => keeps_bind (keeps_decodeLoop hR hW _ _ _) fun _ =>
      keeps_bind (keeps_flushOut hW) fun _ => keeps_pure _

theorem keeps_startDriver (hR : ReadClosed P) (hW : WriteClosed P) : Keeps P startDriver := by
  refine keeps_bind keeps_requireOutAligned fun _ => keeps_bind (fun c h => ?_) fun _ => keeps_rewind hR
  have h1 := hW c c.regs.out 0 [] c.port.plan c.replay c.given (by tauto) h
  simpa using hR _ c.regs.inp 0 c.port.srcPos c.port.plan c.replay c.given h1

/-- What ENCODE writes: everything but ARG and the host's stream. -/
theorem keeps_encodeStream (hR : ReadClosed P) (hW : WriteClosed P) (hP : PoolClosed P) (hH : HistClosed P)
    (hS : ScanClosed P) (hC : CodeClosed P) (hT : TableClosed P) (hD : HeaderClosed P) : Keeps P encodeStream :=
  keeps_bind (keeps_startDriver hR hW) fun _ => keeps_bind (keeps_histClear hH) fun _ =>
    keeps_bind (keeps_histScan hR hH hS) fun _ => keeps_bind (keeps_histForce hH) fun _ =>
      keeps_bind (keeps_buildTree hP) fun _ => keeps_bind (keeps_buildCodes hT hC) fun _ =>
        keeps_bind (fun c h => hD c _ h) fun _ => keeps_bind (keeps_hdrWrite hW hD) fun _ =>
          keeps_bind (keeps_dumpTree hW) fun _ => keeps_bind (keeps_rewind hR) fun _ =>
            keeps_bind (keeps_encodePayload hR hW _) fun _ => keeps_bind keeps_getRegs fun _ =>
              keeps_bind (keeps_require _ _) fun _ => keeps_bind (keeps_flushOut hW) fun _ =>
                keeps_bind (fun c h => hP c _ h) fun _ => keeps_pure _

/-- What DECODE writes: the two sides, the tree and queue unit and the header registers. -/
theorem keeps_decodeStream (hR : ReadClosed P) (hW : WriteClosed P) (hP : PoolClosed P) (hD : HeaderClosed P) :
    Keeps P decodeStream :=
  keeps_bind (keeps_startDriver hR hW) fun _ => keeps_bind (keeps_hdrRead hR hD) fun _ =>
    keeps_bind (keeps_rebuildTree hR hP) fun _ => keeps_bind (keeps_decodePayload hR hW) fun _ =>
      keeps_bind (fun c h => hP c _ h) fun _ => keeps_pure _

/-! ### A whole command -/

/-- The commands that use the read side. -/
def readers : Instr → Bool
  | .histScan | .rebuildTree | .hdrRead | .bitRead | .byteRead | .srcRewind | .encodePayload | .decodePayload | .encode
  | .decode => true
  | _ => false

/-- The commands that use the write side. -/
def writers : Instr → Bool
  | .bitWrite _ | .codeWrite _ | .byteWrite _ | .dumpTree | .hdrWrite | .flush | .encodePayload | .decodePayload | .encode
  | .decode => true
  | _ => false

/-- The commands that change the tree and queue unit. -/
def poolers : Instr → Bool
  | .nodeLeaf _ | .nodeJoin _ _ | .pqCreate _ | .pqEnqueue _ | .setRoot _ | .nodeReset | .pqDequeue | .buildTree
  | .rebuildTree | .encode | .decode => true
  | _ => false

/-- The commands that change the histogram. -/
def counters : Instr → Bool
  | .histAdd _ | .histClear | .histScan | .histForce | .encode => true
  | _ => false

/-- The commands that change SCAN_COUNT. -/
def scanners : Instr → Bool
  | .histScan | .encode => true
  | _ => false

/-- The commands that change the code register. -/
def coders : Instr → Bool
  | .codePush _ | .codeClear | .codePop | .buildCodes | .encode => true
  | _ => false

/-- The commands that change the code table. -/
def tablers : Instr → Bool
  | .buildCodes | .encode => true
  | _ => false

/-- The commands that change the header registers. -/
def headers : Instr → Bool
  | .hdrWrite | .hdrRead | .encode | .decode => true
  | _ => false

/-- What a command has done to the state: it was carried out on a state that differs from s in STATUS at most, and it
ended, aborted or waits with a context that has P. -/
def Outcome (P : Ctx → Prop) (i : Instr) (s t : State) : Prop :=
  ∃ (st : Status) (c : Ctx), P c ∧ (i ≠ .clearErr → st = s.status) ∧
    ((∃ a, t = State.finish { s with status := st } c a) ∨
      (∃ e, t = State.abort { s with status := st } (decide (i = .encode ∨ i = .decode)) e c) ∨
      t = State.wait { s with status := st } i s.startRegs c)

/-- However a command's body ends, the state is made from a context that has every property the body keeps. -/
theorem perform_keeps {s : State} {i : Instr} {rel : Bool} {body : Proc Answer} (hb : Keeps P body) (hs : P s.ctx) :
    ∃ c, P c ∧ ((∃ a, s.perform i rel body = s.finish c a) ∨ (∃ e, s.perform i rel body = s.abort rel e c) ∨
      s.perform i rel body = s.wait i s.startRegs c) := by
  have h := hb s.ctx hs
  unfold State.perform
  cases hbc : body s.ctx with
  | ok a c => rw [hbc] at h; exact ⟨c, h, .inl ⟨a, rfl⟩⟩
  | error e c =>
    rw [hbc] at h
    cases e with
    | raised e => exact ⟨c, h, .inr (.inl ⟨e, rfl⟩)⟩
    | waiting => exact ⟨c, h, .inr (.inr rfl)⟩

theorem outcome_of_keeps {s t : State} {i : Instr} {body : Proc Answer} (hb : Keeps P body) (hs : P s.ctx)
    (h : exec i s = .next t)
    (he : exec i s = .next (s.perform i (decide (i = .encode ∨ i = .decode)) body)) : Outcome P i s t := by
  rw [h] at he
  injection he with he
  subst he
  obtain ⟨c, h1, h2⟩ := perform_keeps (i := i) (rel := decide (i = .encode ∨ i = .decode)) hb hs
  exact ⟨s.status, c, h1, fun _ => rfl, h2⟩

/-- What each command may change: a property that the writes of its units leave alone holds of the context it ends with.
SOFT_RESET has no body. -/
theorem exec_outcome (i : Instr) (hi : i ≠ .softReset) {s t : State} (h : exec i s = .next t) (hs : P s.ctx)
    (hR : readers i = true → ReadClosed P) (hW : writers i = true → WriteClosed P) (hP : poolers i = true → PoolClosed P)
    (hH : counters i = true → HistClosed P) (hS : scanners i = true → ScanClosed P) (hC : coders i = true → CodeClosed P)
    (hT : tablers i = true → TableClosed P) (hD : headers i = true → HeaderClosed P) : Outcome P i s t := by
  cases i with
  | nop => exact outcome_of_keeps (keeps_pure _) hs h rfl
  | softReset => exact absurd rfl hi
  | clearErr =>
    cases h
    obtain ⟨c, h1, h2⟩ := perform_keeps (P := P) (s := { s with status := s.status.clearErr }) (i := .clearErr)
      (rel := false) (keeps_pure (true, (0 : Word))) hs
    exact ⟨s.status.clearErr, c, h1, fun h => absurd rfl h, h2⟩
  | histClear => exact outcome_of_keeps (keeps_bind (keeps_histClear (hH rfl)) fun _ => keeps_pure _) hs h rfl
  | histAdd sym =>
    exact outcome_of_keeps (keeps_bind (keeps_histAdd (hH rfl) _) fun _ => keeps_bind keeps_getRegs fun _ => keeps_pure _)
      hs h rfl
  | histScan =>
    exact outcome_of_keeps (keeps_bind (keeps_histScan (hR rfl) (hH rfl) (hS rfl)) fun _ => keeps_bind keeps_getRegs
      fun _ => keeps_pure _) hs h rfl
  | histForce =>
    exact outcome_of_keeps (keeps_bind (keeps_histForce (hH rfl)) fun _ => keeps_bind keeps_getRegs fun _ => keeps_pure _)
      hs h rfl
  | nodeReset => exact outcome_of_keeps (keeps_bind (fun c h => hP rfl c _ h) fun _ => keeps_pure _) hs h rfl
  | nodeLeaf sym =>
    exact outcome_of_keeps (keeps_bind keeps_frequencyOperand fun _ => keeps_bind (keeps_alloc (hP rfl) _ _ _ _ _ _)
      fun _ => keeps_pure _) hs h rfl
  | nodeJoin na nb => exact outcome_of_keeps (keeps_bind (keeps_nodeJoin (hP rfl) _ _) fun _ => keeps_pure _) hs h rfl
  | pqCreate cap =>
    exact outcome_of_keeps (keeps_bind (keeps_require _ _) fun _ => keeps_bind (keeps_modifyPool (hP rfl) _) fun _ =>
      keeps_pure _) hs h rfl
  | pqEnqueue na =>
    exact outcome_of_keeps (keeps_bind (keeps_checkFree _) fun _ => keeps_bind keeps_getRegs fun _ =>
      keeps_ite (keeps_pure _) (keeps_bind (keeps_modifyPool (hP rfl) _) fun _ => keeps_pure _)) hs h rfl
  | pqDequeue =>
    exact outcome_of_keeps (keeps_bind keeps_getRegs fun _ =>
      keeps_ite (keeps_pure _) (keeps_bind (keeps_heapExtract (hP rfl)) fun _ => keeps_pure _)) hs h rfl
  | buildTree => exact outcome_of_keeps (keeps_bind (keeps_buildTree (hP rfl)) fun _ => keeps_pure _) hs h rfl
  | setRoot na => exact outcome_of_keeps (keeps_bind (keeps_setRoot (hP rfl) _) fun _ => keeps_pure _) hs h rfl
  | dumpTree => exact outcome_of_keeps (keeps_bind (keeps_dumpTree (hW rfl)) fun _ => keeps_pure _) hs h rfl
  | rebuildTree =>
    exact outcome_of_keeps (keeps_bind (keeps_rebuildTree (hR rfl) (hP rfl)) fun _ => keeps_pure _) hs h rfl
  | codeClear => exact outcome_of_keeps (keeps_bind (fun c h => hC rfl c _ h) fun _ => keeps_pure _) hs h rfl
  | codePush b =>
    exact outcome_of_keeps (keeps_bind keeps_getRegs fun _ =>
      keeps_ite (keeps_pure _) (keeps_bind (fun c h => hC rfl c _ h) fun _ => keeps_pure _)) hs h rfl
  | codePop =>
    exact outcome_of_keeps (keeps_bind keeps_getRegs fun _ =>
      keeps_ite (keeps_pure _) (keeps_bind (fun c h => hC rfl c _ h) fun _ => keeps_pure _)) hs h rfl
  | buildCodes =>
    exact outcome_of_keeps (keeps_bind (keeps_buildCodes (hT rfl) (hC rfl)) fun _ => keeps_bind keeps_getRegs fun _ =>
      keeps_pure _) hs h rfl
  | hdrWrite => exact outcome_of_keeps (keeps_bind (keeps_hdrWrite (hW rfl) (hD rfl)) fun _ => keeps_pure _) hs h rfl
  | hdrRead => exact outcome_of_keeps (keeps_bind (keeps_hdrRead (hR rfl) (hD rfl)) fun _ => keeps_pure _) hs h rfl
  | bitWrite b =>
    exact outcome_of_keeps (keeps_bind (keeps_outBit (hW rfl) _) fun _ => keeps_bind keeps_getRegs fun _ => keeps_pure _)
      hs h rfl
  | codeWrite sym =>
    exact outcome_of_keeps (keeps_bind keeps_getRegs fun _ => keeps_bind (keeps_require _ _) fun _ =>
      keeps_bind (keeps_outCode (hW rfl) _) fun _ => keeps_pure _) hs h rfl
  | byteWrite v =>
    exact outcome_of_keeps (keeps_bind keeps_requireOutAligned fun _ => keeps_bind (keeps_outByte (hW rfl) _) fun _ =>
      keeps_bind keeps_getRegs fun _ => keeps_pure _) hs h rfl
  | flush =>
    exact outcome_of_keeps (keeps_bind keeps_getRegs fun _ => keeps_bind (keeps_flushOut (hW rfl)) fun _ => keeps_pure _)
      hs h rfl
  | bitRead =>
    exact outcome_of_keeps (keeps_bind (keeps_inBit (hR rfl)) fun o => by cases o <;> exact keeps_pure _) hs h rfl
  | byteRead =>
    exact outcome_of_keeps (keeps_bind keeps_requireInAligned fun _ => keeps_bind (keeps_inByte (hR rfl)) fun o => by
      cases o <;> exact keeps_pure _) hs h rfl
  | srcRewind => exact outcome_of_keeps (keeps_bind (keeps_rewind (hR rfl)) fun _ => keeps_pure _) hs h rfl
  | encodePayload =>
    exact outcome_of_keeps (keeps_bind (keeps_encodePayload (hR rfl) (hW rfl) _) fun _ =>
      keeps_bind (keeps_flushOut (hW rfl)) fun _ => keeps_pure _) hs h rfl
  | decodePayload =>
    exact outcome_of_keeps (keeps_bind (keeps_decodePayload (hR rfl) (hW rfl)) fun _ => keeps_pure _) hs h rfl
  | encode =>
    exact outcome_of_keeps (keeps_encodeStream (hR rfl) (hW rfl) (hP rfl) (hH rfl) (hS rfl) (hC rfl) (hT rfl) (hD rfl))
      hs h rfl
  | decode => exact outcome_of_keeps (keeps_decodeStream (hR rfl) (hW rfl) (hP rfl) (hD rfl)) hs h rfl

/-- Every command but SOFT_RESET runs a body, which does not depend on the state; CLEAR_ERR changes STATUS first. -/
theorem exec_perform (i : Instr) (h : i ≠ .softReset) : ∃ body : Proc Answer, ∀ s : State,
    exec i s = .next (State.perform
      { s with status := if i = .clearErr then s.status.clearErr else s.status } i
      (decide (i = .encode ∨ i = .decode)) body) := by
  cases i <;> first | exact absurd rfl h | exact ⟨_, fun s => rfl⟩

end Sys2Proof.Machine
end

