-- ==== Sys2Proof/Laws/Late.lean ====
section
/-! SUPPORT. Waiting at a port request (R75, R82, R262). Two facts about every command's body: with a host that answers at
once it does not wait, and an answer that comes late leads where the same answer at once would have led. The loops over the
input have passes enough, since each pass takes something of what is left. -/

namespace Sys2Proof.Machine

variable {α β : Type} {Pre Mid : Ctx → Prop}

/-! ### What is left of the input -/

/-- A command that is run afresh, on a stream and a block of the sizes the spec admits (R9, R235). -/
structure Ctx.Room (c : Ctx) : Prop where
  fresh : c.replay = []
  buf : c.regs.inp.buf.length < 2 ^ 24
  src : c.port.src.length < 2 ^ 64

/-- How many bytes the input has left at most. -/
def Ctx.bytesLeft (c : Ctx) : Nat :=
  (8 * c.regs.inp.buf.length - c.regs.inp.bitPos + 7) / 8 + (c.port.src.length - c.port.srcPos)

/-- How many bits the input has left at most. -/
def Ctx.bitsLeft (c : Ctx) : Nat :=
  (8 * c.regs.inp.buf.length - c.regs.inp.bitPos) + 8 * (c.port.src.length - c.port.srcPos)

theorem Ctx.Room.bytesLeft_lt {c : Ctx} (h : c.Room) : c.bytesLeft < inputPasses := by
  have := h.buf; have := h.src
  simp only [Ctx.bytesLeft, inputPasses]; omega

theorem Ctx.Room.bitsLeft_lt {c : Ctx} (h : c.Room) : c.bitsLeft < 8 * inputPasses := by
  have := h.buf; have := h.src
  simp only [Ctx.bitsLeft, inputPasses]; omega

/-! ### Requests -/

/-- What the host does when it grants a request depends neither on the replies to come nor changes them, and keeps its
stream. -/
structure Fair (grant : Ports → Nat → List Byte × Ports) : Prop where
  plan : ∀ p n plan, grant { p with plan := plan } n = ((grant p n).1, { (grant p n).2 with plan := plan })
  later : ∀ p n, (grant p n).2.later = p.later
  src : ∀ p n, (grant p n).2.src = p.src
  length : ∀ p n, (grant p n).1.length ≤ n

theorem fair_deliver : Fair Ports.deliver :=
  ⟨fun _ _ _ => rfl, fun _ _ => rfl, fun _ _ => rfl, fun p n => by simp [Ports.deliver]⟩

theorem fair_rewound : Fair Ports.rewound := ⟨fun _ _ _ => rfl, fun _ _ => rfl, fun _ _ => rfl, fun _ _ => Nat.zero_le _⟩

theorem fair_accepted (bytes : List Byte) : Fair (Ports.accepted bytes) :=
  ⟨fun _ _ _ => rfl, fun _ _ => rfl, fun _ _ => rfl, fun _ _ => Nat.zero_le _⟩

/-! ### Late answers -/

/-- The same context with other replies to come. -/
def Ctx.withPlan (c : Ctx) (plan : List PortReply) : Ctx := { c with port := { c.port with plan := plan } }

/-- No reply of the list leaves a request open. -/
abbrev Prompt (b : List PortReply) : Prop := ∀ x ∈ b, x ≠ .hold

/-- The first reply that leaves a request open is the one between b and a. A procedure that ends before it would have done
the same with any other reply there, and finds its answers again; one that waits there goes on, with a reply that comes
later, as it would have gone on with the same reply at once. -/
def Late (Pre : Ctx → Prop) (p : Proc α) (Post : α → Ctx → Prop) : Prop :=
  ∀ c b a, Pre c → c.Room → Prompt b → c.port.plan = b ++ .hold :: a →
    match p c with
    | .ok x c1 => Post x c1 ∧ c1.Room ∧ ∃ b' new, Prompt b' ∧ c1.port.plan = b' ++ .hold :: a ∧ c1.given = c.given ++ new ∧
        (∀ r, p (c.withPlan (b ++ r :: a)) = .ok x (c1.withPlan (b' ++ r :: a))) ∧
        ∀ q tail, p { c with port := q, replay := new ++ tail } = .ok x { c1 with port := q, replay := tail }
    | .error (.raised _) _ => True
    | .error .waiting c1 => c1.port.plan = a ∧ ∃ new, c1.given = c.given ++ new ∧
        ∀ r, p (c.withPlan (b ++ r :: a)) = p { c with port := { c1.port with plan := r :: a }, replay := new }

namespace Late

theorem bind {p : Proc α} {f : α → Proc β} {Mid : α → Ctx → Prop} {Post : β → Ctx → Prop} (hp : Late Pre p Mid)
    (hf : ∀ x, Late (Mid x) (f x) Post) : Late Pre (p >>= f) Post := by
  intro c b a hc hr hb hplan
  have h1 := hp c b a hc hr hb hplan
  simp only [bind_apply]
  cases hpc : p c with
  | error e c1 =>
    rw [hpc] at h1
    cases e with
    | raised e => trivial
    | waiting =>
      obtain ⟨h2, new, h3, h4⟩ := h1
      exact ⟨h2, new, h3, fun r => by rw [h4 r]⟩
  | ok x c1 =>
    rw [hpc] at h1
    obtain ⟨h2, h3, b', new, h4, h5, h6, h7, h8⟩ := h1
    have h9 := hf x c1 b' a h2 h3 h4 h5
    simp only
    cases hfc : f x c1 with
    | error e c2 =>
      rw [hfc] at h9
      cases e with
      | raised e => trivial
      | waiting =>
        obtain ⟨k2, new2, k3, k4⟩ := h9
        refine ⟨k2, new ++ new2, by rw [k3, h6, List.append_assoc], fun r => ?_⟩
        rw [h7 r]
        have := h8 { c2.port with plan := r :: a } new2
        simp only [this, k4 r]
    | ok y c2 =>
      rw [hfc] at h9
      obtain ⟨k2, k3, b2, new2, k4, k5, k6, k7, k8⟩ := h9
      refine ⟨k2, k3, b2, new ++ new2, k4, k5, by rw [k6, h6, List.append_assoc], fun r => ?_, fun q tail => ?_⟩
      · rw [h7 r]; exact k7 r
      · rw [List.append_assoc, h8 q (new2 ++ tail)]; exact k8 q tail

theorem pure (x : α) {Post : α → Ctx → Prop} (h : ∀ c, Pre c → Post x c) : Late Pre (Pure.pure x : Proc α) Post :=
  fun c b a hc hr hb hplan => ⟨h c hc, hr, b, [], hb, hplan, by simp, fun r => rfl, fun q tail => by simp⟩

theorem raise (e : ErrName) {Post : α → Ctx → Prop} : Late Pre (Machine.raise e : Proc α) Post :=
  fun _ _ _ _ _ _ _ => trivial

theorem getRegs {Post : Regs → Ctx → Prop} (h : ∀ c, Pre c → Post c.regs c) : Late Pre Machine.getRegs Post :=
  fun c b a hc hr hb hplan => ⟨h c hc, hr, b, [], hb, hplan, by simp, fun r => rfl, fun q tail => by simp⟩

theorem getConfig {Post : Config → Ctx → Prop} (h : ∀ c, Pre c → Post c.config c) : Late Pre Machine.getConfig Post :=
  fun c b a hc hr hb hplan => ⟨h c hc, hr, b, [], hb, hplan, by simp, fun r => rfl, fun q tail => by simp⟩

theorem modifyRegs (f : Regs → Regs) {Post : Unit → Ctx → Prop}
    (h : ∀ c, Pre c → c.Room → Post () { c with regs := f c.regs } ∧ (f c.regs).inp.buf.length < 2 ^ 24) :
    Late Pre (Machine.modifyRegs f) Post :=
  fun c b a hc hr hb hplan => ⟨(h c hc hr).1, ⟨hr.fresh, (h c hc hr).2, hr.src⟩, b, [], hb, hplan, by simp, fun r => rfl,
    fun q tail => by simp⟩

theorem ite {c : Prop} [Decidable c] {p q : Proc α} {Post : α → Ctx → Prop} (hp : c → Late Pre p Post)
    (hq : ¬ c → Late Pre q Post) : Late Pre (if c then p else q) Post := by
  split
  · exact hp ‹_›
  · exact hq ‹_›

theorem request {e : ErrName} {n : Nat} {grant : Ports → Nat → List Byte × Ports} (hg : Fair grant) :
    Late Pre (Machine.request e n grant) fun bytes _ => bytes.length ≤ n := by
  intro c b a hc hr hb hplan
  rcases c with ⟨cfg, r, p, rep, giv⟩
  obtain rfl : rep = [] := hr.fresh
  rcases p with ⟨src, srcPos, snk, plan, later⟩
  obtain rfl : plan = b ++ .hold :: a := hplan
  cases b with
  | nil =>
    simp [Machine.request, Ports.takeReply, Ctx.withPlan]
  | cons reply b =>
    have hb' : Prompt b := fun x hx => hb x (List.mem_cons_of_mem _ hx)
    have hne := hb reply List.mem_cons_self
    have key : ∀ k, k ≤ n → ∀ r', (grant ⟨src, srcPos, snk, b ++ r' :: a, later⟩ k) =
        ((grant ⟨src, srcPos, snk, b ++ .hold :: a, later⟩ k).1,
          { (grant ⟨src, srcPos, snk, b ++ .hold :: a, later⟩ k).2 with plan := b ++ r' :: a }) := fun k _ r' =>
      hg.plan ⟨src, srcPos, snk, b ++ .hold :: a, later⟩ k (b ++ r' :: a)
    have plan2 : ∀ k, k ≤ n → (grant ⟨src, srcPos, snk, b ++ .hold :: a, later⟩ k).2.plan = b ++ .hold :: a := by
      intro k hk
      have := key k hk .hold
      rw [this]
    have room2 : ∀ k giv', k ≤ n →
        Ctx.Room ⟨cfg, r, (grant ⟨src, srcPos, snk, b ++ .hold :: a, later⟩ k).2, [], giv'⟩ := fun k giv' _ =>
      ⟨rfl, hr.buf, by simpa [hg.src] using hr.src⟩
    have len2 : ∀ k, k ≤ n → (grant ⟨src, srcPos, snk, b ++ .hold :: a, later⟩ k).1.length ≤ n := fun k hk =>
      (hg.length _ _).trans hk
    cases reply with
    | ok =>
      refine ⟨len2 n le_rfl, room2 n _ le_rfl, b, [_], hb', plan2 n le_rfl, rfl, fun r' => ?_, fun q tail => ?_⟩
      · simp [Machine.request, Ports.takeReply, Ctx.withPlan, key n le_rfl r']
      · simp [Machine.request]
    | okShort k =>
      refine ⟨len2 (min k n) (min_le_right _ _), room2 (min k n) _ (min_le_right _ _), b, [_], hb',
        plan2 (min k n) (min_le_right _ _), rfl, fun r' => ?_, fun q tail => ?_⟩
      · simp [Machine.request, Ports.takeReply, Ctx.withPlan, key (min k n) (min_le_right _ _) r']
      · simp [Machine.request]
    | fail => trivial
    | hold => exact absurd rfl hne

theorem conseq {p : Proc α} {Pre' : Ctx → Prop} {Post Post' : α → Ctx → Prop} (h : Late Pre p Post)
    (hPre : ∀ c, Pre' c → Pre c) (hPost : ∀ x c, Post x c → Post' x c) : Late Pre' p Post' := by
  intro c b a hc hr hb hplan
  have h1 := h c b a (hPre c hc) hr hb hplan
  cases hpc : p c with
  | ok x c1 => rw [hpc] at h1; exact ⟨hPost _ _ h1.1, h1.2⟩
  | error e c1 => rw [hpc] at h1; cases e <;> exact h1

/-- A property that the procedure establishes when it is run afresh may be used behind it. -/
theorem add {p : Proc α} {Post : α → Ctx → Prop} {E : Stop → Ctx → Prop} (h : Late (fun _ => True) p fun _ _ => True)
    (ht : Triple (fun c => Pre c ∧ c.Room) p Post E) : Late Pre p Post := by
  intro c b a hc hr hb hplan
  have h1 := h c b a trivial hr hb hplan
  have h2 := ht c ⟨hc, hr⟩
  cases hpc : p c with
  | ok x c1 => rw [hpc] at h1 h2; exact ⟨h2, h1.2⟩
  | error e c1 => rw [hpc] at h1; cases e <;> exact h1

end Late

/-- The property as it is carried through every body. -/
abbrev LateBody (p : Proc α) : Prop := Late (fun _ => True) p fun _ _ => True

theorem late_refill : LateBody refill := by
  unfold refill srcRead
  refine Late.bind (Mid := fun cfg _ => cfg.block < 2 ^ 24) (Late.getConfig fun c _ => Config.block_lt _) fun cfg => ?_
  refine Late.bind (Mid := fun _ _ => cfg.block < 2 ^ 24) (Late.getRegs fun c h => h) fun r => ?_
  refine Late.ite (fun _ => Late.pure _ fun _ _ => trivial) fun _ => Late.ite (fun _ => Late.pure _ fun _ _ => trivial) fun _ => ?_
  refine Late.bind (Mid := fun bytes _ => bytes.length < 2 ^ 24) ?_ fun bytes => ?_
  · refine Late.bind (Mid := fun cfg _ => cfg.block < 2 ^ 24) (Late.getConfig fun c _ => Config.block_lt _) fun cfg2 => ?_
    refine Late.bind (Mid := fun bytes _ => bytes.length < 2 ^ 24) ?_ fun bytes => ?_
    · intro c b a hc
      exact (Late.request (Pre := fun _ => True) fair_deliver).conseq (Pre' := fun _ => True) (fun _ h => h)
        (fun x c h => lt_of_le_of_lt h hc) c b a trivial
    · refine Late.bind (Mid := fun _ _ => bytes.length < 2 ^ 24)
        (Late.modifyRegs _ fun c h hr => ⟨h, hr.buf⟩) fun _ => Late.pure _ fun c h => h
  · exact Late.bind (Mid := fun _ _ => True) (Late.modifyRegs _ fun c h hr => ⟨trivial, h⟩) fun _ =>
      Late.pure _ fun _ _ => trivial

theorem late_rewind : LateBody rewind := by
  unfold rewind srcRewind
  refine Late.bind (Mid := fun _ _ => True) ?_ fun _ => Late.modifyRegs _ fun c h hr => ⟨trivial, by simp [InSide.empty]⟩
  exact Late.bind (Mid := fun _ _ => True) ((Late.request fair_rewound).conseq (fun _ h => h) fun _ _ _ => trivial) fun _ =>
    Late.pure _ fun _ _ => trivial

theorem late_composes : Composes fun {α} (p : Proc α) => LateBody p := composes_of_snkWrite
  (pure := fun a => Late.pure a fun _ _ => trivial)
  (raise := fun e => Late.raise e)
  (bind := fun hp hf => Late.bind hp hf)
  (getRegs := Late.getRegs fun _ _ => trivial)
  (getConfig := Late.getConfig fun _ _ => trivial)
  (modifyRegs := fun f hf => Late.modifyRegs f fun c _ hr => ⟨trivial, by rw [hf]; exact hr.buf⟩)
  (refill := late_refill)
  (advance := fun n => Late.modifyRegs _ fun c _ hr => ⟨trivial, hr.buf⟩)
  (rewind := late_rewind)
  (snkWrite := fun bytes => (Late.request (fair_accepted bytes)).conseq (fun _ h => h) fun _ _ _ => trivial)

/-! ### The loops over the input -/

/-- A request takes nothing back from what the stream still holds. -/
theorem request_deliver_spec {e : ErrName} {n : Nat} (c : Ctx) (hr : c.replay = []) :
    match request e n Ports.deliver c with
    | .ok bytes c1 => c1.regs = c.regs ∧ c1.config = c.config ∧ c1.replay = [] ∧ c1.port.src = c.port.src ∧
        c1.port.later = c.port.later ∧ (c.port.plan = [] → c1.port.plan = []) ∧
        bytes.length + (c1.port.src.length - c1.port.srcPos) = c.port.src.length - c.port.srcPos
    | .error _ _ => True := by
  rcases c with ⟨cfg, r, ⟨src, srcPos, snk, plan, later⟩, rep, giv⟩
  obtain rfl : rep = [] := hr
  have key : ∀ k, ((src.drop srcPos).take k).length + (src.length - (srcPos + ((src.drop srcPos).take k).length)) =
      src.length - srcPos := by
    intro k; rw [List.length_take, List.length_drop]; omega
  cases plan with
  | nil => cases later <;> simp [request, Ports.takeReply, Ports.deliver, -List.length_take, -List.length_drop, key]
  | cons reply plan => cases reply <;> simp [request, Ports.takeReply, Ports.deliver, -List.length_take, -List.length_drop, key]

/-- `Refill` with DATA leaves something unread, and never more than was left (R190). -/
theorem refill_spec (c : Ctx) (hr : c.replay = []) :
    match refill c with
    | .ok d c1 => c1.replay = [] ∧ c1.port.src = c.port.src ∧ c1.bytesLeft ≤ c.bytesLeft ∧ c1.bitsLeft ≤ c.bitsLeft ∧
        (d = true → c1.regs.inp.bitPos < 8 * c1.regs.inp.buf.length)
    | .error _ _ => True := by
  simp only [refill, srcRead, bind_apply, getConfig_apply, getRegs_apply, ite_apply', pure_apply]
  split
  · rename_i a c' h
    split at h
    · rename_i h1; cases h; exact ⟨hr, rfl, le_rfl, le_rfl, fun _ => h1⟩
    · split at h
      · cases h; exact ⟨hr, rfl, le_rfl, le_rfl, fun h => by cases h⟩
      · have := request_deliver_spec (e := .srcFail) (n := c.config.block) c hr
        cases hq : request .srcFail c.config.block Ports.deliver c with
        | error e c1 => rw [hq] at h; cases h
        | ok bytes c1 =>
          rw [hq] at h this
          obtain ⟨h1, h2, h3, h4, -, -, h5⟩ := this
          simp only [modifyRegs_apply, InSide.refilled] at h
          injection h with ha hc
          subst ha hc
          refine ⟨h3, h4, ?_, ?_, ?_⟩
          · simp only [Ctx.bytesLeft]; omega
          · simp only [Ctx.bitsLeft]; omega
          · intro hd
            have : bytes ≠ [] := by intro hb; simp [hb] at hd
            have := List.length_pos_of_ne_nil this
            simp only; omega
  · trivial

theorem inByte_less (n : Nat) : Triple (fun c => c.bytesLeft ≤ n ∧ c.Room) inByte
    (fun o c => o = none ∨ c.bytesLeft < n) (fun _ _ => True) := by
  intro c ⟨hn, hc⟩
  have h := refill_spec c hc.fresh
  rw [inByte, bind_apply]
  cases hq : refill c with
  | error e c1 => trivial
  | ok d c1 =>
    rw [hq] at h
    obtain ⟨h1, h2, h3, h4, h5⟩ := h
    cases d with
    | false => exact .inl rfl
    | true =>
      have := h5 rfl
      refine .inr ?_
      simp only [Ctx.bytesLeft, InSide.advance] at h3 hn ⊢
      omega

theorem inBit_less (n : Nat) : Triple (fun c => c.bitsLeft ≤ n ∧ c.Room) inBit
    (fun o c => o = none ∨ c.bitsLeft < n) (fun _ _ => True) := by
  intro c ⟨hn, hc⟩
  have h := refill_spec c hc.fresh
  rw [inBit, bind_apply]
  cases hq : refill c with
  | error e c1 => trivial
  | ok d c1 =>
    rw [hq] at h
    obtain ⟨h1, h2, h3, h4, h5⟩ := h
    cases d with
    | false => exact .inl rfl
    | true =>
      have := h5 rfl
      refine .inr ?_
      simp only [Ctx.bitsLeft, InSide.advance] at h4 hn ⊢
      omega

theorem writeClosed_bytesLeft (n : Nat) : WriteClosed fun c => c.bytesLeft < n := fun _ _ _ _ _ _ _ _ h => h

theorem writeClosed_bitsLeft (n : Nat) : WriteClosed fun c => c.bitsLeft < n := fun _ _ _ _ _ _ _ _ h => h

/-- A statement that leaves the input alone keeps what is left of it. -/
theorem late_keeps {p : Proc α} {P : Ctx → Prop} (h : LateBody p) (hk : Keeps P p) : Late P p fun _ => P :=
  h.add (E := fun _ _ => True) (by
    intro c hc
    have := hk c hc.1
    cases hp : p c with
    | ok x c1 => rw [hp] at this; exact this
    | error e c1 => trivial)

theorem late_scanLoop : LateBody (scanLoop inputPasses) := by
  have key : ∀ fuel, Late (fun c => c.bytesLeft < fuel) (scanLoop fuel) fun _ _ => True := by
    intro fuel
    induction fuel with
    | zero => intro c b a hc; exact absurd hc (Nat.not_lt_zero _)
    | succ fuel ih =>
      unfold scanLoop
      refine Late.bind (Mid := fun o c => o = none ∨ c.bytesLeft < fuel) ?_ fun o => ?_
      · refine late_composes.inByte.add ((inByte_less fuel).conseq ?_ (fun _ _ h => h) fun _ _ h => h)
        exact fun c h => ⟨Nat.le_of_lt_succ h.1, h.2⟩
      · cases o with
        | none => exact Late.pure _ fun _ _ => trivial
        | some v =>
          refine Late.bind (Mid := fun _ c => c.bytesLeft < fuel) (Late.getRegs fun c h => h.resolve_left (by simp)) fun r => ?_
          refine Late.bind (Mid := fun _ c => c.bytesLeft < fuel) ?_ fun _ => ?_
          · exact late_keeps (late_composes.require _ _) (keeps_require _ _)
          · exact Late.bind (Mid := fun _ c => c.bytesLeft < fuel) (Late.modifyRegs _ fun c h hr => ⟨h, hr.buf⟩) fun _ => ih
  intro c b a _ hr
  exact key inputPasses c b a hr.bytesLeft_lt hr

theorem late_encodeLoop (e : ErrName) : LateBody (encodeLoop e inputPasses 0) := by
  have key : ∀ fuel n, Late (fun c => c.bytesLeft < fuel) (encodeLoop e fuel n) fun _ _ => True := by
    intro fuel
    induction fuel with
    | zero => intro n c b a hc; exact absurd hc (Nat.not_lt_zero _)
    | succ fuel ih =>
      intro n
      unfold encodeLoop
      refine Late.bind (Mid := fun o c => o = none ∨ c.bytesLeft < fuel) ?_ fun o => ?_
      · refine late_composes.inByte.add ((inByte_less fuel).conseq ?_ (fun _ _ h => h) fun _ _ h => h)
        exact fun c h => ⟨Nat.le_of_lt_succ h.1, h.2⟩
      · cases o with
        | none => exact Late.pure _ fun _ _ => trivial
        | some v =>
          refine Late.bind (Mid := fun _ c => c.bytesLeft < fuel) (Late.getRegs fun c h => h.resolve_left (by simp)) fun r => ?_
          refine Late.bind (Mid := fun _ c => c.bytesLeft < fuel)
            (late_keeps (late_composes.require _ _) (keeps_require _ _)) fun _ => ?_
          exact Late.bind (Mid := fun _ c => c.bytesLeft < fuel)
            (late_keeps (late_composes.outCode v) (keeps_outCode (writeClosed_bytesLeft _) v)) fun _ => ih _
  intro c b a _ hr
  exact key inputPasses 0 c b a hr.bytesLeft_lt hr

theorem late_decodeLoop (todo x : Nat) : LateBody (decodeLoop (8 * inputPasses) todo x) := by
  have key : ∀ fuel todo x, Late (fun c => c.bitsLeft < fuel) (decodeLoop fuel todo x) fun _ _ => True := by
    intro fuel
    induction fuel with
    | zero => intro todo x c b a hc; exact absurd hc (Nat.not_lt_zero _)
    | succ fuel ih =>
      intro todo x
      cases todo with
      | zero => exact Late.pure _ fun _ _ => trivial
      | succ todo =>
        unfold decodeLoop
        refine Late.bind (Mid := fun o c => o = none ∨ c.bitsLeft < fuel) ?_ fun o => ?_
        · refine late_composes.inBit.add ((inBit_less fuel).conseq ?_ (fun _ _ h => h) fun _ _ h => h)
          exact fun c h => ⟨Nat.le_of_lt_succ h.1, h.2⟩
        · cases o with
          | none => exact Late.raise _
          | some v =>
            refine Late.bind (Mid := fun _ c => c.bitsLeft < fuel) (Late.getRegs fun c h => h.resolve_left (by simp)) fun r => ?_
            refine Late.ite (fun _ => ?_) fun _ => ih _ _
            exact Late.bind (Mid := fun _ c => c.bitsLeft < fuel)
              (late_keeps (late_composes.outByte _) (keeps_outByte (writeClosed_bitsLeft _) _)) fun _ => ih _ _
  intro c b a _ hr
  exact key _ todo x c b a hr.bitsLeft_lt hr

/-! ### A host that answers at once -/

/-- Every port request is answered at once with OK, in full, and there is room. -/
def Ctx.Served (c : Ctx) : Prop := c.port.plan = [] ∧ c.port.later = .ok ∧ c.Room

/-- With such a host the procedure does not wait, and the host stays so. -/
def Ends (Pre : Ctx → Prop) (p : Proc α) (Post : α → Ctx → Prop) : Prop :=
  Triple (fun c => Pre c ∧ c.Served) p (fun x c => Post x c ∧ c.Served) fun e _ => e ≠ .waiting

namespace Ends

theorem bind {p : Proc α} {f : α → Proc β} {Mid : α → Ctx → Prop} {Post : β → Ctx → Prop} (hp : Ends Pre p Mid)
    (hf : ∀ x, Ends (Mid x) (f x) Post) : Ends Pre (p >>= f) Post := Triple.bind hp hf

theorem pure (x : α) {Post : α → Ctx → Prop} (h : ∀ c, Pre c → Post x c) : Ends Pre (Pure.pure x : Proc α) Post :=
  fun c hc => ⟨h c hc.1, hc.2⟩

theorem raise (e : ErrName) {Post : α → Ctx → Prop} : Ends Pre (Machine.raise e : Proc α) Post := fun _ _ => by
  simp

theorem getRegs {Post : Regs → Ctx → Prop} (h : ∀ c, Pre c → Post c.regs c) : Ends Pre Machine.getRegs Post :=
  fun c hc => ⟨h c hc.1, hc.2⟩

theorem modifyRegs (f : Regs → Regs) {Post : Unit → Ctx → Prop}
    (h : ∀ c, Pre c → c.Room → Post () { c with regs := f c.regs } ∧ (f c.regs).inp.buf.length < 2 ^ 24) :
    Ends Pre (Machine.modifyRegs f) Post :=
  fun c hc => ⟨(h c hc.1 hc.2.2.2).1, hc.2.1, hc.2.2.1, hc.2.2.2.fresh, (h c hc.1 hc.2.2.2).2, hc.2.2.2.src⟩

theorem ite {c : Prop} [Decidable c] {p q : Proc α} {Post : α → Ctx → Prop} (hp : c → Ends Pre p Post)
    (hq : ¬ c → Ends Pre q Post) : Ends Pre (if c then p else q) Post := by
  split
  · exact hp ‹_›
  · exact hq ‹_›

theorem request {e : ErrName} {n : Nat} {grant : Ports → Nat → List Byte × Ports} (hg : Fair grant) :
    Ends Pre (Machine.request e n grant) fun bytes _ => bytes.length ≤ n := by
  intro c ⟨_, h1, h2, hr⟩
  rcases c with ⟨cfg, r, ⟨src, srcPos, snk, plan, later⟩, rep, giv⟩
  obtain rfl : rep = [] := hr.fresh
  obtain rfl : plan = [] := h1
  obtain rfl : later = .ok := h2
  have hplan := hg.plan ⟨src, srcPos, snk, [], .ok⟩ n []
  have hl : (grant ⟨src, srcPos, snk, [], .ok⟩ n).2.plan = [] := by rw [hplan]
  exact ⟨hg.length _ _, hl, hg.later _ _, rfl, hr.buf, by simpa [hg.src] using hr.src⟩

theorem add {p : Proc α} {Post : α → Ctx → Prop} {E : Stop → Ctx → Prop} (h : Ends (fun _ => True) p fun _ _ => True)
    (ht : Triple (fun c => Pre c ∧ c.Room) p Post E) : Ends Pre p Post := by
  intro c hc
  have h1 := h c ⟨trivial, hc.2⟩
  have h2 := ht c ⟨hc.1, hc.2.2.2⟩
  cases hpc : p c with
  | ok x c1 => rw [hpc] at h1 h2; exact ⟨h2, h1.2⟩
  | error e c1 => rw [hpc] at h1; exact h1

end Ends

/-- The property as it is carried through every body. -/
abbrev EndsBody (p : Proc α) : Prop := Ends (fun _ => True) p fun _ _ => True

theorem ends_keeps {p : Proc α} {P : Ctx → Prop} (h : EndsBody p) (hk : Keeps P p) : Ends P p fun _ => P :=
  h.add (E := fun _ _ => True) (by
    intro c hc
    have := hk c hc.1
    cases hp : p c with
    | ok x c1 => rw [hp] at this; exact this
    | error e c1 => trivial)

theorem ends_refill : EndsBody refill := by
  unfold refill srcRead
  refine Ends.bind (Mid := fun cfg _ => cfg.block < 2 ^ 24) (fun c hc => ⟨Config.block_lt _, hc.2⟩) fun cfg => ?_
  refine Ends.bind (Mid := fun _ _ => cfg.block < 2 ^ 24) (Ends.getRegs fun c h => h) fun r => ?_
  refine Ends.ite (fun _ => Ends.pure _ fun _ _ => trivial) fun _ => Ends.ite (fun _ => Ends.pure _ fun _ _ => trivial) fun _ => ?_
  refine Ends.bind (Mid := fun bytes _ => bytes.length < 2 ^ 24) ?_ fun bytes => ?_
  · refine Ends.bind (Mid := fun cfg _ => cfg.block < 2 ^ 24) (fun c hc => ⟨Config.block_lt _, hc.2⟩) fun cfg2 => ?_
    refine Ends.bind (Mid := fun bytes _ => bytes.length < 2 ^ 24) ?_ fun bytes => ?_
    · intro c hc
      have := Ends.request (Pre := fun _ => True) (e := .srcFail) (n := cfg2.block) fair_deliver c ⟨trivial, hc.2⟩
      cases hq : Machine.request .srcFail cfg2.block Ports.deliver c with
      | ok x c1 => rw [hq] at this; exact ⟨lt_of_le_of_lt this.1 hc.1, this.2⟩
      | error e c1 => rw [hq] at this; exact this
    · exact Ends.bind (Mid := fun _ _ => bytes.length < 2 ^ 24)
        (Ends.modifyRegs _ fun c h hr => ⟨h, hr.buf⟩) fun _ => Ends.pure _ fun c h => h
  · exact Ends.bind (Mid := fun _ _ => True) (Ends.modifyRegs _ fun c h hr => ⟨trivial, h⟩) fun _ =>
      Ends.pure _ fun _ _ => trivial

theorem ends_rewind : EndsBody rewind := by
  unfold rewind srcRewind
  refine Ends.bind (Mid := fun _ _ => True) ?_ fun _ => Ends.modifyRegs _ fun c h hr => ⟨trivial, by simp [InSide.empty]⟩
  refine Ends.bind (Mid := fun _ _ => True) ?_ fun _ => Ends.pure _ fun _ _ => trivial
  exact (Ends.request fair_rewound).conseq (fun _ h => h) (fun _ _ h => ⟨trivial, h.2⟩) fun _ _ h => h

theorem ends_composes : Composes fun {α} (p : Proc α) => EndsBody p := composes_of_snkWrite
  (pure := fun a => Ends.pure a fun _ _ => trivial)
  (raise := fun e => Ends.raise e)
  (bind := fun hp hf => Ends.bind hp hf)
  (getRegs := Ends.getRegs fun _ _ => trivial)
  (getConfig := fun _ h => h)
  (modifyRegs := fun f hf => Ends.modifyRegs f fun c _ hr => ⟨trivial, by rw [hf]; exact hr.buf⟩)
  (refill := ends_refill)
  (advance := fun n => Ends.modifyRegs _ fun c _ hr => ⟨trivial, hr.buf⟩)
  (rewind := ends_rewind)
  (snkWrite := fun bytes =>
    (Ends.request (fair_accepted bytes)).conseq (fun _ h => h) (fun _ _ h => ⟨trivial, h.2⟩) fun _ _ h => h)

theorem ends_scanLoop : EndsBody (scanLoop inputPasses) := by
  have key : ∀ fuel, Ends (fun c => c.bytesLeft < fuel) (scanLoop fuel) fun _ _ => True := by
    intro fuel
    induction fuel with
    | zero => intro c hc; exact absurd hc.1 (Nat.not_lt_zero _)
    | succ fuel ih =>
      unfold scanLoop
      refine Ends.bind (Mid := fun o c => o = none ∨ c.bytesLeft < fuel) ?_ fun o => ?_
      · refine ends_composes.inByte.add ((inByte_less fuel).conseq ?_ (fun _ _ h => h) fun _ _ h => h)
        exact fun c h => ⟨Nat.le_of_lt_succ h.1, h.2⟩
      · cases o with
        | none => exact Ends.pure _ fun _ _ => trivial
        | some v =>
          refine Ends.bind (Mid := fun _ c => c.bytesLeft < fuel) (Ends.getRegs fun c h => h.resolve_left (by simp)) fun r => ?_
          refine Ends.bind (Mid := fun _ c => c.bytesLeft < fuel) ?_ fun _ => ?_
          · exact ends_keeps (ends_composes.require _ _) (keeps_require _ _)
          · exact Ends.bind (Mid := fun _ c => c.bytesLeft < fuel) (Ends.modifyRegs _ fun c h hr => ⟨h, hr.buf⟩) fun _ => ih
  intro c hc
  exact key inputPasses c ⟨hc.2.2.2.bytesLeft_lt, hc.2⟩

theorem ends_encodeLoop (e : ErrName) : EndsBody (encodeLoop e inputPasses 0) := by
  have key : ∀ fuel n, Ends (fun c => c.bytesLeft < fuel) (encodeLoop e fuel n) fun _ _ => True := by
    intro fuel
    induction fuel with
    | zero => intro n c hc; exact absurd hc.1 (Nat.not_lt_zero _)
    | succ fuel ih =>
      intro n
      unfold encodeLoop
      refine Ends.bind (Mid := fun o c => o = none ∨ c.bytesLeft < fuel) ?_ fun o => ?_
      · refine ends_composes.inByte.add ((inByte_less fuel).conseq ?_ (fun _ _ h => h) fun _ _ h => h)
        exact fun c h => ⟨Nat.le_of_lt_succ h.1, h.2⟩
      · cases o with
        | none => exact Ends.pure _ fun _ _ => trivial
        | some v =>
          refine Ends.bind (Mid := fun _ c => c.bytesLeft < fuel) (Ends.getRegs fun c h => h.resolve_left (by simp)) fun r => ?_
          refine Ends.bind (Mid := fun _ c => c.bytesLeft < fuel)
            (ends_keeps (ends_composes.require _ _) (keeps_require _ _)) fun _ => ?_
          exact Ends.bind (Mid := fun _ c => c.bytesLeft < fuel)
            (ends_keeps (ends_composes.outCode v) (keeps_outCode (writeClosed_bytesLeft _) v)) fun _ => ih _
  intro c hc
  exact key inputPasses 0 c ⟨hc.2.2.2.bytesLeft_lt, hc.2⟩

theorem ends_decodeLoop (todo x : Nat) : EndsBody (decodeLoop (8 * inputPasses) todo x) := by
  have key : ∀ fuel todo x, Ends (fun c => c.bitsLeft < fuel) (decodeLoop fuel todo x) fun _ _ => True := by
    intro fuel
    induction fuel with
    | zero => intro todo x c hc; exact absurd hc.1 (Nat.not_lt_zero _)
    | succ fuel ih =>
      intro todo x
      cases todo with
      | zero => exact Ends.pure _ fun _ _ => trivial
      | succ todo =>
        unfold decodeLoop
        refine Ends.bind (Mid := fun o c => o = none ∨ c.bitsLeft < fuel) ?_ fun o => ?_
        · refine ends_composes.inBit.add ((inBit_less fuel).conseq ?_ (fun _ _ h => h) fun _ _ h => h)
          exact fun c h => ⟨Nat.le_of_lt_succ h.1, h.2⟩
        · cases o with
          | none => exact Ends.raise _
          | some v =>
            refine Ends.bind (Mid := fun _ c => c.bitsLeft < fuel) (Ends.getRegs fun c h => h.resolve_left (by simp)) fun r => ?_
            refine Ends.ite (fun _ => ?_) fun _ => ih _ _
            exact Ends.bind (Mid := fun _ c => c.bitsLeft < fuel)
              (ends_keeps (ends_composes.outByte _) (keeps_outByte (writeClosed_bitsLeft _) _)) fun _ => ih _ _
  intro c hc
  exact key _ todo x c ⟨hc.2.2.2.bitsLeft_lt, hc.2⟩

end Sys2Proof.Machine
end

