-- ==== Sys2Proof/Laws/PortFail.lean ====
section
/-! SUPPORT. A port request that the host answers with FAIL (R72 to R74, R220): wherever a command's body makes a request,
FAIL raises the request's error on the registers and the host's side as they stand there. What the same request does when
it is granted says which request it is: only a granted SnkWrite makes the sink longer. -/

namespace Sys2Proof.Machine

variable {α β : Type} {Pre Mid : Ctx → Prop}

/-- The same context with other replies to come, and another reply to every request after those. -/
def Ctx.withReplies (c : Ctx) (plan : List PortReply) (later : PortReply) : Ctx :=
  { c with port := { c.port with plan := plan, later := later } }

/-- What is pending has a byte that holds it (R49). -/
def Ctx.Filled (c : Ctx) : Prop := 0 < c.regs.out.bitPos → c.regs.out.buf ≠ []

/-- What a procedure ends or stops on. -/
def endOf : EStateM.Result Stop Ctx α → Ctx
  | .ok _ c => c
  | .error _ c => c

@[simp] theorem endOf_ok (x : α) (c : Ctx) : endOf (.ok x c : EStateM.Result Stop Ctx α) = c := rfl

@[simp] theorem endOf_error (e : Stop) (c : Ctx) : endOf (.error e c : EStateM.Result Stop Ctx α) = c := rfl

/-- While the host answers nothing, the procedure leaves the host's side alone. -/
def Silent (p : Proc α) : Prop :=
  ∀ q : Ports, q.plan = [] → q.later = .hold → Keeps (fun c => c.replay = [] ∧ c.port = q) p

/-- What granting a request with the error e, made on the context c, does to the host's side. -/
def Granted (e : ErrName) (c : Ctx) (q : Ports) : Prop :=
  q.plan = [] ∧ q.later = .hold ∧
    ((e = .srcFail ∧ q.snk = c.port.snk) ∨ (e = .snkFail ∧ ∃ bytes, bytes ≠ [] ∧ q.snk = c.port.snk ++ bytes))

/-- With the replies b, none of which leaves a request open, the procedure ends, or raises an error, or makes one request
more: it waits there if the host does not answer, and FAIL raises e on the same registers and host's side. -/
def Asks (Pre : Ctx → Prop) (p : Proc α) (Post : α → Ctx → Prop) : Prop :=
  ∀ c b, Pre c → c.Room → c.Filled → Prompt b →
    (∃ (x : α) (c1 : Ctx) (b' : List PortReply), Prompt b' ∧ Post x c1 ∧ c1.Room ∧ c1.Filled ∧
      ∀ a l, p (c.withReplies (b ++ a) l) = .ok x (c1.withReplies (b' ++ a) l)) ∨
    (∃ (e : ErrName) (c1 : Ctx) (b' : List PortReply), ∀ a l, p (c.withReplies (b ++ a) l) = .error (.raised e) (c1.withReplies (b' ++ a) l)) ∨
    ∃ (e : ErrName) (c1 : Ctx), (∀ a l, p (c.withReplies (b ++ .hold :: a) l) = .error .waiting (c1.withReplies a l)) ∧
      (∀ a l, p (c.withReplies (b ++ .fail :: a) l) = .error (.raised e) (c1.withReplies a l)) ∧
      (endOf (p (c.withReplies (b ++ [.ok]) .hold))).replay = [] ∧
      Granted e c1 (endOf (p (c.withReplies (b ++ [.ok]) .hold))).port

namespace Asks

theorem bind {p : Proc α} {f : α → Proc β} {Mid : α → Ctx → Prop} {Post : β → Ctx → Prop} (hp : Asks Pre p Mid)
    (hf : ∀ x, Asks (Mid x) (f x) Post) (hs : ∀ x, Silent (f x)) : Asks Pre (p >>= f) Post := by
  intro c b hc hr hfil hb
  simp only [bind_apply]
  rcases hp c b hc hr hfil hb with ⟨x, c1, b', h1, h2, h3, h4, h5⟩ | ⟨e, c1, b', h⟩ | ⟨e, c1, h1, h2, h3, h4⟩
  · simp only [h5]
    exact hf x c1 b' h2 h3 h4 h1
  · exact .inr (.inl ⟨e, c1, b', fun a l => by rw [h a l]⟩)
  · refine .inr (.inr ⟨e, c1, fun a l => by rw [h1 a l], fun a l => by rw [h2 a l], ?_⟩)
    cases hpc : p (c.withReplies (b ++ [.ok]) .hold) with
    | error e' c2 => rw [hpc] at h3 h4; exact ⟨h3, h4⟩
    | ok x c2 =>
      rw [hpc] at h3 h4
      have := hs x c2.port h4.1 h4.2.1 c2 ⟨h3, rfl⟩
      simp only
      cases hfc : f x c2 with
      | ok y c3 => rw [hfc] at this; exact ⟨this.1, by rw [endOf_ok, this.2]; exact h4⟩
      | error e' c3 => rw [hfc] at this; exact ⟨this.1, by rw [endOf_error, this.2]; exact h4⟩

theorem pure (x : α) {Post : α → Ctx → Prop} (h : ∀ c, Pre c → Post x c) : Asks Pre (Pure.pure x : Proc α) Post :=
  fun c b hc hr hfil hb => .inl ⟨x, c, b, hb, h c hc, hr, hfil, fun _ _ => rfl⟩

theorem raise (e : ErrName) {Post : α → Ctx → Prop} : Asks Pre (Machine.raise e : Proc α) Post :=
  fun c b _ _ _ _ => .inr (.inl ⟨e, c, b, fun _ _ => rfl⟩)

theorem getRegs {Post : Regs → Ctx → Prop} (h : ∀ c, Pre c → c.Filled → Post c.regs c) : Asks Pre Machine.getRegs Post :=
  fun c b hc hr hfil hb => .inl ⟨c.regs, c, b, hb, h c hc hfil, hr, hfil, fun _ _ => rfl⟩

theorem getConfig {Post : Config → Ctx → Prop} (h : ∀ c, Pre c → Post c.config c) : Asks Pre Machine.getConfig Post :=
  fun c b hc hr hfil hb => .inl ⟨c.config, c, b, hb, h c hc, hr, hfil, fun _ _ => rfl⟩

theorem modifyRegs (f : Regs → Regs) {Post : Unit → Ctx → Prop}
    (h : ∀ c, Pre c → c.Room → c.Filled →
      Post () { c with regs := f c.regs } ∧ (f c.regs).inp.buf.length < 2 ^ 24 ∧ Ctx.Filled { c with regs := f c.regs }) :
    Asks Pre (Machine.modifyRegs f) Post :=
  fun c b hc hr hfil hb =>
    have h1 := h c hc hr hfil
    .inl ⟨(), _, b, hb, h1.1, ⟨hr.fresh, h1.2.1, hr.src⟩, h1.2.2, fun _ _ => rfl⟩

theorem ite {c : Prop} [Decidable c] {p q : Proc α} {Post : α → Ctx → Prop} (hp : c → Asks Pre p Post)
    (hq : ¬ c → Asks Pre q Post) : Asks Pre (if c then p else q) Post := by
  split
  · exact hp ‹_›
  · exact hq ‹_›

theorem conseq {p : Proc α} {Pre' : Ctx → Prop} {Post Post' : α → Ctx → Prop} (h : Asks Pre p Post)
    (hPre : ∀ c, Pre' c → Pre c) (hPost : ∀ x c, Post x c → Post' x c) : Asks Pre' p Post' := by
  intro c b hc hr hfil hb
  rcases h c b (hPre c hc) hr hfil hb with ⟨x, c1, b', h1, h2, h3⟩ | h | h
  · exact .inl ⟨x, c1, b', h1, hPost _ _ h2, h3⟩
  · exact .inr (.inl h)
  · exact .inr (.inr h)

/-- A property that the procedure establishes when it is run afresh may be used behind it. -/
theorem add {p : Proc α} {Post : α → Ctx → Prop} {E : Stop → Ctx → Prop} (h : Asks (fun _ => True) p fun _ _ => True)
    (ht : Triple (fun c => Pre c ∧ c.Room) p Post E) (hPre : ∀ c b l, Pre c → Pre (c.withReplies b l))
    (hPost : ∀ x c b l, Post x (c.withReplies b l) → Post x c) : Asks Pre p Post := by
  intro c b hc hr hfil hb
  rcases h c b trivial hr hfil hb with ⟨x, c1, b', h1, -, h3, h4, h5⟩ | h | h
  · refine .inl ⟨x, c1, b', h1, ?_, h3, h4, h5⟩
    have h6 := ht (c.withReplies (b ++ []) .ok) ⟨hPre c _ _ hc, hr.fresh, hr.buf, hr.src⟩
    rw [h5] at h6
    exact hPost _ _ _ _ h6
  · exact .inr (.inl h)
  · exact .inr (.inr h)

end Asks

/-! ### Requests -/

theorem silent_request {e : ErrName} {n : Nat} {grant : Ports → Nat → List Byte × Ports} : Silent (request e n grant) := by
  intro q hq hl c ⟨h1, h2⟩
  rcases c with ⟨cfg, r, p, rep, giv⟩
  obtain rfl : rep = [] := h1
  obtain rfl : p = q := h2
  simp [request, Ports.takeReply, hq, hl]

theorem asks_request {e : ErrName} {n : Nat} {grant : Ports → Nat → List Byte × Ports}
    (hg : ∀ p k b l, grant { p with plan := b, later := l } k =
      ((grant p k).1, { (grant p k).2 with plan := b, later := l }))
    (hlen : ∀ p k, (grant p k).1.length ≤ k) (hsrc : ∀ p k, (grant p k).2.src = p.src)
    (he : ∀ p, (e = .srcFail ∧ (grant p n).2.snk = p.snk) ∨
      (e = .snkFail ∧ ∃ bytes, bytes ≠ [] ∧ (grant p n).2.snk = p.snk ++ bytes)) :
    Asks Pre (request e n grant) fun bytes _ => bytes.length ≤ n := by
  intro c b hc hr hfil hb
  rcases c with ⟨cfg, r, p, rep, giv⟩
  obtain rfl : rep = [] := hr.fresh
  have key : ∀ k a l, grant (Ports.mk p.src p.srcPos p.snk a l) k =
      ((grant p k).1, { (grant p k).2 with plan := a, later := l }) := fun k a l => hg p k a l
  cases b with
  | nil =>
    refine .inr (.inr ⟨e, ⟨cfg, r, p, [], giv⟩, fun a l => ?_, fun a l => ?_, ?_, ?_⟩)
    · rfl
    · rfl
    · rfl
    · simp only [Granted, request, Ports.takeReply, Ctx.withReplies, bind_apply, get_apply, List.nil_append, key n [] .hold,
        set_apply, pure_apply, endOf_ok, true_and]
      exact he p
  | cons reply b =>
    have hb' : Prompt b := fun x hx => hb x (List.mem_cons_of_mem _ hx)
    have room : ∀ k giv', Ctx.Room ⟨cfg, r, (grant p k).2, [], giv'⟩ := fun k giv' =>
      ⟨rfl, hr.buf, by simpa [hsrc] using hr.src⟩
    cases reply with
    | ok =>
      refine .inl ⟨(grant p n).1, ⟨cfg, r, (grant p n).2, [], giv ++ [(grant p n).1]⟩, b, hb', hlen _ _, room n _, hfil,
        fun a l => ?_⟩
      simp only [request, Ports.takeReply, Ctx.withReplies, bind_apply, get_apply, set_apply, pure_apply,
        List.cons_append, key n (b ++ a) l]
    | okShort k =>
      refine .inl ⟨(grant p (min k n)).1, ⟨cfg, r, (grant p (min k n)).2, [], giv ++ [(grant p (min k n)).1]⟩, b, hb',
        (hlen _ _).trans (min_le_right _ _), room _ _, hfil, fun a l => ?_⟩
      simp only [request, Ports.takeReply, Ctx.withReplies, bind_apply, get_apply, set_apply, pure_apply,
        List.cons_append, key (min k n) (b ++ a) l]
    | fail =>
      refine .inr (.inl ⟨e, ⟨cfg, r, p, [], giv⟩, b, fun a l => ?_⟩)
      rfl
    | hold => exact absurd rfl (hb _ List.mem_cons_self)

/-! ### The property of every body -/

/-- The property as it is carried through every body. -/
structure AsksBody (p : Proc α) : Prop where
  asks : Asks (fun _ => True) p fun _ _ => True
  silent : Silent p

theorem silent_bind {p : Proc α} {f : α → Proc β} (hp : Silent p) (hf : ∀ x, Silent (f x)) : Silent (p >>= f) :=
  fun q h1 h2 => keeps_bind (hp q h1 h2) fun x => hf x q h1 h2

theorem silent_getRegs : Silent getRegs := fun _ _ _ => keeps_getRegs

theorem silent_getConfig : Silent getConfig := fun _ _ _ => keeps_getConfig

theorem silent_pure (x : α) : Silent (pure x : Proc α) := fun _ _ _ => keeps_pure _

theorem silent_modifyRegs (f : Regs → Regs) : Silent (modifyRegs f) := fun _ _ _ => keeps_modifyRegs fun _ h => h

theorem silent_ite {b : Prop} [Decidable b] {p p' : Proc α} (hp : Silent p) (hq : Silent p') :
    Silent (if b then p else p') := by
  split <;> assumption

theorem silent_refill : Silent refill := by
  unfold refill srcRead
  exact silent_bind silent_getConfig fun _ => silent_bind silent_getRegs fun _ => silent_ite (silent_pure _) <|
    silent_ite (silent_pure _) <| silent_bind
      (silent_bind silent_getConfig fun _ => silent_bind silent_request fun _ =>
        silent_bind (silent_modifyRegs _) fun _ => silent_pure _) fun _ =>
      silent_bind (silent_modifyRegs _) fun _ => silent_pure _

theorem silent_snkWrite (bytes : List Byte) : Silent (snkWrite bytes) :=
  silent_bind silent_request fun _ => silent_modifyRegs _

theorem silent_writeFullBlock : Silent writeFullBlock :=
  silent_bind silent_getConfig fun _ => silent_bind silent_getRegs fun _ =>
    silent_ite (silent_bind (silent_snkWrite _) fun _ => silent_modifyRegs _) (silent_pure _)

theorem silent_rewind : Silent rewind :=
  silent_bind (silent_bind silent_request fun _ => silent_pure _) fun _ => silent_modifyRegs _

theorem asks_refill : AsksBody refill := by
  refine ⟨?_, silent_refill⟩
  unfold refill srcRead
  refine Asks.bind (Mid := fun cfg _ => cfg.block < 2 ^ 24) (Asks.getConfig fun c _ => Config.block_lt _) (fun cfg => ?_)
    fun cfg => silent_bind silent_getRegs fun _ => silent_ite (silent_pure _) <| silent_ite (silent_pure _) <|
      silent_bind (silent_bind silent_getConfig fun _ => silent_bind silent_request fun _ =>
        silent_bind (silent_modifyRegs _) fun _ => silent_pure _) fun _ =>
      silent_bind (silent_modifyRegs _) fun _ => silent_pure _
  refine Asks.bind (Mid := fun _ _ => cfg.block < 2 ^ 24) (Asks.getRegs fun c h _ => h) (fun r => ?_)
    fun r => silent_ite (silent_pure _) <| silent_ite (silent_pure _) <|
      silent_bind (silent_bind silent_getConfig fun _ => silent_bind silent_request fun _ =>
        silent_bind (silent_modifyRegs _) fun _ => silent_pure _) fun _ =>
      silent_bind (silent_modifyRegs _) fun _ => silent_pure _
  refine Asks.ite (fun _ => Asks.pure _ fun _ _ => trivial) fun _ => Asks.ite (fun _ => Asks.pure _ fun _ _ => trivial) fun _ => ?_
  refine Asks.bind (Mid := fun bytes _ => bytes.length < 2 ^ 24) ?_ (fun bytes => ?_)
    fun bytes => silent_bind (silent_modifyRegs _) fun _ => silent_pure _
  · refine Asks.bind (Mid := fun cfg _ => cfg.block < 2 ^ 24) (Asks.getConfig fun c _ => Config.block_lt _) (fun cfg2 => ?_)
      fun _ => silent_bind silent_request fun _ => silent_bind (silent_modifyRegs _) fun _ => silent_pure _
    refine Asks.bind (Mid := fun bytes _ => bytes.length < 2 ^ 24) ?_ (fun bytes => ?_)
      fun _ => silent_bind (silent_modifyRegs _) fun _ => silent_pure _
    · intro c b hc
      exact ((asks_request (Pre := fun _ => True) (fun _ _ _ _ => rfl) (fun p k => by simp [Ports.deliver])
        (fun _ _ => rfl) fun p => .inl ⟨rfl, rfl⟩).conseq (Pre' := fun _ => True) (fun _ h => h)
        (fun x c h => lt_of_le_of_lt h hc)) c b trivial
    · exact Asks.bind (Mid := fun _ _ => bytes.length < 2 ^ 24)
        (Asks.modifyRegs _ fun c h hr hfil => ⟨h, hr.buf, hfil⟩) (fun _ => Asks.pure _ fun c h => h) fun _ => silent_pure _
  · exact Asks.bind (Mid := fun _ _ => True) (Asks.modifyRegs _ fun c h hr hfil => ⟨trivial, h, hfil⟩)
      (fun _ => Asks.pure _ fun _ _ => trivial) fun _ => silent_pure _

theorem asks_rewind : AsksBody rewind := by
  refine ⟨?_, silent_rewind⟩
  unfold rewind srcRewind
  refine Asks.bind (Mid := fun _ _ => True) ?_
    (fun _ => Asks.modifyRegs _ fun c h hr hfil => ⟨trivial, by simp [InSide.empty], hfil⟩) fun _ => silent_modifyRegs _
  exact Asks.bind (Mid := fun _ _ => True)
    ((asks_request (fun _ _ _ _ => rfl) (fun _ _ => Nat.zero_le _) (fun _ _ => rfl) fun _ => .inl ⟨rfl, rfl⟩).conseq
      (fun _ h => h) fun _ _ _ => trivial) (fun _ => Asks.pure _ fun _ _ => trivial) fun _ => silent_pure _

theorem asks_snkWrite {bytes : List Byte} (hb : bytes ≠ []) : Asks Pre (snkWrite bytes) fun _ _ => True :=
  Asks.bind (Mid := fun _ _ => True)
    ((asks_request (fun _ _ _ _ => rfl) (fun _ _ => Nat.zero_le _) (fun _ _ => rfl) fun _ => .inr ⟨rfl, bytes, hb, rfl⟩).conseq
      (fun _ h => h) fun _ _ _ => trivial)
    (fun _ => Asks.modifyRegs _ fun _ _ hr hfil => ⟨trivial, hr.buf, hfil⟩) fun _ => silent_modifyRegs _

theorem asks_emptyOut : Asks Pre (modifyRegs Regs.emptyOut) fun _ _ => True :=
  Asks.modifyRegs _ fun _ _ hr _ => ⟨trivial, hr.buf, fun h => absurd h (Nat.lt_irrefl 0)⟩

theorem asks_writeFullBlock : Asks (fun c => c.regs.out.buf ≠ []) writeFullBlock fun _ _ => True := by
  unfold writeFullBlock
  refine Asks.bind (Mid := fun cfg c => 1 ≤ cfg.block ∧ c.regs.out.buf ≠ [])
    (Asks.getConfig fun c h => ⟨Config.block_pos _, h⟩) (fun cfg => ?_)
    fun _ => silent_bind silent_getRegs fun _ => silent_ite (silent_bind (silent_snkWrite _) fun _ => silent_modifyRegs _)
      (silent_pure _)
  refine Asks.bind (Mid := fun r _ => 1 ≤ cfg.block ∧ r.out.buf ≠ []) (Asks.getRegs fun c h _ => h) (fun r => ?_)
    fun _ => silent_ite (silent_bind (silent_snkWrite _) fun _ => silent_modifyRegs _) (silent_pure _)
  refine Asks.ite (fun _ => ?_) fun _ => Asks.pure _ fun _ _ => trivial
  intro c b hc
  have hne : r.out.buf.take cfg.block ≠ [] := by
    obtain ⟨h1, h2⟩ := hc
    intro h
    rcases List.take_eq_nil_iff.1 h with h | h
    · omega
    · exact h2 h
  exact (Asks.bind (Pre := fun _ => True) (Mid := fun _ _ => True) (asks_snkWrite hne) (fun _ => asks_emptyOut) fun _ => silent_modifyRegs _)
    c b trivial

theorem asks_append (f : OutSide → OutSide) (hf : ∀ o, (f o).buf ≠ []) :
    AsksBody (do modifyRegs fun r => { r with out := f r.out }; writeFullBlock) :=
  ⟨Asks.bind (Mid := fun _ c => c.regs.out.buf ≠ [])
    (Asks.modifyRegs _ fun _ _ hr _ => ⟨hf _, hr.buf, fun _ => hf _⟩) (fun _ => asks_writeFullBlock) fun _ => silent_writeFullBlock,
    silent_bind (silent_modifyRegs _) fun _ => silent_writeFullBlock⟩

theorem asks_flushOut : AsksBody flushOut := by
  refine ⟨?_, ?_⟩
  · unfold flushOut
    refine Asks.bind (Mid := fun r _ => 0 < r.out.bitPos → r.out.buf ≠ []) (Asks.getRegs fun _ _ h => by exact h) (fun r => ?_)
      fun _ => silent_ite (silent_bind (silent_snkWrite _) fun _ => silent_modifyRegs _) (silent_modifyRegs _)
    refine Asks.ite (fun hp => ?_) fun _ => asks_emptyOut
    intro c b hc
    have hne : r.out.buf.take r.out.pendingBytes ≠ [] := by
      intro h
      rcases List.take_eq_nil_iff.1 h with h | h
      · omega
      · refine hc ?_ h
        simp only [OutSide.pendingBytes] at hp; omega
    exact (Asks.bind (Pre := fun _ => True) (Mid := fun _ _ => True) (asks_snkWrite hne) (fun _ => asks_emptyOut) fun _ => silent_modifyRegs _)
      c b trivial
  · exact silent_bind silent_getRegs fun _ => silent_ite (silent_bind (silent_snkWrite _) fun _ => silent_modifyRegs _)
      (silent_modifyRegs _)

theorem asks_composes : Composes fun {α} (p : Proc α) => AsksBody p where
  pure a := ⟨Asks.pure a fun _ _ => trivial, silent_pure a⟩
  raise e := ⟨Asks.raise e, fun _ _ _ => keeps_raise e⟩
  bind hp hf := ⟨Asks.bind hp.asks (fun x => (hf x).asks) fun x => (hf x).silent, silent_bind hp.silent fun x => (hf x).silent⟩
  getRegs := ⟨Asks.getRegs fun _ _ _ => trivial, silent_getRegs⟩
  getConfig := ⟨Asks.getConfig fun _ _ => trivial, silent_getConfig⟩
  modifyRegs f hi ho := ⟨Asks.modifyRegs f fun c _ hr hfil => ⟨trivial, by rw [hi]; exact hr.buf, by
    simpa only [Ctx.Filled, ho] using hfil⟩, silent_modifyRegs f⟩
  refill := asks_refill
  advance n := ⟨Asks.modifyRegs _ fun c _ hr hfil => ⟨trivial, hr.buf, hfil⟩, silent_modifyRegs _⟩
  rewind := asks_rewind
  outBit b := asks_append (·.appendBit b) fun o => by simp [OutSide.appendBit, putByte]
  outByte v := asks_append (·.appendByte v) fun o => by simp [OutSide.appendByte, putByte]
  flushOut := asks_flushOut

/-! ### The loops over the input -/

/-- A statement that leaves the input alone keeps what is left of it. -/
theorem asks_keeps {p : Proc α} {P : Ctx → Prop} (h : AsksBody p) (hk : Keeps P p)
    (hP : ∀ c b l, P (c.withReplies b l) ↔ P c) : Asks P p fun _ => P :=
  h.asks.add (E := fun _ _ => True) (by
    intro c hc
    have := hk c hc.1
    cases hp : p c with
    | ok x c1 => rw [hp] at this; exact this
    | error e c1 => trivial) (fun c b l => (hP c b l).2) fun _ c b l => (hP c b l).1

theorem asks_inByte_less (fuel : Nat) :
    Asks (fun c => c.bytesLeft < fuel + 1) inByte fun o c => o = none ∨ c.bytesLeft < fuel :=
  asks_composes.inByte.asks.add
    ((inByte_less fuel).conseq (fun _ h => ⟨Nat.le_of_lt_succ h.1, h.2⟩) (fun _ _ h => h) fun _ _ h => h)
    (fun _ _ _ h => h) fun _ _ _ _ h => h

theorem asks_inBit_less (fuel : Nat) :
    Asks (fun c => c.bitsLeft < fuel + 1) inBit fun o c => o = none ∨ c.bitsLeft < fuel :=
  asks_composes.inBit.asks.add
    ((inBit_less fuel).conseq (fun _ h => ⟨Nat.le_of_lt_succ h.1, h.2⟩) (fun _ _ h => h) fun _ _ h => h)
    (fun _ _ _ h => h) fun _ _ _ _ h => h

theorem silent_scanLoop (fuel : Nat) : Silent (scanLoop fuel) := by
  induction fuel with
  | zero => exact fun _ _ _ => keeps_throw _
  | succ fuel ih =>
    unfold scanLoop
    refine silent_bind asks_composes.inByte.silent fun o => ?_
    cases o with
    | none => exact silent_pure _
    | some v =>
      exact silent_bind silent_getRegs fun _ => silent_bind (asks_composes.require _ _).silent fun _ =>
        silent_bind (silent_modifyRegs _) fun _ => ih

theorem asks_scanLoop : AsksBody (scanLoop inputPasses) := by
  have key : ∀ fuel, Asks (fun c => c.bytesLeft < fuel) (scanLoop fuel) fun _ _ => True := by
    intro fuel
    induction fuel with
    | zero => intro c b hc; exact absurd hc (Nat.not_lt_zero _)
    | succ fuel ih =>
      unfold scanLoop
      refine Asks.bind (asks_inByte_less fuel) (fun o => ?_) fun o => ?_
      · cases o with
        | none => exact Asks.pure _ fun _ _ => trivial
        | some v =>
          refine Asks.bind (Mid := fun _ c => c.bytesLeft < fuel) (Asks.getRegs fun c h _ => h.resolve_left (by simp))
            (fun r => ?_) fun _ => silent_bind (asks_composes.require _ _).silent fun _ =>
              silent_bind (silent_modifyRegs _) fun _ => silent_scanLoop fuel
          refine Asks.bind (Mid := fun _ c => c.bytesLeft < fuel)
            (asks_keeps (asks_composes.require _ _) (keeps_require _ _) fun _ _ _ => Iff.rfl) (fun _ => ?_)
            fun _ => silent_bind (silent_modifyRegs _) fun _ => silent_scanLoop fuel
          exact Asks.bind (Mid := fun _ c => c.bytesLeft < fuel) (Asks.modifyRegs _ fun c h hr hfil => ⟨h, hr.buf, hfil⟩)
            (fun _ => ih) fun _ => silent_scanLoop fuel
      · cases o with
        | none => exact silent_pure _
        | some v =>
          exact silent_bind silent_getRegs fun _ => silent_bind (asks_composes.require _ _).silent fun _ =>
            silent_bind (silent_modifyRegs _) fun _ => silent_scanLoop fuel
  exact ⟨fun c b _ hr => key inputPasses c b hr.bytesLeft_lt hr, silent_scanLoop _⟩

theorem silent_encodeLoop (e : ErrName) (fuel n : Nat) : Silent (encodeLoop e fuel n) := by
  induction fuel generalizing n with
  | zero => exact fun _ _ _ => keeps_throw _
  | succ fuel ih =>
    unfold encodeLoop
    refine silent_bind asks_composes.inByte.silent fun o => ?_
    cases o with
    | none => exact silent_pure _
    | some v =>
      exact silent_bind silent_getRegs fun _ => silent_bind (asks_composes.require _ _).silent fun _ =>
        silent_bind (asks_composes.outCode v).silent fun _ => ih _

theorem asks_encodeLoop (e : ErrName) : AsksBody (encodeLoop e inputPasses 0) := by
  have key : ∀ fuel n, Asks (fun c => c.bytesLeft < fuel) (encodeLoop e fuel n) fun _ _ => True := by
    intro fuel
    induction fuel with
    | zero => intro n c b hc; exact absurd hc (Nat.not_lt_zero _)
    | succ fuel ih =>
      intro n
      unfold encodeLoop
      refine Asks.bind (asks_inByte_less fuel) (fun o => ?_) fun o => ?_
      · cases o with
        | none => exact Asks.pure _ fun _ _ => trivial
        | some v =>
          refine Asks.bind (Mid := fun _ c => c.bytesLeft < fuel) (Asks.getRegs fun c h _ => h.resolve_left (by simp))
            (fun r => ?_) fun _ => silent_bind (asks_composes.require _ _).silent fun _ =>
              silent_bind (asks_composes.outCode v).silent fun _ => silent_encodeLoop _ _ _
          refine Asks.bind (Mid := fun _ c => c.bytesLeft < fuel)
            (asks_keeps (asks_composes.require _ _) (keeps_require _ _) fun _ _ _ => Iff.rfl) (fun _ => ?_)
            fun _ => silent_bind (asks_composes.outCode v).silent fun _ => silent_encodeLoop _ _ _
          exact Asks.bind (Mid := fun _ c => c.bytesLeft < fuel)
            (asks_keeps (asks_composes.outCode v) (keeps_outCode (writeClosed_bytesLeft _) v) fun _ _ _ => Iff.rfl)
            (fun _ => ih _) fun _ => silent_encodeLoop _ _ _
      · cases o with
        | none => exact silent_pure _
        | some v =>
          exact silent_bind silent_getRegs fun _ => silent_bind (asks_composes.require _ _).silent fun _ =>
            silent_bind (asks_composes.outCode v).silent fun _ => silent_encodeLoop _ _ _
  exact ⟨fun c b _ hr => key inputPasses 0 c b hr.bytesLeft_lt hr, silent_encodeLoop _ _ _⟩

theorem silent_decodeLoop (fuel todo x : Nat) : Silent (decodeLoop fuel todo x) := by
  induction fuel generalizing todo x with
  | zero =>
    cases todo with
    | zero => exact silent_pure _
    | succ todo => exact fun _ _ _ => keeps_throw _
  | succ fuel ih =>
    cases todo with
    | zero => exact silent_pure _
    | succ todo =>
      unfold decodeLoop
      refine silent_bind asks_composes.inBit.silent fun o => ?_
      cases o with
      | none => exact (asks_composes.raise _).silent
      | some v =>
        exact silent_bind silent_getRegs fun _ => silent_ite
          (silent_bind (asks_composes.outByte _).silent fun _ => ih _ _) (ih _ _)

theorem asks_decodeLoop (todo x : Nat) : AsksBody (decodeLoop (8 * inputPasses) todo x) := by
  have key : ∀ fuel todo x, Asks (fun c => c.bitsLeft < fuel) (decodeLoop fuel todo x) fun _ _ => True := by
    intro fuel
    induction fuel with
    | zero => intro todo x c b hc; exact absurd hc (Nat.not_lt_zero _)
    | succ fuel ih =>
      intro todo x
      cases todo with
      | zero => exact Asks.pure _ fun _ _ => trivial
      | succ todo =>
        unfold decodeLoop
        refine Asks.bind (asks_inBit_less fuel) (fun o => ?_) fun o => ?_
        · cases o with
          | none => exact Asks.raise _
          | some v =>
            refine Asks.bind (Mid := fun _ c => c.bitsLeft < fuel) (Asks.getRegs fun c h _ => h.resolve_left (by simp))
              (fun r => ?_) fun _ => silent_ite
                (silent_bind (asks_composes.outByte _).silent fun _ => silent_decodeLoop _ _ _) (silent_decodeLoop _ _ _)
            refine Asks.ite (fun _ => ?_) fun _ => ih _ _
            exact Asks.bind (Mid := fun _ c => c.bitsLeft < fuel)
              (asks_keeps (asks_composes.outByte _) (keeps_outByte (writeClosed_bitsLeft _) _) fun _ _ _ => Iff.rfl)
              (fun _ => ih _ _) fun _ => silent_decodeLoop _ _ _
        · cases o with
          | none => exact (asks_composes.raise _).silent
          | some v =>
            exact silent_bind silent_getRegs fun _ => silent_ite
              (silent_bind (asks_composes.outByte _).silent fun _ => silent_decodeLoop _ _ _) (silent_decodeLoop _ _ _)
  exact ⟨fun c b _ hr => key _ todo x c b hr.bitsLeft_lt hr, silent_decodeLoop _ _ _⟩

/-! ### A whole command -/

/-- The abort of a command at the point where it would wait, in the terms of the claims. -/
theorem abort_of_wait {s : State} {i : Instr} {q : Regs} {e : ErrName} {b : Bool} {c : Ctx} :
    s.abort b e c = (let u := { s.wait i q c with running := none }
         if b then u.released.failed e else u.failed e) := by
  have hst : s.status.raise e = ({ s.status with
      err := true, ok := false
      errCode := if s.status.err then s.status.errCode else e.code
      errKind := if s.status.err then s.status.errKind else e.code.extractLsb' 4 4 } : Status) := by
    simp only [Status.raise, kindOfCode]
    by_cases h : s.status.err = true <;> simp [h]
  cases b <;> simp only [State.abort, hst] <;> rfl

theorem outSide_filled {block : Nat} {o : OutSide} (h : o.Wf block) : 0 < o.bitPos → o.buf ≠ [] := by
  obtain ⟨bits, rfl, -⟩ := h
  intro h1 h2
  have := congrArg List.length h2
  simp [OutSide.of, packBits] at this h1
  omega

/-- A command waits at a request: FAIL instead aborts it there (R75, R220, R221), with SRC_FAIL or, where granting the
request makes the sink longer, with SNK_FAIL (R72 to R74). -/
theorem perform_fail {s t : State} {i : Instr} {rel : Bool} {body : Proc Answer} {before after : List PortReply}
    (hB : AsksBody body) (hs : s.running = none) (hsrc : s.port.src.length < 2 ^ 64)
    (hi : s.regs.inp.Wf s.config.block) (ho : s.regs.out.Wf s.config.block) (hb : Prompt before) :
    let replies (plan : List PortReply) (later : PortReply) : State :=
      { s with port := { s.port with plan := plan, later := later } }
    (replies (before ++ .hold :: after) s.port.later).perform i rel body = t → t.running ≠ none →
    ∃ e : ErrName, (e = .srcFail ∨ e = .snkFail) ∧
      (replies (before ++ .fail :: after) s.port.later).perform i rel body =
        (let u := { t with running := none }
         if rel then u.released.failed e else u.failed e) ∧
      ∀ v, (replies (before ++ [.ok]) .hold).perform i rel body = v → (e = .snkFail ↔ v.port.snk ≠ t.port.snk) := by
  intro replies ht htr
  have hctx : ∀ p l, (replies p l).ctx = s.ctx.withReplies p l := by
    intro p l
    simp [State.ctx, replies, Ctx.withReplies, State.startRegs, State.answered, hs]
  have hstart : s.startRegs = s.regs := by simp [State.startRegs, hs]
  have room : s.ctx.Room := by
    refine ⟨by simp [State.ctx, State.answered, hs], ?_, hsrc⟩
    have := hi.length; have := s.config.block_lt
    simp only [State.ctx, hstart]; omega
  have hfil : s.ctx.Filled := by
    simp only [Ctx.Filled, State.ctx, hstart]; exact outSide_filled ho
  rcases hB.asks s.ctx before trivial room hfil hb with ⟨x, c1, b', -, -, -, -, h⟩ | ⟨e, c1, b', h⟩ | ⟨e, c1, h1, h2, h3, h4⟩
  · unfold State.perform at ht
    rw [hctx, h] at ht
    subst ht; exact absurd rfl htr
  · unfold State.perform at ht
    rw [hctx, h] at ht
    subst ht; exact absurd rfl htr
  · unfold State.perform at ht
    rw [hctx, h1] at ht
    simp only at ht
    have hport : ∀ v, (replies (before ++ [.ok]) .hold).perform i rel body = v →
        v.port = (endOf (body (s.ctx.withReplies (before ++ [.ok]) .hold))).port := by
      intro v hv
      unfold State.perform at hv
      rw [hctx] at hv
      cases hr : body (s.ctx.withReplies (before ++ [.ok]) .hold) with
      | ok x c => rw [hr] at hv; subst hv; rfl
      | error x c => rw [hr] at hv; cases x <;> (subst hv; rfl)
    have htsnk : t.port.snk = c1.port.snk := by rw [← ht]; rfl
    refine ⟨e, h4.2.2.imp And.left And.left, ?_, fun v hv => ?_⟩
    · unfold State.perform
      rw [hctx, h2]
      simp only
      subst ht
      exact abort_of_wait
    · rw [hport v hv, htsnk]
      rcases h4.2.2 with ⟨rfl, h⟩ | ⟨rfl, bytes, hne, h⟩
      · simp [h]
      · simp [h, hne]

end Sys2Proof.Machine
end

