-- ==== Sys2Proof/Laws/Change.lean ====
section
/-! SUPPORT. A source that changes between ENCODE's two passes (R259). A host that answers each request with OK gives a number
of OKs, after which the next request finds the next reply: so the first request of the second pass can be left open while
the source changes, and the command then goes on over the new source. -/

namespace Sys2Proof.Machine

variable {α β : Type}

/-- Every request is granted, in full, and none of the answers has been given before. -/
structure Ctx.Open (c : Ctx) : Prop where
  fresh : c.replay = []
  plan : c.port.plan = []
  later : c.port.later = .ok

/-- The reply OK, n times. -/
abbrev oks (n : Nat) : List PortReply := List.replicate n .ok

/-- A procedure that ends when each request is granted makes n requests: it ends so on the first n replies OK, whatever
replies come after them, and finds its answers again. The replies OK that stand in a list and those that come after it are
alike. -/
def Counts (p : Proc α) : Prop :=
  ∀ c : Ctx, c.Open → match p c with
    | .ok x c1 => c1.Open ∧ ∃ n new, c1.given = c.given ++ new ∧
        (∀ plan later, p (c.withReplies (oks n ++ plan) later) = .ok x (c1.withReplies plan later)) ∧
        (∀ k, p (c.withReplies (oks k) .ok) = .ok x (c1.withReplies (oks (k - n)) .ok)) ∧
        ∀ q tail, p { c with port := q, replay := new ++ tail } = .ok x { c1 with port := q, replay := tail }
    | .error e c1 => ∃ n, ∀ k, p (c.withReplies (oks k) .ok) = .error e (c1.withReplies (oks (k - n)) .ok)

theorem oks_add (n m : Nat) (plan : List PortReply) : oks (n + m) ++ plan = oks n ++ (oks m ++ plan) := by
  rw [← List.append_assoc, oks, List.replicate_add]

/-- A procedure that makes no request and does not look at the replies. -/
theorem counts_still {p : Proc α} (f : Config → Regs → α) (g : Config → Regs → Regs)
    (h : ∀ c, p c = .ok (f c.config c.regs) { c with regs := g c.config c.regs }) : Counts p := by
  intro c hc
  simp only [h]
  exact ⟨⟨hc.fresh, hc.plan, hc.later⟩, 0, [], (List.append_nil _).symm, fun _ _ => rfl, fun _ => rfl, fun _ _ => rfl⟩

theorem counts_stop {p : Proc α} (e : Stop) (h : ∀ c, p c = .error e c) : Counts p := by
  intro c _
  simp only [h]
  exact ⟨0, fun _ => rfl⟩

theorem counts_bind {p : Proc α} {f : α → Proc β} (hp : Counts p) (hf : ∀ x, Counts (f x)) : Counts (p >>= f) := by
  intro c hc
  have h1 := hp c hc
  simp only [bind_apply]
  cases hpc : p c with
  | error e c1 =>
    rw [hpc] at h1
    obtain ⟨n, h1⟩ := h1
    exact ⟨n, fun k => by rw [h1 k]⟩
  | ok x c1 =>
    rw [hpc] at h1
    obtain ⟨h2, n, new, h3, h4, h5, h6⟩ := h1
    have h7 := hf x c1 h2
    simp only
    cases hfc : f x c1 with
    | error e c2 =>
      rw [hfc] at h7
      obtain ⟨m, h7⟩ := h7
      exact ⟨n + m, fun k => by rw [h5 k, Nat.sub_add_eq]; exact h7 (k - n)⟩
    | ok y c2 =>
      rw [hfc] at h7
      obtain ⟨k2, m, new2, k3, k4, k5, k6⟩ := h7
      refine ⟨k2, n + m, new ++ new2, by rw [k3, h3, List.append_assoc], fun plan later => ?_, fun k => ?_, fun q tail => ?_⟩
      · rw [oks_add, h4]; exact k4 plan later
      · rw [h5 k, Nat.sub_add_eq]; exact k5 (k - n)
      · rw [List.append_assoc, h6 q (new2 ++ tail)]; exact k6 q tail

theorem counts_ite {b : Prop} [Decidable b] {p p' : Proc α} (hp : Counts p) (hp' : Counts p') :
    Counts (if b then p else p') := by
  split <;> assumption

theorem counts_getRegs : Counts getRegs := counts_still (fun _ r => r) (fun _ r => r) fun _ => rfl

theorem counts_getConfig : Counts getConfig := counts_still (fun c _ => c) (fun _ r => r) fun _ => rfl

theorem counts_modifyRegs (f : Regs → Regs) : Counts (modifyRegs f) := counts_still (fun _ _ => ()) (fun _ r => f r) fun _ => rfl

theorem counts_pure (x : α) : Counts (pure x : Proc α) := counts_still (fun _ _ => x) (fun _ r => r) fun _ => rfl

theorem counts_request {e : ErrName} {n : Nat} {grant : Ports → Nat → List Byte × Ports}
    (hg : ∀ p k b l, grant { p with plan := b, later := l } k =
      ((grant p k).1, { (grant p k).2 with plan := b, later := l })) : Counts (request e n grant) := by
  rintro ⟨cfg, r, ⟨src, srcPos, snk, plan, later⟩, rep, giv⟩ ⟨h1, h2, h3⟩
  simp only at h1 h2 h3
  subst h1 h2 h3
  have key : ∀ a l, grant (Ports.mk src srcPos snk a l) n = ((grant ⟨src, srcPos, snk, [], .ok⟩ n).1,
      { (grant ⟨src, srcPos, snk, [], .ok⟩ n).2 with plan := a, later := l }) := fun a l =>
    hg ⟨src, srcPos, snk, [], .ok⟩ n a l
  have hopen := key [] .ok
  simp only [request, Ports.takeReply, bind_apply, get_apply, set_apply, pure_apply]
  refine ⟨⟨rfl, by rw [hopen], by rw [hopen]⟩, 1, [_], rfl, fun plan later => ?_, fun k => ?_, fun q tail => rfl⟩
  · simp only [Ctx.withReplies, oks, List.replicate_one, List.singleton_append, bind_apply, set_apply, pure_apply,
      key plan later]
  · cases k with
    | zero => exact congrArg (fun p => EStateM.Result.ok _ (Ctx.mk cfg r p [] _)) (congrArg Prod.snd hopen)
    | succ k =>
      simp only [Ctx.withReplies, oks, List.replicate_succ, bind_apply, set_apply, pure_apply,
        Nat.add_sub_cancel, key (List.replicate k .ok) .ok]

theorem counts_refill : Counts refill := by
  unfold refill srcRead
  exact counts_bind counts_getConfig fun _ => counts_bind counts_getRegs fun _ => counts_ite (counts_pure _) <|
    counts_ite (counts_pure _) <| counts_bind
      (counts_bind counts_getConfig fun _ => counts_bind (counts_request fun _ _ _ _ => rfl) fun _ =>
        counts_bind (counts_modifyRegs _) fun _ => counts_pure _) fun _ =>
      counts_bind (counts_modifyRegs _) fun _ => counts_pure _

theorem counts_rewind : Counts rewind :=
  counts_bind (counts_bind (counts_request fun _ _ _ _ => rfl) fun _ => counts_pure _) fun _ => counts_modifyRegs _

theorem counts_composes : Composes fun {α} (p : Proc α) => Counts p := composes_of_snkWrite
  (pure := counts_pure)
  (raise := fun e => counts_stop (.raised e) fun _ => rfl)
  (bind := counts_bind)
  (getRegs := counts_getRegs)
  (getConfig := counts_getConfig)
  (modifyRegs := fun f _ => counts_modifyRegs f)
  (refill := counts_refill)
  (advance := fun _ => counts_modifyRegs _)
  (rewind := counts_rewind)
  (snkWrite := fun _ => counts_request fun _ _ _ _ => rfl)

theorem counts_scanLoop (fuel : Nat) : Counts (scanLoop fuel) := by
  induction fuel with
  | zero => exact counts_stop .waiting fun _ => rfl
  | succ fuel ih =>
    unfold scanLoop
    refine counts_bind counts_composes.inByte fun o => ?_
    cases o with
    | none => exact counts_pure _
    | some v =>
      exact counts_bind counts_getRegs fun _ => counts_bind (counts_composes.require _ _) fun _ =>
        counts_bind (counts_modifyRegs _) fun _ => ih

theorem counts_encodeLoop (e : ErrName) (fuel n : Nat) : Counts (encodeLoop e fuel n) := by
  induction fuel generalizing n with
  | zero => exact counts_stop .waiting fun _ => rfl
  | succ fuel ih =>
    unfold encodeLoop
    refine counts_bind counts_composes.inByte fun o => ?_
    cases o with
    | none => exact counts_pure _
    | some v =>
      exact counts_bind counts_getRegs fun _ => counts_bind (counts_composes.require _ _) fun _ =>
        counts_bind (counts_composes.outCode v) fun _ => ih _

theorem counts_firstPass : Counts firstPass := by
  have h := counts_composes
  exact h.bind h.startDriver fun _ => h.bind (counts_modifyRegs _) fun _ => h.bind (h.histScan (counts_scanLoop _)) fun _ =>
    h.bind h.histForce fun _ => h.bind h.buildTree fun _ => h.bind h.buildCodes fun _ =>
      h.bind (counts_modifyRegs _) fun _ => h.bind h.hdrWrite fun _ => h.bind h.dumpTree fun _ => h.rewind

theorem counts_secondPass : Counts secondPass := by
  have h := counts_composes
  exact h.bind (h.encodePayload _ (counts_encodeLoop _ _ _)) fun _ => h.bind h.getRegs fun _ => h.bind (h.require _ _) fun _ =>
    h.bind h.flushOut fun _ => h.bind (counts_modifyRegs _) fun _ => h.pure _

/-- The second pass starts with a SrcRead, and waits there while the host does not answer (R75, R202). -/
theorem secondPass_waits (c : Ctx) (h1 : c.replay = []) (h2 : c.regs.inp = InSide.empty) (later : PortReply) :
    secondPass (c.withReplies [.hold] later) = .error .waiting (c.withReplies [] later) := by
  have h3 : refill (c.withReplies [.hold] later) = .error .waiting (c.withReplies [] later) := by
    rcases c with ⟨cfg, r, q, rep, giv⟩
    simp only at h1 h2
    subst h1
    simp [refill, srcRead, request, Ctx.withReplies, Ports.takeReply, h2, InSide.empty]
  have h4 : ∀ fuel, encodeLoop .inputChanged (fuel + 1) 0 (c.withReplies [.hold] later) =
      .error .waiting (c.withReplies [] later) := fun fuel => by
    rw [encodeLoop, bind_apply, inByte, bind_apply, h3]
  have h5 : encodePayload .inputChanged (c.withReplies [.hold] later) = .error .waiting (c.withReplies [] later) := by
    rw [encodePayload, bind_apply]
    have : requireInAligned (c.withReplies [.hold] later) = .ok () (c.withReplies [.hold] later) := by
      simp [requireInAligned, Ctx.withReplies, h2, InSide.empty]
    rw [this]
    exact h4 (2 ^ 65 - 1)
  rw [secondPass, bind_apply, h5]

/-- ENCODE whose first request of the second pass is left open, and that goes on over another source (R75, R259). -/
theorem encode_waits {s : State} {r9 : Regs} {q9 : Ports} (hs : s.running = none) (hplan : s.port.plan = [])
    (hlater : s.port.later = .ok) (hrun : Runs firstPass s.config s.regs s.port () r9 q9) (hi : r9.inp = InSide.empty) :
    ∃ n given,
      exec .encode { s with port := { s.port with plan := oks n ++ [.hold] } } =
        .next { s with
          regs := r9, port := { q9 with plan := [], later := .ok }
          running := some { cmd := .encode, start := s.regs, answered := given } } ∧
      ∀ t : State, t.running = some { cmd := .encode, start := s.regs, answered := given } →
        t.config = s.config → t.port.plan = [] → t.port.later = .ok →
        (∀ (a : Answer) (r' : Regs) (q' : Ports), Runs secondPass s.config r9 t.port a r' q' →
          ∃ plan, t.answerPort .ok =
            .next ({ t with regs := r', port := { q' with plan := plan, later := .ok }, running := none }.done a.1 a.2)) ∧
        ∀ (e : ErrName) (r' : Regs) (q' : Ports), Fails secondPass s.config r9 t.port e r' q' →
          ∃ plan, t.answerPort .ok = .next
            (({ t with regs := r', port := { q' with plan := plan, later := .ok }, running := none } : State).released.failed e) := by
  obtain ⟨g, hg⟩ := hrun []
  have hctx : s.ctx = ⟨s.config, s.regs, s.port, [], []⟩ := State.ctx_idle hs
  have h1 := counts_firstPass ⟨s.config, s.regs, s.port, [], []⟩ ⟨rfl, hplan, hlater⟩
  rw [hg] at h1
  obtain ⟨h2, n, new, h3, h4, -, h5⟩ := h1
  obtain rfl : g = new := h3
  refine ⟨n, g, ?_, fun t ht hc hp hl => ?_⟩
  · have hw : encodeStream (State.ctx { s with port := { s.port with plan := oks n ++ [.hold] } }) =
        .error .waiting ⟨s.config, r9, { q9 with plan := [], later := .ok }, [], g⟩ := by
      rw [encodeStream_eq, bind_apply]
      have := h4 [.hold] s.port.later
      have e1 : State.ctx { s with port := { s.port with plan := oks n ++ [.hold] } } =
          Ctx.withReplies ⟨s.config, s.regs, s.port, [], []⟩ (oks n ++ [.hold]) s.port.later := by
        rw [State.ctx_idle (s := { s with port := { s.port with plan := oks n ++ [.hold] } }) hs]; rfl
      rw [e1, this]
      have := secondPass_waits ⟨s.config, r9, q9, [], g⟩ rfl hi s.port.later
      rw [hlater] at this ⊢
      exact this
    change Host.Outcome.next (State.perform _ _ _ encodeStream) = _
    rw [State.perform, hw]
    simp only [State.wait, State.startRegs, hs]
  · have hgo : encodeStream (State.ctx { t with port := { t.port with plan := .ok :: t.port.plan } }) =
        secondPass (Ctx.withReplies ⟨s.config, r9, t.port, [], g⟩ (oks 1) .ok) := by
      rw [encodeStream_eq, bind_apply]
      have e1 : State.ctx { t with port := { t.port with plan := .ok :: t.port.plan } } =
          ⟨s.config, s.regs, { t.port with plan := oks 1, later := .ok }, g ++ [], []⟩ := by
        simp [State.ctx, State.startRegs, State.answered, ht, hc, hp, hl]
      have := h5 { t.port with plan := oks 1, later := .ok } []
      simp only at this
      rw [e1, this]
      rfl
    have hx : t.answerPort .ok = .next (State.perform { t with port := { t.port with plan := .ok :: t.port.plan } } .encode true
        encodeStream) := by
      simp only [State.answerPort, ht]; rfl
    have h6 := counts_secondPass ⟨s.config, r9, t.port, [], g⟩ ⟨rfl, hp, hl⟩
    refine ⟨fun a r' q' h => ?_, fun e r' q' h => ?_⟩
    · obtain ⟨g', hg'⟩ := h g
      rw [hg'] at h6
      obtain ⟨-, m, -, -, -, h7, -⟩ := h6
      refine ⟨oks (1 - m), ?_⟩
      rw [hx, State.perform, hgo, h7]
      simp only [State.finish, State.done, Status.finish, Ctx.withReplies]
    · obtain ⟨g', hg'⟩ := h g
      rw [hg'] at h6
      obtain ⟨m, h7⟩ := h6
      refine ⟨oks (1 - m), ?_⟩
      rw [hx, State.perform, hgo, h7]
      exact congrArg Host.Outcome.next (abort_of_wait (i := .encode) (q := s.regs))

end Sys2Proof.Machine
end

