-- ==== Sys2Proof/Laws/InvPool.lean ====
section
/-! SUPPORT. Every command keeps the invariant of the node pool and the queue (R29, R31, R46, R47, R135), however it ends:
each error leaves a pool that has it too. -/

namespace Sys2Proof.Machine

variable {α β : Type} {p : Pool}

/-- The tree and queue unit as every run keeps it. -/
structure Pool.Ok (p : Pool) : Prop where
  wf : p.Wf
  queue : p.QueueWf
  size : p.size ≤ p.cap
  cap : p.cap ≤ 256

/-! ### The changes of the pool -/

/-- No part of the invariant is about the rebuild stack. -/
theorem Pool.Ok.withStack (h : p.Ok) (s : List Nat) : Pool.Ok { p with stack := s } :=
  ⟨h.wf.congr (fun _ => rfl) rfl rfl rfl,
    ⟨h.queue.size, h.queue.entries, h.queue.distinct, h.queue.held, h.queue.vacant, h.queue.order⟩, h.size, h.cap⟩

theorem Pool.Ok.of_empty (hn : ∀ k, p.node k = Node.free) (hc : p.count = 0) (hr : p.root = NIL) (hu : p.unique = 0)
    (hs : p.size = 0) (hh : ∀ j, heapAt p.heap j = NIL) (h : p.cap ≤ 256) : p.Ok :=
  ⟨Pool.wf_of_empty hn hc hr hu, Pool.queueWf_of_empty (fun k => by rw [hn]; decide) hs hh, by omega, h⟩

theorem Pool.Ok.cleared (h : p.Ok) : p.cleared.Ok :=
  .of_empty (fun k => p.node_cleared k) rfl rfl rfl rfl heapAt_replicate h.cap

theorem Pool.Ok.leaf (h : p.Ok) (hc : p.count ≠ 511) (sym : Byte) (freq : Word) :
    (p.grown { kind := .leaf, held := .unowned, sym := sym, freq := freq, left := NIL, right := NIL }).Ok :=
  ⟨h.wf.grown_leaf hc, h.queue.grown _ rfl, h.size, h.cap⟩

theorem Pool.Ok.insert (h : p.Ok) {x : Nat} (hx : x < p.count) (hh : (p.node x).held = .unowned) (hs : p.size ≠ p.cap) :
    (p.heapInsert x).Ok := by
  have h1 := h.size
  have h2 := h.cap
  exact ⟨h.wf.heapInsert hx hh, h.queue.insert hx h.wf.bound hh (by omega), by simp; omega, h.cap⟩

theorem Pool.Ok.extract (h : p.Ok) (hs : 0 < p.size) : p.heapExtract.Ok := by
  have h1 := h.size
  refine ⟨h.wf.heapExtract h.queue hs, h.queue.extract hs h.wf.bound, ?_, h.cap⟩
  show p.size - 1 ≤ p.cap
  omega

/-- The node that HeapExtract returns is allocated and has no owner afterwards. -/
theorem Pool.Ok.extracted (h : p.Ok) (hs : 0 < p.size) :
    p.heapTop < p.heapExtract.count ∧ (p.heapExtract.node p.heapTop).held = .unowned := by
  obtain ⟨h1, h2, -⟩ := h.queue.top hs
  refine ⟨h1, ?_⟩
  have := h.wf.bound
  rw [Pool.node_heapExtract, if_pos ⟨rfl, by omega⟩]

/-- A node without an owner is none that the queue holds, and stays without one. -/
theorem Pool.Ok.extract_unowned (h : p.Ok) (hs : 0 < p.size) {x : Nat} (hx : (p.node x).held = .unowned) :
    p.heapTop ≠ x ∧ (p.heapExtract.node x).held = .unowned := by
  obtain ⟨-, h2, -⟩ := h.queue.top hs
  refine ⟨fun hc => by (rw [hc, hx] at h2; cases h2), ?_⟩
  rw [Pool.node_heapExtract]
  split
  · rfl
  · exact hx

theorem Pool.Ok.join (h : p.Ok) (hc : p.count ≠ 511) {a b : Nat} {freq : Word} (ha : a < p.count) (hb : b < p.count)
    (hab : a ≠ b) (ha' : (p.node a).held = .unowned) (hb' : (p.node b).held = .unowned)
    (hf : freq.toNat = (p.node a).freq.toNat + (p.node b).freq.toNat) :
    ((p.grown { kind := .internal, held := .unowned, sym := 0, freq := freq, left := a, right := b }).adopt a b).Ok := by
  have hbd := h.wf.bound
  refine ⟨h.wf.join hc ha hb hab ha' hb' hf, ?_, h.size, h.cap⟩
  have hn : ∀ k, k < p.count →
      (p.grown { kind := .internal, held := .unowned, sym := 0, freq := freq, left := a, right := b }).node k = p.node k :=
    fun k hk => by rw [Pool.node_grown, if_neg (by omega)]
  have h1 := h.queue.grown { kind := .internal, held := .unowned, sym := 0, freq := freq, left := a, right := b } rfl
  have h2 := h1.setHeld (n := a) (held := .parent) (by rw [hn a ha, ha']; decide) (by decide)
  exact h2.setHeld (n := b) (held := .parent) (by rw [Pool.setHeld_held, if_neg (by omega), hn b hb, hb']; decide) (by decide)

/-- The joined pool at the nodes below the new one: the two children are held by a parent, the others stay. -/
theorem Pool.node_join {a b : Nat} {n : Node} {k : Nat} (hc : p.count < 511) (hk : k ≠ a)
    (hk' : k ≠ b) : ((p.grown n).adopt a b).node k = if p.count = k then n else p.node k := by
  rw [Pool.adopt, Pool.node_setHeld, if_neg (by omega), Pool.node_setHeld, if_neg (by omega), Pool.node_grown]
  by_cases h : p.count = k
  · rw [if_pos ⟨h, by omega⟩, if_pos h]
  · rw [if_neg (fun hx => h hx.1), if_neg h]

theorem Pool.Ok.dropRoot (h : p.Ok) : Pool.Ok { p.releaseRoot with root := NIL, unique := 0 } := by
  refine ⟨h.wf.dropRoot, ?_, ?_, ?_⟩
  · have hq : p.releaseRoot.QueueWf := by
      unfold Pool.releaseRoot
      split
      · exact h.queue
      · rename_i hr
        exact h.queue.setHeld (by rw [(h.wf.rootHeld p.root).2 ⟨rfl, hr⟩]; decide) (by decide)
    exact ⟨hq.size, hq.entries, hq.distinct, hq.held, hq.vacant, hq.order⟩
  · show p.releaseRoot.size ≤ p.releaseRoot.cap
    rw [Pool.releaseRoot_eq]; exact h.size
  · show p.releaseRoot.cap ≤ 256
    rw [Pool.releaseRoot_eq]; exact h.cap

theorem Pool.Ok.root (h : p.Ok) (hroot : p.root = NIL) {n : Nat} (hn : n < p.count) (hh : (p.node n).held = .unowned) :
    (p.makeRoot n).Ok := by
  refine ⟨h.wf.makeRoot hroot hn hh, ?_, h.size, h.cap⟩
  have hq := h.queue.setHeld (n := n) (held := .root) (by rw [hh]; decide) (by decide)
  exact ⟨hq.size, hq.entries, hq.distinct, hq.held, hq.vacant, hq.order⟩

theorem Pool.Ok.setRoot (h : p.Ok) {n : Nat} (hn : n < p.count) (hh : (p.node n).held = .unowned) :
    (p.releaseRoot.makeRoot n).Ok := by
  have h1 := h.dropRoot
  have h2 := h1.root (n := n) rfl (by show n < p.releaseRoot.count; rw [Pool.releaseRoot_eq]; exact hn) (by
    show (p.releaseRoot.node n).held = _
    rw [Pool.node_releaseRoot]
    split
    · rfl
    · exact hh)
  have he : (Pool.makeRoot { p.releaseRoot with root := NIL, unique := 0 } n) = p.releaseRoot.makeRoot n := by
    have hs : SameShape (Pool.setHeld { p.releaseRoot with root := NIL, unique := 0 } n .root)
      (p.releaseRoot.setHeld n .root) := fun _ => ⟨rfl, rfl, rfl, rfl⟩
    simp only [Pool.makeRoot, Pool.mk.injEq, true_and]
    exact ⟨rfl, rfl, hs.leaves n, rfl, rfl, rfl, rfl⟩
  rwa [he] at h2

theorem Pool.Ok.created (h : p.Ok) {cap : Nat} (hc : cap ≤ 256) : (p.queueCreated cap).Ok := by
  have h1 := h.wf.releaseQueued h.queue p.size le_rfl
  refine ⟨h1.congr (fun _ => rfl) rfl rfl rfl, Pool.queueWf_of_empty (fun k hk => ?_) rfl heapAt_replicate, Nat.zero_le _, hc⟩
  have hk' : ((p.releaseQueued p.size).node k).held = .pq := hk
  rw [Pool.node_releaseQueued] at hk'
  split at hk'
  · cases hk'
  · rename_i hn
    obtain ⟨j, hj, hj'⟩ := h.queue.held k hk'
    exact hn ⟨j, hj, hj'⟩

/-! ### The procedures -/

/-- A procedure of the tree and queue unit: from a pool with Q it ends in one with R, or stops in one that is Ok. -/
abbrev PoolTriple (Q : Pool → Prop) (p : Proc α) (R : α → Pool → Prop) : Prop :=
  Triple (fun c => Q c.regs.pool) p (fun a c => R a c.regs.pool) fun _ c => c.regs.pool.Ok

theorem PoolTriple.bind {Q : Pool → Prop} {R : α → Pool → Prop} {S : β → Pool → Prop} {p : Proc α} {f : α → Proc β}
    (hp : PoolTriple Q p R) (hf : ∀ a, PoolTriple (R a) (f a) S) : PoolTriple Q (p >>= f) S := Triple.bind hp hf

/-- The registers read are the registers there are. -/
theorem PoolTriple.withRegs {Q : Pool → Prop} {S : β → Pool → Prop} {f : Regs → Proc β}
    (hf : ∀ r, Q r.pool → PoolTriple (fun p => p = r.pool) (f r) S) : PoolTriple Q (getRegs >>= f) S := by
  intro c hc
  exact hf c.regs hc c rfl

theorem PoolTriple.require {Q : Pool → Prop} {b : Bool} {e : ErrName} {S : β → Pool → Prop} {f : Unit → Proc β}
    (hq : ∀ p, Q p → p.Ok) (hf : b = true → PoolTriple Q (f ()) S) : PoolTriple Q (Machine.require b e >>= f) S := by
  cases b with
  | true => exact hf rfl
  | false => exact fun _ hc => hq _ hc

theorem PoolTriple.change {Q : Pool → Prop} {g : Pool → Pool} {R : Pool → Prop} (h : ∀ p, Q p → R (g p)) :
    PoolTriple Q (modifyPool g) fun _ => R := fun _ hc => h _ hc

theorem PoolTriple.pure {Q : Pool → Prop} {a : α} {R : α → Pool → Prop} (h : ∀ p, Q p → R a p) :
    PoolTriple Q (Pure.pure a) R := fun _ hc => h _ hc

/-- Alloc: the new pool is the grown one, and the value is the new node. -/
theorem poolTriple_alloc {Q : Pool → Prop} {R : Nat → Pool → Prop} {kind : Kind} {sym : Byte} {freq : Word} {left right : Nat}
    {e : ErrName} (hq : ∀ p, Q p → p.Ok)
    (h : ∀ p, Q p → p.count ≠ 511 →
      R p.count (p.grown { kind := kind, held := .unowned, sym := sym, freq := freq, left := left, right := right })) :
    PoolTriple Q (alloc kind sym freq left right e) R := by
  intro c hc
  unfold alloc
  by_cases hcount : c.regs.pool.count = 511
  · simpa [hcount] using hq _ hc
  · simpa [hcount] using h _ hc hcount

/-- The pool before the tree is complete: no root yet. -/
def Rootless (p : Pool) : Prop := p.Ok ∧ p.root = NIL

/-- ... with a node that nothing owns. -/
def Loose (x : Nat) (p : Pool) : Prop := Rootless p ∧ x < p.count ∧ (p.node x).held = .unowned

theorem poolTriple_mustInsert (x : Nat) : PoolTriple (Loose x) (mustInsert x) fun _ p => Rootless p ∧ 0 < p.size := by
  refine PoolTriple.withRegs fun r hr => PoolTriple.require (fun p hp => hp ▸ hr.1.1) fun hs => PoolTriple.change ?_
  rintro p rfl
  exact ⟨⟨hr.1.1.insert hr.2.1 hr.2.2 (by simpa using hs), hr.1.2⟩, by simp⟩

theorem loose_leaf (h : Rootless p) (hc : p.count ≠ 511) (sym : Byte) (freq : Word) : Loose p.count
    (p.grown { kind := .leaf, held := .unowned, sym := sym, freq := freq, left := NIL, right := NIL }) := by
  have hb := h.1.wf.bound
  exact ⟨⟨h.1.leaf hc sym freq, h.2⟩, Nat.lt_succ_self _, by rw [Pool.node_grown, if_pos ⟨rfl, by omega⟩]⟩

theorem poolTriple_enqueueLeaves (l : List Byte) : PoolTriple Rootless (enqueueLeaves l) fun _ => Rootless := by
  induction l with
  | nil => exact PoolTriple.pure fun _ h => h
  | cons s l ih =>
    refine PoolTriple.withRegs fun r hr => ?_
    split
    · exact Triple.conseq ih (fun _ hc => hc ▸ hr) (fun _ _ h => h) fun _ _ h => h
    · refine PoolTriple.bind (R := fun x => Loose x) (poolTriple_alloc (fun p hp => hp ▸ hr.1) ?_) fun x =>
        PoolTriple.bind (poolTriple_mustInsert x) fun _ => Triple.conseq ih (fun _ h => h.1) (fun _ _ h => h) fun _ _ h => h
      rintro p rfl hc
      exact loose_leaf hr hc _ _

theorem poolTriple_heapExtract {Q : Pool → Prop} {R : Nat → Pool → Prop} (h : ∀ p, Q p → R p.heapTop p.heapExtract) :
    PoolTriple Q heapExtract R :=
  PoolTriple.withRegs fun r hr => PoolTriple.bind (R := fun _ => R r.pool.heapTop)
    (PoolTriple.change (by rintro p rfl; exact h _ hr)) fun _ => PoolTriple.pure fun _ h => h

/-- One pass of the join loop, from a queue with at least two entries. -/
theorem poolTriple_joinTwo : PoolTriple (fun p => Rootless p ∧ 1 < p.size) joinTwo fun _ p => Rootless p ∧ 0 < p.size := by
  intro c hc
  obtain ⟨⟨hok, hroot⟩, hs⟩ := hc
  generalize hp : c.regs.pool = p at hok hroot hs
  have ok1 := hok.extract (show 0 < p.size by omega)
  obtain ⟨l1, l2⟩ := hok.extracted (show 0 < p.size by omega)
  have hs1 : 0 < p.heapExtract.size := by show 0 < p.size - 1; omega
  have ok2 := ok1.extract hs1
  obtain ⟨x1, x2⟩ := ok1.extracted hs1
  obtain ⟨hne, l2'⟩ := ok1.extract_unowned hs1 l2
  have l1' : p.heapTop < p.heapExtract.heapExtract.count := l1
  have hroot2 : p.heapExtract.heapExtract.root = NIL := hroot
  refine (show PoolTriple (fun p' => p' = p) joinTwo fun _ p => Rootless p ∧ 0 < p.size from ?_) c hp
  unfold joinTwo
  refine PoolTriple.bind (R := fun l p' => l = p.heapTop ∧ p' = p.heapExtract)
    (poolTriple_heapExtract (by rintro _ rfl; exact ⟨rfl, rfl⟩)) fun l => ?_
  refine PoolTriple.bind (R := fun x p' => l = p.heapTop ∧ x = p.heapExtract.heapTop ∧ p' = p.heapExtract.heapExtract)
    ?_ fun x => ?_
  · refine PoolTriple.withRegs fun r hr => PoolTriple.require (fun _ h => ?_) fun _ => poolTriple_heapExtract ?_
    · rw [h, hr.2]; exact ok1
    · rintro _ rfl; rw [hr.2]; exact ⟨hr.1, rfl, rfl⟩
  · refine PoolTriple.withRegs fun r hr => ?_
    obtain ⟨rfl, rfl, hr⟩ := hr
    rw [hr]
    refine PoolTriple.bind (R := fun f p' => p' = p.heapExtract.heapExtract ∧
        f.toNat = (p'.node p.heapTop).freq.toNat + (p'.node p.heapExtract.heapTop).freq.toNat)
      (PoolTriple.require (by rintro _ rfl; exact ok2) fun hf => PoolTriple.pure ?_) fun f => ?_
    · rintro _ rfl
      have h3 := of_decide_eq_true hf
      rw [freqMax] at h3
      exact ⟨rfl, by rw [BitVec.toNat_add, Nat.mod_eq_of_lt (by omega)]⟩
    · refine PoolTriple.bind (R := fun y => Loose y ∘ fun p' => p'.adopt p.heapTop p.heapExtract.heapTop)
        (poolTriple_alloc (by rintro _ ⟨rfl, -⟩; exact ok2) ?_) fun y =>
        PoolTriple.bind (R := fun _ => Loose y) (PoolTriple.change fun _ h => h) fun _ => poolTriple_mustInsert y
      rintro _ ⟨rfl, hf⟩ hcount
      have hj := ok2.join hcount l1' x1 hne.symm l2' x2 hf
      have hb := ok2.wf.bound
      have hx1 : p.heapExtract.heapTop < p.heapExtract.heapExtract.count := x1
      refine ⟨⟨hj, hroot2⟩, Nat.lt_succ_self _, ?_⟩
      rw [Pool.node_join (by omega) (by omega) (by omega), if_pos rfl]

theorem poolTriple_joinLoop (fuel : Nat) :
    PoolTriple (fun p => Rootless p ∧ 0 < p.size) (joinLoop fuel) fun _ p => Rootless p ∧ 0 < p.size := by
  induction fuel with
  | zero => exact PoolTriple.pure fun _ h => h
  | succ fuel ih =>
    refine PoolTriple.withRegs fun r hr => ?_
    split
    · rename_i hs
      exact PoolTriple.bind (Triple.conseq poolTriple_joinTwo (fun _ hc => by rw [hc]; exact ⟨hr.1, hs⟩) (fun _ _ h => h)
        fun _ _ h => h) fun _ => ih
    · exact PoolTriple.pure fun p hp => hp ▸ hr

theorem poolTriple_buildTree : PoolTriple Pool.Ok buildTree fun _ => Pool.Ok := by
  refine PoolTriple.bind (R := fun _ => Rootless) (PoolTriple.change fun p hp => ?_) fun _ => ?_
  · exact ⟨.of_empty (fun k => p.node_cleared k) rfl rfl rfl rfl heapAt_replicate le_rfl, rfl⟩
  refine PoolTriple.bind (poolTriple_enqueueLeaves _) fun _ => ?_
  refine PoolTriple.withRegs fun r hr => PoolTriple.require (by rintro _ rfl; exact hr.1) fun hs => ?_
  have hs : r.pool.size ≠ 0 := by simpa using hs
  refine PoolTriple.bind (R := fun _ p => Rootless p ∧ 0 < p.size) (Triple.conseq (poolTriple_joinLoop _) (fun _ hc => by rw [hc]; exact ⟨hr, by omega⟩)
    (fun _ _ h => h) fun _ _ h => h) fun _ => ?_
  refine PoolTriple.bind (R := fun x p => Loose x p) (poolTriple_heapExtract fun p hp => ?_) fun x =>
    PoolTriple.bind (R := fun _ => Pool.Ok) (PoolTriple.change fun p hp => hp.1.1.root hp.1.2 hp.2.1 hp.2.2) fun _ =>
      PoolTriple.pure fun _ h => h
  exact ⟨⟨hp.1.1.extract hp.2, hp.1.2⟩, hp.1.1.extracted hp.2⟩

/-! ### SET_ROOT, NODE_JOIN -/

theorem poolTriple_checkFree (n : Nat) {Q : Pool → Prop} (hq : ∀ p, Q p → p.Ok) : PoolTriple Q (checkFree n) fun _ p =>
    Q p ∧ n < p.count ∧ (p.node n).held = .unowned := by
  refine PoolTriple.withRegs fun r hr => PoolTriple.require (by rintro _ rfl; exact hq _ hr) fun h1 =>
    Triple.require _ _ (fun c hc h2 => ?_) fun c hc _ => ?_
  · rw [hc]; exact ⟨hr, of_decide_eq_true h1, by simpa using h2⟩
  · rw [hc]; exact hq _ hr

theorem poolTriple_setRoot (n : Nat) : PoolTriple Pool.Ok (setRoot n) fun _ => Pool.Ok := by
  unfold setRoot
  split
  · exact PoolTriple.change fun p hp => hp.dropRoot
  · exact PoolTriple.bind (poolTriple_checkFree n fun _ h => h) fun _ => PoolTriple.change fun p hp => hp.1.setRoot hp.2.1 hp.2.2

theorem poolTriple_nodeJoin (na nb : Nat) : PoolTriple Pool.Ok (nodeJoin na nb) fun _ => Pool.Ok := by
  refine PoolTriple.bind (poolTriple_checkFree na fun _ h => h) fun _ =>
    PoolTriple.bind (poolTriple_checkFree nb fun _ h => h.1) fun _ =>
      PoolTriple.require (fun _ h => h.1.1) fun hne => PoolTriple.withRegs fun r hr => ?_
  obtain ⟨⟨hok, a1, a2⟩, b1, b2⟩ := hr
  refine PoolTriple.bind (R := fun f p' => p' = r.pool ∧ f.toNat = (p'.node na).freq.toNat + (p'.node nb).freq.toNat)
    (PoolTriple.require (by rintro _ rfl; exact hok) fun hf => PoolTriple.pure ?_) fun f => ?_
  · rintro _ rfl
    have h3 := of_decide_eq_true hf
    rw [freqMax] at h3
    exact ⟨rfl, by rw [BitVec.toNat_add, Nat.mod_eq_of_lt (by omega)]⟩
  · refine PoolTriple.bind (R := fun _ p' => (p'.adopt na nb).Ok)
      (poolTriple_alloc (by rintro _ ⟨rfl, -⟩; exact hok) ?_) fun y =>
      PoolTriple.bind (R := fun _ => Pool.Ok) (PoolTriple.change fun _ h => h) fun _ => PoolTriple.pure fun _ h => h
    rintro _ ⟨rfl, hf⟩ hcount
    exact hok.join hcount a1 b1 (by simpa using hne) a2 b2 hf

/-! ### REBUILD_TREE -/

/-- The pool while a dump is read: the nodes on the stack are allocated, differ, have no owner and no frequency. -/
structure Rebuilding (p : Pool) : Prop where
  ok : p.Ok
  root : p.root = NIL
  nodup : p.stack.Nodup
  loose : ∀ x ∈ p.stack, x < p.count ∧ (p.node x).held = .unowned ∧ (p.node x).freq = 0

theorem poolTriple_rebuildLeaf (s : Byte) : PoolTriple Rebuilding (rebuildLeaf s) fun _ => Rebuilding := by
  refine PoolTriple.withRegs fun r hr => PoolTriple.require (by rintro _ rfl; exact hr.ok) fun _ => ?_
  refine PoolTriple.bind (R := fun x p => Rebuilding (p.pushStack x))
    (poolTriple_alloc (by rintro _ rfl; exact hr.ok) ?_) fun x => PoolTriple.change fun _ h => h
  rintro _ rfl hc
  have hb := hr.ok.wf.bound
  refine ⟨(hr.ok.leaf hc s 0).withStack _, hr.root, List.nodup_cons.2 ⟨fun hm => ?_, hr.nodup⟩, fun x hx => ?_⟩
  · exact absurd (hr.loose _ hm).1 (Nat.lt_irrefl _)
  · show x < r.pool.count + 1 ∧ ((r.pool.grown _).node x).held = _ ∧ ((r.pool.grown _).node x).freq = _
    rw [Pool.node_grown]
    rcases List.mem_cons.1 hx with rfl | hx
    · rw [if_pos ⟨rfl, by omega⟩]; exact ⟨Nat.lt_succ_self _, rfl, rfl⟩
    · obtain ⟨h1, h2⟩ := hr.loose x hx
      rw [if_neg (by omega)]; exact ⟨by omega, h2⟩

theorem poolTriple_rebuildInternal : PoolTriple Rebuilding rebuildInternal fun _ => Rebuilding := by
  refine PoolTriple.withRegs fun r hr => ?_
  split
  · rename_i right left rest hs
    obtain ⟨hok, hroot, hnd, hl⟩ := hr
    rw [hs] at hnd hl
    obtain ⟨r1, r2, r3⟩ := hl right (by simp)
    obtain ⟨l1, l2, l3⟩ := hl left (by simp)
    rw [List.nodup_cons, List.nodup_cons] at hnd
    obtain ⟨n1, n2, n3⟩ := hnd
    have hb := hok.wf.bound
    have hne : left ≠ right := fun hc => n1 (by simp [hc])
    have hok' := hok.withStack rest
    refine PoolTriple.bind (R := fun _ p => p = { r.pool with stack := rest }) (PoolTriple.change (by rintro _ rfl; rfl)) fun _ => ?_
    refine PoolTriple.bind (R := fun x p => Rebuilding ((p.adopt left right).pushStack x))
      (poolTriple_alloc (by rintro _ rfl; exact hok') ?_) fun x =>
      PoolTriple.bind (R := fun _ p => Rebuilding (p.pushStack x)) (PoolTriple.change fun _ h => h) fun _ =>
        PoolTriple.change fun _ h => h
    rintro _ rfl hc
    have hc' : r.pool.count ≠ 511 := hc
    have hj := hok'.join (freq := 0) hc l1 r1 hne l2 r2 (by
      show (0 : Word).toNat = (r.pool.node left).freq.toNat + (r.pool.node right).freq.toNat
      rw [l3, r3]; rfl)
    refine ⟨hj.withStack _, hroot, List.nodup_cons.2 ⟨fun hm => ?_, n3⟩, fun x hx => ?_⟩
    · exact absurd (hl _ (by simp [show r.pool.count ∈ rest from hm])).1 (Nat.lt_irrefl _)
    · have hx' : x = r.pool.count ∨ x ∈ rest := List.mem_cons.1 hx
      have hx1 : x ≠ left ∧ x ≠ right := by
        rcases hx' with rfl | hx'
        · omega
        · exact ⟨fun h => n2 (h ▸ hx'), fun h => n1 (by simp [← h, hx'])⟩
      show x < r.pool.count + 1 ∧ ((Pool.adopt (Pool.grown { r.pool with stack := rest } _) left right).node x).held = _ ∧
        ((Pool.adopt (Pool.grown { r.pool with stack := rest } _) left right).node x).freq = _
      rw [Pool.node_join (p := { r.pool with stack := rest }) (show r.pool.count < 511 by omega) hx1.1 hx1.2]
      rcases hx' with rfl | hx'
      · rw [if_pos rfl]; exact ⟨Nat.lt_succ_self _, rfl, rfl⟩
      · obtain ⟨h1, h2⟩ := hl x (by simp [hx'])
        rw [if_neg (show r.pool.count ≠ x by omega)]; exact ⟨by omega, h2⟩
  · exact fun c hc => by rw [raise_apply]; simp only; rw [hc]; exact hr.ok

theorem readClosed_pool (Q : Pool → Prop) : ReadClosed fun c => Q c.regs.pool := fun _ _ _ _ _ _ _ h => h

theorem writeClosed_pool (Q : Pool → Prop) : WriteClosed fun c => Q c.regs.pool := fun _ _ _ _ _ _ _ _ h => h

theorem poolTriple_dumpByte : PoolTriple Rebuilding dumpByte fun _ => Rebuilding :=
  Triple.conseq (keeps_dumpByte (readClosed_pool _)) (fun _ h => h) (fun _ _ h => h) fun _ _ h => h.ok

theorem poolTriple_raise {Q : Pool → Prop} {R : α → Pool → Prop} (e : ErrName) (hq : ∀ p, Q p → p.Ok) :
    PoolTriple Q (raise e) R := Triple.raise e fun _ h => hq _ h

theorem poolTriple_rebuildLoop (rem : Nat) : PoolTriple Rebuilding (rebuildLoop rem) fun _ => Rebuilding := by
  have hcfg : PoolTriple Rebuilding getConfig fun _ => Rebuilding := fun _ h => h
  have hok : ∀ p, Rebuilding p → p.Ok := fun _ h => h.ok
  induction rem using rebuildLoop.induct with
  | case1 => exact PoolTriple.pure fun _ h => h
  | case2 =>
    exact hcfg.bind fun _ => poolTriple_dumpByte.bind fun _ => Triple.ite (fun _ => poolTriple_raise _ hok) fun _ =>
      Triple.ite (fun _ => poolTriple_rebuildInternal) fun _ => poolTriple_raise _ hok
  | case3 rem ih1 ih2 =>
    exact hcfg.bind fun _ => poolTriple_dumpByte.bind fun _ => Triple.ite
      (fun _ => poolTriple_dumpByte.bind fun _ => (poolTriple_rebuildLeaf _).bind fun _ => ih1) fun _ =>
      Triple.ite (fun _ => poolTriple_rebuildInternal.bind fun _ => ih2) fun _ => poolTriple_raise _ hok

theorem poolTriple_rebuiltRoot : PoolTriple Rebuilding rebuiltRoot fun _ => Pool.Ok := by
  refine PoolTriple.withRegs fun r hr => ?_
  split
  · rename_i x hs
    obtain ⟨h1, h2, -⟩ := hr.loose x (by rw [hs]; simp)
    have hok := hr.ok.withStack []
    refine PoolTriple.bind (R := fun _ p => p = { r.pool with stack := [] }) (PoolTriple.change (by rintro _ rfl; rfl)) fun _ =>
      PoolTriple.require (by rintro _ rfl; exact hok) fun _ =>
        PoolTriple.bind (R := fun _ => Pool.Ok) (PoolTriple.change ?_) fun _ => PoolTriple.pure fun _ h => h
    rintro _ rfl
    exact hok.root hr.root h1 h2
  · exact poolTriple_raise _ (by rintro _ rfl; exact hr.ok)

theorem poolTriple_rebuildTree : PoolTriple Pool.Ok rebuildTree fun _ => Pool.Ok := by
  refine PoolTriple.bind (R := fun _ => Pool.Ok) keeps_requireInAligned fun _ =>
    PoolTriple.bind (R := fun _ => Rebuilding) (PoolTriple.change fun p hp => ?_) fun _ =>
    PoolTriple.withRegs fun r hr => PoolTriple.bind (R := fun _ => Rebuilding)
      (Triple.conseq (poolTriple_rebuildLoop _) (fun _ hc => by rw [hc]; exact hr) (fun _ _ h => h) fun _ _ h => h)
      fun _ => poolTriple_rebuiltRoot
  exact ⟨hp.cleared.withStack [], rfl, List.nodup_nil, by simp⟩

/-! ### A whole command -/

/-- The invariant of the tree and queue unit as a property of contexts. -/
abbrev PoolKept (c : Ctx) : Prop := c.regs.pool.Ok

theorem keeps_poolChange {g : Pool → Pool} (h : ∀ p, p.Ok → (g p).Ok) : Keeps PoolKept (modifyPool g) := fun _ hc => h _ hc

theorem keeps_poolReset : Keeps PoolKept (modifyRegs Regs.nodeReset) := fun _ hc => hc.cleared

theorem keeps_pool_alloc (sym : Byte) (f : Word) : Keeps PoolKept (alloc .leaf sym f NIL NIL .nodePoolFull) :=
  poolTriple_alloc (fun _ h => h) fun _ h hc => h.leaf hc sym f

theorem pool_exec (i : Instr) (hi : i ≠ .softReset) {s t : State} (h : exec i s = .next t) (hs : s.startRegs.pool.Ok) :
    Outcome PoolKept i s t := by
  have hR : ReadClosed PoolKept := readClosed_pool _
  have hW : WriteClosed PoolKept := writeClosed_pool _
  have hH : HistClosed PoolKept := fun _ _ h => h
  have hS : ScanClosed PoolKept := fun _ _ h => h
  have hC : CodeClosed PoolKept := fun _ _ h => h
  have hT : TableClosed PoolKept := fun _ _ h => h
  have hD : HeaderClosed PoolKept := fun _ _ h => h
  by_cases hp : poolers i = true
  · cases i with
    | nodeReset => exact outcome_of_keeps (keeps_bind keeps_poolReset fun _ => keeps_pure _) hs h rfl
    | nodeLeaf sym =>
      exact outcome_of_keeps (keeps_bind keeps_frequencyOperand fun _ => keeps_bind (keeps_pool_alloc _ _) fun _ =>
        keeps_pure _) hs h rfl
    | nodeJoin na nb => exact outcome_of_keeps (keeps_bind (poolTriple_nodeJoin na nb) fun _ => keeps_pure _) hs h rfl
    | pqCreate cap =>
      refine outcome_of_keeps (Triple.bind (Q := fun _ c => PoolKept c ∧ cap ≤ 256)
        (Triple.require _ _ (fun _ h hc => ⟨h, of_decide_eq_true hc⟩) fun _ h _ => h) fun _ =>
          Triple.bind (Q := fun _ => PoolKept) (fun _ hc => hc.1.created hc.2) fun _ => keeps_pure _) hs h rfl
    | pqEnqueue na =>
      refine outcome_of_keeps (Triple.bind (poolTriple_checkFree na fun _ h => h) fun _ =>
        PoolTriple.withRegs (Q := fun p => p.Ok ∧ na < p.count ∧ (p.node na).held = .unowned) (S := fun _ => Pool.Ok)
          fun r hr => ?_) hs h rfl
      exact Triple.ite (fun _ => PoolTriple.pure (Q := fun p => p = r.pool) fun _ h => by rw [h]; exact hr.1) fun hne =>
        PoolTriple.bind (Q := fun p => p = r.pool) (R := fun _ => Pool.Ok)
          (PoolTriple.change fun p h => by rw [h]; exact hr.1.insert hr.2.1 hr.2.2 hne) fun _ => PoolTriple.pure fun _ h => h
    | pqDequeue =>
      refine outcome_of_keeps (PoolTriple.withRegs (Q := Pool.Ok) (S := fun _ => Pool.Ok) fun r hr => ?_) hs h rfl
      exact Triple.ite (fun _ => PoolTriple.pure (Q := fun p => p = r.pool) fun _ h => by rw [h]; exact hr) fun hne =>
        PoolTriple.bind (Q := fun p => p = r.pool) (R := fun _ => Pool.Ok)
          (poolTriple_heapExtract fun p h => by rw [h]; exact hr.extract (by omega)) fun _ => PoolTriple.pure fun _ h => h
    | buildTree => exact outcome_of_keeps (keeps_bind poolTriple_buildTree fun _ => keeps_pure _) hs h rfl
    | setRoot na => exact outcome_of_keeps (keeps_bind (poolTriple_setRoot na) fun _ => keeps_pure _) hs h rfl
    | rebuildTree => exact outcome_of_keeps (keeps_bind poolTriple_rebuildTree fun _ => keeps_pure _) hs h rfl
    | encode =>
      refine outcome_of_keeps (?_ : Keeps PoolKept encodeStream) hs h rfl
      exact keeps_bind (keeps_startDriver hR hW) fun _ => keeps_bind (keeps_histClear hH) fun _ =>
        keeps_bind (keeps_histScan hR hH hS) fun _ => keeps_bind (keeps_histForce hH) fun _ =>
          keeps_bind poolTriple_buildTree fun _ => keeps_bind (keeps_buildCodes hT hC) fun _ =>
            keeps_bind (fun c h => hD c _ h) fun _ => keeps_bind (keeps_hdrWrite hW hD) fun _ =>
              keeps_bind (keeps_dumpTree hW) fun _ => keeps_bind (keeps_rewind hR) fun _ =>
                keeps_bind (keeps_encodePayload hR hW _) fun _ => keeps_bind keeps_getRegs fun _ =>
                  keeps_bind (keeps_require _ _) fun _ => keeps_bind (keeps_flushOut hW) fun _ =>
                    keeps_bind keeps_poolReset fun _ => keeps_pure _
    | decode =>
      refine outcome_of_keeps (?_ : Keeps PoolKept decodeStream) hs h rfl
      exact keeps_bind (keeps_startDriver hR hW) fun _ => keeps_bind (keeps_hdrRead hR hD) fun _ =>
        keeps_bind poolTriple_rebuildTree fun _ => keeps_bind (keeps_decodePayload hR hW) fun _ =>
          keeps_bind keeps_poolReset fun _ => keeps_pure _
    | _ => cases hp
  · exact exec_outcome i hi h hs (fun _ => hR) (fun _ => hW) (fun h => absurd h hp) (fun _ => hH) (fun _ => hS) (fun _ => hC)
      (fun _ => hT) fun _ => hD

/-- Whatever a command does, the tree and queue unit keeps its invariant: of the registers when it has ended, of those at its
issue when it waits. -/
theorem pool_kept (i : Instr) (hi : i ≠ .softReset) {s t : State} (h : exec i s = .next t) (hs : s.startRegs.pool.Ok) :
    t.startRegs.pool.Ok := by
  obtain ⟨st, c, hc, -, ⟨a, rfl⟩ | ⟨e, rfl⟩ | rfl⟩ := pool_exec i hi h hs
  · exact hc
  · show (Regs.aborted _ _).pool.Ok
    unfold Regs.aborted
    split
    · exact hc.cleared.withStack _
    · exact Pool.Ok.withStack hc _
  · exact hs

end Sys2Proof.Machine
end

