-- ==== Sys2Proof/Laws/InvRegs.lean ====
section
/-! SUPPORT. Every command keeps the invariants of the code register and the code table (R44, R48), of the write buffer (R38,
R49) and of the read buffer (R39, R50), however it ends. -/

namespace Sys2Proof.Machine

variable {α β : Type}

/-! ### Triples over registers -/

namespace Triple

variable {P : Ctx → Prop} {R : β → Ctx → Prop} {E : Stop → Ctx → Prop}

theorem withRegs {f : Regs → Proc β} (hf : ∀ r, Triple (fun c => P c ∧ c.regs = r) (f r) R E) :
    Triple P (getRegs >>= f) R E := fun c hc => hf c.regs c ⟨hc, rfl⟩

theorem withConfig {f : Config → Proc β} (hf : ∀ g, Triple (fun c => P c ∧ c.config = g) (f g) R E) :
    Triple P (getConfig >>= f) R E := fun c hc => hf c.config c ⟨hc, rfl⟩

end Triple

/-! ### The code register and the code table -/

/-- The code register as every run keeps it (R48). -/
structure Code.Ok (c : Code) : Prop where
  len : c.len ≤ 256
  bits : ∀ k, c.len ≤ k → c.bits.getLsbD k = false

/-- An entry of the code table as every run keeps it (R44). -/
structure CodeEntry.Ok (e : CodeEntry) : Prop where
  len : e.len ≤ 256
  bits : ∀ k, e.len ≤ k → e.bits.getLsbD k = false
  invalid : e.valid = false → e = CodeEntry.invalid

/-- Both. -/
structure CodesKept (c : Ctx) : Prop where
  code : c.regs.code.Ok
  entry : ∀ s, (c.regs.entry s).Ok

theorem Code.Ok.empty : Code.empty.Ok := ⟨Nat.zero_le _, fun _ _ => BitVec.getLsbD_zero⟩

theorem CodeEntry.Ok.none : CodeEntry.invalid.Ok := ⟨Nat.zero_le _, fun _ _ => BitVec.getLsbD_zero, fun _ => rfl⟩

theorem Code.Ok.push {c : Code} (h : c.Ok) (hl : c.len ≠ 256) (b : Bool) : (c.push b).Ok := by
  have h1 := h.len
  refine ⟨show c.len + 1 ≤ 256 by omega, fun k hk => ?_⟩
  have hk : c.len + 1 ≤ k := hk
  by_cases hk' : k < 256
  · show (setBit c.bits c.len b).getLsbD k = false
    rw [getLsbD_setBit _ _ _ _ hk', if_neg (by omega)]
    exact h.bits k (by omega)
  · exact BitVec.getLsbD_of_ge _ _ (by omega)

theorem Code.Ok.pop {c : Code} (h : c.Ok) : c.pop.Ok := by
  have h1 := h.len
  refine ⟨show c.len - 1 ≤ 256 by omega, fun k hk => ?_⟩
  have hk : c.len - 1 ≤ k := hk
  by_cases hk' : k < 256
  · show (setBit c.bits (c.len - 1) false).getLsbD k = false
    rw [getLsbD_setBit _ _ _ _ hk']
    split
    · rfl
    · exact h.bits k (by omega)
  · exact BitVec.getLsbD_of_ge _ _ (by omega)

theorem keeps_codes_push (b : Bool) : Keeps CodesKept (walkPush b) := by
  refine Triple.withRegs fun r => Triple.bind (Q := fun _ c => CodesKept c ∧ c.regs.code.len ≠ 256)
    (Triple.require _ _ (fun c hc h => ⟨hc.1, ?_⟩) fun c hc _ => hc.1) fun _ => ?_
  · rw [hc.2]; simpa using h
  · exact fun c hc => ⟨hc.1.code.push hc.2 b, hc.1.entry⟩

theorem keeps_codes_pop : Keeps CodesKept walkPop := fun _ hc => ⟨hc.code.pop, hc.entry⟩

theorem keeps_codes_record (s : Byte) : Keeps CodesKept (modifyRegs (·.record s)) := by
  intro c hc
  refine ⟨hc.code, fun b => ?_⟩
  show ((c.regs.record s).entry b).Ok
  rw [Regs.entry_record]
  split
  · exact ⟨hc.code.len, hc.code.bits, fun h => by cases h⟩
  · exact hc.entry b

theorem keeps_codes_walkTo (fuel n : Nat) : Keeps CodesKept (walkTo fuel n) := by
  induction fuel generalizing n with
  | zero => exact keeps_pure _
  | succ fuel ih =>
    unfold walkTo
    exact keeps_bind keeps_getRegs fun _ => keeps_ite (keeps_codes_record _) <|
      keeps_bind (keeps_codes_push _) fun _ => keeps_bind (ih _) fun _ => keeps_bind keeps_codes_pop fun _ =>
        keeps_bind (keeps_codes_push _) fun _ => keeps_bind (ih _) fun _ => keeps_codes_pop

theorem keeps_codes_clear : Keeps CodesKept (modifyRegs Regs.clearCodes) := by
  refine fun c hc => ⟨Code.Ok.empty, fun b => ?_⟩
  show (c.regs.clearCodes.entry b).Ok
  rw [Regs.entry_clearCodes]
  exact .none

theorem keeps_codes_buildCodes : Keeps CodesKept buildCodes :=
  keeps_bind keeps_rootOperand fun _ => keeps_bind keeps_getRegs fun _ => keeps_bind (keeps_require _ _) fun _ =>
    keeps_bind keeps_codes_clear fun _ => keeps_codes_walkTo _ _

theorem codes_exec (i : Instr) (hi : i ≠ .softReset) {s t : State} (h : exec i s = .next t) (hs : CodesKept s.ctx) :
    Outcome CodesKept i s t := by
  have hR : ReadClosed CodesKept := fun _ _ _ _ _ _ _ h => ⟨h.code, h.entry⟩
  have hW : WriteClosed CodesKept := fun _ _ _ _ _ _ _ _ h => ⟨h.code, h.entry⟩
  have hP : PoolClosed CodesKept := fun _ _ h => ⟨h.code, h.entry⟩
  have hH : HistClosed CodesKept := fun _ _ h => ⟨h.code, h.entry⟩
  have hS : ScanClosed CodesKept := fun _ _ h => ⟨h.code, h.entry⟩
  have hD : HeaderClosed CodesKept := fun _ _ h => ⟨h.code, h.entry⟩
  by_cases hp : coders i = true
  · cases i with
    | codeClear =>
      have hb : Keeps CodesKept (modifyRegs fun r => { r with code := Code.empty }) := fun _ hc => ⟨Code.Ok.empty, hc.entry⟩
      exact outcome_of_keeps (keeps_bind hb fun _ => keeps_pure _) hs h rfl
    | codePush b =>
      refine outcome_of_keeps (P := CodesKept) (Triple.withRegs fun r => Triple.ite
        (fun _ => Triple.pure _ fun _ h => h.1) fun hl => ?_) hs h rfl
      refine Triple.bind (Q := fun _ => CodesKept) (Triple.modifyRegs _ fun c hc => ⟨hc.1.code.push ?_ b, hc.1.entry⟩)
        fun _ => keeps_pure _
      rw [hc.2]; exact hl
    | codePop =>
      refine outcome_of_keeps (P := CodesKept) (Triple.withRegs fun r => Triple.ite
        (fun _ => Triple.pure _ fun _ h => h.1) fun hl => ?_) hs h rfl
      exact Triple.bind (Q := fun _ => CodesKept) (Triple.modifyRegs _ fun c hc => ⟨hc.1.code.pop, hc.1.entry⟩)
        fun _ => keeps_pure _
    | buildCodes =>
      exact outcome_of_keeps (keeps_bind keeps_codes_buildCodes fun _ => keeps_bind keeps_getRegs fun _ => keeps_pure _)
        hs h rfl
    | encode =>
      refine outcome_of_keeps (?_ : Keeps CodesKept encodeStream) hs h rfl
      exact keeps_bind (keeps_startDriver hR hW) fun _ => keeps_bind (keeps_histClear hH) fun _ =>
        keeps_bind (keeps_histScan hR hH hS) fun _ => keeps_bind (keeps_histForce hH) fun _ =>
          keeps_bind (keeps_buildTree hP) fun _ => keeps_bind keeps_codes_buildCodes fun _ =>
            keeps_bind (fun c h => hD c _ h) fun _ => keeps_bind (keeps_hdrWrite hW hD) fun _ =>
              keeps_bind (keeps_dumpTree hW) fun _ => keeps_bind (keeps_rewind hR) fun _ =>
                keeps_bind (keeps_encodePayload hR hW _) fun _ => keeps_bind keeps_getRegs fun _ =>
                  keeps_bind (keeps_require _ _) fun _ => keeps_bind (keeps_flushOut hW) fun _ =>
                    keeps_bind (fun c h => hP c _ h) fun _ => keeps_pure _
    | _ => cases hp
  · refine exec_outcome i hi h hs (fun _ => hR) (fun _ => hW) (fun _ => hP) (fun _ => hH) (fun _ => hS)
      (fun h => absurd h hp) (fun h => absurd ?_ hp) fun _ => hD
    cases i <;> first | rfl | cases h

/-! ### The write buffer -/

/-- The write buffer holds pending bits, fewer than a block (R38, R49); the parameters are these. -/
def OutKept (g : Config) (c : Ctx) : Prop := c.config = g ∧ c.regs.out.Wf g.block

/-- ... a whole number of bytes. -/
def OutAligned (g : Config) (c : Ctx) : Prop := OutKept g c ∧ c.regs.out.bitPos % 8 = 0

variable {g : Config}

/-- The procedure keeps P when it ends; an abort empties the write buffer, and a wait goes back to the registers at the issue,
so nothing is asked when it stops. -/
abbrev OutTriple (P : Ctx → Prop) (p : Proc α) : Prop := Triple P p (fun _ => P) fun _ _ => True

theorem OutTriple.of {P : Ctx → Prop} {p : Proc α} (h : Keeps P p) : OutTriple P p :=
  Triple.conseq h (fun _ h => h) (fun _ _ h => h) fun _ _ _ => trivial

theorem OutTriple.bind {P : Ctx → Prop} {p : Proc α} {f : α → Proc β} (hp : OutTriple P p) (hf : ∀ a, OutTriple P (f a)) :
    OutTriple P (p >>= f) := Triple.bind hp hf

theorem OutTriple.ite {P : Ctx → Prop} {b : Prop} [Decidable b] {p q : Proc α} (hp : OutTriple P p) (hq : OutTriple P q) :
    OutTriple P (if b then p else q) := Triple.ite (fun _ => hp) fun _ => hq

/-- Pending bits that may fill the block. -/
def Filled (g : Config) (q : Nat → Prop) (c : Ctx) : Prop :=
  c.config = g ∧ ∃ bits, c.regs.out = OutSide.of bits ∧ bits.length ≤ 8 * g.block ∧ q bits.length

theorem outSide_empty (g : Config) : OutSide.empty.Wf g.block :=
  ⟨[], OutSide.of_nil.symm, by have := g.block_pos; simp; omega⟩

theorem out_snkWrite (bytes : List Byte) (b : Config) :
    Triple (fun c => c.config = b) (snkWrite bytes) (fun _ c => c.config = b) fun _ _ => True :=
  OutTriple.of (keeps_snkWrite (fun _ _ _ _ _ _ _ _ h => h) bytes)

/-- A full block leaves, and what is left is less than a block. -/
theorem out_writeFullBlock (q : Nat → Prop) (h0 : q 0) :
    Triple (Filled g q) writeFullBlock (fun _ c => OutKept g c ∧ q c.regs.out.bitPos) fun _ _ => True := by
  refine Triple.withConfig fun g' => Triple.withRegs fun r => Triple.ite (fun _ => ?_) fun hne => Triple.pure _ ?_
  · refine Triple.bind (Q := fun _ c => c.config = g)
      (Triple.conseq (out_snkWrite _ g) (fun c hc => hc.1.1.1) (fun _ _ h => h) fun _ _ h => h) fun _ =>
      Triple.modifyRegs _ fun c hc => ⟨⟨hc, outSide_empty _⟩, h0⟩
  · rintro c ⟨⟨⟨hg, bits, hb, hl, hq⟩, rfl⟩, rfl⟩
    rw [hb, hg] at hne
    have hne : bits.length ≠ 8 * g.block := hne
    exact ⟨⟨hg, bits, hb, by omega⟩, by rw [hb]; exact hq⟩

theorem out_outBit (b : Bool) : OutTriple (OutKept g) (outBit b) := by
  refine Triple.bind (Q := fun _ => Filled g fun _ => True) (Triple.modifyRegs _ fun c hc => ?_) fun _ =>
    Triple.conseq (out_writeFullBlock _ trivial) (fun _ h => h) (fun _ _ h => h.1) fun _ _ h => h
  obtain ⟨hg, bits, hb, hl⟩ := hc
  exact ⟨hg, bits ++ [b], by show c.regs.out.appendBit b = _; rw [hb, OutSide.appendBit_of],
    by simp only [List.length_append, List.length_singleton]; omega, trivial⟩

theorem out_outByte (v : Byte) : OutTriple (OutAligned g) (outByte v) := by
  refine Triple.bind (Q := fun _ => Filled g fun n => n % 8 = 0) (Triple.modifyRegs _ fun c hc => ?_) fun _ =>
    out_writeFullBlock _ rfl
  obtain ⟨⟨hg, bits, hb, hl⟩, ha⟩ := hc
  have ha : bits.length % 8 = 0 := by rw [hb] at ha; exact ha
  exact ⟨hg, bits ++ byteBits v, by show c.regs.out.appendByte v = _; rw [hb, OutSide.appendByte_of _ _ ha],
    by rw [List.length_append, length_byteBits]; show bits.length + 8 ≤ 8 * g.block; omega,
    by rw [List.length_append, length_byteBits]; omega⟩

theorem out_outBits (bs : List Bool) : OutTriple (OutKept g) (outBits bs) := by
  induction bs with
  | nil => exact OutTriple.of (keeps_pure _)
  | cons b bs ih => exact OutTriple.bind (out_outBit b) fun _ => ih

theorem out_outBytes (vs : List Byte) : OutTriple (OutAligned g) (outBytes vs) := by
  induction vs with
  | nil => exact OutTriple.of (keeps_pure _)
  | cons v vs ih => exact OutTriple.bind (out_outByte v) fun _ => ih

theorem out_outCode (s : Byte) : OutTriple (OutKept g) (outCode s) :=
  OutTriple.bind (OutTriple.of keeps_getRegs) fun _ => out_outBits _

/-- Whatever was pending, after a flush nothing is. -/
theorem out_flushOut : Triple (fun c => c.config = g) flushOut (fun _ => OutAligned g) fun _ _ => True := by
  have he : Triple (fun c => c.config = g) (modifyRegs Regs.emptyOut) (fun _ => OutAligned g) fun _ _ => True :=
    fun c hc => ⟨⟨hc, outSide_empty _⟩, rfl⟩
  exact Triple.withRegs fun r => Triple.ite
    (fun _ => Triple.bind (Triple.conseq (out_snkWrite _ g) (fun _ h => h.1) (fun _ _ h => h) fun _ _ h => h) fun _ => he)
    fun _ => Triple.conseq he (fun _ h => h.1) (fun _ _ h => h) fun _ _ h => h

theorem Triple.weaken {P Q : Ctx → Prop} {p : Proc α} {R : α → Ctx → Prop} {E : Stop → Ctx → Prop} (h : Triple P p R E)
    (hQ : ∀ c, Q c → P c) : Triple Q p R E := Triple.conseq h hQ (fun _ _ h => h) fun _ _ h => h

theorem out_requireOutAligned : Triple (OutKept g) requireOutAligned (fun _ => OutAligned g) fun _ _ => True := by
  refine Triple.withRegs fun r => Triple.require _ _ (fun c hc h => ⟨hc.1, ?_⟩) fun _ _ _ => trivial
  rw [hc.2]; simpa using h

/-- What the read side, the tree, the codes and the header write leaves the write buffer alone. -/
structure OutFree (P : Ctx → Prop) : Prop where
  read : ReadClosed P
  pool : PoolClosed P
  hist : HistClosed P
  scan : ScanClosed P
  code : CodeClosed P
  table : TableClosed P
  header : HeaderClosed P

theorem outFree_kept : OutFree (OutKept g) :=
  ⟨fun _ _ _ _ _ _ _ h => h, fun _ _ h => h, fun _ _ h => h, fun _ _ h => h, fun _ _ h => h, fun _ _ h => h, fun _ _ h => h⟩

theorem outFree_aligned : OutFree (OutAligned g) :=
  ⟨fun _ _ _ _ _ _ _ h => h, fun _ _ h => h, fun _ _ h => h, fun _ _ h => h, fun _ _ h => h, fun _ _ h => h, fun _ _ h => h⟩

theorem OutTriple.kept {p : Proc α} (h : OutTriple (OutAligned g) p) : Triple (OutAligned g) p (fun _ => OutKept g) fun _ _ => True :=
  Triple.conseq h (fun _ h => h) (fun _ _ h => h.1) fun _ _ h => h

theorem out_dumpTree : Triple (OutKept g) dumpTree (fun _ => OutAligned g) fun _ _ => True :=
  Triple.bind (OutTriple.of keeps_rootOperand) fun _ => Triple.bind out_requireOutAligned fun _ =>
    Triple.bind (OutTriple.of keeps_getConfig) fun _ => Triple.bind (OutTriple.of keeps_getRegs) fun _ =>
      Triple.bind (out_outBytes _) fun _ => Triple.bind (out_flushOut.weaken fun _ h => h.1.1) fun _ => OutTriple.of (keeps_pure _)

theorem out_hdrWrite : Triple (OutKept g) hdrWrite (fun _ => OutAligned g) fun _ _ => True :=
  Triple.bind out_requireOutAligned fun _ => Triple.bind (OutTriple.of keeps_getConfig) fun _ =>
    Triple.bind (Q := fun _ => OutAligned g) (fun c h => outFree_aligned.header c _ h) fun _ =>
      Triple.bind (OutTriple.of keeps_getRegs) fun _ => out_outBytes _

theorem out_encodeLoop (e : ErrName) (fuel n : Nat) : OutTriple (OutKept g) (encodeLoop e fuel n) := by
  induction fuel generalizing n with
  | zero => exact Triple.throw _ fun _ _ => trivial
  | succ fuel ih =>
    unfold encodeLoop
    refine OutTriple.bind (OutTriple.of (keeps_inByte outFree_kept.read)) fun o => ?_
    cases o with
    | none => exact OutTriple.of (keeps_pure _)
    | some b =>
      exact OutTriple.bind (OutTriple.of keeps_getRegs) fun _ => OutTriple.bind (OutTriple.of (keeps_require _ _)) fun _ =>
        OutTriple.bind (out_outCode _) fun _ => ih _

theorem out_encodePayload (e : ErrName) : OutTriple (OutKept g) (encodePayload e) :=
  OutTriple.bind (OutTriple.of keeps_requireInAligned) fun _ => out_encodeLoop _ _ _

theorem out_decodeLoop (fuel todo x : Nat) : OutTriple (OutAligned g) (decodeLoop fuel todo x) := by
  induction fuel generalizing todo x with
  | zero => cases todo <;> first | exact OutTriple.of (keeps_pure _) | exact Triple.throw _ fun _ _ => trivial
  | succ fuel ih =>
    cases todo with
    | zero => exact OutTriple.of (keeps_pure _)
    | succ todo =>
      unfold decodeLoop
      refine OutTriple.bind (OutTriple.of (keeps_inBit outFree_aligned.read)) fun o => ?_
      cases o with
      | none => exact OutTriple.of (keeps_raise _)
      | some b =>
        exact OutTriple.bind (OutTriple.of keeps_getRegs) fun _ =>
          OutTriple.ite (OutTriple.bind (out_outByte _) fun _ => ih _ _) (ih _ _)

theorem out_decodePayload : Triple (OutKept g) decodePayload (fun _ => OutAligned g) fun _ _ => True :=
  Triple.bind (OutTriple.of keeps_rootOperand) fun _ => Triple.bind (OutTriple.of keeps_getRegs) fun _ =>
    Triple.bind (OutTriple.of (keeps_require _ _)) fun _ => Triple.bind out_requireOutAligned fun _ =>
      Triple.bind (out_decodeLoop _ _ _) fun _ => Triple.bind (out_flushOut.weaken fun _ h => h.1.1) fun _ => OutTriple.of (keeps_pure _)

theorem out_startDriver : OutTriple (OutKept g) startDriver :=
  Triple.bind out_requireOutAligned fun _ => Triple.bind (Q := fun _ => OutKept g) (fun _ h => h.1) fun _ =>
    OutTriple.of (keeps_rewind outFree_kept.read)

theorem out_encodeStream : OutTriple (OutKept g) encodeStream := by
  have f := outFree_kept (g := g)
  exact OutTriple.bind out_startDriver fun _ => OutTriple.bind (OutTriple.of (keeps_histClear f.hist)) fun _ =>
    OutTriple.bind (OutTriple.of (keeps_histScan f.read f.hist f.scan)) fun _ =>
      OutTriple.bind (OutTriple.of (keeps_histForce f.hist)) fun _ =>
        OutTriple.bind (OutTriple.of (keeps_buildTree f.pool)) fun _ =>
          OutTriple.bind (OutTriple.of (keeps_buildCodes f.table f.code)) fun _ =>
            OutTriple.bind (OutTriple.of fun c h => f.header c _ h) fun _ => Triple.bind out_hdrWrite fun _ =>
              Triple.bind (out_dumpTree.weaken fun _ h => h.1) fun _ =>
                Triple.bind (OutTriple.of (keeps_rewind outFree_aligned.read)) fun _ =>
                  Triple.bind ((out_encodePayload _).weaken fun _ h => h.1) fun _ =>
                    Triple.bind (OutTriple.of keeps_getRegs) fun _ => Triple.bind (OutTriple.of (keeps_require _ _)) fun _ =>
                      Triple.bind (out_flushOut.weaken fun _ h => h.1) fun _ => Triple.bind (Q := fun _ => OutKept g) (fun _ h => h.1) fun _ =>
                        OutTriple.of (keeps_pure _)

theorem out_decodeStream : OutTriple (OutKept g) decodeStream := by
  have f := outFree_kept (g := g)
  exact OutTriple.bind out_startDriver fun _ => OutTriple.bind (OutTriple.of (keeps_hdrRead f.read f.header)) fun _ =>
    OutTriple.bind (OutTriple.of (keeps_rebuildTree f.read f.pool)) fun _ => Triple.bind out_decodePayload fun _ =>
      Triple.bind (Q := fun _ => OutKept g) (fun _ h => h.1) fun _ => OutTriple.of (keeps_pure _)

/-- The write buffer keeps its invariant, whatever a command does. -/
theorem out_kept (i : Instr) (hi : i ≠ .softReset) {s t : State} (h : exec i s = .next t)
    (hs : s.startRegs.out.Wf s.config.block) : t.startRegs.out.Wf t.config.block := by
  have f := outFree_kept (g := s.config)
  have hctx : OutKept s.config s.ctx := ⟨rfl, hs⟩
  have main : ∀ body : Proc Answer, OutTriple (OutKept s.config) body →
      exec i s = .next (s.perform i (decide (i = .encode ∨ i = .decode)) body) → t.startRegs.out.Wf t.config.block := by
    intro body hb he
    rw [h] at he
    injection he with he
    subst he
    have := hb s.ctx hctx
    unfold State.perform
    cases hbc : body s.ctx with
    | ok a c => rw [hbc] at this; exact this.2
    | error e c =>
      cases e with
      | raised e => exact outSide_empty _
      | waiting => exact hs
  by_cases hp : writers i = true
  · cases i with
    | dumpTree => exact main _ (Triple.bind out_dumpTree fun _ => Triple.pure _ fun _ h => h.1) rfl
    | hdrWrite => exact main _ (Triple.bind out_hdrWrite fun _ => Triple.pure _ fun _ h => h.1) rfl
    | bitWrite b =>
      exact main _ (OutTriple.bind (out_outBit b) fun _ => OutTriple.bind (OutTriple.of keeps_getRegs) fun _ =>
        OutTriple.of (keeps_pure _)) rfl
    | codeWrite sym =>
      exact main _ (OutTriple.bind (OutTriple.of keeps_getRegs) fun _ => OutTriple.bind (OutTriple.of (keeps_require _ _))
        fun _ => OutTriple.bind (out_outCode _) fun _ => OutTriple.of (keeps_pure _)) rfl
    | byteWrite v =>
      exact main _ (Triple.bind out_requireOutAligned fun _ => Triple.bind (out_outByte v) fun _ =>
        Triple.bind (OutTriple.of keeps_getRegs) fun _ => Triple.pure _ fun _ h => h.1) rfl
    | flush =>
      exact main _ (OutTriple.bind (OutTriple.of keeps_getRegs) fun _ => Triple.bind (out_flushOut.weaken fun _ h => h.1)
        fun _ => Triple.pure _ fun _ h => h.1) rfl
    | encodePayload =>
      exact main _ (OutTriple.bind (out_encodePayload _) fun _ => Triple.bind (out_flushOut.weaken fun _ h => h.1)
        fun _ => Triple.pure _ fun _ h => h.1) rfl
    | decodePayload => exact main _ (Triple.bind out_decodePayload fun _ => Triple.pure _ fun _ h => h.1) rfl
    | encode => exact main _ out_encodeStream rfl
    | decode => exact main _ out_decodeStream rfl
    | _ => cases hp
  · obtain ⟨st, c, hc, -, ⟨a, rfl⟩ | ⟨e, rfl⟩ | rfl⟩ := exec_outcome i hi h hctx (fun _ => f.read) (fun h => absurd h hp)
      (fun _ => f.pool) (fun _ => f.hist) (fun _ => f.scan) (fun _ => f.code) (fun _ => f.table) fun _ => f.header
    · exact hc.2
    · exact outSide_empty _
    · exact hs

/-! ### The read buffer -/

/-- The read buffer is well-formed (R39, R50), and no answer is longer than a SrcRead asks for (R72); the parameters are
these. -/
structure InKept (g : Config) (c : Ctx) : Prop where
  config : c.config = g
  inp : c.regs.inp.Wf g.block
  answers : ∀ x, x ∈ c.replay ∨ x ∈ c.given → x.length ≤ g.block

/-- ... with q of the bits consumed. -/
def InWith (g : Config) (q : Nat → Prop) (c : Ctx) : Prop := InKept g c ∧ q c.regs.inp.bitPos

/-- ... a whole number of bytes consumed. -/
abbrev InAligned (g : Config) : Ctx → Prop := InWith g fun n => n % 8 = 0

/-- The procedure leads from P to Q, and keeps the read buffer well-formed when it stops. -/
abbrev InTriple (g : Config) (P : Ctx → Prop) (p : Proc α) (Q : Ctx → Prop) : Prop :=
  Triple P p (fun _ => Q) fun _ => InKept g

theorem InTriple.bind {P Q S : Ctx → Prop} {p : Proc α} {f : α → Proc β} (hp : InTriple g P p Q)
    (hf : ∀ a, InTriple g Q (f a) S) : InTriple g P (p >>= f) S := Triple.bind hp hf

theorem InTriple.of {q : Nat → Prop} {p : Proc α} (h : Keeps (InWith g q) p) : InTriple g (InWith g q) p (InWith g q) :=
  Triple.conseq h (fun _ h => h) (fun _ _ h => h) fun _ _ h => h.1

theorem InTriple.drop {P : Ctx → Prop} {q : Nat → Prop} {p : Proc α} (h : InTriple g P p (InWith g q)) :
    InTriple g P p (InKept g) := Triple.conseq h (fun _ h => h) (fun _ _ h => h.1) fun _ _ h => h

section closed

variable {q : Nat → Prop}

theorem in_write : WriteClosed (InWith g q) := fun _ _ _ _ _ _ _ hx h =>
  ⟨⟨h.1.config, h.1.inp, fun x h' => (hx x h').elim (fun h' => h.1.answers x (.inl h')) fun h' =>
    h'.elim (fun h' => h.1.answers x (.inr h')) fun h' => by rw [h']; exact Nat.zero_le _⟩, h.2⟩

theorem in_pool : PoolClosed (InWith g q) := fun _ _ h => ⟨⟨h.1.config, h.1.inp, h.1.answers⟩, h.2⟩

theorem in_hist : HistClosed (InWith g q) := fun _ _ h => ⟨⟨h.1.config, h.1.inp, h.1.answers⟩, h.2⟩

theorem in_scan : ScanClosed (InWith g q) := fun _ _ h => ⟨⟨h.1.config, h.1.inp, h.1.answers⟩, h.2⟩

theorem in_code : CodeClosed (InWith g q) := fun _ _ h => ⟨⟨h.1.config, h.1.inp, h.1.answers⟩, h.2⟩

theorem in_table : TableClosed (InWith g q) := fun _ _ h => ⟨⟨h.1.config, h.1.inp, h.1.answers⟩, h.2⟩

theorem in_header : HeaderClosed (InWith g q) := fun _ _ h => ⟨⟨h.1.config, h.1.inp, h.1.answers⟩, h.2⟩

/-- A SrcRead answers with at most a block. -/
theorem in_srcRead : Triple (InKept g) srcRead (fun bytes c => InKept g c ∧ bytes.length ≤ g.block) fun _ => InKept g := by
  refine Triple.withConfig fun g' => ?_
  refine Triple.bind (Q := fun bytes c => InKept g c ∧ bytes.length ≤ g.block) ?_ fun bytes =>
    Triple.bind (Q := fun _ c => InKept g c ∧ bytes.length ≤ g.block)
      (Triple.modifyRegs _ fun c h => ⟨⟨h.1.config, h.1.inp, h.1.answers⟩, h.2⟩) fun _ => Triple.pure _ fun _ h => h
  rintro ⟨cfg, r, p, rep, giv⟩ ⟨⟨rfl, hi, ha⟩, rfl⟩
  simp only at hi ha ⊢
  have hd : ∀ (p : Ports) k, k ≤ cfg.block → (p.deliver k).1.length ≤ cfg.block := fun p k hk => by
    simp only [Ports.deliver, List.length_take]; omega
  have hgiv : ∀ (b : List Byte), b.length ≤ cfg.block →
      ∀ x, x ∈ rep ∨ x ∈ giv ++ [b] → x.length ≤ cfg.block := by
    intro b hb x hx
    simp only [List.mem_append, List.mem_cons, List.not_mem_nil, or_false] at hx
    rcases hx with hx | hx | rfl
    · exact ha x (.inl hx)
    · exact ha x (.inr hx)
    · exact hb
  cases rep with
  | cons bytes rep =>
    have hb := ha bytes (.inl (by simp))
    simp only [request, bind_apply, get_apply, set_apply, pure_apply]
    exact ⟨⟨rfl, hi, fun x hx => hgiv bytes hb x (hx.imp (fun h => List.mem_cons_of_mem _ h) id)⟩, hb⟩
  | nil =>
    have grant : ∀ (p : Ports) k, k ≤ cfg.block →
        InKept cfg ⟨cfg, r, (p.deliver k).2, [], giv ++ [(p.deliver k).1]⟩ ∧ (p.deliver k).1.length ≤ cfg.block :=
      fun p k hk => ⟨⟨rfl, hi, hgiv _ (hd p k hk)⟩, hd p k hk⟩
    cases hpl : p.plan with
    | nil =>
      cases hl : p.later with
      | ok => simpa [request, Ports.takeReply, hpl, hl] using grant p cfg.block le_rfl
      | okShort k => simpa [request, Ports.takeReply, hpl, hl] using grant p (min k cfg.block) (Nat.min_le_right _ _)
      | fail => simpa [request, Ports.takeReply, hpl, hl] using ⟨rfl, hi, ha⟩
      | hold => simpa [request, Ports.takeReply, hpl, hl] using ⟨rfl, hi, ha⟩
    | cons reply plan =>
      have stays : InKept cfg ⟨cfg, r, { p with plan := plan }, [], giv⟩ := ⟨rfl, hi, ha⟩
      cases reply with
      | ok => simpa [request, Ports.takeReply, hpl] using grant { p with plan := plan } cfg.block le_rfl
      | okShort k =>
        simpa [request, Ports.takeReply, hpl] using grant { p with plan := plan } (min k cfg.block) (Nat.min_le_right _ _)
      | fail => simpa [request, Ports.takeReply, hpl] using stays
      | hold => simpa [request, Ports.takeReply, hpl] using stays

theorem in_refill (h0 : q 0) : Triple (InWith g q) refill
    (fun data c => InWith g q c ∧ (data = true → c.regs.inp.bitPos < 8 * c.regs.inp.buf.length)) fun _ => InKept g := by
  refine Triple.withConfig fun g' => Triple.withRegs fun r => Triple.ite (fun hd => Triple.pure _ ?_) fun _ =>
    Triple.ite (fun _ => Triple.pure _ ?_) fun he => ?_
  · rintro c ⟨⟨h, -⟩, rfl⟩; exact ⟨h, fun _ => hd⟩
  · rintro c ⟨⟨h, -⟩, rfl⟩; exact ⟨h, fun h => by cases h⟩
  refine Triple.bind (Q := fun bytes c => (InKept g c ∧ bytes.length ≤ g.block) ∧ g' = g)
    (fun c hc => ?_) fun bytes => ?_
  · have := in_srcRead c hc.1.1.1
    have hg : g' = g := hc.1.2.symm.trans hc.1.1.1.config
    cases hs : srcRead c with
    | ok b c' => rw [hs] at this; exact ⟨this, hg⟩
    | error e c' => rw [hs] at this; exact this
  · refine Triple.bind (Q := fun _ c => InWith g q c ∧ c.regs.inp.buf = bytes ∧ c.regs.inp.bitPos = 0)
      (Triple.modifyRegs _ fun c hc => ?_) fun _ => Triple.pure _ fun c hc => ⟨hc.1, fun hd => ?_⟩
    · obtain ⟨⟨hk, hb⟩, rfl⟩ := hc
      refine ⟨⟨⟨hk.config, ⟨Nat.zero_le _, hb, fun hl => ?_⟩, hk.answers⟩, h0⟩, rfl, rfl⟩
      right
      have hl : bytes.length < g'.block := hl
      show (if bytes.length < g'.block then true else c.regs.inp.eof) = true
      rw [if_pos hl]
    · rw [hc.2.1, hc.2.2]
      cases bytes with
      | nil => cases hd
      | cons b bs => simp only [List.length_cons]; omega

end closed

theorem in_inBit : InTriple g (InKept g) inBit (InKept g) := by
  refine Triple.bind ((in_refill (q := fun _ => True) trivial).weaken fun c h => ⟨h, trivial⟩) fun data => Triple.ite
    (fun hd => Triple.withRegs fun r => ?_) fun _ => Triple.pure _ fun c h => h.1.1
  refine Triple.bind (Q := fun _ => InKept g) (Triple.modifyRegs _ fun c hc => ?_) fun _ => Triple.pure _ fun _ h => h
  obtain ⟨⟨⟨h, -⟩, hlt⟩, -⟩ := hc
  have hlt := hlt hd
  exact ⟨h.config, ⟨show c.regs.inp.bitPos + 1 ≤ 8 * c.regs.inp.buf.length by omega, h.inp.length, h.inp.short⟩, h.answers⟩

theorem in_inByte : InTriple g (InAligned g) inByte (InAligned g) := by
  refine Triple.bind (in_refill rfl) fun data => Triple.ite
    (fun hd => Triple.withRegs fun r => ?_) fun _ => Triple.pure _ fun c h => h.1
  refine Triple.bind (Q := fun _ => InAligned g) (Triple.modifyRegs _ fun c hc => ?_) fun _ => Triple.pure _ fun _ h => h
  obtain ⟨⟨⟨h, ha⟩, hlt⟩, -⟩ := hc
  have hlt := hlt hd
  exact ⟨⟨h.config, ⟨show c.regs.inp.bitPos + 8 ≤ 8 * c.regs.inp.buf.length by omega, h.inp.length, h.inp.short⟩,
    h.answers⟩, show (c.regs.inp.bitPos + 8) % 8 = 0 by omega⟩

theorem in_requireInAligned : InTriple g (InKept g) requireInAligned (InAligned g) := by
  refine Triple.withRegs fun r => Triple.require _ _ (fun c hc h => ⟨hc.1, ?_⟩) fun _ h _ => h.1
  rw [hc.2]; simpa using h

theorem in_rewind : InTriple g (InKept g) rewind (InAligned g) := by
  refine Triple.bind (Q := fun _ => InKept g) ?_ fun _ => Triple.modifyRegs _ fun c h =>
    ⟨⟨h.config, ⟨Nat.zero_le _, Nat.zero_le _, fun _ => .inl rfl⟩, h.answers⟩, rfl⟩
  refine keeps_bind (keeps_request ?_ ?_ ?_) fun _ => keeps_pure _
  · exact fun _ plan h => ⟨h.config, h.inp, h.answers⟩
  · refine fun c bytes replay hr h => ⟨h.config, h.inp, fun x hx => h.answers x ?_⟩
    simp only [hr, List.mem_append, List.mem_cons, List.not_mem_nil, or_false] at hx ⊢
    tauto
  · refine fun c k h => ⟨h.config, h.inp, fun x hx => ?_⟩
    simp only [Ports.rewound, List.mem_append, List.mem_cons, List.not_mem_nil, or_false] at hx
    rcases hx with hx | hx | rfl
    · exact h.answers x (.inl hx)
    · exact h.answers x (.inr hx)
    · exact Nat.zero_le _

/-- From the weaker property. -/
theorem in_kept_of {p : Proc α} (h : Keeps (InWith g fun _ => True) p) : InTriple g (InKept g) p (InKept g) :=
  Triple.conseq h (fun _ h => ⟨h, trivial⟩) (fun _ _ h => h.1) fun _ _ h => h.1

theorem in_scanLoop (fuel : Nat) : InTriple g (InAligned g) (scanLoop fuel) (InAligned g) := by
  induction fuel with
  | zero => exact Triple.throw _ fun _ h => h.1
  | succ fuel ih =>
    unfold scanLoop
    refine InTriple.bind in_inByte fun o => ?_
    cases o with
    | none => exact InTriple.of (keeps_pure _)
    | some b =>
      exact InTriple.bind (InTriple.of keeps_getRegs) fun _ => InTriple.bind (InTriple.of (keeps_require _ _)) fun _ =>
        InTriple.bind (InTriple.of fun c h => in_scan _ (c.regs.scanCount + 1) (in_hist c (c.regs.bumpHist b).hist h))
          fun _ => ih

theorem in_histScan : InTriple g (InKept g) histScan (InAligned g) :=
  InTriple.bind in_requireInAligned fun _ => InTriple.bind (InTriple.of fun c h => in_scan c _ h) fun _ => in_scanLoop _

theorem in_dumpByte : InTriple g (InAligned g) dumpByte (InAligned g) := by
  refine InTriple.bind in_inByte fun o => ?_
  cases o with
  | none => exact InTriple.of (keeps_raise _)
  | some b => exact InTriple.of (keeps_pure _)

theorem in_rebuildLoop (rem : Nat) : InTriple g (InAligned g) (rebuildLoop rem) (InAligned g) := by
  have hcfg : InTriple g (InAligned g) getConfig (InAligned g) := InTriple.of keeps_getConfig
  have hr : ∀ e, InTriple g (InAligned g) (raise e : Proc Unit) (InAligned g) := fun e => InTriple.of (keeps_raise _)
  have hi := InTriple.of (g := g) (q := fun n => n % 8 = 0) (keeps_rebuildInternal in_pool)
  induction rem using rebuildLoop.induct with
  | case1 => exact InTriple.of (keeps_pure _)
  | case2 =>
    exact hcfg.bind fun _ => in_dumpByte.bind fun _ => Triple.ite (fun _ => hr _) fun _ => Triple.ite (fun _ => hi)
      fun _ => hr _
  | case3 rem ih1 ih2 =>
    exact hcfg.bind fun _ => in_dumpByte.bind fun _ => Triple.ite
      (fun _ => in_dumpByte.bind fun _ => InTriple.bind (InTriple.of (keeps_rebuildLeaf in_pool _)) fun _ => ih1) fun _ =>
      Triple.ite (fun _ => hi.bind fun _ => ih2) fun _ => hr _

theorem in_rebuildTree : InTriple g (InKept g) rebuildTree (InAligned g) :=
  InTriple.bind in_requireInAligned fun _ => InTriple.bind (InTriple.of (keeps_modifyPool in_pool _)) fun _ =>
    InTriple.bind (InTriple.of keeps_getRegs) fun _ => InTriple.bind (in_rebuildLoop _) fun _ =>
      InTriple.of (keeps_rebuiltRoot in_pool)

theorem in_headerRead (n : Nat) : InTriple g (InAligned g) (headerRead n) (InAligned g) := by
  induction n with
  | zero => exact InTriple.of (keeps_pure _)
  | succ n ih =>
    unfold headerRead
    refine InTriple.bind in_inByte fun o => ?_
    cases o with
    | none => exact InTriple.of (keeps_raise _)
    | some b => exact InTriple.bind ih fun _ => InTriple.of (keeps_pure _)

theorem in_hdrRead : InTriple g (InKept g) hdrRead (InAligned g) :=
  InTriple.bind in_requireInAligned fun _ => InTriple.bind (in_headerRead _) fun _ =>
    InTriple.bind (InTriple.of fun c h => in_header c _ h) fun _ => InTriple.bind (InTriple.of keeps_getConfig) fun _ =>
      InTriple.bind (InTriple.of keeps_getRegs) fun _ => InTriple.of (keeps_require _ _)

theorem in_encodeLoop (e : ErrName) (fuel n : Nat) : InTriple g (InAligned g) (encodeLoop e fuel n) (InAligned g) := by
  induction fuel generalizing n with
  | zero => exact Triple.throw _ fun _ h => h.1
  | succ fuel ih =>
    unfold encodeLoop
    refine InTriple.bind in_inByte fun o => ?_
    cases o with
    | none => exact InTriple.of (keeps_pure _)
    | some b =>
      exact InTriple.bind (InTriple.of keeps_getRegs) fun _ => InTriple.bind (InTriple.of (keeps_require _ _)) fun _ =>
        InTriple.bind (InTriple.of (keeps_outCode in_write _)) fun _ => ih _

theorem in_encodePayload (e : ErrName) : InTriple g (InKept g) (encodePayload e) (InAligned g) :=
  InTriple.bind in_requireInAligned fun _ => in_encodeLoop _ _ _

theorem in_decodeLoop (fuel todo x : Nat) : InTriple g (InKept g) (decodeLoop fuel todo x) (InKept g) := by
  induction fuel generalizing todo x with
  | zero => cases todo <;> first | exact in_kept_of (keeps_pure _) | exact Triple.throw _ fun _ h => h
  | succ fuel ih =>
    cases todo with
    | zero => exact in_kept_of (keeps_pure _)
    | succ todo =>
      unfold decodeLoop
      refine InTriple.bind in_inBit fun o => ?_
      cases o with
      | none => exact in_kept_of (keeps_raise _)
      | some b =>
        exact InTriple.bind (in_kept_of keeps_getRegs) fun _ => Triple.ite
          (fun _ => InTriple.bind (in_kept_of (keeps_outByte in_write _)) fun _ => ih _ _) fun _ => ih _ _

theorem in_decodePayload : InTriple g (InKept g) decodePayload (InKept g) :=
  InTriple.bind (in_kept_of keeps_rootOperand) fun _ => InTriple.bind (in_kept_of keeps_getRegs) fun _ =>
    InTriple.bind (in_kept_of (keeps_require _ _)) fun _ => InTriple.bind (in_kept_of keeps_requireOutAligned) fun _ =>
      InTriple.bind (in_decodeLoop _ _ _) fun _ => InTriple.bind (in_kept_of (keeps_flushOut in_write)) fun _ =>
        in_kept_of (keeps_pure _)

theorem in_startDriver : InTriple g (InKept g) startDriver (InAligned g) :=
  InTriple.bind (in_kept_of keeps_requireOutAligned) fun _ => InTriple.bind
    (Triple.modifyRegs _ fun _ h => ⟨h.config, h.inp, h.answers⟩) fun _ => in_rewind

theorem in_encodeStream : InTriple g (InKept g) encodeStream (InKept g) :=
  InTriple.bind in_startDriver.drop fun _ => InTriple.bind (in_kept_of (keeps_histClear in_hist)) fun _ =>
    InTriple.bind in_histScan.drop fun _ => InTriple.bind (in_kept_of (keeps_histForce in_hist)) fun _ =>
      InTriple.bind (in_kept_of (keeps_buildTree in_pool)) fun _ =>
        InTriple.bind (in_kept_of (keeps_buildCodes in_table in_code)) fun _ =>
          InTriple.bind (in_kept_of fun c h => in_header c _ h) fun _ =>
            InTriple.bind (in_kept_of (keeps_hdrWrite in_write in_header)) fun _ =>
              InTriple.bind (in_kept_of (keeps_dumpTree in_write)) fun _ => InTriple.bind in_rewind.drop fun _ =>
                InTriple.bind (in_encodePayload _).drop fun _ => InTriple.bind (in_kept_of keeps_getRegs) fun _ =>
                  InTriple.bind (in_kept_of (keeps_require _ _)) fun _ =>
                    InTriple.bind (in_kept_of (keeps_flushOut in_write)) fun _ =>
                      InTriple.bind (in_kept_of fun c h => in_pool c _ h) fun _ => in_kept_of (keeps_pure _)

theorem in_decodeStream : InTriple g (InKept g) decodeStream (InKept g) :=
  InTriple.bind in_startDriver.drop fun _ => InTriple.bind in_hdrRead.drop fun _ => InTriple.bind in_rebuildTree.drop fun _ =>
    InTriple.bind in_decodePayload fun _ => InTriple.bind (in_kept_of fun c h => in_pool c _ h) fun _ =>
      in_kept_of (keeps_pure _)

/-- The read buffer keeps its invariant, and no answer is too long, whatever a command does. -/
theorem in_exec (i : Instr) (hi : i ≠ .softReset) {s t : State} (h : exec i s = .next t) (hs : InKept s.config s.ctx) :
    Outcome (InKept s.config) i s t := by
  by_cases hp : readers i = true
  · cases i with
    | histScan =>
      exact outcome_of_keeps (InTriple.bind in_histScan.drop fun _ => InTriple.bind (in_kept_of keeps_getRegs) fun _ =>
        in_kept_of (keeps_pure _)) hs h rfl
    | rebuildTree => exact outcome_of_keeps (InTriple.bind in_rebuildTree.drop fun _ => in_kept_of (keeps_pure _)) hs h rfl
    | hdrRead => exact outcome_of_keeps (InTriple.bind in_hdrRead.drop fun _ => in_kept_of (keeps_pure _)) hs h rfl
    | bitRead =>
      exact outcome_of_keeps (InTriple.bind in_inBit fun o => by cases o <;> exact in_kept_of (keeps_pure _)) hs h rfl
    | byteRead =>
      exact outcome_of_keeps (InTriple.bind in_requireInAligned fun _ => InTriple.bind in_inByte.drop fun o => by
        cases o <;> exact in_kept_of (keeps_pure _)) hs h rfl
    | srcRewind => exact outcome_of_keeps (InTriple.bind in_rewind.drop fun _ => in_kept_of (keeps_pure _)) hs h rfl
    | encodePayload =>
      exact outcome_of_keeps (InTriple.bind (in_encodePayload _).drop fun _ =>
        InTriple.bind (in_kept_of (keeps_flushOut in_write)) fun _ => in_kept_of (keeps_pure _)) hs h rfl
    | decodePayload => exact outcome_of_keeps (InTriple.bind in_decodePayload fun _ => in_kept_of (keeps_pure _)) hs h rfl
    | encode => exact outcome_of_keeps in_encodeStream hs h rfl
    | decode => exact outcome_of_keeps in_decodeStream hs h rfl
    | _ => cases hp
  · obtain ⟨st, c, hc, h2⟩ := exec_outcome (P := InWith s.config fun _ => True) i hi h ⟨hs, trivial⟩
      (fun h => absurd h hp) (fun _ => in_write) (fun _ => in_pool) (fun _ => in_hist) (fun _ => in_scan) (fun _ => in_code)
      (fun _ => in_table) fun _ => in_header
    exact ⟨st, c, hc.1, h2⟩

end Sys2Proof.Machine
end

