-- ==== Sys2Proof/Laws/Invariant.lean ====
section
/-! SUPPORT. The invariant of every run, put together: what it says of the registers, that each command keeps it, and that
each action of the host does. -/

namespace Sys2Proof.Machine

/-! ### The registers' part -/

/-- The invariants of the units, together. -/
structure Regs.Ok (g : Config) (r : Regs) : Prop where
  pool : r.pool.Ok
  code : r.code.Ok
  entry : ∀ s, (r.entry s).Ok
  out : r.out.Wf g.block
  inp : r.inp.Wf g.block

theorem Regs.ok_iff {g : Config} {r : Regs} : r.Ok g ↔ r.Bounded g ∧ r.pool.Wf ∧ r.pool.QueueWf := by
  constructor
  · intro h
    exact ⟨⟨h.pool.wf.bound, h.pool.size, h.pool.cap, h.code.len, h.code.bits, fun s => (h.entry s).len,
      fun s => (h.entry s).bits, fun s => (h.entry s).invalid, h.out, h.inp⟩, h.pool.wf, h.pool.queue⟩
  · rintro ⟨h, hw, hq⟩
    exact ⟨⟨hw, hq, h.size, h.cap⟩, ⟨h.codeLen, h.codeBits⟩, fun s => ⟨h.entryLen s, h.entryBits s, h.entryInvalid s⟩, h.out,
      h.inp⟩

/-- The invariant in these terms. -/
theorem State.inv_iff {s : State} : s.Inv ↔
    s.startRegs.Ok s.config ∧ s.status.Wf ∧ ∀ w, s.running = some w → ∀ b ∈ w.answered, b.length ≤ s.config.block := by
  constructor
  · intro h
    exact ⟨Regs.ok_iff.2 ⟨h.bounded, h.pool, h.queue⟩, h.status, h.answers⟩
  · rintro ⟨h, hs, ha⟩
    obtain ⟨h1, h2, h3⟩ := Regs.ok_iff.1 h
    exact ⟨ha, h1, hs, h2, h3⟩

theorem Regs.ok_reset (g : Config) : Regs.reset.Ok g where
  pool := .of_empty (fun k => by
    rw [Pool.node, getD_eq_dite]
    split
    · exact Vector.getElem_replicate _
    · rfl) rfl rfl rfl rfl heapAt_replicate (by decide)
  code := Code.Ok.empty
  entry := fun s => by
    rw [Regs.entry, getD_eq_dite]
    split
    · rw [show Regs.reset.table = Vector.replicate 256 CodeEntry.invalid from rfl, Vector.getElem_replicate]
      exact CodeEntry.Ok.none
    · exact CodeEntry.Ok.none
  out := outSide_empty g
  inp := ⟨Nat.zero_le _, Nat.zero_le _, fun _ => .inl rfl⟩

/-! ### STATUS -/

theorem Status.Wf.finish {s : Status} (h : s.Wf) (ok : Bool) : (s.finish ok).Wf := ⟨h.kind, h.noError⟩

theorem Status.Wf.raise {s : Status} (h : s.Wf) (e : ErrName) : (s.raise e).Wf := by
  unfold Status.raise
  split
  · exact ⟨h.kind, h.noError⟩
  · exact ⟨rfl, fun h => by cases h⟩

/-- No error: code and kind are 0. -/
theorem kindOfCode_zero : (0 : BitVec 4) = kindOfCode 0 := by decide

theorem Status.wf_clearErr (s : Status) : s.clearErr.Wf := ⟨kindOfCode_zero, fun _ => rfl⟩

theorem Status.wf_reset : Status.reset.Wf := ⟨kindOfCode_zero, fun _ => rfl⟩

/-! ### The commands -/

theorem inv_softReset {s t : State} (h : exec .softReset s = .next t) : t.Inv := by
  cases h
  exact State.inv_iff.2 ⟨Regs.ok_reset _, ⟨kindOfCode_zero, fun _ => rfl⟩, fun w hw => by cases hw⟩

/-- STATUS and the answers, after a command. -/
theorem status_kept (i : Instr) (hi : i ≠ .softReset) {s t : State} (h : exec i s = .next t) (hs : s.status.Wf) :
    t.status.Wf ∧ t.config = s.config := by
  obtain ⟨body, hb⟩ := exec_perform i hi
  rw [hb] at h
  injection h with h
  subst h
  have hs' : (if i = .clearErr then s.status.clearErr else s.status).Wf := by
    split
    · exact s.status.wf_clearErr
    · exact hs
  unfold State.perform
  split
  · exact ⟨hs'.finish _, rfl⟩
  · exact ⟨hs'.raise _, rfl⟩
  · exact ⟨hs', rfl⟩

theorem inv_exec (i : Instr) {s t : State} (h : exec i s = .next t) (hs : s.Inv) : t.Inv := by
  by_cases hi : i = .softReset
  · subst hi; exact inv_softReset h
  rw [State.inv_iff] at hs ⊢
  obtain ⟨hr, hst, ha⟩ := hs
  obtain ⟨ht, hc⟩ := status_kept i hi h hst
  have hgiven : ∀ x, x ∈ s.answered → x.length ≤ s.config.block := by
    intro x hx
    unfold State.answered at hx
    split at hx
    · cases hx
    · rename_i w hw; exact ha w hw x hx
  have hin := in_exec i hi h (s := s) ⟨rfl, hr.inp, fun x hx => hx.elim (hgiven x) fun hx => by cases hx⟩
  have hcode := codes_exec i hi h (s := s) ⟨hr.code, hr.entry⟩
  refine ⟨⟨pool_kept i hi h hr.pool, ?_, ?_, out_kept i hi h hr.out, ?_⟩, ht, ?_⟩
  · obtain ⟨st, c, hk, -, ⟨a, rfl⟩ | ⟨e, rfl⟩ | rfl⟩ := hcode
    · exact hk.code
    · exact hk.code
    · exact hr.code
  · obtain ⟨st, c, hk, -, ⟨a, rfl⟩ | ⟨e, rfl⟩ | rfl⟩ := hcode
    · exact hk.entry
    · exact hk.entry
    · exact hr.entry
  · rw [hc]
    obtain ⟨st, c, hk, -, ⟨a, rfl⟩ | ⟨e, rfl⟩ | rfl⟩ := hin
    · exact hk.inp
    · exact hk.inp
    · exact hr.inp
  · rw [hc]
    obtain ⟨st, c, hk, -, ⟨a, rfl⟩ | ⟨e, rfl⟩ | rfl⟩ := hin
    · intro w hw; cases hw
    · intro w hw; cases hw
    · intro w hw b hb
      cases hw
      exact hk.answers b (.inr hb)

/-! ### The host's actions -/

theorem State.Inv.congr {s t : State} (h : s.Inv) (hc : t.config = s.config) (hr : t.regs = s.regs)
    (hn : t.running = s.running) (hst : t.status.Wf) : t.Inv := by
  rw [State.inv_iff] at h ⊢
  have hs : t.startRegs = s.startRegs := by unfold State.startRegs; rw [hr, hn]
  rw [hc, hs, hn]
  exact ⟨h.1, hst, h.2.2⟩

theorem Regs.Ok.aborted {g : Config} {r : Regs} (h : r.Ok g) (b : Bool) : (r.aborted b).Ok g := by
  refine ⟨?_, h.code, h.entry, outSide_empty g, h.inp⟩
  show (Regs.aborted _ _).pool.Ok
  unfold Regs.aborted
  split
  · exact h.pool.cleared.withStack _
  · exact h.pool.withStack _

theorem Regs.Ok.written {g : Config} {r : Regs} (h : r.Ok g) (a : Nat) (v : Word) : (r.writeWindow a v).Ok g := by
  unfold Regs.writeWindow
  split <;> try split
  all_goals exact ⟨h.pool, h.code, h.entry, h.out, h.inp⟩

theorem inv_issue {s t : State} {v : Word} (h : s.issue v = .next t) (hs : s.Inv) : t.Inv := by
  unfold State.issue at h
  split at h
  · cases h
    exact hs.congr rfl rfl rfl ⟨hs.status.kind, hs.status.noError⟩
  · unfold State.accept at h
    have hs' : State.Inv { s with status := s.status.accept (BitVec.ofNat 8 (opField v)) } :=
      hs.congr rfl rfl rfl ⟨hs.status.kind, hs.status.noError⟩
    simp only at h
    split at h
    · exact inv_exec _ h hs'
    · cases h
      rw [State.inv_iff] at hs' ⊢
      exact ⟨Regs.Ok.aborted hs'.1 _, hs'.2.1.raise _, fun w hw => by cases hw⟩

/-- Every action of the host keeps the invariant. -/
theorem inv_hostAction {s t : State} {action : HostAction} (h : s.hostAction action = .next t) (hs : s.Inv) : t.Inv := by
  have hst := hs.status
  cases action with
  | read a w =>
    simp only [State.hostAction, admitted] at h
    split at h
    · cases h
    · split at h
      · cases h
      · cases h
        unfold State.hostRead
        split <;> exact hs.congr rfl rfl rfl hst
  | write a w v =>
    simp only [State.hostAction, admitted] at h
    split at h
    · cases h
    · split at h
      · cases h
      · unfold State.hostWrite at h
        split at h
        · cases h; exact hs.congr rfl rfl rfl ⟨hst.kind, hst.noError⟩
        · rename_i hb
          have hn : s.running = none := by
            cases hr : s.running with
            | none => rfl
            | some w => exact absurd (by rw [State.busy, hr]; rfl) hb
          split at h
          · exact inv_issue h hs
          · cases h
            rw [State.inv_iff] at hs ⊢
            have hr : s.startRegs = s.regs := by unfold State.startRegs; rw [hn]
            rw [hr] at hs
            refine ⟨?_, hs.2.1, fun w hw => ?_⟩
            · show (State.startRegs { s with regs := s.regs.writeWindow a v }).Ok _
              unfold State.startRegs
              rw [show State.running { s with regs := s.regs.writeWindow a v } = none from hn]
              exact hs.1.written a v
            · rw [show State.running { s with regs := s.regs.writeWindow a v } = none from hn] at hw
              cases hw
  | answer r =>
    simp only [State.hostAction, State.answerPort] at h
    split at h
    · cases h; exact hs
    · exact inv_exec _ h (hs.congr rfl rfl rfl hst)
  | source bytes =>
    simp only [State.hostAction, State.setSource] at h
    split at h
    · cases h; exact hs.congr rfl rfl rfl hst
    · cases h
  | hardReset =>
    cases h
    exact State.inv_iff.2 ⟨Regs.ok_reset _, Status.wf_reset, fun w hw => by cases hw⟩

end Sys2Proof.Machine
end

