-- ==== Sys2Proof/Tests/Slice0.lean ====
section
/-! SUPPORT. Tests. Every expected value comes from the spec's own text: the patterns of R95, the example words of R100, the
Example lines of the command rules and the vectors of 95_test_vectors.md, with the spec's example parameters (R9:
LEAF_MARKER 0x4C, INTERNAL_MARKER 0x49, BLOCK 4096 or as the vector says) and MAGIC = 0x1234 for the symbolic m. -/

namespace Sys2Proof.Tests

open Sys2Proof.Machine

/-! ### Well-formedness: each check refuses an ill-formed term -/

theorem test_wf_join_left : (Instr.nodeJoin 512 0).wellFormed = false := by decide
theorem test_wf_join_right : (Instr.nodeJoin 0 512).wellFormed = false := by decide
theorem test_wf_capacity : (Instr.pqCreate 512).wellFormed = false := by decide
theorem test_wf_enqueue : (Instr.pqEnqueue 512).wellFormed = false := by decide
theorem test_wf_root : (Instr.setRoot 512).wellFormed = false := by decide
theorem test_wf_accepts : (Instr.nodeJoin 511 511).wellFormed = true := by decide

/-! ### Decoding: the pattern of each row of R95, operand bits written out -/

theorem test_decode_control :
    decodeTableWord 32 0b00000000000000000000000000000000 = some .nop ∧
    decodeTableWord 32 0b00000000000000000000000000000001 = some .softReset ∧
    decodeTableWord 32 0b00000000000000000000000000000010 = some .clearErr := by decide

theorem test_decode_histogram :
    decodeTableWord 32 0b00000000000000000000000000010000 = some .histClear ∧
    decodeTableWord 32 0b00000000000000001000000100010001 = some (.histAdd 0x81) ∧
    decodeTableWord 32 0b00000000000000000000000000010010 = some .histScan ∧
    decodeTableWord 32 0b00000000000000000000000000010011 = some .histForce := by decide

theorem test_decode_pool :
    decodeTableWord 32 0b00000000000000000000000000100000 = some .nodeReset ∧
    decodeTableWord 32 0b00000000000000000100000100100001 = some (.nodeLeaf 0x41) ∧
    decodeTableWord 32 0b00000010000000010000000100100010 = some (.nodeJoin 0x101 0x100) ∧
    decodeTableWord 32 0b00000000000000010000000000100011 = some (.pqCreate 256) ∧
    decodeTableWord 32 0b00000000000000011111111000100100 = some (.pqEnqueue 510) ∧
    decodeTableWord 32 0b00000000000000000000000000100101 = some .pqDequeue := by decide

theorem test_decode_tree :
    decodeTableWord 32 0b00000000000000000000000000110000 = some .buildTree ∧
    decodeTableWord 32 0b00000000000000011111111100110001 = some (.setRoot NIL) ∧
    decodeTableWord 32 0b00000000000000000000000000110010 = some .dumpTree ∧
    decodeTableWord 32 0b00000000000000000000000000110011 = some .rebuildTree := by decide

theorem test_decode_codes :
    decodeTableWord 32 0b00000000000000000000000001000000 = some .codeClear ∧
    decodeTableWord 32 0b00000000000000000000000101000001 = some (.codePush true) ∧
    decodeTableWord 32 0b00000000000000000000000001000001 = some (.codePush false) ∧
    decodeTableWord 32 0b00000000000000000000000001000010 = some .codePop ∧
    decodeTableWord 32 0b00000000000000000000000001000011 = some .buildCodes := by decide

theorem test_decode_header :
    decodeTableWord 32 0b00000000000000000000000001010000 = some .hdrWrite ∧
    decodeTableWord 32 0b00000000000000000000000001010001 = some .hdrRead := by decide

theorem test_decode_bit_io :
    decodeTableWord 32 0b00000000000000000000000101100000 = some (.bitWrite true) ∧
    decodeTableWord 32 0b00000000000000000100001001100001 = some (.codeWrite 0x42) ∧
    decodeTableWord 32 0b00000000000000000100110001100010 = some (.byteWrite 0x4C) ∧
    decodeTableWord 32 0b00000000000000000000000001100011 = some .flush ∧
    decodeTableWord 32 0b00000000000000000000000001100100 = some .bitRead ∧
    decodeTableWord 32 0b00000000000000000000000001100101 = some .byteRead ∧
    decodeTableWord 32 0b00000000000000000000000001100110 = some .srcRewind := by decide

theorem test_decode_drivers :
    decodeTableWord 32 0b00000000000000000000000001110000 = some .encodePayload ∧
    decodeTableWord 32 0b00000000000000000000000001110001 = some .decodePayload ∧
    decodeTableWord 32 0b00000000000000000000000001110010 = some .encode ∧
    decodeTableWord 32 0b00000000000000000000000001110011 = some .decode := by decide

/-- The neighbours of the encodings are refused by name (R93, R96; vector V8). -/
theorem test_decode_rejects :
    decodeWord 0x03 = .rejected .badOpcode ∧ decodeWord 0xFFFFFF7F = .rejected .badOpcode ∧
    decodeWord 0x100 = .rejected .reservedBits ∧ decodeWord 0x100000000 = .rejected .reservedBits ∧
    decodeWord 0x04000022 = .rejected .reservedBits ∧ decodeWord 0x241 = .rejected .reservedBits := by decide

/-! ### Small states -/

/-- The spec's example parameters with a block of `b` bytes. -/
def cfg (b : Nat) (h : (Nat.ble 1 b && Nat.ble b (2 ^ 24 - 1)) = true) : Config := ⟨0x1234, 0x4C, 0x49, b, rfl, h⟩

/-- An engine just after reset, with this block size and this source. -/
def idle (b : Nat) (src : List Nat) (h : (Nat.ble 1 b && Nat.ble b (2 ^ 24 - 1)) = true := by rfl) : State :=
  let s := State.resetWith (cfg b h)
  { s with port := { s.port with src := src.map (BitVec.ofNat 8) } }

/-- The same with other registers. -/
def withRegs (s : State) (f : Regs → Regs) : State := { s with regs := f s.regs }

/-- The node pool with leaves 'A' and 'B' of frequency 2, unowned (`LEAF 'A', 2`, `LEAF 'B', 2`). -/
def twoLeaves : Pool :=
  (Pool.reset.grown { kind := .leaf, held := .unowned, sym := 0x41, freq := 2, left := NIL, right := NIL }).grown
    { kind := .leaf, held := .unowned, sym := 0x42, freq := 2, left := NIL, right := NIL }

/-- The tree n2 = (n0 = 'A', n1 = 'B') at ROOT. -/
def twoLeafTree : Pool :=
  ((twoLeaves.grown { kind := .internal, held := .unowned, sym := 0, freq := 4, left := 0, right := 1 }).adopt 0
    1).makeRoot 2

/-- The code table that gives 'A' the code 0 and 'B' the code 1. -/
def twoCodes : Vector CodeEntry 256 :=
  ((Vector.replicate 256 CodeEntry.invalid).setIfInBounds 0x41 ⟨true, 1, 0⟩).setIfInBounds 0x42 ⟨true, 1, 1⟩

/-- A host write to CMD. -/
def cmd (w : Nat) : List HostAction := [.write 0x0000 8 (BitVec.ofNat 64 w)]

/-- The step that issues this command word ends in a next state of which this holds. -/
def issues (w : Nat) (s : State) (p : State → Bool) : Bool :=
  match step { s with script := cmd w } with
  | .next t => p t
  | _ => false

/-- The sink and STATUS as the host sees them. -/
def sees (t : State) (status : Nat) (sink : List Nat) : Bool :=
  t.readRegister 0x0008 == BitVec.ofNat 64 status && t.port.snk == sink.map (BitVec.ofNat 8)

/-- A register reads this value. -/
def reads (t : State) (a v : Nat) : Bool := t.readRegister a == BitVec.ofNat 64 v

/-- The 20-byte stream of "ABAB" (R202's example), with MAGIC = 0x1234. -/
def ababStream : List Nat :=
  [0x34, 0x12, 0xA4, 0x01, 0x05, 0x00, 0x04, 0, 0, 0, 0, 0, 0, 0, 0x4C, 0x41, 0x4C, 0x42, 0x49, 0x0A]

/-! ### One step of each command -/

/-- R110's example. -/
theorem test_nop : issues 0x00000000 (idle 4096 []) (fun t => sees t 0x00000002 []) = true := by decide +kernel

/-- R111's example. -/
theorem test_soft_reset : issues 0x00000001 (withRegs (idle 4096 []) fun r => { r with arg := 5, pool := twoLeafTree })
    (fun t => sees t 0x01000002 [] && reads t 0x10 0 && reads t 0x20 0x1FF) = true := by decide +kernel

/-- R112's example, the state after a failed DECODE. -/
theorem test_clear_err : issues 0x00000002 { idle 4096 [] with status := ⟨false, true, true, true, 1, 0x10, 0x73⟩ }
    (fun t => sees t 0x02000002 []) = true := by decide +kernel

/-- R115's example. -/
theorem test_hist_clear : issues 0x00000010 (withRegs (idle 4096 []) fun r => { r with hist := r.hist.setIfInBounds 0x41 7 })
    (fun t => sees t 0x10000002 [] && reads t (0x800 + 8 * 0x41) 0) = true := by decide +kernel

/-- R116's example. -/
theorem test_hist_add : issues 0x00004111 (withRegs (idle 4096 []) fun r => { r with hist := r.hist.setIfInBounds 0x41 2 })
    (fun t => sees t 0x11000002 [] && reads t (0x800 + 8 * 0x41) 3 && reads t 0x18 3) = true := by decide +kernel

/-- R116, the count at its largest: FREQ_OVERFLOW. -/
theorem test_hist_add_overflow :
    issues 0x00004111 (withRegs (idle 4096 []) fun r => { r with hist := r.hist.setIfInBounds 0x41 0xFFFFFFFFFFFFFFFF })
      (fun t => sees t 0x11240204 [] && reads t (0x800 + 8 * 0x41) (2 ^ 64 - 1)) = true := by decide +kernel

/-- R117's example. -/
theorem test_hist_scan : issues 0x00000012 (idle 4096 [0x41, 0x42, 0x41, 0x42])
    (fun t => sees t 0x12000002 [] && reads t (0x800 + 8 * 0x41) 2 && reads t (0x800 + 8 * 0x42) 2 && reads t 0x60 4 &&
      reads t 0x68 4) = true := by decide +kernel

/-- R118's example. -/
theorem test_hist_force : issues 0x00000013 (withRegs (idle 4096 []) fun r => { r with hist := r.hist.setIfInBounds 0x41 1 })
    (fun t => sees t 0x13000002 [] && reads t 0x800 1 && reads t (0x800 + 8 * 0x41) 1 && reads t 0xFF8 1 && reads t 0x18 3) =
      true := by decide +kernel

/-- R126's example. -/
theorem test_node_reset : issues 0x00000020 (withRegs (idle 4096 []) fun r => { r with pool := twoLeafTree })
    (fun t => sees t 0x20000002 [] && reads t 0x28 0 && reads t 0x20 0x1FF && reads t 0x38 0x101000000) = true := by decide +kernel

/-- R127's example. -/
theorem test_node_leaf : issues 0x00004121 (withRegs (idle 4096 []) fun r => { r with arg := 2 })
    (fun t => sees t 0x21000002 [] && reads t 0x18 0 && reads t 0x28 1 && reads t 0x8000 0x1FF01FF4101 && reads t 0x8008 2) =
      true := by decide +kernel

/-- R127, the pool full: NODE_POOL_FULL. -/
theorem test_node_leaf_full :
    issues 0x00004121 (withRegs (idle 4096 []) fun r => { r with pool := { r.pool with count := 511 } })
      (fun t => sees t 0x21230204 []) = true := by decide +kernel

/-- R128's example. -/
theorem test_node_join : issues 0x00020022 (withRegs (idle 4096 []) fun r => { r with pool := twoLeaves })
    (fun t => sees t 0x22000002 [] && reads t 0x18 2 && reads t 0x8040 0x100000002 && reads t 0x8048 4 &&
      reads t 0x8000 0x1FF01FF4109) = true := by decide +kernel

/-- R128, a node joined with itself: NODE_HELD. -/
theorem test_node_join_same : issues 0x00000022 (withRegs (idle 4096 []) fun r => { r with pool := twoLeaves })
    (fun t => sees t 0x22430404 [] && reads t 0x28 2) = true := by decide +kernel

/-- R131's example. -/
theorem test_pq_create : issues 0x00000223 (idle 4096 [])
    (fun t => sees t 0x23000002 [] && reads t 0x38 0x100020000) = true := by decide +kernel

/-- R131, a capacity above 256: BAD_CAPACITY. -/
theorem test_pq_create_bad : issues 0x00010123 (idle 4096 []) (fun t => sees t 0x23440404 []) = true := by decide +kernel

/-- R132's example, its second enqueue: n1 (freq 1) rises above n0 (freq 5). -/
theorem test_pq_enqueue : issues 0x00000124 (withRegs (idle 4096 []) fun r => { r with pool :=
      let p := (Pool.reset.grown ⟨.leaf, .pq, 0x41, 5, NIL, NIL⟩).grown ⟨.leaf, .unowned, 0x42, 1, NIL, NIL⟩
      { p with heap := p.heap.setIfInBounds 0 0, size := 1 } })
    (fun t => sees t 0x24000002 [] && reads t 0x18 1 && reads t 0x5000 1 && reads t 0x5008 0) = true := by decide +kernel

/-- R132, a full queue: "false", no error. -/
theorem test_pq_enqueue_full :
    issues 0x00000024 (withRegs (idle 4096 []) fun r => { r with pool := { twoLeaves with cap := 0 } })
      (fun t => sees t 0x24000000 [] && reads t 0x18 0x1FF) = true := by decide +kernel

/-- R133's example. -/
theorem test_pq_dequeue : issues 0x00000025 (withRegs (idle 4096 []) fun r => { r with pool :=
      let p := (Pool.reset.grown ⟨.leaf, .pq, 0x41, 5, NIL, NIL⟩).grown ⟨.leaf, .pq, 0x42, 1, NIL, NIL⟩
      { p with heap := (p.heap.setIfInBounds 0 1).setIfInBounds 1 0, size := 2 } })
    (fun t => sees t 0x25000002 [] && reads t 0x18 1 && reads t 0x5000 0 && reads t 0x5008 0x1FF) = true := by
  decide +kernel

/-- R134's four leaves a, b, c, d of equal frequency: a comes out first, and d, the last entered, stands at the top. -/
theorem test_pq_dequeue_tie : issues 0x00000025 (withRegs (idle 4096 []) fun r => { r with pool :=
      let leaf (s : Byte) : Node := ⟨.leaf, .pq, s, 1, NIL, NIL⟩
      let p := (((Pool.reset.grown (leaf 0x61)).grown (leaf 0x62)).grown (leaf 0x63)).grown (leaf 0x64)
      { p with heap := (((p.heap.setIfInBounds 0 0).setIfInBounds 1 1).setIfInBounds 2 2).setIfInBounds 3 3, size := 4 } })
    (fun t => reads t 0x18 0 && reads t 0x5000 3 && reads t 0x5008 1 && reads t 0x5010 2) = true := by decide +kernel

/-- R145's example. -/
theorem test_build_tree :
    issues 0x00000030 (withRegs (idle 4096 []) fun r =>
        { r with hist := (r.hist.setIfInBounds 0x41 2).setIfInBounds 0x42 2 })
      (fun t => sees t 0x30000002 [] && reads t 0x20 2 && reads t 0x30 2 && reads t 0x18 2 && reads t 0x8040 0x10000000E &&
        reads t 0x8048 4) = true := by decide +kernel

/-- R145, every count 0: EMPTY_HISTOGRAM. -/
theorem test_build_tree_empty : issues 0x00000030 (idle 4096 []) (fun t => sees t 0x30480404 []) = true := by decide +kernel

/-- R147's example. -/
theorem test_set_root :
    issues 0x00000231 (withRegs (idle 4096 []) fun r => { r with pool :=
        ((twoLeaves.grown ⟨.internal, .unowned, 0, 4, 0, 1⟩).setHeld 0 .parent).setHeld 1 .parent })
      (fun t => sees t 0x31000002 [] && reads t 0x20 2 && reads t 0x30 2 && reads t 0x8040 0x10000000E) = true := by
  decide +kernel

/-- R147, a node that is the root already: NODE_HELD. -/
theorem test_set_root_again : issues 0x00000231 (withRegs (idle 4096 []) fun r => { r with pool := twoLeafTree })
    (fun t => sees t 0x31430404 []) = true := by decide +kernel

/-- R151's example. -/
theorem test_dump_tree : issues 0x00000032 (withRegs (idle 4096 []) fun r => { r with pool := twoLeafTree })
    (fun t => sees t 0x32000002 [0x4C, 0x41, 0x4C, 0x42, 0x49] && reads t 0x18 5) = true := by decide +kernel

/-- R151, no root: NO_ROOT. -/
theorem test_dump_tree_no_root : issues 0x00000032 (idle 4096 []) (fun t => sees t 0x32460404 []) = true := by decide +kernel

/-- R153's example. -/
theorem test_rebuild_tree :
    issues 0x00000033 (withRegs (idle 4096 [0x4C, 0x41, 0x4C, 0x42, 0x49]) fun r => { r with hdr := { r.hdr with treeSize := 5 } })
      (fun t => sees t 0x33000002 [] && reads t 0x20 2 && reads t 0x30 2 && reads t 0x18 2 && reads t 0x8040 0x10000000E &&
        reads t 0x8000 0x1FF01FF4109 && reads t 0x8020 0x1FF01FF4209) = true := by decide +kernel

/-- R153, an internal marker on a stack of one node: TREE_UNDERFLOW; the leaf stays allocated (R220(e)). -/
theorem test_rebuild_tree_underflow :
    issues 0x00000033 (withRegs (idle 4096 [0x4C, 0x41, 0x49, 0x4C, 0x42]) fun r => { r with hdr := { r.hdr with treeSize := 5 } })
      (fun t => sees t 0x33150104 [] && reads t 0x28 1 && reads t 0x20 0x1FF) = true := by decide +kernel

/-- R160's example. -/
theorem test_code_clear : issues 0x00000040 (withRegs (idle 4096 []) fun r => { r with code := ⟨3, 5⟩ })
    (fun t => sees t 0x40000002 [] && reads t 0x88 0 && reads t 0xA0 0) = true := by decide +kernel

/-- R161's example. -/
theorem test_code_push : issues 0x00000141 (idle 4096 [])
    (fun t => sees t 0x41000002 [] && reads t 0x88 1 && reads t 0xA0 1 && reads t 0x18 1) = true := by decide +kernel

/-- R161, the 257th push: "false". -/
theorem test_code_push_full : issues 0x00000141 (withRegs (idle 4096 []) fun r => { r with code := ⟨256, 0⟩ })
    (fun t => sees t 0x41000000 [] && reads t 0x88 256 && reads t 0x18 0) = true := by decide +kernel

/-- R162's example. -/
theorem test_code_pop : issues 0x00000042 (withRegs (idle 4096 []) fun r => { r with code := ⟨2, 2⟩ })
    (fun t => sees t 0x42000002 [] && reads t 0x18 1 && reads t 0x88 1 && reads t 0xA0 0) = true := by decide +kernel

/-- R164's example. -/
theorem test_build_codes : issues 0x00000043 (withRegs (idle 4096 []) fun r => { r with pool := twoLeafTree })
    (fun t => sees t 0x43000002 [] && reads t 0x18 2 && reads t (0x1000 + 64 * 0x41) 0x8000000000000001 &&
      reads t (0x1000 + 64 * 0x42) 0x8000000000000001 && reads t (0x1008 + 64 * 0x42) 1) = true := by decide +kernel

/-- R171's example. -/
theorem test_hdr_write :
    issues 0x00000050 (withRegs (idle 4096 []) fun r =>
        { r with hdr := { r.hdr with perm := 0x01A4, treeSize := 5, fileSize := 4 } })
      (fun t => sees t 0x50000002 [] && reads t 0x78 112 && reads t 0x40 0x1234 &&
        t.regs.out.buf == (ababStream.take 14).map (BitVec.ofNat 8)) = true := by decide +kernel

/-- R173's example. -/
theorem test_hdr_read : issues 0x00000051 (idle 4096 (ababStream.take 14))
    (fun t => sees t 0x51000002 [] && reads t 0x40 0x1234 && reads t 0x48 0x01A4 && reads t 0x50 5 && reads t 0x58 4 &&
      reads t 0x18 14) = true := by decide +kernel

/-- R173, another magic: BAD_MAGIC, with the registers loaded. -/
theorem test_hdr_read_bad_magic : issues 0x00000051 (idle 4096 (0x35 :: (ababStream.take 14).tail))
    (fun t => sees t 0x51100104 [] && reads t 0x40 0x1235 && reads t 0x48 0x01A4) = true := by decide +kernel

/-- R185's example, its first bit. -/
theorem test_bit_write : issues 0x00000160 (idle 4096 [])
    (fun t => sees t 0x60000002 [] && reads t 0x78 1 && t.regs.out.buf == [1]) = true := by decide +kernel

/-- R185, BLOCK = 1: the eighth bit leaves at once. -/
theorem test_bit_write_block : issues 0x00000160 (withRegs (idle 1 []) fun r => { r with out := ⟨[0x7F], 7⟩ })
    (fun t => sees t 0x60000002 [0xFF] && reads t 0x78 0 && reads t 0x18 0 && reads t 0x70 1) = true := by decide +kernel

/-- R186's example, its second code: bit 1 of the byte is the code of 'B'. -/
theorem test_code_write : issues 0x00004261 (withRegs (idle 4096 []) fun r => { r with table := twoCodes, out := ⟨[0], 1⟩ })
    (fun t => sees t 0x61000002 [] && reads t 0x78 2 && t.regs.out.buf == [2] && reads t 0x18 1) = true := by decide +kernel

/-- R186, a symbol without an entry: NO_CODE. -/
theorem test_code_write_none : issues 0x00004361 (withRegs (idle 4096 []) fun r => { r with table := twoCodes })
    (fun t => sees t 0x61450404 []) = true := by decide +kernel

/-- R187's example. -/
theorem test_byte_write : issues 0x00004C62 (idle 4096 [])
    (fun t => sees t 0x62000002 [] && reads t 0x78 8 && reads t 0x18 8) = true := by decide +kernel

/-- R187 after one bit: MISALIGNED, and the pending bit is gone (R220). -/
theorem test_byte_write_misaligned : issues 0x00004C62 (withRegs (idle 4096 []) fun r => { r with out := ⟨[1], 1⟩ })
    (fun t => sees t 0x62470404 [] && reads t 0x78 0) = true := by decide +kernel

/-- R188's example. -/
theorem test_flush : issues 0x00000063 (withRegs (idle 4096 []) fun r => { r with out := ⟨[0x0A], 4⟩ })
    (fun t => sees t 0x63000002 [0x0A] && reads t 0x18 1 && reads t 0x78 0) = true := by decide +kernel

/-- R188, nothing pending. -/
theorem test_flush_idle : issues 0x00000063 (idle 4096 []) (fun t => sees t 0x63000002 [] && reads t 0x18 0) = true := by
  decide +kernel

/-- R194's example, its second bit. -/
theorem test_bit_read : issues 0x00000064 (withRegs (idle 4096 []) fun r => { r with inp := ⟨[0x0A], 1, true⟩ })
    (fun t => sees t 0x64000002 [] && reads t 0x18 1 && reads t 0x80 0x8000000100000002) = true := by decide +kernel

/-- R194's example, the ninth: end of input. -/
theorem test_bit_read_end : issues 0x00000064 (withRegs (idle 4096 []) fun r => { r with inp := ⟨[0x0A], 8, true⟩ })
    (fun t => sees t 0x64000000 [] && reads t 0x18 0) = true := by decide +kernel

/-- R195's example. -/
theorem test_byte_read : issues 0x00000065 (idle 4096 [0x41, 0x42])
    (fun t => sees t 0x65000002 [] && reads t 0x18 0x41 && reads t 0x80 0x8000000200000008) = true := by decide +kernel

/-- R196's example. -/
theorem test_src_rewind :
    issues 0x00000066 (withRegs { idle 4096 [0x41] with port := ⟨[0x41], 1, [], [], .ok⟩ } fun r => { r with inp := ⟨[0x41], 8, true⟩ })
      (fun t => sees t 0x66000002 [] && reads t 0x80 0 && t.port.srcPos == 0) = true := by decide +kernel

/-- R200's example. -/
theorem test_encode_payload : issues 0x00000070 (withRegs (idle 4096 [0x41, 0x42, 0x41, 0x42]) fun r => { r with table := twoCodes })
    (fun t => sees t 0x70000002 [0x0A] && reads t 0x18 4) = true := by decide +kernel

/-- R201's example. -/
theorem test_decode_payload :
    issues 0x00000071 (withRegs (idle 4096 [0x0A]) fun r => { r with pool := twoLeafTree, hdr := { r.hdr with fileSize := 4 } })
      (fun t => sees t 0x71000002 [0x41, 0x42, 0x41, 0x42] && reads t 0x18 4) = true := by decide +kernel

/-- R201, the bits run out: PAYLOAD_TRUNCATED, and nothing is written. -/
theorem test_decode_payload_truncated :
    issues 0x00000071 (withRegs (idle 4096 [0x0A]) fun r => { r with pool := twoLeafTree, hdr := { r.hdr with fileSize := 9 } })
      (fun t => sees t 0x71190104 []) = true := by decide +kernel

/-- R202's example. -/
theorem test_encode : issues 0x00000072 (withRegs (idle 4096 [0x41, 0x42, 0x41, 0x42]) fun r => { r with hdr := { r.hdr with perm := 0x01A4 } })
    (fun t => sees t 0x72000002 ababStream && reads t 0x18 4 && reads t 0x68 8 && reads t 0x70 20 && reads t 0x20 0x1FF) =
      true := by decide +kernel

/-- R202, the empty input: the forced tree of 0 and 255, a 19-byte stream. -/
theorem test_encode_empty : issues 0x00000072 (idle 4096 [])
    (fun t => sees t 0x72000002
      [0x34, 0x12, 0, 0, 5, 0, 0, 0, 0, 0, 0, 0, 0, 0, 0x4C, 0x00, 0x4C, 0xFF, 0x49] && reads t 0x68 0) = true := by
  decide +kernel

/-- R203's example. -/
theorem test_decode : issues 0x00000073 (idle 4096 ababStream)
    (fun t => sees t 0x73000002 [0x41, 0x42, 0x41, 0x42] && reads t 0x18 4 && reads t 0x68 20 && reads t 0x70 4 &&
      reads t 0x48 0x01A4) = true := by decide +kernel

/-- R203, a bad magic: no byte is written (R174; vector V2). -/
theorem test_decode_bad_magic : issues 0x00000073 (idle 4096 (0x35 :: ababStream.tail))
    (fun t => sees t 0x73100104 [] && reads t 0x20 0x1FF) = true := by decide +kernel

/-! ### Steps of the host -/

/-- A word as the row of the opcode table gives it runs as the first command after reset. -/
theorem test_fetch_word :
    (∃ t, step (State.reset.withFetchWord 32 0x00000000) = .next t) ∧
    ∃ t, step (State.reset.withFetchWord 32 0x00000072) = .next t := ⟨⟨_, rfl⟩, _, rfl⟩

/-- R110 to R112 under ERR = 1, and R219: HIST_CLEAR is rejected (vector V8). -/
theorem test_rejected : issues 0x00000010 { idle 4096 [] with status := ⟨false, true, false, false, 4, 0x40, 0x03⟩ }
    (fun t => sees t 0x03400414 []) = true := by decide +kernel

/-- A command that waits at SRC_REWIND (R75): BUSY reads 1. -/
def waiting : State :=
  match step { idle 4096 [0x41] with script := cmd 0x66, port := ⟨[0x41], 0, [], [.hold], .ok⟩ } with
  | .next t => t
  | _ => idle 4096 []

theorem waiting_busy : waiting.running ≠ none := by decide +kernel

theorem test_waits : sees waiting 0x66000001 [] = true := by decide +kernel

/-- R66: a write to ARG while BUSY = 1 is dropped and sets OVR. -/
theorem test_dropped : (match step { waiting with script := [.write 0x10 8 5] } with
    | .next t => sees t 0x66000009 [] && t.regs.arg == 0
    | _ => false) = true := by decide +kernel

/-- R75: the answer ends the command. -/
theorem test_answer : (match step { waiting with script := [.answer .ok] } with
    | .next t => sees t 0x66000002 []
    | _ => false) = true := by decide +kernel

/-- V13: ENCODE of "ABAB" waits at its fifth request, and the second pass serves "ABAC": INPUT_CHANGED, the 19 bytes of header
and tree, BYTES_READ 8. -/
theorem test_encode_changed :
    (let s := withRegs (idle 4096 [0x41, 0x42, 0x41, 0x42]) fun r => { r with hdr := { r.hdr with perm := 0x01A4 } }
     match exec .encode { s with port := { s.port with plan := List.replicate 4 .ok ++ [.hold] } } with
     | .next t => match step { t with script := [.source [0x41, 0x42, 0x41, 0x43], .answer .ok] } with
       | .next v => match step v with
         | .next u => sees u 0x00320304 (ababStream.take 19) && reads u 0x68 8
         | _ => false
       | _ => false
     | _ => false) = true := by decide +kernel

/-- R61, R62: outside the window, and a misaligned address. -/
theorem test_not_admitted :
    step { idle 4096 [] with script := [.read 0x10000 8] } = .fault (.addressOutsideWindow 0x10000) ∧
    step { idle 4096 [] with script := [.write 0x14 8 0] } = .refused (.accessNotAdmitted 0x14 8) := ⟨rfl, rfl⟩

/-! ### Witnesses: for each statement with hypotheses, states and operands that meet them, for each clause -/

theorem granting_idle (b : Nat) (src : List Nat) (h) : (idle b src h).port.Granting := ⟨rfl, rfl, Nat.zero_le _⟩

theorem witness_DecodeInvertsEncode : (Instr.nodeJoin 511 511).wellFormed = true := by decide

theorem witness_EncodeInvertsDecode : decodeWord 0x03FFFF22 = .command (.nodeJoin 511 511) := by decide

/-- Every range of the reserved opcodes at both its ends, with ERR = 0 and with ERR = 1. -/
theorem witness_ReservedOpcodesAreIllegal (err : Bool) :
    ∀ op ∈ [0x03, 0x0F, 0x14, 0x1F, 0x26, 0x2F, 0x34, 0x3F, 0x44, 0x4F, 0x52, 0x5F, 0x67, 0x6F, 0x74, 0xFF],
      ∃ (s : State) (rest : List HostAction) (v : Word),
        s.running = none ∧ s.script = .write 0x0000 8 v :: rest ∧ s.status.err = err ∧
        (let op := v.toNat % 256
         (0x03 ≤ op ∧ op ≤ 0x0F) ∨ (0x14 ≤ op ∧ op ≤ 0x1F) ∨ (0x26 ≤ op ∧ op ≤ 0x2F) ∨ (0x34 ≤ op ∧ op ≤ 0x3F) ∨
         (0x44 ≤ op ∧ op ≤ 0x4F) ∨ (0x52 ≤ op ∧ op ≤ 0x5F) ∨ (0x67 ≤ op ∧ op ≤ 0x6F) ∨ 0x74 ≤ op) := by
  intro op hop
  refine ⟨{ idle 4096 [] with script := cmd op, status := { Status.reset with err := err } }, [], _, rfl, rfl, rfl, ?_⟩
  revert op
  decide

/-- Each format at its first reserved bit and at bit 63; with ERR = 1 for NOP. -/
theorem witness_ReservedBitsFail :
    ∀ x ∈ [(0, 0x73, 8), (0, 0x10, 63), (1, 0x41, 9), (8, 0x62, 16), (9, 0x31, 17), (18, 0x22, 26), (18, 0x22, 63)],
      ∃ (s : State) (rest : List HostAction) (v : Word),
        s.running = none ∧ s.script = .write 0x0000 8 v :: rest ∧ s.status.err = false ∧ v.toNat % 256 = x.2.1 ∧
        8 + x.1 ≤ x.2.2 ∧ v.getLsbD x.2.2 = true := by
  intro x hx
  refine ⟨{ idle 4096 [] with script := cmd (x.2.1 + 2 ^ x.2.2) }, [], _, rfl, rfl, rfl, ?_⟩
  revert x
  decide

theorem witness_StepRunsTheDecodedCommand : ∃ (s : State) (rest : List HostAction) (v : Word),
    s.running = none ∧ s.script = .write 0x0000 8 v :: rest ∧ decodeWord v = .command .clearErr ∧ s.status.err = true :=
  ⟨{ idle 4096 [] with script := cmd 0x02, status := { Status.reset with err := true } }, [], _, rfl, rfl, rfl, rfl⟩

theorem witness_CommandsAreRejectedWhileErr : ∃ (s : State) (rest : List HostAction) (v : Word),
    s.running = none ∧ s.status.err = true ∧ s.script = .write 0x0000 8 v :: rest ∧ 2 < v.toNat % 256 :=
  ⟨{ idle 4096 [] with script := cmd 0x03, status := { Status.reset with err := true } }, [], _, rfl, rfl, rfl, by decide⟩

theorem witness_WritesWhileBusyAreDropped : ∀ a ∈ [0x0000, 0xFFF8], ∃ (s : State) (rest : List HostAction) (v : Word),
    s.running ≠ none ∧ a ≤ 0xFFFF ∧ a % 8 = 0 ∧ s.script = .write a 8 v :: rest := by
  intro a ha
  refine ⟨{ waiting with script := [.write a 8 5] }, [], 5, waiting_busy, ?_, ?_, rfl⟩ <;> revert a <;> decide

/-- Each register that a write stores to, HIST at both its ends, and addresses beside them. -/
theorem witness_HostWritesStore :
    ∀ a ∈ [0x0008, 0x0010, 0x0018, 0x0048, 0x0050, 0x0058, 0x07F8, 0x0800, 0x0FF8, 0x1000, 0xFFF8],
      ∃ (s : State) (rest : List HostAction) (v : Word),
        s.running = none ∧ a ≤ 0xFFFF ∧ a % 8 = 0 ∧ a ≠ 0x0000 ∧ s.script = .write a 8 v :: rest := by
  intro a ha
  refine ⟨{ idle 4096 [] with script := [.write a 8 5] }, [], 5, rfl, ?_, ?_, ?_, rfl⟩ <;> revert a <;> decide

theorem witness_ReadsChangeNoRegister : ∀ a ∈ [0x0000, 0x0008, 0xFFF8],
    (∃ (s : State) (rest : List HostAction), a ≤ 0xFFFF ∧ a % 8 = 0 ∧ s.script = .read a 8 :: rest ∧ s.running = none) ∧
    ∃ (s : State) (rest : List HostAction), a ≤ 0xFFFF ∧ a % 8 = 0 ∧ s.script = .read a 8 :: rest ∧ s.running ≠ none := by
  intro a ha
  refine ⟨⟨{ idle 4096 [] with script := [.read a 8] }, [], ?_, ?_, rfl, rfl⟩,
    { waiting with script := [.read a 8] }, [], ?_, ?_, rfl, waiting_busy⟩ <;> revert a <;> decide

theorem witness_OtherAccessesAreNotAdmitted :
    (∃ (s : State) (a : Nat), s.script = [.read a 8] ∧ 0xFFFF < a) ∧
    (∃ (s : State) (a : Nat), s.script = [.write a 4 0] ∧ a ≤ 0xFFFF) ∧
    ∃ (s : State) (a : Nat), s.script = [.read a 8] ∧ a ≤ 0xFFFF ∧ a % 8 ≠ 0 :=
  ⟨⟨{ idle 4096 [] with script := [.read 0x10000 8] }, _, rfl, by decide⟩,
   ⟨{ idle 4096 [] with script := [.write 0xFFF8 4 0] }, _, rfl, by decide⟩,
   ⟨{ idle 4096 [] with script := [.read 0xFFFF 8] }, _, rfl, by decide, by decide⟩⟩

/-- The bounds of the register layout are met right after reset. -/
theorem witness_RegisterLayout :
    let s := idle 4096 []
    s.regs.pool.root ≤ 511 ∧ s.regs.pool.count ≤ 511 ∧ s.regs.pool.unique ≤ 256 ∧ s.regs.out.bitPos < 8 * s.config.block ∧
    s.regs.code.len ≤ 256 := by decide

/-- Each range of the addresses that read 0, at both its ends. -/
theorem witness_MemoryLayout : ∀ a ∈ [0x0098, 0x00C0, 0x07F8, 0x5800, 0x7FF8, 0xBFE0, 0xFFF8], a % 8 = 0 ∧
    (a = 0x0098 ∨ (0x00C0 ≤ a ∧ a ≤ 0x07FF) ∨ (0x5800 ≤ a ∧ a ≤ 0x7FFF) ∨ (0xBFE0 ≤ a ∧ a ≤ 0xFFFF)) := by decide

theorem witness_ResetValues :
    (∃ (s : State) (rest : List HostAction), s.script = .hardReset :: rest ∧ s.running ≠ none) ∧ ∃ s : State, s.running = none :=
  ⟨⟨{ waiting with script := [.hardReset] }, [], rfl, waiting_busy⟩, idle 4096 [], rfl⟩

theorem witness_OnlyAnAnswerMovesAWaitingCommand :
    (∃ s : State, s.script = []) ∧
    (∃ (s : State) (w : Running) (action : HostAction) (rest : List HostAction) (t : State), s.running = some w ∧
      s.script = action :: rest ∧ (∀ r, action ≠ .answer r) ∧ action ≠ .hardReset ∧ step s = .next t) ∧
    ∃ (s : State) (r : PortReply) (rest : List HostAction), s.running = none ∧ s.script = .answer r :: rest := by
  refine ⟨⟨idle 4096 [], rfl⟩, ?_, { idle 4096 [] with script := [.answer .ok] }, .ok, [], rfl, rfl⟩
  obtain ⟨w, hw⟩ := Option.ne_none_iff_exists'.1 waiting_busy
  exact ⟨{ waiting with script := [.read 0x0008 8] }, w, .read 0x0008 8, [], _, hw, rfl, fun r hr => (by cases hr),
    fun hr => (by cases hr), rfl⟩

/-- The second request of HIST_SCAN waits after the first was answered short of nothing: BLOCK = 1. -/
theorem witness_LateAnswersChangeNothing :
    ∃ (i : Instr) (s t : State) (before after : List PortReply), s.running = none ∧ s.port.src.length < 2 ^ 64 ∧
      s.regs.inp.Wf s.config.block ∧ (∀ x ∈ before, x ≠ .hold) ∧
      exec i { s with port := { s.port with plan := before ++ .hold :: after } } = .next t ∧ t.running ≠ none :=
  ⟨.histScan, idle 1 [0x41], _, [.ok], [], rfl, by decide, wf_empty, by decide, rfl, by decide +kernel⟩

theorem witness_EveryCommandEnds : ∃ s : State,
    s.running = none ∧ s.port.Granting ∧ s.port.src.length < 2 ^ 64 ∧ s.regs.inp.Wf s.config.block :=
  ⟨idle 4096 [0x41], rfl, granting_idle _ _ _, by decide, wf_empty⟩

/-- The commands whose statements ask only that no command waits (NopAndClearErr, HistClearAndHistAdd, NodeReset,
NodeLeafAllocates, NodeJoin): an idle engine. HIST_ADD at its largest count, NODE_LEAF at a full pool, and NODE_JOIN on
each of its refusals, with the success beside them. -/
theorem witness_idle_commands :
    (idle 4096 []).running = none ∧
    (let s := withRegs (idle 4096 []) fun r => { r with hist := r.hist.setIfInBounds 0 0xFFFFFFFFFFFFFFFF }
     (s.regs.histAt 0).toNat = 2 ^ 64 - 1 ∧ (s.regs.histAt 1).toNat ≠ 2 ^ 64 - 1) ∧
    (let p := twoLeafTree
     p.count ≤ 3 ∧ (p.node 1).held ≠ .unowned ∧ (twoLeaves.node 0).held = .unowned ∧ (twoLeaves.node 1).held = .unowned ∧
     (twoLeaves.node 0).freq.toNat + (twoLeaves.node 1).freq.toNat < 2 ^ 64 ∧ twoLeaves.count ≠ 511) := by decide +kernel

/-- A histogram with these counts, after reset. -/
def counted (counts : List (Byte × Word)) : State :=
  withRegs (idle 4096 []) fun r => counts.foldl (fun r c => r.setHist c.1 c.2) r

@[simp] theorem histAt_idle (b : Nat) (src : List Nat) (h) (x : Byte) : (idle b src h).regs.histAt x = 0 := by
  simp [idle, State.resetWith, Regs.reset, Regs.histAt]

theorem witness_HistScanCountsTheInput :
    (∃ s : State, s.running = none ∧ s.regs.inp.bitPos % 8 ≠ 0) ∧
    ∃ s : State, s.running = none ∧ s.port.Granting ∧ s.regs.inp.Wf s.config.block ∧ s.regs.inp.bitPos % 8 = 0 ∧
      (unreadBytes s.regs.inp s.port).length < 2 ^ 64 ∧
      ∀ b, (s.regs.histAt b).toNat + (unreadBytes s.regs.inp s.port).count b < 2 ^ 64 := by
  refine ⟨⟨withRegs (idle 4096 []) fun r => { r with inp := ⟨[0], 7, true⟩ }, rfl, by decide⟩,
    idle 4096 [0x41, 0x42], rfl, granting_idle _ _ _, wf_empty, rfl, by decide, fun b => ?_⟩
  rw [histAt_idle]
  have : (unreadBytes (idle 4096 [0x41, 0x42]).regs.inp (idle 4096 [0x41, 0x42]).port).count b ≤ 2 := List.count_le_length
  simp
  omega

/-- FREQ_OVERFLOW of HIST_SCAN: HIST['A'] = 2^64 - 2 meets "AAB" at its second byte. -/
theorem witness_HistScanCountsTheInput_overflow :
    ∃ (s : State) (pre rest : List Byte) (b : Byte), s.running = none ∧ s.port.Granting ∧ s.port.src.length < 2 ^ 64 ∧
      s.regs.inp.Wf s.config.block ∧ s.regs.inp.bitPos % 8 = 0 ∧ unreadBytes s.regs.inp s.port = pre ++ b :: rest ∧
      pre.length < 2 ^ 64 ∧ (∀ x, (s.regs.histAt x).toNat + pre.count x < 2 ^ 64) ∧
      (s.regs.histAt b).toNat + pre.count b = 2 ^ 64 - 1 := by
  have hist : ∀ x : Byte, ((withRegs (idle 4096 [0x41, 0x41, 0x42]) fun r => r.setHist 0x41 (-2)).regs.histAt x).toNat =
      if 0x41 = x then 2 ^ 64 - 2 else 0 := by
    intro x
    simp only [withRegs, Regs.histAt_setHist, histAt_idle]
    by_cases h : 0x41 = x
    · rw [if_pos h, if_pos h]; rfl
    · rw [if_neg h, if_neg h]; rfl
  refine ⟨withRegs (idle 4096 [0x41, 0x41, 0x42]) fun r => r.setHist 0x41 (-2), [0x41], [0x42], 0x41, rfl,
    ⟨rfl, rfl, Nat.zero_le _⟩, (by decide : 3 < 2 ^ 64), wf_empty, rfl, ?_, (by decide : 1 < 2 ^ 64), fun x => ?_,
    by rw [hist]; rfl⟩
  · simp [unreadBytes, undelivered, withRegs, Regs.setHist, idle, State.resetWith, Regs.reset, InSide.empty, Ports.reset]
  · rw [hist]
    have : [(0x41 : Byte)].count x ≤ 1 := List.count_le_length
    split <;> omega

/-- The other way to overflow, SCAN_COUNT itself: a block still unread and 2^64 - 1 bytes in the source. -/
theorem witness_HistScanCountsTheInput_scanCount :
    ∃ (s : State) (pre rest : List Byte) (b : Byte), s.running = none ∧ s.port.Granting ∧ s.port.src.length < 2 ^ 64 ∧
      s.regs.inp.Wf s.config.block ∧ s.regs.inp.bitPos % 8 = 0 ∧ unreadBytes s.regs.inp s.port = pre ++ b :: rest ∧
      pre.length < 2 ^ 64 ∧ (∀ x, (s.regs.histAt x).toNat + pre.count x < 2 ^ 64) ∧ pre.length = 2 ^ 64 - 1 := by
  have key : ∀ n, n + 1 < 2 ^ 64 →
      ∃ (s : State) (pre rest : List Byte) (b : Byte), s.running = none ∧ s.port.Granting ∧ s.port.src.length < 2 ^ 64 ∧
        s.regs.inp.Wf s.config.block ∧ s.regs.inp.bitPos % 8 = 0 ∧ unreadBytes s.regs.inp s.port = pre ++ b :: rest ∧
        pre.length < 2 ^ 64 ∧ (∀ x, (s.regs.histAt x).toNat + pre.count x < 2 ^ 64) ∧ pre.length = n + 1 := by
    intro n hn
    let src : List Byte := List.replicate n 0x41 ++ [0x42]
    have hsrc : src.length = n + 1 := by simp [src]
    let s := withRegs (idle 1 []) fun r => { r with inp := ⟨[0x41], 0, false⟩ }
    refine ⟨{ s with port := { s.port with src := src } }, 0x41 :: List.replicate n 0x41, [], 0x42, rfl,
      ⟨rfl, rfl, Nat.zero_le _⟩, by simp only [hsrc]; exact hn, ⟨Nat.zero_le _, le_refl 1, fun h => absurd h (lt_irrefl 1)⟩, rfl,
      by simp [unreadBytes, undelivered, s, withRegs, idle, State.resetWith, Ports.reset, src], ?_, fun x => ?_, ?_⟩
    · rw [List.length_cons, List.length_replicate]; exact hn
    · have h0 : (s.regs.histAt x).toNat = 0 := by
        have := histAt_idle 1 [] rfl x
        simp only [s, withRegs, Regs.histAt] at this ⊢
        rw [this]; rfl
      have : (0x41 :: List.replicate n (0x41 : Byte)).count x ≤ n + 1 := by
        have := List.count_le_length (a := x) (l := 0x41 :: List.replicate n (0x41 : Byte))
        rwa [List.length_cons, List.length_replicate] at this
      change (s.regs.histAt x).toNat + _ < _
      omega
    · rw [List.length_cons, List.length_replicate]
  obtain ⟨s, pre, rest, b, h1, h2, h3, h4, h5, h6, h7, h8, h9⟩ := key (2 ^ 64 - 2) (by decide)
  exact ⟨s, pre, rest, b, h1, h2, h3, h4, h5, h6, h7, h8, h9⟩

/-- Counts of two symbols, of one, and the forced symbol's count at its largest. -/
theorem witness_HistForce :
    (let s := counted [(0, 1), (255, 1)]
     s.running = none ∧ 2 ≤ s.regs.present.length) ∧
    (let s := counted [(0, 0xFFFFFFFFFFFFFFFE)]
     s.running = none ∧ s.regs.present.length < 2 ∧ (s.regs.histAt 0).toNat ≠ 2 ^ 64 - 1 ∧
       (s.regs.histAt 255).toNat ≠ 2 ^ 64 - 1) ∧
    (let s := counted [(255, 0xFFFFFFFFFFFFFFFF)]
     s.running = none ∧ s.regs.present.length < 2 ∧ (s.regs.histAt 255).toNat = 2 ^ 64 - 1) := by
  have h1 : ∀ (y : Byte) (v : Word), ¬ 2 ≤ (counted [(y, v)]).regs.present.length := fun y v h => by
    obtain ⟨a, b, hab, ha, hb⟩ := two_le_present.1 h
    simp only [counted, withRegs, List.foldl, Regs.histAt_setHist, histAt_idle] at ha hb
    split at ha <;> split at hb <;> simp_all
  refine ⟨⟨rfl, two_le_present.2 ⟨0, 255, by decide, ?_, ?_⟩⟩, ⟨rfl, by have := h1 0 0xFFFFFFFFFFFFFFFE; omega, ?_, ?_⟩, rfl,
    by have := h1 255 0xFFFFFFFFFFFFFFFF; omega, ?_⟩ <;> simp [counted, withRegs]

/-- The counts before, for each of the four cases, from which HIST_FORCE succeeds. -/
theorem witness_HistForceGivesTwoSymbols :
    ∀ counts ∈ [[], [(0, 1)], [(255, 7)], [(0x41, 1)], [(0, 1), (1, 1)]],
      ∃ s t : State, s = counted counts ∧ s.running = none ∧ exec .histForce s = .next t ∧ t.status.ok = true := by
  intro counts hc
  have hs : (counted counts).running = none := rfl
  have hne : ∀ x, ((counted counts).regs.histAt x).toNat ≠ 2 ^ 64 - 1 := by
    intro x
    fin_cases hc <;> simp only [counted, withRegs, List.foldl, Regs.histAt_setHist, histAt_idle] <;>
      repeat' (first | decide | split)
  have hrun := runs_histForce (cfg := (counted counts).config) (q := (counted counts).port) (hne 0) (hne 255)
  exact ⟨counted counts, _, rfl, hs, next_of_runs hs (Runs.bind hrun
    (runs_getRegs_bind.2 (runs_pure.2 ⟨rfl, rfl, rfl⟩))) rfl, rfl⟩

theorem witness_PqCreate : (idle 4096 []).running = none ∧ 256 < 257 ∧ 256 ≤ 256 := by decide

theorem empty_wf : Pool.reset.Wf := Pool.wf_of_empty (fun k => Pool.reset.node_cleared k) rfl rfl rfl

theorem empty_queueWf (p : Pool) (hn : ∀ k, (p.node k).held ≠ .pq) (hs : p.size = 0) (hh : p.heap = Pool.reset.heap) :
    p.QueueWf := Pool.queueWf_of_empty hn hs fun j => by simp [hh, Pool.reset, heapAt]

theorem twoLeaves_node (k : Nat) (hk : 2 ≤ k) : twoLeaves.node k = Node.free := by
  have h0 : Pool.reset.node k = Node.free := Pool.reset.node_cleared k
  rw [twoLeaves, Pool.node_grown, if_neg (fun h => by have : (1 : Nat) = k := h.1; omega), Pool.node_grown,
    if_neg (fun h => by have : (0 : Nat) = k := h.1; omega), h0]

theorem twoLeaves_wf : twoLeaves.Wf := (empty_wf.grown_leaf (by decide)).grown_leaf (by decide)

theorem twoLeaves_queueWf : twoLeaves.QueueWf := by
  refine empty_queueWf _ (fun k => ?_) rfl rfl
  by_cases hk : 2 ≤ k
  · rw [twoLeaves_node k hk]; decide
  · have : k = 0 ∨ k = 1 := by omega
    rcases this with rfl | rfl <;> decide +kernel

theorem twoLeafTree_wf : twoLeafTree.Wf :=
  (twoLeaves_wf.join (by decide) (by decide) (by decide) (by decide) (by decide +kernel) (by decide +kernel)
    (by decide +kernel)).makeRoot rfl (by decide) (by decide +kernel)

/-- 'A' on the left, 'B' on the right. -/
def twoLeafCodeTree : CodeTree := .node (.leaf 0x41) (.leaf 0x42)

theorem twoLeafTree_holds : twoLeafTree.Holds twoLeafCodeTree twoLeafTree.root :=
  ⟨by decide, by decide +kernel, by decide +kernel, by decide +kernel, ⟨by decide +kernel, by decide +kernel, by decide +kernel⟩,
    by decide +kernel, by decide +kernel, by decide +kernel⟩

theorem witness_PqEnqueueInserts :
    (let s := withRegs (idle 4096 []) fun r => { r with pool := twoLeaves }
     let p := s.regs.pool
     s.running = none ∧ p.count ≤ 2 ∧ 1 < p.count ∧ (p.node 1).held = .unowned ∧ p.size < p.cap ∧ p.cap ≤ 256 ∧
     p.count ≤ 511 ∧ p.QueueWf) ∧
    (let p := twoLeafTree
     1 < p.count ∧ (p.node 1).held ≠ .unowned) ∧
    (let p := { twoLeaves with cap := 0 }
     1 < p.count ∧ (p.node 1).held = .unowned ∧ p.size = p.cap) :=
  ⟨⟨rfl, by decide, by decide, by decide +kernel, by decide, by decide, by decide, twoLeaves_queueWf⟩,
    ⟨by decide, by decide +kernel⟩, by decide, by decide +kernel, rfl⟩

theorem witness_PqDequeueTakesTheMinimum :
    (idle 4096 []).running = none ∧ (idle 4096 []).regs.pool.size = 0 ∧
    (let s := withRegs (idle 4096 []) fun r => { r with pool := twoLeaves.heapInsert 1 }
     s.running = none ∧ 0 < s.regs.pool.size ∧ s.regs.pool.count ≤ 511 ∧ s.regs.pool.QueueWf) :=
  ⟨rfl, rfl, rfl, by decide, by decide, twoLeaves_queueWf.insert (by decide) (by decide) (by decide +kernel) (by decide)⟩

theorem total_counted : (counted [(0x41, 2), (0x42, 2)]).regs.total = 4 := by decide +kernel

theorem witness_BuildTree :
    (idle 4096 []).running = none ∧ (idle 4096 []).regs.present = [] ∧
    (let s := counted [(0x41, 2), (0x42, 2)]
     s.running = none ∧ s.regs.present ≠ [] ∧ s.regs.total < 2 ^ 64) := by
  refine ⟨rfl, List.filter_eq_nil_iff.2 fun b _ => by simp, rfl, fun h => ?_, by rw [total_counted]; decide⟩
  have : (0x41 : Byte) ∈ (counted [(0x41, 2), (0x42, 2)]).regs.present :=
    mem_present.2 (by simp [counted, withRegs])
  rw [h] at this
  exact List.not_mem_nil this

/-- Two counts of 2^63: their sum is the smallest that does not fit. -/
theorem witness_BuildTree_overflow :
    (counted [(0x41, 2 ^ 63), (0x42, 2 ^ 63)]).running = none ∧ 2 ^ 64 ≤ (counted [(0x41, 2 ^ 63), (0x42, 2 ^ 63)]).regs.total :=
  ⟨rfl, by decide +kernel⟩

theorem witness_BuildTreeJoinsTwoMinima : ∃ s t : State, s.running = none ∧ s.regs.total < 2 ^ 64 ∧
    exec .buildTree s = .next t ∧ t.status.ok = true ∧ ∃ i, (t.regs.pool.node i).kind = .internal :=
  ⟨counted [(0x41, 2), (0x42, 2)], _, rfl, by rw [total_counted]; decide, rfl, by decide +kernel, 2, by decide +kernel⟩

theorem witness_SetRoot :
    (idle 4096 []).running = none ∧ NIL = NIL ∧
    (let p := twoLeaves
     2 ≠ NIL ∧ p.count ≤ 2 ∧ 1 < p.count ∧ (p.node 1).held = .unowned) ∧
    (let p := twoLeafTree
     2 ≠ NIL ∧ 2 < p.count ∧ (p.node 2).held ≠ .unowned) :=
  ⟨rfl, rfl, ⟨by decide, by decide, by decide, by decide +kernel⟩, by decide, by decide, by decide +kernel⟩

/-- The engine with the two-leaf tree, the two codes, this output and this input. -/
def working (out : OutSide) (inp : InSide) (src : List Nat) : State :=
  withRegs (idle 4096 src) fun r => { r with pool := twoLeafTree, table := twoCodes, out := out, inp := inp }

theorem granting_working (out : OutSide) (inp : InSide) (src : List Nat) : (working out inp src).port.Granting :=
  granting_idle 4096 src rfl

theorem witness_DumpTreeWritesTheDump :
    (idle 4096 []).regs.pool.root = NIL ∧
    (let s := working ⟨[1], 1⟩ InSide.empty []
     s.running = none ∧ s.regs.pool.root ≠ NIL ∧ s.regs.out.bitPos % 8 ≠ 0) ∧
    ∃ (s : State) (t : CodeTree) (pending : List Bool), s.running = none ∧ s.regs.pool.root ≠ NIL ∧
      s.regs.pool.Holds t s.regs.pool.root ∧ s.port.Granting ∧ s.regs.out = OutSide.of pending ∧
      pending.length < 8 * s.config.block ∧ pending.length % 8 = 0 :=
  ⟨rfl, ⟨rfl, by decide, by decide⟩, working (OutSide.of (List.replicate 8 true)) InSide.empty [], twoLeafCodeTree,
    List.replicate 8 true, rfl, by decide, twoLeafTree_holds, granting_working _ _ _, rfl, by decide, by decide⟩

theorem witness_RebuildTreeInvertsDump : ∃ (s : State) (l r : CodeTree) (rest : List Byte), s.running = none ∧
    s.port.Granting ∧ s.regs.inp.Wf s.config.block ∧ s.regs.inp.bitPos % 8 = 0 ∧ (CodeTree.node l r).leaves ≤ 256 ∧
    unreadBytes s.regs.inp s.port = (CodeTree.node l r).dump s.config ++ rest ∧
    s.regs.hdr.treeSize.toNat = ((CodeTree.node l r).dump s.config).length :=
  ⟨withRegs (idle 4096 [0x4C, 0x41, 0x4C, 0x42, 0x49, 7]) fun r => { r with hdr := { r.hdr with treeSize := 5 } },
    .leaf 0x41, .leaf 0x42, [7], rfl, granting_idle _ _ _, wf_empty, rfl, by decide, by decide, by decide⟩

/-- The trees that stand on the stack fit, by evaluation. -/
theorem fits {ts : List CodeTree} (h1 : forestNodes ts ≤ 511)
    (h2 : (ts.zipIdx.all fun x => Nat.ble (x.2 + x.1.depth) 256) = true) : ForestFits ts :=
  ⟨h1, fun i t h => Nat.le_of_ble_eq_true (List.all_eq_true.1 h2 (t, i) (List.mem_zipIdx_iff_getElem?.2 h))⟩

/-- An engine with this input and this HDR_TREE_SIZE. -/
def dumped (u : List Byte) (size : BitVec 16) : State :=
  let s := withRegs (idle 4096 []) fun r => { r with hdr := { r.hdr with treeSize := size } }
  { s with port := { s.port with src := u } }

/-- The statement's hypotheses for an input that goes wrong after the trees ts. -/
def Refused (u : List Byte) (size : BitVec 16) (ts : List CodeTree) (e : ErrName) (rest : List Byte) : Prop :=
  let s := dumped u size
  s.running = none ∧ s.port.Granting ∧ s.regs.inp.Wf s.config.block ∧ s.regs.inp.bitPos % 8 = 0 ∧ ForestFits ts ∧
  DumpError s.config s.regs.hdr.treeSize.toNat (unreadBytes s.regs.inp s.port) ts e rest

theorem refused {u : List Byte} {size : BitVec 16} {ts : List CodeTree} {e : ErrName} {rest : List Byte} (hf : ForestFits ts)
    (h : DumpError (cfg 4096 rfl) size.toNat u ts e rest) : Refused u size ts e rest :=
  ⟨rfl, ⟨rfl, rfl, Nat.zero_le _⟩, wf_empty, rfl, hf, by
    have : unreadBytes (dumped u size).regs.inp (dumped u size).port = u := unreadBytes_rewound (q := (dumped u size).port)
    rw [this]; exact h⟩

/-- Mid-byte, a size of 0, and each way of going wrong, with the size at the boundary. -/
theorem witness_RebuildTreeRefuses :
    (∃ s : State, s.running = none ∧ s.regs.inp.bitPos % 8 ≠ 0) ∧
    (∃ s : State, s.running = none ∧ s.regs.inp.bitPos % 8 = 0 ∧ s.regs.hdr.treeSize = 0) ∧
    Refused [] 1 [] .treeTruncated [] ∧ Refused [0, 7] 1 [] .treeBadMarker [7] ∧ Refused [0x4C, 7] 1 [] .treeLeafSplit [7] ∧
    Refused [0x4C] 2 [] .treeTruncated [] ∧ Refused [0x49] 1 [] .treeUnderflow [] ∧
    Refused [0x4C, 7, 0x49] 3 [.leaf 7] .treeUnderflow [] ∧ Refused [] 0 [] .treeDepth [] ∧
    Refused [0x4C, 7, 0x4C, 8, 9] 4 [.leaf 7, .leaf 8] .treeDepth [9] ∧ Refused [0x4C, 7] 2 [.leaf 7] .treeDegenerate [] :=
  ⟨⟨withRegs (idle 4096 []) fun r => { r with inp := ⟨[0], 7, true⟩ }, rfl, by decide⟩, ⟨idle 4096 [], rfl, rfl, rfl⟩,
    refused (fits (by decide) (by decide)) (.truncated (by decide) (by decide)),
    refused (fits (by decide) (by decide)) (.badMarker 0 [7] (by decide) (by decide) (by decide) (by decide)),
    refused (fits (by decide) (by decide)) (.leafSplit [7] (by decide) (by decide)),
    refused (fits (by decide) (by decide)) (.truncatedLeaf (by decide) (by decide)),
    refused (fits (by decide) (by decide)) (.underflow [] (by decide) (by decide) (by decide)),
    refused (fits (by decide) (by decide)) (.underflow [] (by decide) (by decide) (by decide)),
    refused (fits (by decide) (by decide)) (.depth [] (by decide) (by decide) (by decide)),
    refused (fits (by decide) (by decide)) (.depth [9] (by decide) (by decide) (by decide)),
    refused (fits (by decide) (by decide)) (.degenerate 7 [] rfl (by decide) (by decide))⟩

/-- A tree of n + 1 leaves whose dump needs a stack of two. -/
def comb : Nat → CodeTree
  | 0 => .leaf 7
  | n + 1 => .node (comb n) (.leaf 7)

theorem leaves_comb (n : Nat) : (comb n).leaves = n + 1 := by
  induction n with
  | zero => rfl
  | succ n ih => rw [comb, CodeTree.leaves, ih]; rfl

theorem depth_comb (n : Nat) : (comb n).depth ≤ 2 := by
  induction n with
  | zero => decide
  | succ n ih => rw [comb, CodeTree.depth]; exact max_le ih (le_refl 2)

theorem forestDump_leaves (c : Config) (n : Nat) : (forestDump c (List.replicate n (.leaf 7))).length = 2 * n := by
  simp [forestDump, CodeTree.dump, Nat.mul_comm]

theorem fits_leaves {n : Nat} (hn : n ≤ 256) : ForestFits (List.replicate n (.leaf 7)) := by
  refine ⟨by simp [forestNodes, CodeTree.leaves]; omega, fun i t h => ?_⟩
  obtain ⟨hi, rfl⟩ : i < n ∧ .leaf 7 = t := by rw [List.getElem?_replicate] at h; split at h <;> simp_all
  simp only [CodeTree.depth]; omega

/-- TREE_OVERFLOW: the 257th leaf on the stack. -/
theorem witness_RebuildTreeRefuses_stack :
    Refused (forestDump (cfg 4096 rfl) (List.replicate 256 (.leaf 7)) ++ [0x4C, 7]) 514 (List.replicate 256 (.leaf 7))
      .treeOverflow [] :=
  refused (fits_leaves le_rfl) (.leafOverflow 7 [] (by rw [forestDump_leaves]; decide) rfl (.inl List.length_replicate))

/-- TREE_OVERFLOW: a leaf in a full node pool. -/
theorem witness_RebuildTreeRefuses_leaf :
    Refused (forestDump (cfg 4096 rfl) [comb 255] ++ [0x4C, 7]) 769 [comb 255] .treeOverflow [] := by
  have hn : forestNodes [comb 255] = 511 := by simp [forestNodes, leaves_comb]
  refine refused ⟨hn.le, fun i t h => ?_⟩ (.leafOverflow 7 [] ?_ rfl (.inr hn))
  · obtain ⟨rfl, rfl⟩ : i = 0 ∧ comb 255 = t := by cases i <;> simp_all
    have := depth_comb 255; omega
  · simp [forestDump, CodeTree.length_dump, leaves_comb]

/-- TREE_OVERFLOW: an internal node in a full node pool. -/
theorem witness_RebuildTreeRefuses_internal :
    Refused (forestDump (cfg 4096 rfl) [comb 254, .leaf 7, .leaf 7] ++ [0x49]) 769 [comb 254, .leaf 7, .leaf 7] .treeOverflow
      [] := by
  have hn : forestNodes [comb 254, .leaf 7, .leaf 7] = 511 := by simp [forestNodes, leaves_comb, CodeTree.leaves]
  refine refused ⟨hn.le, fun i t h => ?_⟩ (.internalOverflow [] ?_ rfl (Nat.le_add_left 2 1) hn)
  · have := depth_comb 254
    rcases i with _ | _ | _ | i <;> simp at h <;> subst h <;> first | omega | decide
  · simp [forestDump, CodeTree.length_dump, leaves_comb, CodeTree.leaves]

theorem witness_CodeRegister :
    (idle 4096 []).running = none ∧ (idle 4096 []).regs.code.len = 0 ∧
    (let s := withRegs (idle 4096 []) fun r => { r with code := ⟨256, 0⟩ }
     s.running = none ∧ s.regs.code.len = 256) ∧
    (let s := withRegs (idle 4096 []) fun r => { r with code := ⟨255, 0⟩ }
     s.running = none ∧ s.regs.code.len ≠ 256 ∧ s.regs.code.len ≠ 0) := by decide

theorem witness_BuildCodesRecordsThePaths :
    (idle 4096 []).regs.pool.root = NIL ∧
    (let p := twoLeaves.makeRoot 0
     p.root ≠ NIL ∧ (p.node p.root).kind = .leaf) ∧
    ∃ (s : State) (l r : CodeTree), s.running = none ∧ s.regs.pool.root ≠ NIL ∧ s.regs.pool.Wf ∧
      s.regs.pool.Holds (.node l r) s.regs.pool.root :=
  ⟨rfl, ⟨by decide, by decide +kernel⟩, working OutSide.empty InSide.empty [], _, _, rfl, by decide, twoLeafTree_wf,
    twoLeafTree_holds⟩

theorem witness_CodesArePrefixFree : ∃ (s t : State) (l r : CodeTree), s.running = none ∧ s.regs.pool.root ≠ NIL ∧
    s.regs.pool.Wf ∧ s.regs.pool.Holds (.node l r) s.regs.pool.root ∧ (CodeTree.node l r).symbols.Nodup ∧
    exec .buildCodes s = .next t ∧ t.status.ok = true :=
  ⟨working OutSide.empty InSide.empty [], _, _, _, rfl, by decide, twoLeafTree_wf, twoLeafTree_holds, by decide, rfl,
    by decide +kernel⟩

/-- Mid-byte and aligned output; nothing pending, and all of a block of 16 but one byte. -/
theorem witness_HdrWriteLayout :
    (working ⟨[1], 1⟩ InSide.empty []).regs.out.bitPos % 8 ≠ 0 ∧
    ∀ n ∈ [0, 8 * 15], ∃ (s : State) (pending : List Bool), pending.length = n ∧ s.running = none ∧ s.port.Granting ∧
      s.regs.out = OutSide.of pending ∧ pending.length < 8 * s.config.block ∧ pending.length % 8 = 0 := by
  refine ⟨by decide, fun n hn => ⟨withRegs (idle 16 []) fun r => { r with out := OutSide.of (List.replicate n true) },
    List.replicate n true, List.length_replicate, rfl, granting_idle 16 [] rfl, rfl, ?_, ?_⟩⟩ <;>
  · rw [List.length_replicate]; revert n; decide

theorem witness_HdrReadLoads :
    (working OutSide.empty ⟨[0], 7, true⟩ []).regs.inp.bitPos % 8 ≠ 0 ∧
    (∃ s : State, s.running = none ∧ s.port.Granting ∧ s.regs.inp.Wf s.config.block ∧ s.regs.inp.bitPos % 8 = 0 ∧
      (unreadBytes s.regs.inp s.port).length = 13) ∧
    ∀ magic ∈ [0x1234#16, 0x1235#16], ∃ (s : State) (perm treeSize : BitVec 16) (fileSize : Word) (rest : List Byte),
      s.running = none ∧ s.port.Granting ∧ s.regs.inp.Wf s.config.block ∧ s.regs.inp.bitPos % 8 = 0 ∧
      unreadBytes s.regs.inp s.port =
        [magic.extractLsb' 0 8, magic.extractLsb' 8 8, perm.extractLsb' 0 8, perm.extractLsb' 8 8,
         treeSize.extractLsb' 0 8, treeSize.extractLsb' 8 8] ++
        ((List.range 8).map fun k => fileSize.extractLsb' (8 * k) 8) ++ rest := by
  refine ⟨by decide, ⟨idle 4096 (ababStream.take 13), rfl, granting_idle _ _ _, wf_empty, rfl, by decide⟩, fun m hm => ?_⟩
  refine ⟨idle 4096 ([m.toNat % 256, 0x12, 0xA4, 1, 5, 0, 4, 0, 0, 0, 0, 0, 0, 0, 9]), 0x01A4, 5, 4, [9], rfl, granting_idle _ _ _,
    wf_empty, rfl, ?_⟩
  simp only [List.mem_cons, List.not_mem_nil, or_false] at hm
  rcases hm with rfl | rfl <;> decide +kernel

/-- Aligned and mid-byte output, the last bit and the last byte of a block among them; BLOCK = 16. -/
theorem witness_BitWriteAndByteWrite :
    ∀ n ∈ [0, 1, 8 * 15, 8 * 16 - 1], ∃ (s : State) (pending : List Bool), pending.length = n ∧ s.running = none ∧
      s.port.Granting ∧ s.regs.out = OutSide.of pending ∧ pending.length < 8 * s.config.block := by
  refine fun n hn => ⟨withRegs (idle 16 []) fun r => { r with out := OutSide.of (List.replicate n true) },
    List.replicate n true, List.length_replicate, rfl, granting_idle 16 [] rfl, rfl, ?_⟩
  rw [List.length_replicate]; revert n; decide

theorem witness_CodeWrite :
    (let s := working (OutSide.of [true]) InSide.empty []
     s.running = none ∧ (s.regs.entry 0x43).valid = false ∧ (s.regs.entry 0x42).valid = true ∧ s.regs.out = OutSide.of [true] ∧
     [true].length < 8 * s.config.block) ∧ (working (OutSide.of [true]) InSide.empty []).port.Granting :=
  ⟨⟨rfl, by decide +kernel, by decide +kernel, rfl, by decide⟩, granting_working _ _ _⟩

theorem witness_FlushWritesThePending :
    (idle 4096 []).running = none ∧ (idle 4096 []).regs.out = OutSide.of [] ∧
    (let s := working (OutSide.of [true]) InSide.empty []
     s.running = none ∧ s.regs.out = OutSide.of [true]) ∧ (working (OutSide.of [true]) InSide.empty []).port.Granting :=
  ⟨rfl, rfl, ⟨rfl, rfl⟩, granting_working _ _ _⟩

/-- BIT_READ and BYTE_READ: an unread bit or byte, the last one; the end; a block to read, empty or not. -/
theorem witness_BitRead_ByteRead :
    (∀ pos ∈ [0, 7, 8], (working OutSide.empty ⟨[0x0A, 0x0B], pos, true⟩ []).regs.inp.bitPos < 8 * 2) ∧
    (let s := working OutSide.empty ⟨[0x0A], 8, true⟩ []
     s.running = none ∧ 8 * s.regs.inp.buf.length ≤ s.regs.inp.bitPos ∧ s.regs.inp.eof = true) ∧
    (∀ src ∈ [[], [0x0A]], ∃ s : State, s.port.src = src.map (BitVec.ofNat 8) ∧ s.running = none ∧
      8 * s.regs.inp.buf.length ≤ s.regs.inp.bitPos ∧ s.regs.inp.eof = false ∧ s.port.Granting ∧ s.regs.inp.bitPos % 8 = 0) ∧
    (working OutSide.empty ⟨[0x0A], 7, true⟩ []).regs.inp.bitPos % 8 ≠ 0 :=
  ⟨by decide, by decide, fun src _ => ⟨idle 4096 src, rfl, rfl, Nat.zero_le _, rfl, granting_idle _ _ _, rfl⟩, by decide⟩

theorem witness_SrcRewind : ∃ s : State, s.running = none ∧ s.port.Granting := ⟨idle 4096 [0x41], rfl, granting_idle _ _ _⟩

theorem witness_EncodePayload :
    (∃ (s : State) (pending : List Bool), s.running = none ∧ s.port.Granting ∧ s.regs.inp.Wf s.config.block ∧
      s.regs.out = OutSide.of pending ∧ pending.length < 8 * s.config.block ∧
      (unreadBytes s.regs.inp s.port).length < 2 ^ 64 ∧ s.regs.inp.bitPos % 8 ≠ 0) ∧
    ∀ x ∈ [[], [0x41], [0x43]], ∃ (s : State) (pending : List Bool), s.running = none ∧ s.port.Granting ∧
      s.regs.inp.Wf s.config.block ∧ s.regs.out = OutSide.of pending ∧ pending.length < 8 * s.config.block ∧
      (unreadBytes s.regs.inp s.port).length < 2 ^ 64 ∧ s.regs.inp.bitPos % 8 = 0 ∧
      (unreadBytes s.regs.inp s.port).all (fun b => (s.regs.entry b).valid) = !x.contains 0x43 := by
  refine ⟨⟨working (OutSide.of [true]) ⟨[0x41], 7, true⟩ [], [true], rfl, granting_working _ _ _, ⟨by decide, by decide, fun _ => .inr rfl⟩,
    rfl, by decide, by decide, by decide⟩, fun x hx => ?_⟩
  refine ⟨working (OutSide.of [true]) InSide.empty x, [true], rfl, granting_working _ _ _, wf_empty, rfl, (by decide : 1 < 8 * 4096), ?_, rfl, ?_⟩ <;>
  · revert x
    decide +kernel

theorem witness_DecodePayload :
    (idle 4096 []).regs.pool.root = NIL ∧
    (let s := withRegs (idle 4096 []) fun r => { r with pool := twoLeaves.makeRoot 0, hdr := { r.hdr with fileSize := 1 } }
     s.running = none ∧ s.regs.pool.root ≠ NIL ∧ (s.regs.pool.node s.regs.pool.root).kind = .leaf ∧ s.regs.hdr.fileSize ≠ 0) ∧
    (let s := working ⟨[1], 1⟩ InSide.empty []
     s.running = none ∧ s.regs.pool.root ≠ NIL ∧ (s.regs.pool.node s.regs.pool.root).kind ≠ .leaf ∧
     s.regs.out.bitPos % 8 ≠ 0) ∧
    ∀ n ∈ [0, 4, 9],
      ∃ (s : State) (tree : CodeTree) (pending : List Bool) (leaves : List (Byte × List Bool)) (rest : List Bool),
        s.running = none ∧ s.regs.pool.root ≠ NIL ∧ s.regs.pool.Holds tree s.regs.pool.root ∧ s.port.Granting ∧
        s.port.src.length < 2 ^ 64 ∧ s.regs.inp.Wf s.config.block ∧ s.regs.out = OutSide.of pending ∧
        pending.length < 8 * s.config.block ∧ pending.length % 8 = 0 ∧ (∀ e ∈ leaves, e ∈ tree.codes) ∧
        unreadBits s.regs.inp s.port = leaves.flatMap (·.2) ++ rest ∧ s.regs.hdr.fileSize.toNat = n ∧
        (∃ l r, tree = .node l r) ∧
        if n = 9 then leaves.length < n ∧ ∃ e ∈ tree.codes, rest <+: e.2 ∧ rest ≠ e.2 else leaves.length = n := by
  refine ⟨rfl, ⟨rfl, by decide, by decide +kernel, by decide⟩, ⟨rfl, by decide, by decide +kernel, by decide⟩, fun n hn => ?_⟩
  let all : List (Byte × List Bool) := [(0x41, [false]), (0x42, [true]), (0x41, [false]), (0x42, [true]), (0x41, [false]),
    (0x41, [false]), (0x41, [false]), (0x41, [false])]
  refine ⟨withRegs (working (OutSide.of []) InSide.empty [0x0A]) fun r =>
      { r with hdr := { r.hdr with fileSize := BitVec.ofNat 64 n } }, twoLeafCodeTree, [], all.take n,
    (all.drop n).flatMap (·.2), rfl, (by decide +kernel : twoLeafTree.root ≠ NIL), twoLeafTree_holds,
    ⟨rfl, rfl, Nat.zero_le _⟩,
    (by decide : 1 < 2 ^ 64), wf_empty, rfl, (by decide +kernel : 0 < 8 * 4096), rfl, ?_, ?_, ?_, ⟨_, _, rfl⟩, ?_⟩ <;>
  · simp only [List.mem_cons, List.not_mem_nil, or_false] at hn
    rcases hn with rfl | rfl | rfl <;> decide +kernel

/-- MISALIGNED with a leaf root and HDR_FILE_SIZE = 0. -/
theorem witness_DecodePayload_leaf : ∃ s : State, s.running = none ∧ s.regs.pool.root ≠ NIL ∧
    (s.regs.pool.node s.regs.pool.root).kind = .leaf ∧ s.regs.hdr.fileSize = 0 ∧ s.regs.out.bitPos % 8 ≠ 0 :=
  ⟨withRegs (idle 4096 []) fun r => { r with pool := twoLeaves.makeRoot 0, out := ⟨[1], 1⟩ }, rfl, by decide, by decide +kernel,
    rfl, by decide⟩

theorem witness_EncodeWritesTheStream : ∀ src ∈ [[], [0x41, 0x42]], ∃ (s : State) (pending : List Bool),
    s.port.src = src.map (BitVec.ofNat 8) ∧ s.running = none ∧ s.port.Granting ∧ s.port.src.length + 2 < 2 ^ 64 ∧
    s.regs.out = OutSide.of pending ∧ pending.length < 8 * s.config.block ∧ pending.length % 8 = 0 := by
  refine fun src hs => ⟨working (OutSide.of (List.replicate 8 true)) InSide.empty src, List.replicate 8 true, rfl, rfl,
    granting_working _ _ _, ?_, rfl, (by decide : 8 < 8 * 4096), by decide⟩
  revert src
  decide

theorem witness_EncodeWritesTheStream_misaligned : ∃ s : State, s.running = none ∧ s.regs.out.bitPos % 8 ≠ 0 :=
  ⟨working ⟨[1], 1⟩ InSide.empty [], rfl, by decide⟩

/-- Second streams of the same length and of another, for the source "AB". -/
theorem witness_EncodeWritesTheStream_changed : ∃ s : State, s.running = none ∧ s.port.Granting ∧
    s.port.src.length + 2 < 2 ^ 64 ∧ s.regs.out = OutSide.of [] ∧
    ∀ second ∈ [[0x42, 0x42], [0x41, 0x43], [0x41]], (second.map (BitVec.ofNat 8) : List Byte).length < 2 ^ 64 :=
  ⟨idle 4096 [0x41, 0x42], rfl, granting_idle _ _ _, by decide, rfl, by decide⟩

theorem witness_DecodeReadsTheStream : ∃ (s : State) (pending : List Bool) (l r : CodeTree) (perm : BitVec 16)
    (leaves : List (Byte × List Bool)) (rest : List Byte), s.running = none ∧ s.port.Granting ∧ s.port.src.length < 2 ^ 64 ∧
    s.regs.out = OutSide.of pending ∧ pending.length < 8 * s.config.block ∧ pending.length % 8 = 0 ∧
    (CodeTree.node l r).leaves ≤ 256 ∧ (∀ e ∈ leaves, e ∈ (CodeTree.node l r).codes) ∧ leaves.length < 2 ^ 64 ∧
    s.port.src = headerBytes s.config.magic perm (BitVec.ofNat 16 (3 * (CodeTree.node l r).leaves - 1))
      (BitVec.ofNat 64 leaves.length) ++ (CodeTree.node l r).dump s.config ++ packBits (leaves.flatMap (·.2)) ++ rest :=
  ⟨idle 4096 (ababStream ++ [7]), [], .leaf 0x41, .leaf 0x42, 0x01A4,
    [(0x41, [false]), (0x42, [true]), (0x41, [false]), (0x42, [true])], [7], rfl, granting_idle _ _ _, by decide, rfl, by decide,
    by decide, by decide, by decide, by decide, by decide +kernel⟩

/-- The hypotheses that every error of DECODE but MISALIGNED shares, for an engine with this source. -/
theorem decodable (src : List Nat) (hlen : src.length < 2 ^ 64) : ∃ (s : State) (pending : List Bool), s.running = none ∧
    s.config = cfg 4096 rfl ∧ s.port.Granting ∧ s.port.src = src.map (BitVec.ofNat 8) ∧ s.port.src.length < 2 ^ 64 ∧
    s.regs.out = OutSide.of pending ∧ pending.length < 8 * s.config.block ∧ pending.length % 8 = 0 :=
  ⟨idle 4096 src, [], rfl, rfl, granting_idle _ _ _, rfl, by simpa [idle] using hlen, rfl, (by decide : 0 < 8 * 4096), rfl⟩

/-- DECODE's errors: mid-byte output; a stream of 13 bytes; another magic; a dump that ends after its first leaf marker; and
R202's stream with HDR_FILE_SIZE 9, whose payload of eight paths ends before the ninth. -/
theorem witness_DecodeReadsTheStream_errors :
    (working ⟨[1], 1⟩ InSide.empty []).regs.out.bitPos % 8 ≠ 0 ∧ (ababStream.take 13).length < 14 ∧
    (let hdr : HeaderRegs := ⟨0x1235, 0x01A4, 5, 4⟩
     headerBytes hdr.magic hdr.perm hdr.treeSize hdr.fileSize = (0x35 :: (ababStream.take 14).tail).map (BitVec.ofNat 8) ∧
     hdr.magic ≠ (cfg 4096 rfl).magic) ∧
    (let hdr : HeaderRegs := ⟨0x1234, 0x01A4, 5, 4⟩
     headerBytes hdr.magic hdr.perm hdr.treeSize hdr.fileSize ++ [0x4C] = (ababStream.take 15).map (BitVec.ofNat 8) ∧
     hdr.magic = (cfg 4096 rfl).magic ∧ ForestFits [] ∧
     DumpError (cfg 4096 rfl) hdr.treeSize.toNat [0x4C] [] .treeTruncated []) ∧
    (let hdr : HeaderRegs := ⟨0x1234, 0x01A4, 5, 9⟩
     let paths : List (Byte × List Bool) := [(0x41, [false]), (0x42, [true]), (0x41, [false]), (0x42, [true]), (0x41, [false]),
       (0x41, [false]), (0x41, [false]), (0x41, [false])]
     hdr.magic = (cfg 4096 rfl).magic ∧ twoLeafCodeTree.leaves ≤ 256 ∧ hdr.treeSize.toNat = 3 * twoLeafCodeTree.leaves - 1 ∧
     twoLeafCodeTree.dump (cfg 4096 rfl) = [0x4C, 0x41, 0x4C, 0x42, 0x49] ∧ bitsOf [0x0A] = paths.flatMap (·.2) ++ [] ∧
     (∀ e ∈ paths, e ∈ twoLeafCodeTree.codes) ∧ paths.length < hdr.fileSize.toNat ∧ (0x41, [false]) ∈ twoLeafCodeTree.codes ∧
     [] <+: [false] ∧ [] ≠ [false]) :=
  ⟨by decide, by decide, ⟨by decide, by decide⟩,
    ⟨by decide, rfl, fits (by decide) (by decide), .truncatedLeaf (by decide) (by decide)⟩,
    rfl, by decide, by decide, by decide, by decide, by decide, by decide, by decide, List.nil_prefix, by decide⟩

/-- The first engine's source and the second's stream of R202's example. -/
theorem witness_RoundTrip : ∃ (s u : State) (source : List Byte), s.running = none ∧ s.regs.out.bitPos = 0 ∧
    s.regs.out.buf = [] ∧ s.port.Granting ∧ s.port.src = source ∧ source.length + 2 < 2 ^ 64 ∧ u.config = s.config ∧
    u.running = none ∧ u.regs.out.bitPos = 0 ∧ u.regs.out.buf = [] ∧ u.port.Granting ∧ u.port.src.length < 2 ^ 64 ∧
    ∃ t, exec .encode s = .next t ∧ t.port.snk = s.port.snk ++ u.port.src :=
  ⟨withRegs (idle 4096 [0x41, 0x42, 0x41, 0x42]) fun r => { r with hdr := { r.hdr with perm := 0x01A4 } }, idle 4096 ababStream, _,
    rfl, rfl, rfl, granting_idle _ _ _, rfl, by decide, rfl, rfl, rfl, rfl, granting_idle _ _ _, by decide, _, rfl,
    by decide +kernel⟩

/-- A command that succeeds, and one that raises an error. -/
theorem witness_ErrorsAreRecorded : ∀ i ∈ [Instr.nop, .codeWrite 0x43], ∃ s t : State,
    s.running = none ∧ i ≠ .softReset ∧ i ≠ .clearErr ∧ exec i s = .next t ∧ t.running = none := by
  intro i hi
  fin_cases hi
  · exact ⟨idle 4096 [], _, rfl, by decide, by decide, rfl, rfl⟩
  · exact ⟨idle 4096 [], _, rfl, by decide, by decide, rfl, by decide +kernel⟩

/-- By success, and by an error at the very start (MISALIGNED). -/
theorem witness_DriversRelease :
    (∃ s t : State, s.running = none ∧ exec .encode s = .next t ∧ t.running = none) ∧
    ∃ s t : State, s.running = none ∧ exec .decode s = .next t ∧ t.running = none ∧ t.status.err = true :=
  have ⟨_, _, _, _, _, hrun⟩ := runs_encodeStream (cfg := (idle 4096 []).config) (r := (idle 4096 []).regs) (pending := [])
    (granting_idle 4096 [] rfl) (by decide) rfl (by decide) rfl
  ⟨⟨idle 4096 [], _, rfl, next_of_runs rfl hrun rfl, rfl⟩, working ⟨[1], 1⟩ InSide.empty [], _, rfl, rfl, by decide +kernel,
    by decide +kernel⟩

theorem witness_PortFailuresAreErrors : ∃ (s : State) (plan : List PortReply), s.running = none ∧
    s.port.plan = .fail :: plan ∧ 8 * s.regs.inp.buf.length ≤ s.regs.inp.bitPos ∧ s.regs.inp.eof = false ∧
    s.regs.inp.bitPos % 8 = 0 ∧ 0 < s.regs.out.bitPos ∧ s.regs.out.bitPos + 1 = 8 * s.config.block :=
  ⟨{ withRegs (idle 1 []) (fun r => { r with out := ⟨[1], 7⟩ }) with port := ⟨[], 0, [], [.fail], .ok⟩ }, [], rfl, rfl, by decide,
    rfl, rfl, by decide, rfl⟩

/-- BYTE_WRITE that fills a block needs BLOCK = 1 and nothing pending, or all of a longer block but one byte. -/
theorem witness_PortFailuresAreErrors_byte : ∃ s : State, s.running = none ∧ s.port.plan = [.fail] ∧
    s.regs.out.bitPos % 8 = 0 ∧ s.regs.out.bitPos + 8 = 8 * s.config.block :=
  ⟨{ idle 1 [] with port := ⟨[], 0, [], [.fail], .ok⟩ }, rfl, rfl, rfl, rfl⟩

/-- HIST_SCAN at its second SrcRead, DUMP_TREE at its SnkWrite, and DECODE at its first SrcRead, with FAIL in place of no
answer. -/
theorem witness_PortFailuresAreErrors_waiting :
    ∀ x ∈ [(Instr.histScan, 1), (.dumpTree, 0), (.decode, 1)], ∃ (s t : State) (before after : List PortReply),
      s.running = none ∧ s.port.src.length < 2 ^ 64 ∧ s.regs.inp.Wf s.config.block ∧ s.regs.out.Wf s.config.block ∧
      (∀ y ∈ before, y ≠ .hold) ∧ before.length = x.2 ∧
      exec x.1 { s with port := { s.port with plan := before ++ .hold :: after, later := s.port.later } } = .next t ∧
      t.running ≠ none := by
  have hb : ∀ n, ∀ y ∈ List.replicate n PortReply.ok, y ≠ .hold := fun n y hy => by
    rw [List.eq_of_mem_replicate hy]; decide
  have ho : ∃ bits, OutSide.empty = OutSide.of bits ∧ bits.length < 8 * 1 := ⟨[], rfl, by decide⟩
  intro x hx
  simp only [List.mem_cons, List.not_mem_nil, or_false] at hx
  rcases hx with rfl | rfl | rfl <;>
  exact ⟨withRegs (idle 1 [0x41]) fun r => { r with pool := twoLeafTree }, _, List.replicate _ .ok, [], rfl,
    (by decide : 1 < 2 ^ 64), wf_empty, ho, hb _, List.length_replicate, rfl, by decide +kernel⟩

theorem witness_WhoWritesWhat : ∃ (i : Instr) (s t : State), s.running = none ∧ i ≠ .softReset ∧ exec i s = .next t :=
  ⟨.nop, idle 4096 [], _, rfl, by decide, rfl⟩

theorem witness_SinkOnlyGrows : ∃ (i : Instr) (s t : State), exec i s = .next t := ⟨.encode, idle 4096 [], _, rfl⟩

theorem witness_ParametersAreConstant : ∃ s t : State, step s = .next t := ⟨idle 4096 [], _, rfl⟩

/-- A state of a run, after two NODE_LEAFs, meets the invariant and steps. -/
theorem witness_EveryStepKeepsTheInvariant : ∃ s t : State, s.Inv ∧ step s = .next t := by
  refine ⟨{ withRegs (idle 4096 []) (fun r => { r with pool := twoLeaves }) with script := cmd 0x20022 }, _, ?_, rfl⟩
  constructor
  · intro w hw; cases hw
  · constructor <;> simp [State.startRegs, withRegs, idle, State.resetWith, Regs.reset, Code.empty, Regs.entry, CodeEntry.invalid]
    · decide
    · decide
    · decide
    · exact ⟨[], rfl, by decide⟩
    · exact wf_empty
  · constructor <;> simp [withRegs, idle, State.resetWith, Status.reset, kindOfCode]
  · exact twoLeaves_wf
  · exact twoLeaves_queueWf

end Sys2Proof.Tests
end

section
/-! The state's family (10_state.md): one step as the host's next action, what every step keeps, the reset state, the
register window as reads and writes see it, and which command writes what. -/

namespace Sys2Proof.Machine

/-! ### One step -/

theorem step_of_cons {s : State} {action : HostAction} {rest : List HostAction} (h : s.script = action :: rest) :
    step s = State.hostAction action { s with script := rest } := by
  unfold step; rw [h]

/-- A next state of a step is the same state, or what an action of the host makes of the state. -/
theorem step_next {s t : State} (h : step s = .next t) :
    t = s ∨ ∃ action rest, State.hostAction action { s with script := rest } = .next t := by
  unfold step at h
  split at h
  · cases h; exact .inl rfl
  · exact .inr ⟨_, _, h⟩

/-- Only an access that is admitted has a next state (R61, R62). -/
theorem next_of_admitted {a w : Nat} {o : Host.Outcome State Fault Refusal} {t : State} (h : admitted a w o = .next t) :
    o = .next t := by
  unfold admitted at h
  split at h
  · cases h
  · split at h
    · cases h
    · exact h

theorem admitted_word {a : Nat} (o : Host.Outcome State Fault Refusal) (ha : a ≤ 0xFFFF) (h8 : a % 8 = 0) :
    admitted a 8 o = o := by
  simp [admitted, Nat.not_lt.2 ha, h8]

/-! ### The invariant -/

/-- Settles O56: a step is an action of the host on the state with the rest of the script, and every action keeps the
invariant (`inv_hostAction`), which does not look at the script. -/
theorem everyStepKeepsTheInvariant : Obligations.EveryStepKeepsTheInvariant := by
  intro s t hs h
  obtain rfl | ⟨action, rest, h⟩ := step_next h
  · exact hs
  · exact inv_hostAction h (hs.congr rfl rfl rfl hs.status)

theorem inv_resetWith (c : Config) : (State.resetWith c).Inv :=
  State.inv_iff.2 ⟨Regs.ok_reset c, Status.wf_reset, fun _ hw => by cases hw⟩

/-- Settles O57. -/
theorem invariantAfterReset : Obligations.InvariantAfterReset :=
  ⟨inv_resetWith Config.hardware, inv_resetWith⟩

/-! ### Reset -/

theorem Regs.atReset_reset : Regs.reset.AtReset where
  arg := rfl
  result := rfl
  root := rfl
  count := rfl
  unique := rfl
  nodes := fun i => by simp [Pool.node, Regs.reset, Pool.reset]
  heap := fun j _ => heapAt_replicate j
  size := rfl
  cap := rfl
  header := ⟨rfl, rfl, rfl, rfl⟩
  counters := ⟨rfl, rfl, rfl⟩
  hist := fun s => by simp [Regs.histAt, Regs.reset]
  table := fun s => by simp [Regs.entry, Regs.reset, CodeEntry.invalid]
  code := ⟨rfl, rfl⟩
  out := rfl
  inp := ⟨rfl, rfl, rfl⟩
  stack := rfl

theorem step_hardReset {s : State} {rest : List HostAction} (h : s.script = .hardReset :: rest) :
    step s = .next { s with script := rest, running := none, regs := Regs.reset, status := Status.reset } := by
  rw [step_of_cons h]; rfl

theorem exec_softReset {s : State} (h : s.running = none) :
    exec .softReset s =
      .next { s with regs := Regs.reset, status := { Status.reset with ok := true, lastOp := 0x01 } } := by
  rw [h]; rfl

/-- Settles O15: both resets leave the registers of `Regs.reset`, which are at R54's values. -/
theorem resetValues : Obligations.ResetValues := fun _ =>
  ⟨fun _ h => ⟨Regs.reset, Regs.atReset_reset, step_hardReset h⟩,
    fun h => ⟨Regs.reset, Regs.atReset_reset, exec_softReset h⟩,
    Regs.atReset_reset, rfl, rfl⟩

/-! ### What a host write stores -/

section WriteWindow

variable (r : Regs) (v : Word) {a : Nat}

theorem Regs.writeWindow_arg : r.writeWindow 0x0010 v = { r with arg := v } := rfl

theorem Regs.writeWindow_perm : r.writeWindow 0x0048 v = { r with hdr := { r.hdr with perm := v.setWidth 16 } } := rfl

theorem Regs.writeWindow_treeSize :
    r.writeWindow 0x0050 v = { r with hdr := { r.hdr with treeSize := v.setWidth 16 } } := rfl

theorem Regs.writeWindow_fileSize : r.writeWindow 0x0058 v = { r with hdr := { r.hdr with fileSize := v } } := rfl

theorem Regs.writeWindow_hist (h1 : 0x0800 ≤ a) (h2 : a < 0x1000) :
    r.writeWindow a v = { r with hist := r.hist.setIfInBounds ((a - 0x0800) / 8) v } := by
  unfold Regs.writeWindow
  split
  case h_5 => rw [if_pos ⟨h1, h2⟩]
  all_goals omega

/-- Every other address is read-only or reserved: a write to it is ignored (R63). -/
theorem Regs.writeWindow_other (h1 : a ≠ 0x0010) (h2 : a ≠ 0x0048) (h3 : a ≠ 0x0050) (h4 : a ≠ 0x0058)
    (h5 : ¬ (0x0800 ≤ a ∧ a < 0x1000)) : r.writeWindow a v = r := by
  unfold Regs.writeWindow
  split
  case h_5 => rw [if_neg h5]
  all_goals contradiction

end WriteWindow

theorem step_write_register {s : State} {rest : List HostAction} {a : Nat} {v : Word} (hs : s.running = none)
    (ha : a ≤ 0xFFFF) (h8 : a % 8 = 0) (h0 : a ≠ 0x0000) (h : s.script = .write a 8 v :: rest) :
    step s = .next { s with script := rest, regs := s.regs.writeWindow a v } := by
  rw [step_of_cons h, State.hostAction, admitted_word _ ha h8, State.hostWrite, if_neg (by simp [State.busy, hs]),
    if_neg h0]

/-- Settles O9: the write reaches `Regs.writeWindow`, which says what each address stores. -/
theorem hostWritesStore : Obligations.HostWritesStore := by
  intro s rest a v hs ha h8 h0 h
  rw [step_write_register hs ha h8 h0 h]
  have low : v.extractLsb' 0 16 = v.setWidth 16 := (BitVec.setWidth_eq_extractLsb' (by decide)).symm
  rw [low]
  split_ifs with h1 h2 h3 h4 h5
  · rw [h1, Regs.writeWindow_arg]
  · rw [h2, Regs.writeWindow_perm]
  · rw [h3, Regs.writeWindow_treeSize]
  · rw [h4, Regs.writeWindow_fileSize]
  · rw [Regs.writeWindow_hist _ _ h5.1 (by omega)]
  · rw [Regs.writeWindow_other _ _ h1 h2 h3 h4 (by omega)]

/-! ### What a host read returns: the registers -/

/-- A number that its register is wide enough for reads as it is. -/
theorem toNat_ofNat_mod {n m : Nat} (hn : n < m) (hm : m ≤ 2 ^ 64) : (BitVec.ofNat 64 (n % m)).toNat = n := by
  rw [Nat.mod_eq_of_lt hn, BitVec.toNat_ofNat, Nat.mod_eq_of_lt (by omega)]

theorem Status.word_layout (s : Status) (busy : Bool) :
    (s.word busy).getLsbD 0 = busy ∧ (s.word busy).getLsbD 1 = s.ok ∧ (s.word busy).getLsbD 2 = s.err ∧
    (s.word busy).getLsbD 3 = s.ovr ∧ (s.word busy).getLsbD 4 = s.rej ∧ (s.word busy).extractLsb' 5 3 = 0 ∧
    (s.word busy).extractLsb' 8 4 = s.errKind ∧ (s.word busy).extractLsb' 12 4 = 0 ∧
    (s.word busy).extractLsb' 16 8 = s.errCode ∧ (s.word busy).extractLsb' 24 8 = s.lastOp ∧
    (s.word busy).extractLsb' 32 32 = 0 := by
  simp (disch := decide) only [Status.word, BitVec.getLsbD_append, ↓reduceIte,
    BitVec.extractLsb'_append_eq_of_le, BitVec.extractLsb'_append_eq_of_add_le, Nat.reduceLT, Nat.reduceSub]
  simp [BitVec.extractLsb'_eq_self]

/-- Settles O12: BUSY is that a command waits, the other fields are those of the status word. -/
theorem statusLayout : Obligations.StatusLayout := fun s => s.status.word_layout s.busy

theorem Pool.pqStatus_layout (p : Pool) :
    p.pqStatus.extractLsb' 0 9 = BitVec.ofNat 9 p.size ∧ p.pqStatus.extractLsb' 9 7 = 0 ∧
    p.pqStatus.extractLsb' 16 9 = BitVec.ofNat 9 p.cap ∧ p.pqStatus.extractLsb' 25 7 = 0 ∧
    (p.pqStatus.getLsbD 32 = true ↔ p.size = 0) ∧ (p.pqStatus.getLsbD 33 = true ↔ p.size = p.cap) ∧
    p.pqStatus.extractLsb' 34 30 = 0 := by
  simp (disch := decide) only [Pool.pqStatus, BitVec.getLsbD_append, ↓reduceIte,
    BitVec.extractLsb'_append_eq_of_le, BitVec.extractLsb'_append_eq_of_add_le, Nat.reduceLT, Nat.reduceSub]
  simp [BitVec.extractLsb'_eq_self]

theorem InSide.word_layout (i : InSide) :
    i.word.extractLsb' 0 32 = BitVec.ofNat 32 i.bitPos ∧ i.word.extractLsb' 32 24 = BitVec.ofNat 24 i.buf.length ∧
    i.word.extractLsb' 56 7 = 0 ∧ i.word.getLsbD 63 = i.eof := by
  simp (disch := decide) only [InSide.word, BitVec.getLsbD_append, ↓reduceIte,
    BitVec.extractLsb'_append_eq_of_le, BitVec.extractLsb'_append_eq_of_add_le, Nat.reduceLT, Nat.reduceSub]
  simp [BitVec.extractLsb'_eq_self]

theorem Config.block_lt (c : Config) : c.block < 2 ^ 24 := by
  have h := c.blockInRange
  simp only [Bool.and_eq_true, Nat.ble_eq] at h
  omega

theorem Config.word_layout (c : Config) :
    ((Config.word c).extractLsb' 0 24).toNat = c.block ∧ (Config.word c).extractLsb' 24 8 = 0 ∧
    (Config.word c).extractLsb' 32 8 = c.leafMarker ∧ (Config.word c).extractLsb' 40 8 = c.internalMarker ∧
    (Config.word c).extractLsb' 48 16 = c.magic := by
  simp (disch := decide) only [Config.word, BitVec.extractLsb'_append_eq_of_le,
    BitVec.extractLsb'_append_eq_of_add_le, Nat.reduceSub]
  simpa [BitVec.extractLsb'_eq_self] using Config.block_lt c

theorem codeWord_getLsbD (bits : BitVec 256) (w j : Nat) (hj : j < 64) :
    (codeWord bits w).getLsbD j = bits.getLsbD (64 * w + j) := by
  simp [codeWord, hj]

theorem State.readRegister_codeBits (s : State) {w : Nat} (hw : w < 4) :
    s.readRegister (0x00A0 + 8 * w) = codeWord s.regs.code.bits w := by
  match w, hw with
  | 0, _ | 1, _ | 2, _ | 3, _ => rfl

/-- Settles O13: each register by its own layout; a number in its range survives the width of its register. -/
theorem registerLayout : Obligations.RegisterLayout := by
  intro s
  refine ⟨rfl, rfl, rfl, fun h => ?_, fun h => ?_, fun h => ?_, s.regs.pool.pqStatus_layout, rfl, rfl, rfl, rfl, rfl,
    rfl, rfl, fun h => ?_, s.regs.inp.word_layout, fun h => ?_, Config.word_layout s.config, fun w j hw hj => ?_⟩
  · exact toNat_ofNat_mod (by omega) (by decide)
  · exact toNat_ofNat_mod (by omega) (by decide)
  · exact toNat_ofNat_mod (by omega) (by decide)
  · have := Config.block_lt s.config
    exact toNat_ofNat_mod (by omega) (by decide)
  · exact toNat_ofNat_mod (by omega) (by decide)
  · rw [s.readRegister_codeBits hw, codeWord_getLsbD _ _ _ hj]

/-! ### What a host read returns: the internal memories -/

section ReadMemory

variable (r : Regs) {j : Nat}

theorem Regs.readMemory_hist (hj : j < 256) : r.readMemory (0x0800 + 8 * j) = r.hist.getD j 0 := by
  rw [Regs.readMemory, if_pos (by omega), show (0x0800 + 8 * j - 0x0800) / 8 = j by omega]

theorem Regs.readMemory_table {o : Nat} (hj : j < 256) (ho : o < 64) :
    r.readMemory (0x1000 + 64 * j + o) = (r.table.getD j CodeEntry.invalid).read o := by
  rw [Regs.readMemory, if_neg (by omega), if_pos (by omega), show (0x1000 + 64 * j + o - 0x1000) / 64 = j by omega,
    show (0x1000 + 64 * j + o) % 64 = o by omega]

theorem Regs.readMemory_heap (hj : j < 256) :
    r.readMemory (0x5000 + 8 * j) = BitVec.ofNat 64 (heapAt r.pool.heap j % 512) := by
  rw [Regs.readMemory, if_neg (by omega), if_neg (by omega), if_pos (by omega),
    show (0x5000 + 8 * j - 0x5000) / 8 = j by omega]

theorem Regs.readMemory_node {o : Nat} (hj : j < 511) (ho : o < 32) :
    r.readMemory (0x8000 + 32 * j + o) = (r.pool.node j).read o := by
  rw [Regs.readMemory, if_neg (by omega), if_neg (by omega), if_neg (by omega), if_pos (by omega),
    show (0x8000 + 32 * j + o - 0x8000) / 32 = j by omega, show (0x8000 + 32 * j + o) % 32 = o by omega]

/-- The reserved addresses above the registers (R23, R63). -/
theorem Regs.readMemory_reserved {a : Nat} (h : a < 0x0800 ∨ (0x5800 ≤ a ∧ a < 0x8000) ∨ 0xBFE0 ≤ a) :
    r.readMemory a = 0 := by
  rw [Regs.readMemory, if_neg (by omega), if_neg (by omega), if_neg (by omega), if_neg (by omega)]

end ReadMemory

/-- Above the registers, the window shows the internal memories (R23). -/
theorem State.readRegister_memory (s : State) {a : Nat} (h : 0x00C0 ≤ a) : s.readRegister a = s.regs.readMemory a := by
  rw [State.readRegister, if_neg (by omega)]
  unfold Regs.readWindow
  split
  case h_23 => rfl
  all_goals omega

theorem CodeEntry.word_layout (e : CodeEntry) :
    e.word.getLsbD 63 = e.valid ∧ e.word.extractLsb' 0 9 = BitVec.ofNat 9 e.len ∧ e.word.extractLsb' 9 54 = 0 := by
  simp (disch := decide) only [CodeEntry.word, BitVec.getLsbD_append, ↓reduceIte,
    BitVec.extractLsb'_append_eq_of_le, BitVec.extractLsb'_append_eq_of_add_le, Nat.reduceLT, Nat.reduceSub]
  simp [BitVec.extractLsb'_eq_self]

theorem CodeEntry.read_code (e : CodeEntry) {w : Nat} (hw : w < 4) : e.read (8 + 8 * w) = codeWord e.bits w := by
  rw [CodeEntry.read, if_neg (by omega), if_pos (by omega), show (8 + 8 * w) / 8 - 1 = w by omega]

theorem CodeEntry.read_reserved (e : CodeEntry) {o : Nat} (ho : 0x28 ≤ o) : e.read o = 0 := by
  rw [CodeEntry.read, if_neg (by omega), if_neg (by omega)]

theorem Node.word_layout (n : Node) :
    n.word.extractLsb' 0 2 = n.kind.bits ∧ n.word.extractLsb' 2 2 = n.held.bits ∧ n.word.extractLsb' 4 4 = 0 ∧
    n.word.extractLsb' 8 8 = n.sym ∧ n.word.extractLsb' 16 9 = BitVec.ofNat 9 n.left ∧ n.word.extractLsb' 25 7 = 0 ∧
    n.word.extractLsb' 32 9 = BitVec.ofNat 9 n.right ∧ n.word.extractLsb' 41 23 = 0 := by
  simp (disch := decide) only [Node.word, BitVec.extractLsb'_append_eq_of_le,
    BitVec.extractLsb'_append_eq_of_add_le, Nat.reduceSub]
  simp [BitVec.extractLsb'_eq_self]

theorem Node.read_reserved (n : Node) {o : Nat} (ho : 0x10 ≤ o) : n.read o = 0 := by
  rw [Node.read, if_neg (by omega), if_neg (by omega)]

section Entries

variable (s : State)

theorem State.readRegister_hist (b : Byte) : s.readRegister (0x0800 + 8 * b.toNat) = s.regs.histAt b := by
  rw [s.readRegister_memory (by omega), Regs.readMemory_hist _ b.isLt]; rfl

theorem State.readRegister_entry (b : Byte) {o : Nat} (ho : o < 64) :
    s.readRegister (0x1000 + 64 * b.toNat + o) = (s.regs.entry b).read o := by
  rw [s.readRegister_memory (by omega), Regs.readMemory_table _ b.isLt ho]; rfl

theorem State.readRegister_heap {j : Nat} (hj : j < 256) :
    s.readRegister (0x5000 + 8 * j) = (BitVec.ofNat 9 (heapAt s.regs.pool.heap j)).setWidth 64 := by
  rw [s.readRegister_memory (by omega), Regs.readMemory_heap _ hj]
  exact BitVec.eq_of_toNat_eq (by simp)

theorem State.readRegister_node {i o : Nat} (hi : i < 511) (ho : o < 32) :
    s.readRegister (0x8000 + 32 * i + o) = (s.regs.pool.node i).read o := by
  rw [s.readRegister_memory (by omega), Regs.readMemory_node _ hi ho]

theorem State.readRegister_reserved {a : Nat}
    (h : a = 0x0098 ∨ (0x00C0 ≤ a ∧ a ≤ 0x07FF) ∨ (0x5800 ≤ a ∧ a ≤ 0x7FFF) ∨ (0xBFE0 ≤ a ∧ a ≤ 0xFFFF)) :
    s.readRegister a = 0 := by
  obtain rfl | h := h
  · rfl
  · rw [s.readRegister_memory (by omega), Regs.readMemory_reserved _ (by omega)]

end Entries

/-- Settles O14: the address picks the entry and the offset inside it; the word of an entry has its fields' layout. -/
theorem memoryLayout : Obligations.MemoryLayout := by
  intro s
  refine ⟨s.readRegister_hist, fun b => ?_, fun b k hk => ?_, fun b k hk => ?_, fun j => s.readRegister_heap,
    fun i hi => ?_, fun i hi => ?_, fun i k hi hk => ?_, fun a _ h => s.readRegister_reserved h⟩
  · exact s.readRegister_entry b (o := 0) (by decide) ▸ (s.regs.entry b).word_layout
  · have hw : k / 64 < 4 := by omega
    rw [Nat.add_assoc (0x1000 + 64 * b.toNat), s.readRegister_entry b (by omega), CodeEntry.read_code _ hw,
      codeWord_getLsbD _ _ _ (Nat.mod_lt _ (by decide)), Nat.div_add_mod]
  · rw [Nat.add_assoc (0x1000 + 64 * b.toNat), s.readRegister_entry b (by omega), CodeEntry.read_reserved _ (by omega)]
  · exact s.readRegister_node hi (o := 0) (by decide) ▸ (s.regs.pool.node i).word_layout
  · exact s.readRegister_node hi (o := 8) (by decide)
  · rw [Nat.add_assoc (0x8000 + 32 * i), s.readRegister_node hi (by omega), Node.read_reserved _ (by omega)]

/-! ### How a command ends -/

/-- A command's body ends it, aborts it or leaves it waiting; nothing else becomes of the state. -/
theorem exec_ends {i : Instr} {s t : State} (hi : i ≠ .softReset) (hc : i ≠ .clearErr) (h : exec i s = .next t) :
    (∃ c a, t = s.finish c a) ∨ (∃ rel e c, t = s.abort rel e c) ∨ ∃ c, t = s.wait i s.startRegs c := by
  obtain ⟨body, hb⟩ := exec_perform i hi
  rw [hb, if_neg hc] at h
  cases h
  obtain ⟨c, -, ⟨a, h⟩ | ⟨e, h⟩ | h⟩ := perform_keeps (P := fun _ => True) (s := s) (i := i)
    (rel := decide (i = .encode ∨ i = .decode)) (body := body) (fun _ _ => by split <;> trivial) trivial
  · exact .inl ⟨c, a, h⟩
  · exact .inr (.inl ⟨_, e, c, h⟩)
  · exact .inr (.inr ⟨c, h⟩)

theorem Status.raise_eq (s : Status) (e : ErrName) : s.raise e = { s with
    err := true, ok := false
    errCode := if s.err then s.errCode else e.code
    errKind := if s.err then s.errKind else e.code.extractLsb' 4 4 } := by
  obtain ⟨ok, err, ovr, rej, kind, code, op⟩ := s
  cases err <;> rfl

/-- Settles O53: `State.finish` is the success, `State.abort` the error, and a command that waits has not ended. -/
theorem errorsAreRecorded : Obligations.ErrorsAreRecorded := by
  intro i s t _ hi hc h ht
  obtain ⟨c, a, rfl⟩ | ⟨rel, e, c, rfl⟩ | ⟨c, rfl⟩ := exec_ends hi hc h
  · exact .inl ⟨a.1, rfl⟩
  · exact .inr ⟨e, s.status.raise_eq e, rfl, rfl⟩
  · cases ht

/-! ### The parameters -/

@[simp] theorem State.perform_config (s : State) (i : Instr) (rel : Bool) (body : Proc Answer) :
    (s.perform i rel body).config = s.config := by
  unfold State.perform
  split <;> rfl

theorem exec_config {i : Instr} {s t : State} (h : exec i s = .next t) : t.config = s.config := by
  by_cases hi : i = .softReset
  · subst hi; cases h; rfl
  · obtain ⟨body, hb⟩ := exec_perform i hi
    rw [hb] at h
    cases h
    exact State.perform_config _ _ _ _

theorem issue_config {s t : State} {v : Word} (h : s.issue v = .next t) : t.config = s.config := by
  unfold State.issue at h
  split at h
  · cases h; rfl
  · unfold State.accept at h
    simp only at h
    split at h
    · exact (exec_config h).trans rfl
    · cases h; rfl

theorem hostWrite_config {s t : State} {a : Nat} {v : Word} (h : s.hostWrite a v = .next t) : t.config = s.config := by
  unfold State.hostWrite at h
  split at h
  · cases h; rfl
  · split at h
    · exact issue_config h
    · cases h; rfl

theorem hostRead_config (s : State) (a : Nat) : (s.hostRead a).config = s.config := by
  unfold State.hostRead
  split <;> rfl

theorem hostAction_config {action : HostAction} {s t : State} (h : s.hostAction action = .next t) :
    t.config = s.config := by
  cases action with
  | read a w =>
    cases next_of_admitted h
    exact hostRead_config s a
  | write a w v => exact hostWrite_config (next_of_admitted h)
  | answer reply =>
    simp only [State.hostAction, State.answerPort] at h
    split at h
    · cases h; rfl
    · exact (exec_config h).trans rfl
  | source bytes =>
    simp only [State.hostAction, State.setSource] at h
    split at h
    · cases h; rfl
    · cases h
  | hardReset => cases h; rfl

/-- Settles O60: no action of the host, and no command, writes the parameters. -/
theorem parametersAreConstant : Obligations.ParametersAreConstant := by
  intro s t h
  obtain rfl | ⟨action, rest, h⟩ := step_next h
  · rfl
  · exact (hostAction_config h).trans rfl

/-! ### Who writes what -/

/-- Everything that the units command i does not use, and ARG, is in a running command's context as in the state s. -/
structure Ctx.Frame (i : Instr) (s : State) (c : Ctx) : Prop where
  arg : c.regs.arg = s.regs.arg
  hist : counters i = false → c.regs.hist = s.regs.hist
  scanCount : scanners i = false → c.regs.scanCount = s.regs.scanCount
  table : tablers i = false → c.regs.table = s.regs.table
  code : coders i = false → c.regs.code = s.regs.code
  hdr : headers i = false → c.regs.hdr = s.regs.hdr
  reads : readers i = false →
    c.regs.inp = s.regs.inp ∧ c.regs.bytesRead = s.regs.bytesRead ∧ c.port.srcPos = s.port.srcPos
  writes : writers i = false → c.regs.bytesWritten = s.regs.bytesWritten ∧ c.port.snk = s.port.snk
  pool : poolers i = false → c.regs.pool = s.regs.pool

/-- A command keeps the frame through its body, since each of its units is one of which the frame says nothing. -/
theorem exec_frame {i : Instr} {s t : State} (hs : s.running = none) (hi : i ≠ .softReset) (h : exec i s = .next t) :
    Outcome (Ctx.Frame i s) i s t := by
  have hstart : Ctx.Frame i s s.ctx := by
    rw [State.ctx_idle hs]
    exact ⟨rfl, fun _ => rfl, fun _ => rfl, fun _ => rfl, fun _ => rfl, fun _ => rfl, fun _ => ⟨rfl, rfl, rfl⟩,
      fun _ => ⟨rfl, rfl⟩, fun _ => rfl⟩
  refine exec_outcome i hi h hstart (fun hu _ _ _ _ _ _ _ k => { k with reads := ?_ })
    (fun hu _ _ _ _ _ _ _ _ k => { k with writes := ?_ }) (fun hu _ _ k => { k with pool := ?_ })
    (fun hu _ _ k => { k with hist := ?_ }) (fun hu _ _ k => { k with scanCount := ?_ })
    (fun hu _ _ k => { k with code := ?_ }) (fun hu _ _ k => { k with table := ?_ })
    (fun hu _ _ k => { k with hdr := ?_ })
  all_goals exact fun hn => Bool.noConfusion (hn.symm.trans hu)

/-- What an outcome makes of the context: RESULT, the write buffer and, in an abort, the tree and queue unit may differ;
only ENCODE and DECODE lose more of the unit than the rebuild stack (R220, R221). -/
theorem Outcome.context {P : Ctx → Prop} {i : Instr} {s t : State} (h : Outcome P i s t) :
    ∃ (c : Ctx) (v : Word) (o : OutSide) (p : Pool), P c ∧ t.port = c.port ∧
      t.regs = { c.regs with result := v, out := o, pool := p } ∧
      (¬ (i = .encode ∨ i = .decode) → { p with stack := c.regs.pool.stack } = c.regs.pool) := by
  obtain ⟨st, c, hP, -, ⟨a, rfl⟩ | ⟨e, rfl⟩ | rfl⟩ := h
  · exact ⟨c, a.2, c.regs.out, c.regs.pool, hP, rfl, rfl, fun _ => rfl⟩
  · refine ⟨c, 0, OutSide.empty, _, hP, rfl, rfl, fun hn => ?_⟩
    rw [decide_eq_false hn]; rfl
  · exact ⟨c, c.regs.result, c.regs.out, c.regs.pool, hP, rfl, rfl, fun _ => rfl⟩

section Units

variable {i : Instr}

theorem counters_iff :
    counters i = true ↔ (∃ sym, i = .histAdd sym) ∨ i ∈ [.histClear, .histScan, .histForce, .encode] := by
  cases i <;> simp [counters]

theorem scanners_iff : scanners i = true ↔ i ∈ [.histScan, .encode] := by
  cases i <;> simp [scanners]

theorem tablers_iff : tablers i = true ↔ i ∈ [.buildCodes, .encode] := by
  cases i <;> simp [tablers]

theorem coders_iff :
    coders i = true ↔ (∃ b, i = .codePush b) ∨ i ∈ [.codeClear, .codePop, .buildCodes, .encode] := by
  cases i <;> simp [coders]

theorem headers_iff : headers i = true ↔ i ∈ [.hdrWrite, .hdrRead, .encode, .decode] := by
  cases i <;> simp [headers]

theorem readers_iff : readers i = true ↔ i ∈ [.histScan, .rebuildTree, .hdrRead, .bitRead, .byteRead, .srcRewind,
    .encodePayload, .decodePayload, .encode, .decode] := by
  cases i <;> simp [readers]

theorem writers_iff : writers i = true ↔ (∃ b, i = .bitWrite b) ∨ (∃ v, i = .codeWrite v ∨ i = .byteWrite v) ∨
    i ∈ [.dumpTree, .hdrWrite, .flush, .encodePayload, .decodePayload, .encode, .decode] := by
  cases i <;> simp [writers]

theorem poolers_iff : poolers i = true ↔ (∃ v, i = .nodeLeaf v) ∨ (∃ na nb, i = .nodeJoin na nb) ∨
    (∃ n, i = .pqCreate n ∨ i = .pqEnqueue n ∨ i = .setRoot n) ∨
    i ∈ [.nodeReset, .pqDequeue, .buildTree, .rebuildTree, .encode, .decode] := by
  cases i <;> simp [poolers]

end Units

/-- Settles O58: the context a command ends or waits with differs from the state in the units the command uses
(`exec_frame`), and ending changes no more than `Outcome.context` says. -/
theorem whoWritesWhat : Obligations.WhoWritesWhat := by
  intro i s t hs hi h
  obtain ⟨c, v, o, p, k, hport, hregs, hpool⟩ := (exec_frame hs hi h).context
  rw [hregs, hport]
  refine ⟨k.arg, fun h1 h2 => k.hist ?_, fun h1 => k.scanCount ?_, fun h1 => k.table ?_, fun h1 h2 => k.code ?_,
    fun h1 => k.hdr ?_, fun h1 => k.reads ?_, fun h1 h2 h3 => k.writes ?_, fun h1 h2 h3 h4 => ?_⟩
  · rw [Bool.eq_false_iff, Ne, counters_iff]
    rintro (⟨sym, rfl⟩ | hm)
    exacts [h1 sym rfl, h2 hm]
  · exact Bool.eq_false_iff.2 (mt scanners_iff.1 h1)
  · exact Bool.eq_false_iff.2 (mt tablers_iff.1 h1)
  · rw [Bool.eq_false_iff, Ne, coders_iff]
    rintro (⟨b, rfl⟩ | hm)
    exacts [h1 b rfl, h2 hm]
  · exact Bool.eq_false_iff.2 (mt headers_iff.1 h1)
  · exact Bool.eq_false_iff.2 (mt readers_iff.1 h1)
  · rw [Bool.eq_false_iff, Ne, writers_iff]
    rintro (⟨b, rfl⟩ | ⟨v, rfl | rfl⟩ | hm)
    exacts [h1 b rfl, (h2 v).1 rfl, (h2 v).2 rfl, h3 hm]
  · have hp : poolers i = false := by
      rw [Bool.eq_false_iff, Ne, poolers_iff]
      rintro (⟨v, rfl⟩ | ⟨na, nb, rfl⟩ | ⟨n, rfl | rfl | rfl⟩ | hm)
      exacts [h1 v rfl, h2 na nb rfl, (h3 n).1 rfl, (h3 n).2.1 rfl, (h3 n).2.2 rfl, h4 hm]
    rw [← k.pool hp]
    exact hpool (by rintro (rfl | rfl) <;> cases hp)

end Sys2Proof.Machine
end

section
/-! The memory family (20_memory.md): the host's accesses, a command that waits at a port request, the answers the host
gives to it late or not at all, and what a command does to the two streams. -/

namespace Sys2Proof.Machine

/-! ### The host's accesses -/

theorem busy_of_running {s : State} (h : s.running ≠ none) : s.busy = true :=
  Option.isSome_iff_ne_none.2 h

/-- Settles O8: an admitted write reaches the register, and the register drops it while the engine is busy. -/
theorem writesWhileBusyAreDropped : Obligations.WritesWhileBusyAreDropped := by
  intro s rest a v hs ha h8 h
  have hb : State.busy { s with script := rest } = true := busy_of_running hs
  rw [step_of_cons h, State.hostAction, admitted_word _ ha h8, State.hostWrite, if_pos hb, Status.dropped]

theorem hostRead_idle {s : State} (h : s.running = none) (a : Nat) :
    s.hostRead a = { s with lastRead := s.readRegister a } :=
  if_neg (by simp [State.busy, h])

theorem hostRead_status_busy {s : State} (h : s.running ≠ none) :
    s.hostRead 0x0008 = { s with lastRead := s.status.word true } := by
  rw [State.hostRead, if_neg (by simp), State.readRegister, if_pos rfl, busy_of_running h]

theorem hostRead_busy {s : State} (h : s.running ≠ none) {a : Nat} (ha : a ≠ 0x0008) :
    s.hostRead a = { s with lastRead := Config.freeRead s.draws, draws := s.draws + 1 } :=
  if_pos (by simp [busy_of_running h, ha])

theorem step_read {s : State} {rest : List HostAction} {a : Nat} (ha : a ≤ 0xFFFF) (h8 : a % 8 = 0)
    (h : s.script = .read a 8 :: rest) : step s = .next (State.hostRead a { s with script := rest }) := by
  rw [step_of_cons h, State.hostAction, admitted_word _ ha h8]

/-- Settles O10: the three readings of `State.hostRead`. -/
theorem readsChangeNoRegister : Obligations.ReadsChangeNoRegister := by
  intro s rest a ha h8 h
  rw [step_read ha h8 h]
  refine ⟨fun hs => ?_, fun hs ha => ?_, fun hs ha => ?_⟩
  · rw [hostRead_idle (by exact hs)]; rfl
  · rw [ha, hostRead_status_busy (by exact hs)]
  · rw [hostRead_busy (by exact hs) ha]

theorem admitted_outside {a : Nat} (w : Nat) (o : Host.Outcome State Fault Refusal) (ha : 0xFFFF < a) :
    admitted a w o = .fault (.addressOutsideWindow a) := if_pos ha

theorem admitted_misfit {a w : Nat} (o : Host.Outcome State Fault Refusal) (ha : a ≤ 0xFFFF)
    (h : w ≠ 8 ∨ a % 8 ≠ 0) : admitted a w o = .refused (.accessNotAdmitted a w) := by
  rw [admitted, if_neg (Nat.not_lt.2 ha), if_pos (by simpa using h)]

/-- A step that is a host access, a read or a write, asks whether the access is admitted. -/
theorem step_access {s : State} {rest : List HostAction} {a w : Nat} {v : Word}
    (h : s.script = .read a w :: rest ∨ s.script = .write a w v :: rest) : ∃ o, step s = admitted a w o := by
  obtain h | h := h
  · exact ⟨_, step_of_cons h⟩
  · exact ⟨_, step_of_cons h⟩

/-- Settles O11: outside the window, and inside it with another width or misaligned, `admitted` stops. -/
theorem otherAccessesAreNotAdmitted : Obligations.OtherAccessesAreNotAdmitted := by
  intro s rest a w v h
  obtain ⟨o, ho⟩ := step_access h
  rw [ho]
  exact ⟨admitted_outside w o, admitted_misfit o⟩

/-! ### What moves a waiting command -/

/-- While a command waits, an access and a new source stream leave the command, the registers, the sink and the replies
as they are (R66, R75). -/
theorem hostAction_waiting {s t : State} {w : Running} {action : HostAction} (hs : s.running = some w)
    (ha : ∀ r, action ≠ .answer r) (hr : action ≠ .hardReset) (h : s.hostAction action = .next t) :
    t.running = some w ∧ t.regs = s.regs ∧ t.port.snk = s.port.snk ∧ t.port.plan = s.port.plan := by
  cases action with
  | read a n =>
    cases next_of_admitted h
    unfold State.hostRead
    split <;> exact ⟨hs, rfl, rfl, rfl⟩
  | write a n v =>
    have hw := next_of_admitted h
    rw [State.hostWrite, if_pos (busy_of_running (by simp [hs]))] at hw
    cases hw
    exact ⟨hs, rfl, rfl, rfl⟩
  | answer r => exact absurd rfl (ha r)
  | source bytes =>
    simp only [State.hostAction, State.setSource] at h
    split at h
    · cases h; exact ⟨hs, rfl, rfl, rfl⟩
    · cases h
  | hardReset => exact absurd rfl hr

theorem answerPort_idle {s : State} (h : s.running = none) (r : PortReply) : s.answerPort r = .next s := by
  unfold State.answerPort; rw [h]

theorem answerPort_waiting {s : State} {w : Running} (h : s.running = some w) (r : PortReply) :
    s.answerPort r = exec w.cmd { s with port := { s.port with plan := r :: s.port.plan } } := by
  unfold State.answerPort; rw [h]

/-- Settles O16: the empty script, the actions of `hostAction_waiting`, and an answer to no request. -/
theorem onlyAnAnswerMovesAWaitingCommand : Obligations.OnlyAnAnswerMovesAWaitingCommand := by
  refine fun s => ⟨fun h => ?_, fun w action rest t hs h ha hr ht => ?_, fun r rest hs h => ?_⟩
  · unfold step; rw [h]
  · rw [step_of_cons h] at ht
    exact hostAction_waiting (s := { s with script := rest }) hs ha hr ht
  · rw [step_of_cons h]
    exact answerPort_idle (s := { s with script := rest }) hs r

/-! ### How a body's result becomes a state -/

theorem perform_of_waiting {s : State} {i : Instr} {rel : Bool} {body : Proc Answer} {c : Ctx}
    (h : body s.ctx = .error .waiting c) : s.perform i rel body = s.wait i s.startRegs c := by
  rw [State.perform, h]

/-- A body leaves its command waiting only if the body itself stops at a request. -/
theorem waiting_of_perform {s : State} {i : Instr} {rel : Bool} {body : Proc Answer}
    (h : (s.perform i rel body).running ≠ none) : ∃ c, body s.ctx = .error .waiting c := by
  unfold State.perform at h
  split at h
  · exact absurd rfl h
  · exact absurd rfl h
  · exact ⟨_, by assumption⟩

/-- Two states that differ only in what the end of a command overwrites, and on which the body does the same. -/
theorem perform_congr {s t : State} {i : Instr} {rel : Bool} {body : Proc Answer} (hbody : body t.ctx = body s.ctx)
    (hstart : t.startRegs = s.startRegs)
    (ht : t = { s with regs := t.regs, port := t.port, running := t.running }) :
    t.perform i rel body = s.perform i rel body := by
  unfold State.perform
  rw [hbody, hstart, ht]
  cases body s.ctx with
  | ok a c => rfl
  | error e c => cases e <;> rfl

/-- SOFT_RESET and CLEAR_ERR make no request. -/
theorem ne_of_waits {i : Instr} {s t : State} (h : exec i s = .next t) (ht : t.running ≠ none) :
    i ≠ .softReset ∧ i ≠ .clearErr := by
  constructor <;> rintro rfl <;> cases h <;> exact ht rfl

/-- A command on a stream and a read buffer of the sizes the spec admits starts with room (R9, R39, R235). -/
theorem room_of_idle {s : State} (hs : s.running = none) (hsrc : s.port.src.length < 2 ^ 64)
    (hi : s.regs.inp.Wf s.config.block) : s.ctx.Room := by
  rw [State.ctx_idle hs]
  exact ⟨rfl, lt_of_le_of_lt hi.length (Config.block_lt _), hsrc⟩

/-! ### Late answers and granting hosts -/

/-- The same engine under a host with another script and other replies to come. -/
def State.hosted (s : State) (rest : List HostAction) (plan : List PortReply) : State :=
  { s with script := rest, port := { s.port with plan := plan } }

theorem State.hosted_ctx (s : State) (rest : List HostAction) (plan : List PortReply) :
    (s.hosted rest plan).ctx = s.ctx.withPlan plan := rfl

/-- A body that waits at a request, when it goes on with a late answer, ends as it would have ended with that answer at
once. -/
theorem perform_late {s : State} {i : Instr} {rel : Bool} {body : Proc Answer} {before after : List PortReply}
    (hB : LateBody body) (hroom : s.ctx.Room) (hb : Prompt before) (hplan : s.port.plan = before ++ .hold :: after)
    (hw : (s.perform i rel body).running ≠ none) :
    ∃ c : Ctx, s.perform i rel body = s.wait i s.startRegs c ∧ c.port.plan = after ∧
      ∀ (r : PortReply) (rest : List HostAction),
        ((s.wait i s.startRegs c).hosted rest (r :: after)).perform i rel body =
          (s.hosted rest (before ++ r :: after)).perform i rel body := by
  obtain ⟨c, hc⟩ := waiting_of_perform hw
  have hlate := hB s.ctx before after trivial hroom hb hplan
  rw [hc] at hlate
  obtain ⟨hafter, new, hgiven, hgo⟩ := hlate
  obtain rfl : c.given = new := hgiven
  refine ⟨c, perform_of_waiting hc, hafter, fun r rest => perform_congr ?_ rfl rfl⟩
  rw [State.hosted_ctx s, hgo r]
  rfl

/-- Settles O17: `perform_late` for the command's body, which is the same at the issue and at the answer. -/
theorem lateAnswersChangeNothing : Obligations.LateAnswersChangeNothing := by
  intro i s t before after r rest hs hsrc hi hb h ht
  obtain ⟨hsoft, hclear⟩ := ne_of_waits h ht
  obtain ⟨body, hB, hexec⟩ := late_composes.exec_body late_scanLoop late_encodeLoop late_decodeLoop i hsoft
  simp only [hexec, if_neg hclear] at h ⊢
  cases h
  obtain ⟨c, hwait, hplan, hgo⟩ := perform_late
    (s := { s with port := { s.port with plan := before ++ .hold :: after } }) hB (room_of_idle hs hsrc hi) hb rfl ht
  rw [hwait, step_of_cons rfl, State.hostAction, answerPort_waiting rfl, hexec, if_neg hclear]
  simp only [State.wait_port, hplan]
  exact congrArg _ (hgo r rest)

/-- Settles O18: no body stops at a request of a host that grants each at once (`Ends`). -/
theorem everyCommandEnds : Obligations.EveryCommandEnds := by
  intro i s hs hq hsrc hi
  by_cases hsoft : i = .softReset
  · subst hsoft; exact ⟨_, rfl, rfl⟩
  obtain ⟨body, hB, hexec⟩ := ends_composes.exec_body ends_scanLoop ends_encodeLoop ends_decodeLoop i hsoft
  refine ⟨_, hexec s, by_contra fun hw => ?_⟩
  obtain ⟨c, hc⟩ := waiting_of_perform hw
  have hserved : s.ctx.Served := by
    obtain ⟨hplan, hlater, -⟩ := hq
    exact ⟨hplan, hlater, room_of_idle hs hsrc hi⟩
  have hend := hB s.ctx ⟨trivial, hserved⟩
  rw [show body s.ctx = .error .waiting c from hc] at hend
  exact hend rfl

/-! ### A request answered with FAIL -/

section Failing

variable {cfg : Config} {r : Regs} {q : Ports} {plan : List PortReply} (hq : q.plan = .fail :: plan)

include hq

/-- FAIL raises the request's error; only the reply is used up (R72 to R74). -/
theorem fails_request {e : ErrName} {n : Nat} {grant : Ports → Nat → List Byte × Ports} :
    Fails (request e n grant) cfg r q e r { q with plan := plan } := fun g => by
  simp [request, Ports.takeReply, hq]

theorem fails_rewind : Fails rewind cfg r q .srcFail r { q with plan := plan } :=
  (fails_request hq).bind.bind

theorem fails_snkWrite (bytes : List Byte) : Fails (snkWrite bytes) cfg r q .snkFail r { q with plan := plan } :=
  (fails_request hq).bind

theorem fails_srcRead : Fails srcRead cfg r q .srcFail r { q with plan := plan } :=
  fails_getConfig_bind.2 (fails_request hq).bind

/-- A used-up INBUF is filled by a SrcRead (R190). -/
theorem fails_refill (h : 8 * r.inp.buf.length ≤ r.inp.bitPos) (he : r.inp.eof = false) :
    Fails refill cfg r q .srcFail r { q with plan := plan } := by
  unfold refill
  simp only [fails_getConfig_bind, fails_getRegs_bind, Nat.not_lt.2 h, he, if_false, Bool.false_eq_true]
  exact (fails_srcRead hq).bind

theorem fails_inBit (h : 8 * r.inp.buf.length ≤ r.inp.bitPos) (he : r.inp.eof = false) :
    Fails inBit cfg r q .srcFail r { q with plan := plan } := (fails_refill hq h he).bind

theorem fails_inByte (h : 8 * r.inp.buf.length ≤ r.inp.bitPos) (he : r.inp.eof = false) :
    Fails inByte cfg r q .srcFail r { q with plan := plan } := (fails_refill hq h he).bind

/-- Pending bits are written by a flush (R182). -/
theorem fails_flushOut (h : 0 < r.out.bitPos) : Fails flushOut cfg r q .snkFail r { q with plan := plan } := by
  unfold flushOut
  have hp : 0 < r.out.pendingBytes := by unfold OutSide.pendingBytes; omega
  simp only [fails_getRegs_bind, hp, if_true]
  exact (fails_snkWrite hq _).bind

/-- A full block is written at once (R181, R183). -/
theorem fails_writeFullBlock (h : r.out.bitPos = 8 * cfg.block) :
    Fails writeFullBlock cfg r q .snkFail r { q with plan := plan } := by
  unfold writeFullBlock
  simp only [fails_getConfig_bind, fails_getRegs_bind, h, if_true]
  exact (fails_snkWrite hq _).bind

theorem fails_outBit (b : Bool) (h : r.out.bitPos + 1 = 8 * cfg.block) :
    Fails (outBit b) cfg r q .snkFail { r with out := r.out.appendBit b } { q with plan := plan } :=
  fails_modifyRegs_bind.2 (fails_writeFullBlock hq h)

theorem fails_outByte (v : Byte) (h : r.out.bitPos + 8 = 8 * cfg.block) :
    Fails (outByte v) cfg r q .snkFail { r with out := r.out.appendByte v } { q with plan := plan } :=
  fails_modifyRegs_bind.2 (fails_writeFullBlock hq h)

end Failing

theorem runs_requireInAligned {cfg : Config} {r : Regs} {q : Ports} (h : r.inp.bitPos % 8 = 0) :
    Runs requireInAligned cfg r q () r q := by
  simp [requireInAligned, h]

theorem runs_requireOutAligned {cfg : Config} {r : Regs} {q : Ports} (h : r.out.bitPos % 8 = 0) :
    Runs requireOutAligned cfg r q () r q := by
  simp [requireOutAligned, h]

/-- Settles O55: the six commands of one request by the `Fails` lemma of that request; every command at every request by
`perform_fail`. -/
theorem portFailuresAreErrors : Obligations.PortFailuresAreErrors := by
  refine ⟨fun s plan hs hq => ⟨?_, fun h he => ⟨?_, fun ha => ?_⟩, fun h => ?_, fun b h => ?_, fun v ha h => ?_⟩, ?_⟩
  · exact next_of_fails hs (fails_rewind hq).bind rfl
  · exact next_of_fails hs (fails_inBit hq h he).bind rfl
  · exact next_of_fails hs ((runs_requireInAligned ha).bind_fails (fails_inByte hq h he).bind) rfl
  · exact next_of_fails hs (fails_getRegs_bind.2 (fails_flushOut hq h).bind) rfl
  · exact next_of_fails hs (fails_outBit hq b h).bind rfl
  · exact next_of_fails hs ((runs_requireOutAligned ha).bind_fails (fails_outByte hq v h).bind) rfl
  · intro i s t before after hs hsrc hi ho hb replies h ht
    obtain ⟨hsoft, hclear⟩ := ne_of_waits h ht
    obtain ⟨body, hB, hexec⟩ := asks_composes.exec_body asks_scanLoop asks_encodeLoop asks_decodeLoop i hsoft
    simp only [hexec, if_neg hclear, Host.Outcome.next.injEq] at h ⊢
    simpa only [decide_eq_true_eq] using perform_fail hB hs hsrc hi ho hb h ht

/-! ### SRC_REWIND and the two streams -/

/-- Settles O46: a granted `Rewind` and nothing more. (`srcRewind` itself names the model's port request.) -/
theorem srcRewind_holds : Obligations.SrcRewind := fun _ hs hq =>
  next_of_runs hs ((runs_rewind hq).bind (runs_pure.2 ⟨rfl, rfl, rfl⟩)) rfl

/-- The host's stream is the one of q, and the sink starts with q's. -/
def Ctx.Extends (q : Ports) (c : Ctx) : Prop := q.snk <+: c.port.snk ∧ c.port.src = q.src

theorem readClosed_extends (q : Ports) : ReadClosed (Ctx.Extends q) := fun _ _ _ _ _ _ _ h => h

theorem writeClosed_extends (q : Ports) : WriteClosed (Ctx.Extends q) := fun _ _ _ _ _ _ _ _ h =>
  ⟨h.1.trans (List.prefix_append _ _), h.2⟩

/-- Settles O59: a body writes to the ports by its read side, which leaves both streams alone, and by its write side,
which appends. -/
theorem sinkOnlyGrows : Obligations.SinkOnlyGrows := by
  intro i s t h
  by_cases hi : i = .softReset
  · subst hi; cases h; exact ⟨List.prefix_rfl, rfl⟩
  have hstart : Ctx.Extends s.port s.ctx := ⟨List.prefix_rfl, rfl⟩
  obtain ⟨c, -, -, -, hc, hport, -⟩ := Outcome.context <| exec_outcome i hi h hstart
    (fun _ => readClosed_extends _) (fun _ => writeClosed_extends _) (fun _ _ _ h => h) (fun _ _ _ h => h)
    (fun _ _ _ h => h) (fun _ _ _ h => h) (fun _ _ _ h => h) (fun _ _ _ h => h)
  rw [hport]
  exact hc

end Sys2Proof.Machine
end

section
/-! The encoding family (30_encoding.md): the operand fields of a word, the opcode map read in both directions, the
decoder and the encoder as inverses, and what a write to CMD does with the word it decodes or rejects. -/

namespace Sys2Proof

/-! ### Operand fields -/

section Fields

variable (v : Word)

theorem toNat_symField : (symField v).toNat = v.toNat / 256 % 2 ^ 8 := BitVec.toNat_ofNat _ _

theorem toNat_bitField : (bitField v).toNat = v.toNat / 256 % 2 ^ 1 := by
  unfold bitField
  obtain h | h := Nat.mod_two_eq_zero_or_one (v.toNat / 256) <;> simp [h]

theorem naField_eq : naField v = v.toNat / 256 % 2 ^ 9 := rfl

/-- NA and NB together are the 18 operand bits of format J. -/
theorem naField_add_nbField : naField v + 512 * nbField v = v.toNat / 256 % 2 ^ 18 := by
  unfold naField nbField
  omega

theorem fitsNineBits_iff {n : Nat} : fitsNineBits n = true ↔ n < 512 := iff_of_eq Nat.blt_eq

theorem fitsNineBits_naField : fitsNineBits (naField v) = true := fitsNineBits_iff.2 (Nat.mod_lt _ (by decide))

theorem fitsNineBits_nbField : fitsNineBits (nbField v) = true := fitsNineBits_iff.2 (Nat.mod_lt _ (by decide))

variable {v}

theorem symField_of_operands {sym : Byte} (h : v.toNat / 256 = sym.toNat) : symField v = sym := by
  rw [symField, h, BitVec.ofNat_toNat, BitVec.setWidth_eq]

theorem bitField_of_operands {bit : Bool} (h : v.toNat / 256 = bit.toNat) : bitField v = bit := by
  rw [bitField, h]
  cases bit <;> rfl

theorem naField_of_operands {n : Nat} (h : v.toNat / 256 = n) (hn : n < 512) : naField v = n := by
  rw [naField, h, Nat.mod_eq_of_lt hn]

theorem joinFields_of_operands {na nb : Nat} (h : v.toNat / 256 = na + 512 * nb) (ha : na < 512) (hb : nb < 512) :
    naField v = na ∧ nbField v = nb := by
  unfold naField nbField
  omega

end Fields

/-! ### The opcode map -/

/-- An entry of the opcode map gives the word's opcode and the operand bits of its format to a well-formed command. -/
theorem opcodeMap_inv {v : Word} {f : Format} {i : Instr} (h : opcodeMap v = some (f, i)) :
    opField v = i.opcode ∧ i.operands = v.toNat / 256 % 2 ^ f.operandBits ∧ i.wellFormed = true := by
  unfold opcodeMap at h
  split at h <;> cases h <;> refine ⟨‹_›, ?_⟩ <;>
    simp only [Instr.operands, Instr.wellFormed, Format.operandBits, toNat_symField, toNat_bitField, ← naField_eq,
      naField_add_nbField, fitsNineBits_naField, fitsNineBits_nbField, Nat.pow_zero, Nat.mod_one, Bool.and_self, and_self]

/-- A word with a well-formed command's opcode and operands above it is mapped to that command. -/
theorem opcodeMap_of_fields {v : Word} {i : Instr} (hw : i.wellFormed = true) (hop : opField v = i.opcode)
    (h : v.toNat / 256 = i.operands) : ∃ f, opcodeMap v = some (f, i) := by
  unfold opcodeMap
  rw [hop]
  cases i with
  | histAdd | nodeLeaf | codeWrite | byteWrite => exact ⟨.s, by simp only [Instr.opcode, symField_of_operands h]⟩
  | codePush | bitWrite => exact ⟨.b, by simp only [Instr.opcode, bitField_of_operands h]⟩
  | pqCreate n | pqEnqueue n | setRoot n =>
    exact ⟨.k, by simp only [Instr.opcode, naField_of_operands (n := n) h (fitsNineBits_iff.1 hw)]⟩
  | nodeJoin na nb =>
    obtain ⟨ha, hb⟩ := Bool.and_eq_true_iff.1 hw
    obtain ⟨hna, hnb⟩ := joinFields_of_operands h (fitsNineBits_iff.1 ha) (fitsNineBits_iff.1 hb)
    exact ⟨.j, by simp only [Instr.opcode, hna, hnb]⟩
  | _ => exact ⟨.n, rfl⟩

/-- The opcode alone selects the entry, and so the format. -/
theorem opcodeMap_format {u v : Word} (h : opField u = opField v) :
    (opcodeMap u).map Prod.fst = (opcodeMap v).map Prod.fst := by
  unfold opcodeMap
  rw [h]
  split <;> rfl

theorem opField_ofNat_opField (v : Word) : opField (BitVec.ofNat 64 (opField v)) = opField v := by
  unfold opField
  rw [BitVec.toNat_ofNat]
  omega

theorem ofNat_opField (v : Word) : BitVec.ofNat 8 (opField v) = v.setWidth 8 := by
  apply BitVec.eq_of_toNat_eq
  simp [opField]

/-! ### Reserved bits -/

/-- No reserved bit is set exactly when the bits above the opcode fit the format's operands. -/
theorem reservedBitSet_eq_false_iff {f : Format} {v : Word} :
    reservedBitSet f v = false ↔ v.toNat / 256 < 2 ^ f.operandBits := by
  rw [reservedBitSet, bne_eq_false_iff_eq, Nat.pow_add, ← Nat.div_div_eq_div_mul,
    Nat.div_eq_zero_iff_lt (Nat.two_pow_pos _)]

/-- A 1 in any bit from bit 8 + w up is a reserved bit set (R93). -/
theorem reservedBitSet_of_getLsbD {f : Format} {v : Word} {k : Nat} (hk : 8 + f.operandBits ≤ k)
    (h : v.getLsbD k = true) : reservedBitSet f v = true := by
  have hv : 2 ^ (8 + f.operandBits) ≤ v.toNat :=
    (Nat.pow_le_pow_right (by decide) hk).trans (Nat.ge_two_pow_of_testBit h)
  exact bne_iff_ne.2 (Nat.div_pos hv (Nat.two_pow_pos _)).ne'

/-! ### The decoder and the encoder -/

/-- The decoder answers a command exactly where the opcode map has it and no reserved bit is set. -/
theorem decodeWord_eq_command_iff {v : Word} {i : Instr} :
    decodeWord v = .command i ↔ ∃ f, opcodeMap v = some (f, i) ∧ v.toNat / 256 < 2 ^ f.operandBits := by
  simp only [← reservedBitSet_eq_false_iff]
  unfold decodeWord
  constructor
  · intro h
    split at h
    · cases h
    · next f j hm =>
      split at h <;> cases h
      exact ⟨f, hm, Bool.eq_false_iff.2 ‹_›⟩
  · rintro ⟨f, hm, hr⟩
    rw [hm]
    simp [hr]

theorem decodeWord_of_opcodeMap_none {v : Word} (h : opcodeMap v = none) : decodeWord v = .rejected .badOpcode := by
  rw [decodeWord, h]

theorem decodeWord_of_reservedBitSet {v : Word} {f : Format} {i : Instr} (h : opcodeMap v = some (f, i))
    (hr : reservedBitSet f v = true) : decodeWord v = .rejected .reservedBits := by
  rw [decodeWord, h]
  exact if_pos hr

/-- The opcode of a word that decodes to a command is the command's (R95). -/
theorem opField_of_decodeWord {v : Word} {i : Instr} (h : decodeWord v = .command i) : opField v = i.opcode := by
  obtain ⟨f, hm, -⟩ := decodeWord_eq_command_iff.1 h
  exact (opcodeMap_inv hm).1

theorem Instr.opcode_lt (i : Instr) : i.opcode < 2 ^ 8 := by
  unfold Instr.opcode
  split <;> decide

/-- The widest format, J, assigns 18 operand bits. -/
theorem Instr.operands_lt {i : Instr} (h : i.wellFormed = true) : i.operands < 2 ^ 18 := by
  cases i with
  | histAdd sym | nodeLeaf sym | codeWrite sym | byteWrite sym => exact sym.isLt.trans (by decide)
  | codePush bit | bitWrite bit => exact bit.toNat_lt.trans (by decide)
  | pqCreate n | pqEnqueue n | setRoot n => exact (fitsNineBits_iff.1 h).trans (by decide)
  | nodeJoin na nb =>
    obtain ⟨ha, hb⟩ := Bool.and_eq_true_iff.1 h
    rw [fitsNineBits_iff] at ha hb
    simp only [Instr.operands]
    omega
  | _ => exact Nat.two_pow_pos 18

/-- A well-formed command's word keeps its opcode and operands whole: nothing is cut at bit 32. -/
theorem toNat_cmdValue_encodeWord {i : Instr} (h : i.wellFormed = true) :
    (cmdValue (encodeWord i)).toNat = i.opcode + 256 * i.operands := by
  have hop := i.opcode_lt
  have hargs := Instr.operands_lt h
  rw [cmdValue, encodeWord, BitVec.toNat_setWidth, BitVec.toNat_ofNat]
  omega

/-- Settles O1: the word holds the command's opcode and operands, so the opcode map gives the command back
(`opcodeMap_of_fields`), and its operands are within the format (`opcodeMap_inv`). -/
theorem decodeInvertsEncode : Obligations.DecodeInvertsEncode := by
  intro i hi
  have hv := toNat_cmdValue_encodeWord hi
  have hop := i.opcode_lt
  have hargs : (cmdValue (encodeWord i)).toNat / 256 = i.operands := by omega
  obtain ⟨f, hm⟩ := opcodeMap_of_fields hi (by rw [opField]; omega) hargs
  obtain ⟨-, hfit, -⟩ := opcodeMap_inv hm
  rw [decodeWord_eq_command_iff]
  refine ⟨f, hm, ?_⟩
  rw [hargs, hfit]
  exact Nat.mod_lt _ (Nat.two_pow_pos _)

/-- Settles O2: without reserved bits the value is its opcode and its operands and nothing else. -/
theorem encodeInvertsDecode : Obligations.EncodeInvertsDecode := by
  intro v i h
  obtain ⟨f, hm, hlt⟩ := decodeWord_eq_command_iff.1 h
  obtain ⟨hop, hargs, hi⟩ := opcodeMap_inv hm
  rw [Nat.mod_eq_of_lt hlt] at hargs
  refine ⟨hi, BitVec.eq_of_toNat_eq ?_⟩
  rw [toNat_cmdValue_encodeWord hi, ← hop, hargs]
  exact (Nat.mod_add_div v.toNat 256).symm

/-- Settles O3: each of the nine is the word of its command, which O1 decodes. -/
theorem exampleWordsDecode : Obligations.ExampleWordsDecode :=
  ⟨decodeInvertsEncode .nop rfl, decodeInvertsEncode (.histAdd 0x41) rfl, decodeInvertsEncode (.codePush true) rfl,
    decodeInvertsEncode (.pqCreate 256) rfl, decodeInvertsEncode (.pqEnqueue 510) rfl,
    decodeInvertsEncode (.nodeJoin 0 1) rfl, decodeInvertsEncode (.nodeJoin 510 509) rfl,
    decodeInvertsEncode (.setRoot NIL) rfl, decodeInvertsEncode .encode rfl⟩

end Sys2Proof

namespace Sys2Proof.Machine

/-! ### A write to CMD -/

theorem step_write_cmd {s : State} {rest : List HostAction} {v : Word} (hs : s.running = none)
    (h : s.script = .write 0x0000 8 v :: rest) : step s = State.issue v { s with script := rest } := by
  rw [step_of_cons h, State.hostAction, admitted_word _ (by decide) rfl, State.hostWrite,
    if_neg (by simp [State.busy, hs]), if_pos rfl]

theorem runsUnderError_iff {op : Nat} : runsUnderError op = true ↔ op ≤ 2 := iff_of_eq Nat.ble_eq

theorem releasesOnError_iff {op : Nat} : releasesOnError op = true ↔ op = 0x72 ∨ op = 0x73 := by
  simp [releasesOnError]

theorem issue_accepted {s : State} {v : Word} (h : s.status.err = false ∨ opField v ≤ 2) : s.issue v = s.accept v := by
  rw [← runsUnderError_iff] at h
  refine if_neg ?_
  obtain h | h := h <;> simp [h]

theorem issue_rejected {s : State} {v : Word} (he : s.status.err = true) (h : 2 < opField v) :
    s.issue v = .next { s with status := { s.status with rej := true } } := by
  have hr : ¬ runsUnderError (opField v) = true := by rw [runsUnderError_iff]; omega
  refine if_pos ?_
  simp [he, hr]

theorem accept_command {s : State} {v : Word} {i : Instr} (h : decodeWord v = .command i) :
    s.accept v = exec i { s with status := { s.status with lastOp := BitVec.ofNat 8 i.opcode } } := by
  simp only [State.accept, h, opField_of_decodeWord h, Status.accept]

/-- The abort of an idle engine's command that has changed nothing, in the statements' own terms. -/
theorem abort_idle {s : State} (hs : s.running = none) (e : ErrName) :
    s.abort false e s.ctx = s.failed e ∧ s.abort true e s.ctx = s.released.failed e := by
  have hraise : Fails (raise e : Proc Answer) s.config s.regs s.port e s.regs s.port := fails_raise.2 ⟨rfl, rfl, rfl⟩
  refine ⟨perform_of_fails (i := .nop) hs hraise, ?_⟩
  have h := next_of_fails_released (i := .encode) hs hraise rfl
  exact Host.Outcome.next.inj h

/-- A word that is no command ends as an error with LAST_OP set and nothing else done; under the opcodes of ENCODE and
DECODE the tree and the queue are released (R90, R218, R220, R221). -/
theorem accept_rejected {s : State} {v : Word} {e : DecodeError} (hs : s.running = none)
    (h : decodeWord v = .rejected e) :
    s.accept v = .next
      (let t := { s with status := { s.status with lastOp := v.setWidth 8 } }
       if opField v = 0x72 ∨ opField v = 0x73 then t.released.failed (errorOfReject e)
       else t.failed (errorOfReject e)) := by
  obtain ⟨hkeep, hrelease⟩ :=
    abort_idle (s := { s with status := { s.status with lastOp := v.setWidth 8 } }) hs (errorOfReject e)
  simp only [State.accept, h, ofNat_opField, Status.accept, ← releasesOnError_iff]
  split_ifs with hr
  · rw [hr, hrelease]
  · rw [Bool.eq_false_iff.2 hr, hkeep]

/-- Settles O6: the write is an accepted issue, and the word decodes. -/
theorem stepRunsTheDecodedCommand : Obligations.StepRunsTheDecodedCommand := by
  intro s rest v i hs h hi herr
  have hacc : s.status.err = false ∨ opField v ≤ 2 := by
    rw [opField_of_decodeWord hi]
    obtain he | rfl | rfl | rfl := herr
    · exact .inl he
    all_goals exact .inr (by decide)
  rw [step_write_cmd hs h, issue_accepted (by exact hacc), accept_command hi]

/-! ### Words that are no command -/

/-- The 222 reserved opcodes (R96). -/
theorem opcodeMap_reserved {v : Word}
    (h : (0x03 ≤ opField v ∧ opField v ≤ 0x0F) ∨ (0x14 ≤ opField v ∧ opField v ≤ 0x1F) ∨
      (0x26 ≤ opField v ∧ opField v ≤ 0x2F) ∨ (0x34 ≤ opField v ∧ opField v ≤ 0x3F) ∨
      (0x44 ≤ opField v ∧ opField v ≤ 0x4F) ∨ (0x52 ≤ opField v ∧ opField v ≤ 0x5F) ∨
      (0x67 ≤ opField v ∧ opField v ≤ 0x6F) ∨ 0x74 ≤ opField v) : opcodeMap v = none := by
  unfold opcodeMap
  split
  case h_35 => rfl
  all_goals omega

/-- Settles O4: the opcode map has no entry for the opcode, and none of the reserved opcodes runs under an error. -/
theorem reservedOpcodesAreIllegal : Obligations.ReservedOpcodesAreIllegal := by
  intro s rest v hs h hop
  have hnone : decodeWord v = .rejected .badOpcode := decodeWord_of_opcodeMap_none (opcodeMap_reserved hop)
  have hkeep : ¬ (opField v = 0x72 ∨ opField v = 0x73) := by simp only [opField]; omega
  have hlate : 2 < opField v := by simp only [opField]; omega
  rw [step_write_cmd hs h]
  refine ⟨fun he => ?_, fun he => issue_rejected (by exact he) hlate⟩
  rw [issue_accepted (.inl (by exact he)), accept_rejected (by exact hs) hnone]
  exact congrArg _ (if_neg hkeep)

/-- The defined opcodes by their format's operand bits (R91, R95). -/
theorem opcodeMap_defined {v : Word} {w : Nat}
    (h : (w = 0 ∧ opField v ∈ [0x00, 0x01, 0x02, 0x10, 0x12, 0x13, 0x20, 0x25, 0x30, 0x32, 0x33, 0x40, 0x42, 0x43, 0x50,
        0x51, 0x63, 0x64, 0x65, 0x66, 0x70, 0x71, 0x72, 0x73]) ∨
      (w = 1 ∧ opField v ∈ [0x41, 0x60]) ∨ (w = 8 ∧ opField v ∈ [0x11, 0x21, 0x61, 0x62]) ∨
      (w = 9 ∧ opField v ∈ [0x23, 0x24, 0x31]) ∨ (w = 18 ∧ opField v = 0x22)) :
    ∃ f i, opcodeMap v = some (f, i) ∧ f.operandBits = w := by
  have hfmt : ∃ f, (opcodeMap v).map Prod.fst = some f ∧ f.operandBits = w := by
    rw [← opcodeMap_format (opField_ofNat_opField v)]
    generalize opField v = op at h
    obtain ⟨rfl, h⟩ | ⟨rfl, h⟩ | ⟨rfl, h⟩ | ⟨rfl, h⟩ | ⟨rfl, rfl⟩ := h
    · exact ⟨.n, by revert op; decide, rfl⟩
    · exact ⟨.b, by revert op; decide, rfl⟩
    · exact ⟨.s, by revert op; decide, rfl⟩
    · exact ⟨.k, by revert op; decide, rfl⟩
    · exact ⟨.j, rfl, rfl⟩
  obtain ⟨f, hf, hw⟩ := hfmt
  obtain ⟨⟨f, i⟩, hm, rfl⟩ := Option.map_eq_some_iff.1 hf
  exact ⟨f, i, hm, hw⟩

/-- Settles O5: the opcode map has an entry with the format named, and the bit is one it reserves. -/
theorem reservedBitsFail : Obligations.ReservedBitsFail := by
  intro s rest v w k hs h hrun hop hk hbit
  obtain ⟨f, i, hm, rfl⟩ := opcodeMap_defined hop
  have hrej := decodeWord_of_reservedBitSet hm (reservedBitSet_of_getLsbD hk hbit)
  rw [step_write_cmd hs h, issue_accepted (by exact hrun), accept_rejected (by exact hs) hrej]
  rfl

end Sys2Proof.Machine
end

section
/-! The control family (40_control.md): NOP and CLEAR_ERR, whose bodies answer at once. -/

namespace Sys2Proof.Machine

/-- An issued command whose body only answers changes RESULT and OK, and nothing else. -/
theorem perform_pure {s : State} {i : Instr} {rel : Bool} (a : Answer) (hs : s.running = none) :
    s.perform i rel (pure a) = s.done a.1 a.2 :=
  perform_of_runs hs (runs_pure.2 ⟨rfl, rfl, rfl⟩)

/-- Settles O19: both bodies only answer (`perform_pure`); CLEAR_ERR's starts with the sticky flags already cleared. -/
theorem nopAndClearErr : Obligations.NopAndClearErr := by
  intro s hs
  constructor
  · exact congrArg Host.Outcome.next (perform_pure (true, 0) hs)
  · exact congrArg Host.Outcome.next (perform_pure (s := { s with status := s.status.clearErr }) (true, 0) hs)

end Sys2Proof.Machine
end

section
/-! The histogram family (41_histogram.md): HIST_CLEAR, HIST_ADD, HIST_SCAN and HIST_FORCE, each from what its body does
when it runs to its end and when it raises. -/

namespace Sys2Proof.Machine

variable {cfg : Config} {r : Regs} {q : Ports}

theorem Regs.histFull_iff {b : Byte} : r.histFull b = true ↔ (r.histAt b).toNat = 2 ^ 64 - 1 := beq_iff_eq

theorem Regs.histFull_eq_false_iff {b : Byte} : r.histFull b = false ↔ (r.histAt b).toNat ≠ 2 ^ 64 - 1 := beq_eq_false_iff_ne

/-! ### HIST_CLEAR and HIST_ADD -/

theorem runs_histClear : Runs histClear cfg r q () { r with hist := Vector.replicate 256 0 } q :=
  runs_modifyRegs.2 ⟨rfl, rfl⟩

theorem runs_histAdd {sym : Byte} (h : (r.histAt sym).toNat ≠ 2 ^ 64 - 1) :
    Runs (histAdd sym) cfg r q () (r.bumpHist sym) q := by
  simp [histAdd, Regs.histFull_eq_false_iff.2 h]

theorem fails_histAdd {sym : Byte} (h : (r.histAt sym).toNat = 2 ^ 64 - 1) :
    Fails (histAdd sym) cfg r q .freqOverflow r q := by
  simp [histAdd, Regs.histFull_iff.2 h]

/-- Settles O20: HIST_ADD's answer is the count read back after the increment. -/
theorem histClearAndHistAdd : Obligations.HistClearAndHistAdd := by
  refine fun s hs => ⟨next_of_runs hs (runs_histClear.bind (runs_pure.2 ⟨rfl, rfl, rfl⟩)) rfl, fun sym => ?_⟩
  split
  next hfull => exact next_of_fails hs (fails_histAdd hfull).bind rfl
  next hroom =>
    refine next_of_runs hs ((runs_histAdd hroom).bind (runs_getRegs_bind.2 (runs_pure.2 ⟨rfl, rfl, rfl⟩))) ?_
    rw [Regs.histAt_bumpHist, if_pos rfl]
    rfl

/-! ### HIST_SCAN -/

theorem fails_requireInAligned (h : r.inp.bitPos % 8 ≠ 0) : Fails requireInAligned cfg r q .misaligned r q := by
  simp [requireInAligned, h]

/-- Aligned, HIST_SCAN is its loop with SCAN_COUNT at 0. -/
theorem goesOn_histScan (ha : r.inp.bitPos % 8 = 0) :
    GoesOn histScan cfg r q (scanLoop inputPasses) { r with scanCount := 0 } q :=
  (runs_requireInAligned ha).goesOn.trans (Runs.goesOn (a := ()) (runs_modifyRegs.2 ⟨rfl, rfl⟩))

/-- `runs_scanLoop` from SCAN_COUNT 0: HIST_SCAN counts all that is left. -/
theorem runs_histScan (hq : q.Granting) (hw : r.inp.Wf cfg.block) (ha : r.inp.bitPos % 8 = 0)
    (hlen : (unreadBytes r.inp q).length < 2 ^ 64)
    (hfit : ∀ b, (r.histAt b).toNat + (unreadBytes r.inp q).count b < 2 ^ 64) :
    ∃ h i, Runs histScan cfg r q ()
        ({ r with hist := h, scanCount := BitVec.ofNat 64 (unreadBytes r.inp q).length }.withInput i
          (undelivered r.inp q).length)
        { q with srcPos := q.srcPos + (undelivered r.inp q).length } ∧
      (∀ b : Byte, (h.getD b.toNat 0).toNat = (r.histAt b).toNat + (unreadBytes r.inp q).count b) ∧
      i.eof = true ∧ i.bitPos = 8 * i.buf.length := by
  obtain ⟨h, i, hrun, hcount, heof, hend, -⟩ := runs_scanLoop (cfg := cfg) (r := { r with scanCount := 0 })
    (fuel := inputPasses) hq hw ha (hlen.trans (by decide)) (by simpa using hlen) hfit
  simp only [zero_add] at hrun
  exact ⟨h, i, (goesOn_histScan ha).runs hrun, hcount, heof, hend⟩

/-- `fails_scanLoop` from SCAN_COUNT 0: HIST_SCAN stops behind the byte that does not fit. -/
theorem fails_histScan {pre rest : List Byte} {b : Byte} (hq : q.Granting) (hw : r.inp.Wf cfg.block)
    (ha : r.inp.bitPos % 8 = 0) (hu : unreadBytes r.inp q = pre ++ b :: rest) (hlen : pre.length < 2 ^ 64)
    (hfit : ∀ x, (r.histAt x).toNat + pre.count x < 2 ^ 64)
    (hfull : (r.histAt b).toNat + pre.count b = 2 ^ 64 - 1 ∨ pre.length = 2 ^ 64 - 1) :
    ∃ h i pos, Fails histScan cfg r q .freqOverflow
        ({ r with hist := h, scanCount := BitVec.ofNat 64 pre.length }.withInput i (pos - q.srcPos))
        { q with srcPos := pos } ∧
      (∀ x : Byte, (h.getD x.toNat 0).toNat = (r.histAt x).toNat + pre.count x) ∧
      q.srcPos ≤ pos ∧ unreadBytes i { q with srcPos := pos } = rest := by
  obtain ⟨h, i, pos, hfails, hrest⟩ := fails_scanLoop (cfg := cfg) (r := { r with scanCount := 0 })
    (fuel := inputPasses) hq hw ha hu (hlen.trans (by decide)) (by simpa using hlen) hfit
    (hfull.imp_right fun h => by simpa using h)
  simp only [zero_add] at hfails
  exact ⟨h, i, pos, (goesOn_histScan ha).fails hfails, hrest⟩

/-- Settles O21: `fails_requireInAligned` in mid-byte, `runs_histScan` where every count fits, `fails_histScan` where one
does not. -/
theorem histScanCountsTheInput : Obligations.HistScanCountsTheInput := by
  refine fun s hs => ⟨fun hmid => ?_, fun hq hw ha hlen hfit => ?_, fun pre rest b hq _ hw ha hu hlen hfit hfull => ?_⟩
  · exact next_of_fails hs (fails_requireInAligned hmid).bind.bind rfl
  · obtain ⟨h, i, hrun, hcount⟩ := runs_histScan hq hw ha hlen hfit
    refine ⟨h, i, ?_, hcount⟩
    refine next_of_runs hs (hrun.bind (runs_getRegs_bind.2 (runs_pure.2 ⟨rfl, rfl, rfl⟩))) ?_
    rw [State.withInput, Nat.add_sub_cancel_left]
    rfl
  · obtain ⟨h, i, pos, hfails, hcount⟩ := fails_histScan hq hw ha hu hlen hfit hfull
    exact ⟨h, i, pos, next_of_fails hs hfails.bind rfl, hcount⟩

/-! ### HIST_FORCE -/

/-- The registers with one more in the counts of 0 and 255 (R118). -/
def Regs.forced (r : Regs) : Regs := (r.setHist 0 (r.histAt 0 + 1)).setHist 255 (r.histAt 255 + 1)

theorem Regs.bumpHist_bumpHist : (r.bumpHist 0).bumpHist 255 = r.forced := by
  rw [Regs.bumpHist, Regs.histAt_bumpHist, if_neg (by decide), Regs.bumpHist, Regs.forced]

theorem Regs.histAt_forced_zero : r.forced.histAt 0 = r.histAt 0 + 1 := by
  rw [Regs.forced, Regs.histAt_setHist, if_neg (by decide), Regs.histAt_setHist, if_pos rfl]

theorem Regs.histAt_forced_last : r.forced.histAt 255 = r.histAt 255 + 1 := by
  rw [Regs.forced, Regs.histAt_setHist, if_pos rfl]

theorem Regs.histAt_forced_other {b : Byte} (h0 : b ≠ 0) (h255 : b ≠ 255) : r.forced.histAt b = r.histAt b := by
  rw [Regs.forced, Regs.histAt_setHist, if_neg h255.symm, Regs.histAt_setHist, if_neg h0.symm]

theorem runs_histForce_of_two (h : 2 ≤ r.present.length) : Runs histForce cfg r q () r q := by
  unfold histForce
  rw [runs_getRegs_bind, distinct_eq, if_neg (Nat.not_lt.2 h)]
  exact runs_pure.2 ⟨rfl, rfl, rfl⟩

theorem runs_histForce_forced (h : r.present.length < 2) (h0 : (r.histAt 0).toNat ≠ 2 ^ 64 - 1)
    (h255 : (r.histAt 255).toNat ≠ 2 ^ 64 - 1) : Runs histForce cfg r q () r.forced q := by
  have hrun := runs_histForce (cfg := cfg) (q := q) h0 h255
  rwa [if_pos h, Regs.bumpHist_bumpHist] at hrun

theorem fails_histForce (h : r.present.length < 2)
    (hfull : (r.histAt 0).toNat = 2 ^ 64 - 1 ∨ (r.histAt 255).toNat = 2 ^ 64 - 1) :
    Fails histForce cfg r q .freqOverflow r q := by
  rw [← Regs.histFull_iff, ← Regs.histFull_iff, ← Bool.or_eq_true] at hfull
  unfold histForce
  rw [fails_getRegs_bind, distinct_eq, if_pos h, fails_require_bind, hfull]
  exact .inl ⟨rfl, rfl, rfl, rfl⟩

/-- HIST_FORCE's answer is the number of counted symbols afterwards (R118). -/
theorem exec_histForce {s : State} {r' : Regs} (hs : s.running = none)
    (h : Runs histForce s.config s.regs s.port () r' s.port) :
    exec .histForce s = .next ({ s with regs := r' }.done true (BitVec.ofNat 64 r'.present.length)) :=
  next_of_runs hs (h.bind (runs_getRegs_bind.2 (runs_pure.2 ⟨rfl, rfl, rfl⟩))) (by rw [distinct_eq])

theorem exec_histForce_full {s : State} (hs : s.running = none) (h : s.regs.present.length < 2)
    (hfull : (s.regs.histAt 0).toNat = 2 ^ 64 - 1 ∨ (s.regs.histAt 255).toNat = 2 ^ 64 - 1) :
    exec .histForce s = .next (s.failed .freqOverflow) :=
  next_of_fails hs (fails_histForce h hfull).bind rfl

/-- Settles O22: the three ways the body goes, by the number of counted symbols and the two counts it would raise.
(`histForce` itself names the model's body.) -/
theorem histForce_holds : Obligations.HistForce := fun _ hs =>
  ⟨fun htwo => exec_histForce hs (runs_histForce_of_two htwo),
    fun hfew h0 h255 => exec_histForce hs (runs_histForce_forced hfew h0 h255),
    fun hfew hfull => exec_histForce_full hs hfew hfull⟩

/-- A successful HIST_FORCE keeps the histogram of two or more counted symbols; with fewer, both forced counts had room
and the histogram is the forced one (R118). -/
theorem histForce_success {s t : State} (hs : s.running = none) (h : exec .histForce s = .next t)
    (hok : t.status.ok = true) :
    (2 ≤ s.regs.present.length ∧ t.regs.hist = s.regs.hist) ∨
      (s.regs.present.length < 2 ∧ (s.regs.histAt 0).toNat ≠ 2 ^ 64 - 1 ∧ (s.regs.histAt 255).toNat ≠ 2 ^ 64 - 1 ∧
        t.regs.hist = s.regs.forced.hist) := by
  rcases Nat.lt_or_ge s.regs.present.length 2 with hfew | htwo
  · by_cases hfull : (s.regs.histAt 0).toNat = 2 ^ 64 - 1 ∨ (s.regs.histAt 255).toNat = 2 ^ 64 - 1
    · rw [exec_histForce_full hs hfew hfull, Host.Outcome.next.injEq] at h
      subst h
      cases hok
    · obtain ⟨h0, h255⟩ := not_or.1 hfull
      rw [exec_histForce hs (runs_histForce_forced hfew h0 h255), Host.Outcome.next.injEq] at h
      subst h
      exact .inr ⟨hfew, h0, h255, rfl⟩
  · rw [exec_histForce hs (runs_histForce_of_two htwo), Host.Outcome.next.injEq] at h
    subst h
    exact .inl ⟨htwo, rfl⟩

theorem Regs.histAt_congr {r' : Regs} (h : r'.hist = r.hist) (b : Byte) : r'.histAt b = r.histAt b := by
  rw [Regs.histAt, h]; rfl

/-- Where at most the symbol y has a count, fewer than two symbols have one. -/
theorem present_lt_two {y : Byte} (h : ∀ x, x ≠ y → r.histAt x = 0) : r.present.length < 2 := by
  refine Nat.lt_of_not_le fun htwo => ?_
  obtain ⟨a, b, hab, ha, hb⟩ := two_le_present.1 htwo
  exact hab ((not_imp_comm.1 (h a) ha).trans (not_imp_comm.1 (h b) hb).symm)

/-- HIST_FORCE leaves two counted symbols: those there were, or 0 and 255, whose new counts do not wrap. -/
theorem histForce_two_counts {s t : State} (hs : s.running = none) (h : exec .histForce s = .next t)
    (hok : t.status.ok = true) : ∃ x y : Byte, x ≠ y ∧ t.regs.histAt x ≠ 0 ∧ t.regs.histAt y ≠ 0 := by
  have hroom : ∀ v : Word, v.toNat ≠ 2 ^ 64 - 1 → v + 1 ≠ 0 := fun v hv => by bv_omega
  rcases histForce_success hs h hok with ⟨htwo, hkept⟩ | ⟨-, h0, h255, hforced⟩
  · simp only [Regs.histAt_congr hkept]
    exact two_le_present.1 htwo
  · simp only [Regs.histAt_congr hforced]
    refine ⟨0, 255, by decide, ?_, ?_⟩
    · rw [Regs.histAt_forced_zero]; exact hroom _ h0
    · rw [Regs.histAt_forced_last]; exact hroom _ h255

/-- Where at most the symbol y has a count, a successful HIST_FORCE adds one to the counts of 0 and 255 (R118). -/
theorem histAt_of_histForce {s t : State} {y : Byte} (hs : s.running = none) (h : exec .histForce s = .next t)
    (hok : t.status.ok = true) (hy : ∀ x, x ≠ y → s.regs.histAt x = 0) :
    t.regs.histAt 0 = s.regs.histAt 0 + 1 ∧ t.regs.histAt 255 = s.regs.histAt 255 + 1 ∧
      ∀ x, x ≠ 0 → x ≠ 255 → t.regs.histAt x = s.regs.histAt x := by
  obtain ⟨-, -, -, hforced⟩ := (histForce_success hs h hok).resolve_left fun hkept => (present_lt_two hy).not_ge hkept.1
  simp only [Regs.histAt_congr hforced]
  exact ⟨Regs.histAt_forced_zero, Regs.histAt_forced_last, fun _ => Regs.histAt_forced_other⟩

/-- Settles O23: with at most one counted symbol the counts of 0 and 255 gain one and the others stay
(`histAt_of_histForce`); with two all stay. -/
theorem histForceGivesTwoSymbols : Obligations.HistForceGivesTwoSymbols := by
  intro s t hs h hok
  refine ⟨histForce_two_counts hs h hok, fun hnone => ?_, fun y hy _ hone => ?_, fun y hy0 hy255 _ hone => ?_, fun htwo => ?_⟩
  · obtain ⟨hzero, hlast, hother⟩ := histAt_of_histForce (y := 0) hs h hok fun x _ => hnone x
    refine ⟨?_, ?_, fun x hx0 hx255 => (hother x hx0 hx255).trans (hnone x)⟩
    · rw [hzero, hnone]; rfl
    · rw [hlast, hnone]; rfl
  · obtain ⟨hzero, hlast, hother⟩ := histAt_of_histForce hs h hok hone
    rcases hy with rfl | rfl
    · refine ⟨hzero, ?_, fun x hx0 hx255 => (hother x hx0 hx255).trans (hone x hx0)⟩
      rw [sub_zero, hlast, hone 255 (by decide)]; rfl
    · refine ⟨hlast, ?_, fun x hx0 hx255 => (hother x hx0 hx255).trans (hone x hx255)⟩
      rw [sub_self, hzero, hone 0 (by decide)]; rfl
  · obtain ⟨hzero, hlast, hother⟩ := histAt_of_histForce hs h hok hone
    refine ⟨hother y hy0 hy255, ?_, ?_, fun x hxy hx0 hx255 => (hother x hx0 hx255).trans (hone x hxy)⟩
    · rw [hzero, hone 0 hy0.symm]; rfl
    · rw [hlast, hone 255 hy255.symm]; rfl
  · exact ((histForce_success hs h hok).resolve_right fun hfew => hfew.1.not_ge (two_le_present.2 htwo)).2

end Sys2Proof.Machine
end

section
/-! The node pool and queue family (42_pq_nodes.md): NODE_RESET, NODE_LEAF, NODE_JOIN, PQ_CREATE, PQ_ENQUEUE and
PQ_DEQUEUE, each from what its body does when it runs to its end and when it raises. -/

namespace Sys2Proof.Machine

variable {cfg : Config} {r : Regs} {q : Ports} {p : Pool}

/-! ### NODE_RESET and NODE_LEAF -/

/-- Settles O24: the released pool is the cleared one. -/
theorem nodeReset : Obligations.NodeReset := fun _ hs =>
  next_of_runs hs (Runs.bind (a := ()) (runs_modifyRegs.2 ⟨rfl, rfl⟩) (runs_pure.2 ⟨rfl, rfl, rfl⟩)) rfl

theorem runs_frequencyOperand : Runs frequencyOperand cfg r q r.arg r q :=
  runs_getRegs_bind.2 (runs_pure.2 ⟨rfl, rfl, rfl⟩)

/-- Settles O25: ARG is the frequency, and `Alloc` fills the next slot or raises. -/
theorem nodeLeafAllocates : Obligations.NodeLeafAllocates := by
  intro s sym hs
  split_ifs with hfull
  · exact next_of_fails hs (runs_frequencyOperand.bind_fails (fails_alloc hfull).bind) rfl
  · exact next_of_runs hs (runs_frequencyOperand.bind ((runs_alloc hfull).bind (runs_pure.2 ⟨rfl, rfl, rfl⟩))) rfl

/-! ### NODE_JOIN -/

theorem runs_joinedFreq {a b : Word} (h : a.toNat + b.toNat < 2 ^ 64) : Runs (joinedFreq a b) cfg r q (a + b) r q :=
  runs_require_bind.2 ⟨decide_eq_true (Nat.le_pred_of_lt h), runs_pure.2 ⟨rfl, rfl, rfl⟩⟩

theorem fails_joinedFreq {a b : Word} (h : 2 ^ 64 ≤ a.toNat + b.toNat) :
    Fails (joinedFreq a b) cfg r q .freqOverflow r q :=
  fails_require_bind.2 (.inl ⟨decide_eq_false (by simp only [freqMax]; omega), rfl, rfl, rfl⟩)

/-- Two different allocated nodes keep all but their owner when a new node adopts them. -/
theorem Pool.adopt_grown {n : Node} {a b : Nat} (ha : a < p.count) (hb : b < p.count) (hne : a ≠ b) :
    (p.grown n).adopt a b =
      { p with
        nodes := ((p.nodes.setIfInBounds p.count n).setIfInBounds a { p.node a with held := .parent }).setIfInBounds b
          { p.node b with held := .parent }
        count := p.count + 1 } := by
  have hleft : (p.grown n).node a = p.node a := by rw [Pool.node_grown, if_neg (by omega)]
  have hright : ((p.grown n).setHeld a .parent).node b = p.node b := by
    rw [Pool.node_setHeld, if_neg (by omega), Pool.node_grown, if_neg (by omega)]
  rw [Pool.adopt, Pool.setHeld, hright, Pool.setHeld, hleft]
  rfl

section Operands

variable {a b : Nat} (ha : a < r.pool.count) (hfa : (r.pool.node a).held = .unowned) (hb : b < r.pool.count)
  (hfb : (r.pool.node b).held = .unowned) (hne : a ≠ b)
include ha hfa hb hfb hne

/-- Two different free nodes pass NODE_JOIN's checks of its operands. -/
theorem goesOn_checkOperands {α : Type} (k : Proc α) :
    GoesOn (do checkFree a; checkFree b; require (a != b) .nodeHeld; k) cfg r q k r q :=
  (runs_checkFree ha hfa).goesOn.trans
    ((runs_checkFree hb hfb).goesOn.trans (Runs.goesOn (a := ()) (runs_require.2 ⟨bne_iff_ne.2 hne, rfl, rfl⟩)))

theorem fails_nodeJoin_freqOverflow (hsum : 2 ^ 64 ≤ (r.pool.node a).freq.toNat + (r.pool.node b).freq.toNat) :
    Fails (nodeJoin a b) cfg r q .freqOverflow r q :=
  (goesOn_checkOperands ha hfa hb hfb hne _).fails (fails_getRegs_bind.2 (fails_joinedFreq hsum).bind)

theorem fails_nodeJoin_nodePoolFull (hsum : (r.pool.node a).freq.toNat + (r.pool.node b).freq.toNat < 2 ^ 64)
    (hfull : r.pool.count = 511) : Fails (nodeJoin a b) cfg r q .nodePoolFull r q :=
  (goesOn_checkOperands ha hfa hb hfb hne _).fails
    (fails_getRegs_bind.2 ((runs_joinedFreq hsum).bind_fails (fails_alloc hfull).bind))

theorem runs_nodeJoin (hsum : (r.pool.node a).freq.toNat + (r.pool.node b).freq.toNat < 2 ^ 64)
    (hroom : r.pool.count ≠ 511) :
    Runs (nodeJoin a b) cfg r q r.pool.count
      { r with pool := (r.pool.grown
          (innerNode .unowned ((r.pool.node a).freq + (r.pool.node b).freq) a b)).adopt a b } q :=
  (goesOn_checkOperands ha hfa hb hfb hne _).runs (runs_getRegs_bind.2 ((runs_joinedFreq hsum).bind
    ((runs_alloc hroom).bind (Runs.bind (a := ()) (runs_modifyPool.2 ⟨rfl, rfl⟩) (runs_pure.2 ⟨rfl, rfl, rfl⟩)))))

end Operands

/-- Settles O26: the checks in their order; past them the new node adopts its children (`runs_nodeJoin`,
`Pool.adopt_grown`). (`nodeJoin` itself names the model's body.) -/
theorem nodeJoin_holds : Obligations.NodeJoin := by
  intro s na nb hs p
  split_ifs with hna hheldA hnb hheldB hsame hsum hfull
  · exact next_of_fails hs (fails_checkFree_badNode hna).bind.bind rfl
  · exact next_of_fails hs (fails_checkFree_nodeHeld (not_le.1 hna) hheldA).bind.bind rfl
  all_goals rw [not_le] at hna; rw [not_not] at hheldA
  · exact next_of_fails hs ((runs_checkFree hna hheldA).bind_fails (fails_checkFree_badNode hnb).bind).bind rfl
  · exact next_of_fails hs
      ((runs_checkFree hna hheldA).bind_fails (fails_checkFree_nodeHeld (not_le.1 hnb) hheldB).bind).bind rfl
  all_goals rw [not_le] at hnb; rw [not_not] at hheldB
  · exact next_of_fails hs ((runs_checkFree hna hheldA).bind_fails ((runs_checkFree hnb hheldB).bind_fails
      (fails_require_bind.2 (.inl ⟨bne_eq_false_iff_eq.2 hsame, rfl, rfl, rfl⟩)))).bind rfl
  · exact next_of_fails hs (fails_nodeJoin_freqOverflow hna hheldA hnb hheldB hsame hsum).bind rfl
  all_goals rw [not_le] at hsum
  · exact next_of_fails hs (fails_nodeJoin_nodePoolFull hna hheldA hnb hheldB hsame hsum hfull).bind rfl
  · refine next_of_runs hs
      ((runs_nodeJoin hna hheldA hnb hheldB hsame hsum hfull).bind (runs_pure.2 ⟨rfl, rfl, rfl⟩)) ?_
    rw [Pool.adopt_grown hna hnb hsame]
    rfl

/-! ### PQ_CREATE -/

theorem Pool.queueCreated_eq (cap : Nat) :
    p.queueCreated cap = { p with
      nodes := (p.releaseQueued p.size).nodes, heap := Vector.replicate 256 NIL, size := 0, cap := cap } :=
  congrArg (fun p' : Pool => { p' with heap := Vector.replicate 256 NIL, size := 0, cap := cap })
    (Pool.releaseQueued_eq p.size)

/-- Settles O27: exactly the queued nodes are released (`Pool.node_releaseQueued`). -/
theorem pqCreate : Obligations.PqCreate := by
  refine fun s cap hs => ⟨fun hcap => ?_, fun hcap => ⟨s.regs.pool.releaseQueued s.regs.pool.size, ?_, ?_, ?_⟩⟩
  · exact next_of_fails hs
      (Fails.bind (fails_require.2 ⟨decide_eq_false (not_le.2 hcap), rfl, rfl, rfl⟩)) rfl
  · refine next_of_runs hs (Runs.bind (a := ()) (runs_require.2 ⟨decide_eq_true hcap, rfl, rfl⟩)
      (runs_modifyPool_bind.2 (runs_pure.2 ⟨rfl, rfl, rfl⟩))) ?_
    rw [Pool.queueCreated_eq]
  · intro i hqueued
    rw [Pool.node_releaseQueued, if_pos hqueued]
  · intro i hother
    rw [Pool.node_releaseQueued, if_neg fun ⟨j, hj, hi⟩ => hother j hj hi]

/-! ### PQ_ENQUEUE and PQ_DEQUEUE -/

/-- A slot of the pool that changes hands keeps its other fields, and every other node stays (R45). -/
theorem Pool.node_setHeld_of_lt {x : Nat} {h : Held} (hx : x < 511) (i : Nat) :
    (p.setHeld x h).node i = if i = x then { p.node x with held := h } else p.node i := by
  rw [Pool.node_setHeld]
  by_cases hi : i = x
  · subst hi
    rw [if_pos ⟨rfl, hx⟩, if_pos rfl]
  · rw [if_neg fun hix => hi hix.1.symm, if_neg hi]

/-- Settles O28: the checks, the "false" answer, then HeapInsert, whose effect on the queue is `Pool.heapInsert_spec` and
which keeps the queue's invariant (`Pool.QueueWf.insert`). -/
theorem pqEnqueueInserts : Obligations.PqEnqueueInserts := by
  refine fun s na hs => ⟨fun hna => ?_, fun hna hheld => ?_, fun hna hfree hfull => ?_,
    fun hna hfree hroom hcap hcount hq => ⟨s.regs.pool.heapInsert na, ?_, fun i => ?_, ?_, ?_⟩⟩
  · exact next_of_fails hs (fails_checkFree_badNode hna).bind rfl
  · exact next_of_fails hs (fails_checkFree_nodeHeld hna hheld).bind rfl
  · exact next_of_runs hs ((runs_checkFree hna hfree).bind
      (runs_getRegs_bind.2 (runs_ite.2 (by rw [if_pos hfull]; exact runs_pure.2 ⟨rfl, rfl, rfl⟩)))) rfl
  · exact next_of_runs hs ((runs_checkFree hna hfree).bind (runs_getRegs_bind.2 (runs_ite.2 (by
      rw [if_neg hroom.ne]; exact runs_modifyPool_bind.2 (runs_pure.2 ⟨rfl, rfl, rfl⟩))))) rfl
  · exact Pool.node_setHeld_of_lt (by omega) i
  · rw [take_toList _ (by omega), take_toList _ (by omega)]
    exact (Pool.heapInsert_spec na (by omega) hq.ordered).2.1
  · exact hq.insert hna hcount hfree (by omega)

/-- Settles O29: the "false" answer, then HeapExtract, which takes out the top entry, a minimum (`Pool.QueueWf.top`), and
keeps the queue's invariant (`Pool.QueueWf.extract`). -/
theorem pqDequeueTakesTheMinimum : Obligations.PqDequeueTakesTheMinimum := by
  refine fun s hs => ⟨fun hempty => ?_, fun hsize hcount hq => ?_⟩
  · exact next_of_runs hs
      (runs_getRegs_bind.2 (runs_ite.2 (by rw [if_pos hempty]; exact runs_pure.2 ⟨rfl, rfl, rfl⟩))) rfl
  · obtain ⟨htop, -, hmin⟩ := hq.top hsize
    have hle := hq.size
    refine ⟨s.regs.pool.heapExtract, s.regs.pool.heapTop, ?_, fun i => ?_, ?_, fun j hj => ?_, ?_⟩
    · exact next_of_runs hs (runs_getRegs_bind.2 (runs_ite.2 (by
        rw [if_neg hsize.ne']; exact runs_heapExtract.bind (runs_pure.2 ⟨rfl, rfl, rfl⟩)))) rfl
    · exact Pool.node_setHeld_of_lt (by omega) i
    · rw [take_toList _ hle, take_toList _ (by omega)]
      exact (Pool.heapExtract_spec hsize hle hq.ordered).2.1
    · exact hmin _ (mem_entriesOf.2 ⟨j, hj, rfl⟩)
    · exact hq.extract hsize hcount

end Sys2Proof.Machine
end

section
/-! The tree family (43_tree.md): BUILD_TREE, SET_ROOT, DUMP_TREE and REBUILD_TREE, each from what its body does when it
runs to its end and when it raises. -/

namespace Sys2Proof.Machine

variable {cfg : Config} {r : Regs} {q : Ports} {p : Pool}

/-! ### REBUILD_TREE -/

/-- Settles O34: `runs_rebuildTree`, whose input side has taken exactly the dump. -/
theorem rebuildTreeInvertsDump : Obligations.RebuildTreeInvertsDump := by
  intro s l r rest hs hq hw ha hleaves hu hsize
  obtain ⟨i, pos, p, hrun, htaken, -, hp⟩ := runs_rebuildTree hq hw ha hu hsize hleaves
  refine ⟨p, i, pos, next_of_runs hs (hrun.bind (runs_pure.2 ⟨rfl, rfl, rfl⟩)) rfl, hp.holds, hp.root, hp.count, hp.unique,
    hp.nodes, hp.size, hp.cap, hp.stack, htaken.forward, ?_, ?_⟩
  · rw [htaken.unreadBytes ha, hu, List.drop_left]
  · rw [htaken.aligned]
    omega

/-- With nothing to read, no node comes onto the rebuild stack (R153). -/
theorem fails_rebuildTree_of_size_zero (ha : r.inp.bitPos % 8 = 0) (h0 : r.hdr.treeSize = 0) :
    Fails rebuildTree cfg r q .treeDepth { r with pool := { r.pool.cleared with stack := [] } } q := by
  refine (runs_requireInAligned ha).bind_fails (fails_modifyPool_bind.2 (fails_getRegs_bind.2 ?_))
  rw [h0]
  exact Runs.bind_fails (a := ()) (runs_pure.2 ⟨rfl, rfl, rfl⟩) (fails_getRegs_bind.2 (fails_raise.2 ⟨rfl, rfl, rfl⟩))

/-- Any bytes are a dump of the size to read, or go wrong behind some trees (R153): each pass that does not go wrong
(`forest_step`) leaves fewer bytes to read, and at the end `forest_end` decides. -/
theorem dump_or_dumpError {c : Config} {size : Nat} {u v : List Byte} {ts : List CodeTree} (hf : ForestFits ts)
    (hu : u = forestDump c ts ++ v) (hle : (forestDump c ts).length ≤ size) :
    (∃ (l r : CodeTree) (rest : List Byte), (CodeTree.node l r).leaves ≤ 256 ∧
      u = (CodeTree.node l r).dump c ++ rest ∧ size = ((CodeTree.node l r).dump c).length) ∨
    ∃ (us : List CodeTree) (e : ErrName) (rest : List Byte), ForestFits us ∧ DumpError c size u us e rest := by
  rcases Nat.eq_or_lt_of_le hle with rfl | hlt
  · rcases forest_end hf hu with ⟨l, r, rfl, hleaves⟩ | ⟨e, rest, he⟩
    · have hdump : forestDump c [.node l r] = (CodeTree.node l r).dump c := List.flatMap_singleton _ _
      rw [hdump] at hu ⊢
      exact .inl ⟨l, r, v, hleaves, hu, rfl⟩
    · exact .inr ⟨ts, e, rest, hf, he⟩
  · rcases forest_step hf hu hlt with ⟨e, rest, he⟩ | ⟨us, w, hus, hw, hmore, hle'⟩
    · exact .inr ⟨ts, e, rest, hf, he⟩
    · exact dump_or_dumpError hus hw hle'
termination_by size - (forestDump c ts).length
decreasing_by omega

/-- Settles O35: `fails_rebuildTree` for every error behind some trees; `dump_or_dumpError` from the empty stack leaves
nothing out. -/
theorem rebuildTreeRefuses : Obligations.RebuildTreeRefuses := by
  refine ⟨fun s hs => ⟨fun hmid => ?_, fun ha h0 => ?_, fun ts e rest hq hw ha hf he => ?_⟩, fun c size u => ?_⟩
  · exact next_of_fails hs (fails_requireInAligned hmid).bind.bind rfl
  · exact next_of_fails hs (fails_rebuildTree_of_size_zero ha h0).bind rfl
  · obtain ⟨i, pos, p, hfails, hforward, -, hrest, hp⟩ := fails_rebuildTree hq hw ha hf he
    refine ⟨p, i, pos, next_of_fails hs hfails.bind rfl, hp.nodes, hp.count, hp.root, hp.unique, hp.size, hp.cap,
      fun j _ => ?_, hforward, hrest⟩
    rw [hp.heap]
    exact heapAt_replicate j
  · exact dump_or_dumpError (ts := []) ⟨Nat.zero_le _, fun i t h => by cases h⟩ rfl (Nat.zero_le _)

/-! ### BUILD_TREE -/

/-- Symbols without a count give no leaves (R145). -/
theorem runs_enqueueLeaves_of_no_counts {l : List Byte} (h : ∀ b ∈ l, r.histAt b = 0) :
    Runs (enqueueLeaves l) cfg r q () r q := by
  induction l with
  | nil => exact runs_pure.2 ⟨rfl, rfl, rfl⟩
  | cons b l ih =>
    refine runs_getRegs_bind.2 (runs_ite.2 ?_)
    rw [if_pos (h b List.mem_cons_self)]
    exact ih fun x hx => h x (List.mem_cons_of_mem b hx)

theorem fails_buildTree_emptyHistogram (h : r.present = []) :
    Fails buildTree cfg r q .emptyHistogram { r with pool := { r.pool.cleared with cap := 256 } } q := by
  have hnone : ∀ b ∈ symbols, r.histAt b = 0 := by simpa [Regs.present] using h
  exact fails_modifyPool_bind.2 (Runs.bind_fails (runs_enqueueLeaves_of_no_counts hnone)
    (fails_getRegs_bind.2 (fails_require_bind.2 (.inl ⟨rfl, rfl, rfl, rfl⟩))))

theorem exec_buildTree_emptyHistogram {s : State} (hs : s.running = none) (h : s.regs.present = []) :
    exec .buildTree s = .next
      ({ s.released with regs := { s.released.regs with pool := { s.released.regs.pool with cap := 256 } } }.failed
        .emptyHistogram) :=
  next_of_fails hs (fails_buildTree_emptyHistogram h).bind rfl

/-- BUILD_TREE answers its root, in the pool of `Built` (R145, R146). -/
theorem exec_buildTree_built {s : State} (hs : s.running = none) (hne : s.regs.present ≠ []) (ht : s.regs.total < 2 ^ 64) :
    ∃ p : Pool, exec .buildTree s = .next
        ({ s with regs := { s.regs with pool := p } }.done true (BitVec.ofNat 64 p.root)) ∧ Built s.regs p := by
  obtain ⟨p, hrun, hp⟩ := runs_buildTree (cfg := s.config) (q := s.port) hne ht
  exact ⟨p, next_of_runs hs (hrun.bind (runs_pure.2 ⟨rfl, rfl, rfl⟩)) rfl, hp⟩

/-- Settles O30: the empty histogram, the pool of `Built`, and the pool of `Halted`. (`buildTree` itself names the model's
body.) -/
theorem buildTree_holds : Obligations.BuildTree := by
  refine fun s hs => ⟨exec_buildTree_emptyHistogram hs, fun hne ht => ?_, fun ht => ?_⟩
  · obtain ⟨p, hexec, hp⟩ := exec_buildTree_built hs hne ht
    exact ⟨p, hexec, hp.unique, hp.count, hp.root, hp.size, hp.cap, hp.stack, hp.freq, hp.leaves, hp.internal, hp.wf,
      hp.queue, p.tree p.root, hp.holds, hp.symbols⟩
  · obtain ⟨p, hfails, hp⟩ := fails_buildTree (cfg := s.config) (q := s.port) ht
    refine ⟨p, next_of_fails hs hfails.bind rfl, hp.root, ?_, hp.cap, hp.base, hp.sum, hp.leaves, hp.internal, hp.wf,
      hp.queue, hp.pair⟩
    rw [hp.wf.unique, if_pos hp.root]

/-- Settles O31: BUILD_TREE succeeds over a counted symbol only, and then each join took two minima (`Built.minima`). -/
theorem buildTreeJoinsTwoMinima : Obligations.BuildTreeJoinsTwoMinima := by
  intro s t hs ht h hok
  by_cases hempty : s.regs.present = []
  · rw [exec_buildTree_emptyHistogram hs hempty, Host.Outcome.next.injEq] at h
    subst h
    cases hok
  · obtain ⟨p, hexec, hp⟩ := exec_buildTree_built hs hempty ht
    rw [hexec, Host.Outcome.next.injEq] at h
    subst h
    exact hp.minima

/-! ### SET_ROOT -/

theorem Pool.setHeld_nil (h : Held) : p.setHeld NIL h = p :=
  Pool.ext_node (fun k => by rw [Pool.node_setHeld, if_neg (by simp only [NIL]; omega)]) rfl rfl rfl rfl rfl rfl rfl

/-- The pool after SET_ROOT (R147): the old root is released and the new one held, which with NIL is no node. -/
def Pool.rooted (p : Pool) (n : Nat) : Pool :=
  { p with nodes := (p.releaseRoot.setHeld n .root).nodes, root := n, unique := if n = NIL then 0 else p.leaves n }

theorem Pool.rooted_nil : p.rooted NIL = { p.releaseRoot with root := NIL, unique := 0 } := by
  rw [Pool.rooted, Pool.setHeld_nil, Pool.releaseRoot_eq, if_pos rfl]

/-- Leaves counts alike before and after the changes of owner (R148). -/
theorem Pool.rooted_of_ne_nil {n : Nat} (h : n ≠ NIL) : p.rooted n = p.releaseRoot.makeRoot n := by
  have hshape : SameShape (p.releaseRoot.setHeld n .root) p := (sameShape_setHeld _ n .root).trans fun k => by
    rw [Pool.node_releaseRoot]
    split <;> exact ⟨rfl, rfl, rfl, rfl⟩
  rw [Pool.makeRoot, hshape.leaves, Pool.rooted, if_neg h, Pool.setHeld_eq, Pool.releaseRoot_eq]

theorem Pool.node_rooted (n : Nat) {i : Nat} (hi : i < 511) :
    (p.rooted n).node i =
      if i = n then { p.node i with held := .root }
      else if i = p.root then { p.node i with held := .unowned } else p.node i := by
  change (p.releaseRoot.setHeld n .root).node i = _
  rw [Pool.node_setHeld, Pool.node_releaseRoot]
  by_cases hn : i = n
  · rw [if_pos ⟨hn.symm, hi⟩, if_pos hn]
    split <;> rfl
  · rw [if_neg fun h => hn h.1.symm, if_neg hn]
    simp only [hi, and_true]

theorem fails_setRoot {n : Nat} {e : ErrName} (h : n ≠ NIL) (hcheck : Fails (checkFree n) cfg r q e r q) :
    Fails (setRoot n) cfg r q e r q := by
  rw [setRoot, if_neg h]
  exact hcheck.bind

theorem runs_setRoot {n : Nat} (h : n = NIL ∨ (n < r.pool.count ∧ (r.pool.node n).held = .unowned)) :
    Runs (setRoot n) cfg r q () { r with pool := r.pool.rooted n } q := by
  rw [setRoot]
  split
  next hnil => exact runs_modifyPool.2 ⟨by rw [hnil, Pool.rooted_nil], rfl⟩
  next hne =>
    obtain ⟨hn, hfree⟩ := h.resolve_left hne
    exact (runs_checkFree hn hfree).bind (runs_modifyPool.2 ⟨by rw [Pool.rooted_of_ne_nil hne], rfl⟩)

/-- Settles O32: the two checks of the operand, then the pool of `Pool.rooted`. (`setRoot` itself names the model's
body.) -/
theorem setRoot_holds : Obligations.SetRoot := fun s na hs =>
  ⟨fun hne hna => next_of_fails hs (fails_setRoot hne (fails_checkFree_badNode hna)).bind rfl,
    fun hne hna hheld => next_of_fails hs (fails_setRoot hne (fails_checkFree_nodeHeld hna hheld)).bind rfl,
    fun h => ⟨s.regs.pool.rooted na, next_of_runs hs ((runs_setRoot h).bind (runs_pure.2 ⟨rfl, rfl, rfl⟩)) rfl,
      fun _ hi => Pool.node_rooted na hi⟩⟩

/-! ### DUMP_TREE -/

theorem runs_rootOperand (h : r.pool.root ≠ NIL) : Runs rootOperand cfg r q r.pool.root r q :=
  runs_getRegs_bind.2 (runs_require_bind.2 ⟨bne_iff_ne.2 h, runs_pure.2 ⟨rfl, rfl, rfl⟩⟩)

theorem fails_rootOperand (h : r.pool.root = NIL) : Fails rootOperand cfg r q .noRoot r q :=
  fails_getRegs_bind.2 (fails_require_bind.2 (.inl ⟨bne_eq_false_iff_eq.2 h, rfl, rfl, rfl⟩))

theorem fails_requireOutAligned (h : r.out.bitPos % 8 ≠ 0) : Fails requireOutAligned cfg r q .misaligned r q :=
  fails_getRegs_bind.2 (fails_require.2 ⟨beq_eq_false_iff_ne.2 h, rfl, rfl, rfl⟩)

/-- DUMP_TREE's body flushes the dump behind the pending bits and yields its length (R151). -/
theorem runs_dumpTree {t : CodeTree} {pending : List Bool} (hroot : r.pool.root ≠ NIL) (ht : r.pool.Holds t r.pool.root)
    (hq : q.Granting) (hout : r.out = OutSide.of pending) (hlen : pending.length < 8 * cfg.block)
    (h8 : pending.length % 8 = 0) :
    Runs dumpTree cfg r q (t.dump cfg).length (r.flushed (pending ++ bitsOf (t.dump cfg)))
      (q.flushed (pending ++ bitsOf (t.dump cfg))) := by
  have haligned : r.out.bitPos % 8 = 0 := by rw [hout]; exact h8
  refine (runs_rootOperand hroot).bind ((runs_requireOutAligned haligned).bind
    (runs_getConfig_bind.2 (runs_getRegs_bind.2 ?_)))
  rw [dump_of_holds ht]
  exact (runs_outBytes (t.dump cfg) hq hout hlen h8).bind
    ((runs_flushOut_emitted hq).bind (runs_pure.2 ⟨rfl, rfl, rfl⟩))

/-- Settles O33: the two checks in their order, then `runs_dumpTree`. -/
theorem dumpTreeWritesTheDump : Obligations.DumpTreeWritesTheDump := by
  refine fun s hs => ⟨fun hroot => ?_, fun hroot hmid => ?_, fun t pending hroot ht hq hout hlen h8 => ?_⟩
  · exact next_of_fails hs (fails_rootOperand hroot).bind.bind rfl
  · exact next_of_fails hs ((runs_rootOperand hroot).bind_fails (fails_requireOutAligned hmid).bind).bind rfl
  · refine next_of_runs hs ((runs_dumpTree hroot ht hq hout hlen h8).bind (runs_pure.2 ⟨rfl, rfl, rfl⟩)) ?_
    rw [CodeTree.length_dump]
    rfl

end Sys2Proof.Machine
end

section
/-! The code family (44_codes.md) and CODE_WRITE (46_bitio.md): the code register, the table BUILD_CODES leaves and what its
entries are, and a code put out. -/

namespace Sys2Proof.Machine

variable {cfg : Config} {r : Regs} {q : Ports}

/-! ### The code register -/

theorem setWidth_ofBool (b : Bool) : (BitVec.ofBool b).setWidth 64 = if b then 1 else 0 := by
  cases b <;> rfl

theorem Runs.ite_pos {α : Type} {c : Prop} [Decidable c] {p p' : Proc α} {a : α} {r' : Regs} {q' : Ports} (hc : c)
    (h : Runs p cfg r q a r' q') : Runs (if c then p else p') cfg r q a r' q' := by
  rwa [runs_ite, if_pos hc]

theorem Runs.ite_neg {α : Type} {c : Prop} [Decidable c] {p p' : Proc α} {a : α} {r' : Regs} {q' : Ports} (hc : ¬ c)
    (h : Runs p' cfg r q a r' q') : Runs (if c then p else p') cfg r q a r' q' := by
  rwa [runs_ite, if_neg hc]

/-- Settles O36: the full and the empty register answer "false"; a push and a pop set one bit (`getLsbD_setBit`). -/
theorem codeRegister : Obligations.CodeRegister := by
  refine fun s hs => ⟨?clear, fun b hfull => ?full, fun b hroom => ⟨(s.regs.code.push b).bits, ?push, ?pushed⟩,
    fun hempty => ?empty, fun hsome => ⟨s.regs.code.pop.bits, ?pop, ?popped⟩⟩
  case clear => exact next_of_runs hs (runs_modifyRegs_bind.2 (runs_pure.2 ⟨rfl, rfl, rfl⟩)) rfl
  case full => exact next_of_runs hs (runs_getRegs_bind.2 (.ite_pos hfull (runs_pure.2 ⟨rfl, rfl, rfl⟩))) rfl
  case push =>
    exact next_of_runs hs (runs_getRegs_bind.2 (.ite_neg hroom (runs_modifyRegs_bind.2 (runs_pure.2 ⟨rfl, rfl, rfl⟩)))) rfl
  case pushed => exact fun _ => getLsbD_setBit _ _ _ _
  case empty => exact next_of_runs hs (runs_getRegs_bind.2 (.ite_pos hempty (runs_pure.2 ⟨rfl, rfl, rfl⟩))) rfl
  case pop =>
    rw [← setWidth_ofBool]
    exact next_of_runs hs (runs_getRegs_bind.2 (.ite_neg hsome (runs_modifyRegs_bind.2 (runs_pure.2 ⟨rfl, rfl, rfl⟩)))) rfl
  case popped => exact fun _ => getLsbD_setBit _ _ _ _

/-! ### The table of a tree -/

/-- The code table is the one BUILD_CODES records from this tree (R164). -/
def Regs.Coded (r : Regs) (t : CodeTree) : Prop :=
  r.table = recordAll (Vector.replicate 256 CodeEntry.invalid) t.codes

theorem Regs.length_codeOf (b : Byte) : (r.codeOf b).length = (r.entry b).len := by
  simp [Regs.codeOf, codeBits]

theorem CodeTree.fst_mem_symbols {t : CodeTree} {e : Byte × List Bool} (h : e ∈ t.codes) : e.1 ∈ t.symbols := by
  rw [← CodeTree.map_fst_codes]
  exact List.mem_map_of_mem h

section Coded

variable {t : CodeTree} (h : r.Coded t)
include h

theorem Regs.Coded.entry_of_none {b : Byte} (hb : t.codeOf b = none) : r.entry b = CodeEntry.invalid := by
  rw [entry_recordAll b h, hb]

theorem Regs.Coded.entry_of_some {b : Byte} {code : List Bool} (hb : t.codeOf b = some code) :
    r.entry b = CodeEntry.of code := by
  rw [entry_recordAll b h, hb]

/-- R167(a). -/
theorem Regs.Coded.valid_iff (b : Byte) : (r.entry b).valid = true ↔ b ∈ t.symbols := by
  cases hb : t.codeOf b with
  | none => simp [h.entry_of_none hb, codeOf_eq_none.1 hb, CodeEntry.invalid]
  | some code => simp [h.entry_of_some hb, CodeTree.fst_mem_symbols (codeOf_eq_some hb), CodeEntry.of]

theorem Regs.Coded.validEntries_eq : r.validEntries = symbols.countP fun b => t.symbols.contains b :=
  List.countP_congr fun b _ => (h.valid_iff b).trans List.contains_iff_mem.symm

/-- The bits of a valid entry are the path to a leaf of its symbol (R164). -/
theorem Regs.Coded.codeOf_mem (hl : t.leaves ≤ 256) {b : Byte} (hb : (r.entry b).valid = true) :
    (b, r.codeOf b) ∈ t.codes := by
  cases hcode : t.codeOf b with
  | none => exact absurd ((h.valid_iff b).1 hb) (codeOf_eq_none.1 hcode)
  | some code =>
    have hmem := codeOf_eq_some hcode
    have hlen : code.length ≤ 256 := (CodeTree.code_length_lt hmem).le.trans hl
    rw [Regs.codeOf, h.entry_of_some hcode, codeBits_of code hlen]
    exact hmem

/-- Without duplicate symbols the valid entries fill the code space exactly (R167(d)): they are the tree's leaves in another
order. -/
theorem Regs.Coded.kraft (hl : t.leaves ≤ 256) (hn : t.symbols.Nodup) :
    ((symbols.filter fun b => (r.entry b).valid).map fun b => 2 ^ (255 - (r.entry b).len)).sum = 2 ^ 255 := by
  have hperm : (symbols.filter fun b => (r.entry b).valid).Perm t.symbols :=
    (List.perm_ext_iff_of_nodup (nodup_symbols.filter _) hn).2 fun b => by simp [mem_symbols, h.valid_iff]
  have hlen : ∀ e ∈ t.codes, (r.entry e.1).len = e.2.length := fun e he => by
    have hvalid := (h.valid_iff e.1).2 (CodeTree.fst_mem_symbols he)
    have hcode : t.codeOf e.1 = some (r.codeOf e.1) := codeOf_of_mem hn (h.codeOf_mem hl hvalid)
    rw [codeOf_of_mem hn he, Option.some.injEq] at hcode
    rw [← Regs.length_codeOf, hcode]
  calc ((symbols.filter fun b => (r.entry b).valid).map fun b => 2 ^ (255 - (r.entry b).len)).sum
      = (t.symbols.map fun b => 2 ^ (255 - (r.entry b).len)).sum := (hperm.map _).sum_eq
    _ = (t.codes.map fun e => 2 ^ (255 - (r.entry e.1).len)).sum := by
        rw [← CodeTree.map_fst_codes, List.map_map]; rfl
    _ = (t.codes.map fun e => 2 ^ (255 - e.2.length)).sum := by
        rw [List.map_congr_left fun e he => by rw [hlen e he]]
    _ = 2 ^ 255 := t.kraft 255 hl

end Coded

/-! ### BUILD_CODES -/

theorem fails_buildCodes_degenerate (hroot : r.pool.root ≠ NIL) (hleaf : (r.pool.node r.pool.root).kind = .leaf) :
    Fails buildCodes cfg r q .degenerateTree r q :=
  (runs_rootOperand hroot).bind_fails (fails_getRegs_bind.2 (fails_require_bind.2
    (.inl ⟨bne_eq_false_iff_eq.2 hleaf, rfl, rfl, rfl⟩)))

/-- BUILD_CODES records the tree at ROOT and answers the number of its symbols (R164). -/
theorem exec_buildCodes {s : State} {l t : CodeTree} (hs : s.running = none) (hroot : s.regs.pool.root ≠ NIL)
    (hw : s.regs.pool.Wf) (h : s.regs.pool.Holds (.node l t) s.regs.pool.root) :
    ∃ table, exec .buildCodes s = .next
        ({ s with regs := { s.regs with code := Code.empty, table := table } }.done true
          (BitVec.ofNat 64 (symbols.countP fun b => (CodeTree.node l t).symbols.contains b))) ∧
      ({ s.regs with table := table } : Regs).Coded (.node l t) := by
  refine ⟨_, next_of_runs hs ((runs_buildCodes hroot hw h).bind (runs_getRegs_bind.2 (runs_pure.2 ⟨rfl, rfl, rfl⟩))) ?_, rfl⟩
  have hcoded : ({ s.regs with
      code := Code.empty
      table := recordAll (Vector.replicate 256 CodeEntry.invalid) (CodeTree.node l t).codes } : Regs).Coded (.node l t) := rfl
  rw [hcoded.validEntries_eq]
  rfl

/-- Settles O37: the two checks, then the table of `exec_buildCodes` entry by entry (`entry_recordAll`). -/
theorem buildCodesRecordsThePaths : Obligations.BuildCodesRecordsThePaths := by
  refine fun s hs => ⟨fun hroot => ?_, fun hroot hleaf => ?_, fun l r hroot hw h => ?_⟩
  · exact next_of_fails hs (fails_rootOperand hroot).bind.bind rfl
  · exact next_of_fails hs (fails_buildCodes_degenerate hroot hleaf).bind rfl
  · obtain ⟨table, hexec, hcoded⟩ := exec_buildCodes hs hroot hw h
    exact ⟨table, hexec, fun b => entry_recordAll (r := { s.regs with table := table }) b hcoded⟩

/-- Settles O38: the bits of each valid entry are the path to its symbol's leaf (`Regs.Coded.codeOf_mem`), so the laws of a
tree's paths give every clause. -/
theorem codesArePrefixFree : Obligations.CodesArePrefixFree := by
  intro s t l r hs hroot hw h hn hexec
  obtain ⟨table, hbuilt, htable⟩ := exec_buildCodes hs hroot hw h
  rw [hbuilt, Host.Outcome.next.injEq] at hexec
  have hcoded : t.regs.Coded (.node l r) := by rw [← hexec]; exact htable
  have hl := leaves_le hw h
  refine ⟨hcoded.valid_iff, fun b hb => ?_, fun a b hab ha hb hpre => ?_, hcoded.kraft hl hn, fun b hb => ?_⟩
  · have hmem := hcoded.codeOf_mem hl hb
    rw [← Regs.length_codeOf]
    exact ⟨List.length_pos_of_ne_nil (CodeTree.codes_node_ne_nil hmem),
      Nat.le_of_lt_succ ((CodeTree.code_length_lt hmem).trans_le hl)⟩
  · exact hab (congrArg Prod.fst (CodeTree.codes_prefix (hcoded.codeOf_mem hl ha) (hcoded.codeOf_mem hl hb) hpre))
  · exact walk_of_holds h (hcoded.codeOf_mem hl hb)

/-! ### CODE_WRITE -/

/-- Settles O42: the check of the entry, then `runs_outCode`. -/
theorem codeWrite : Obligations.CodeWrite := by
  refine fun s sym hs => ⟨fun hinvalid => ?_, fun pending hvalid hq hout hlen => ?_⟩
  · exact next_of_fails hs (fails_getRegs_bind.2 (fails_require_bind.2 (.inl ⟨hinvalid, rfl, rfl, rfl⟩))) rfl
  · exact next_of_runs hs (runs_getRegs_bind.2 (runs_require_bind.2
      ⟨hvalid, (runs_outCode sym hq hout hlen).bind (runs_pure.2 ⟨rfl, rfl, rfl⟩)⟩)) rfl

end Sys2Proof.Machine
end

section
/-! The header family (45_header.md): HDR_WRITE and HDR_READ, from the 14 bytes that go out and that come in. -/

namespace Sys2Proof.Machine

variable {cfg : Config} {r r' : Regs} {q q' : Ports}

/-! ### HDR_WRITE -/

/-- Settles O39: `runs_hdrWrite`, with the bytes of the header one by one (`headerBytes_eq`). -/
theorem hdrWriteLayout : Obligations.HdrWriteLayout := by
  refine fun s hs => ⟨fun hmid => ?_, fun pending hq hout hlen h8 => ?_⟩
  · exact next_of_fails hs (fails_requireOutAligned hmid).bind.bind rfl
  · refine next_of_runs hs ((runs_hdrWrite hq hout hlen h8).bind (runs_pure.2 ⟨rfl, rfl, rfl⟩)) ?_
    rw [headerBytes_eq]
    rfl

/-! ### HDR_READ -/

/-- Once the 14 bytes are read, all four registers are loaded and only the check of the magic is left (R173). -/
theorem goesOn_hdrRead {h : List Byte} (ha : r.inp.bitPos % 8 = 0) (hread : Runs (headerRead 14) cfg r q h r' q') :
    GoesOn hdrRead cfg r q (require ((headerOf h).magic == cfg.magic) .badMagic) { r' with hdr := headerOf h } q' :=
  (runs_requireInAligned ha).goesOn.trans (hread.goesOn.trans
    ((Runs.goesOn (a := ()) (runs_modifyRegs.2 ⟨rfl, rfl⟩)).trans
      (goesOn_getConfig_bind.2 (Runs.goesOn (runs_getRegs.2 ⟨rfl, rfl, rfl⟩)))))

/-- Settles O40: the bytes of a header load its fields (`headerOf_headerBytes`), and then the magic decides; a short input
ends inside `headerRead`, before any register is loaded. -/
theorem hdrReadLoads : Obligations.HdrReadLoads := by
  refine fun s hs => ⟨fun hmid => ?_, fun hq hw ha => ⟨fun magic perm treeSize fileSize rest hu => ?_, fun hshort => ?_⟩⟩
  · exact next_of_fails hs (fails_requireInAligned hmid).bind.bind rfl
  · rw [← headerBytes_eq] at hu
    obtain ⟨i, pos, hread, htaken, -⟩ := runs_headerRead (cfg := s.config) hq hw ha (length_headerBytes ..) hu
    have hload := goesOn_hdrRead ha hread
    rw [headerOf_headerBytes] at hload
    refine ⟨i, pos, ?_, htaken.forward, ?_, ?_⟩
    · dsimp only
      split
      next hm =>
        exact next_of_runs hs ((hload.runs (a := ()) (runs_require.2 ⟨beq_iff_eq.2 hm, rfl, rfl⟩)).bind
          (runs_pure.2 ⟨rfl, rfl, rfl⟩)) rfl
      next hm =>
        exact next_of_fails hs (hload.fails (fails_require.2 ⟨beq_eq_false_iff_ne.2 hm, rfl, rfl, rfl⟩)).bind rfl
    · rw [htaken.unreadBytes ha, hu]
      exact List.drop_left' (length_headerBytes ..)
    · rw [htaken.aligned]
      omega
  · obtain ⟨i, pos, hfails, hrest⟩ := fails_headerRead (cfg := s.config) hq hw ha hshort
    exact ⟨i, pos, next_of_fails hs ((runs_requireInAligned ha).bind_fails hfails.bind).bind rfl, hrest⟩

end Sys2Proof.Machine
end

section
/-! The bit and byte family (46_bitio.md): BIT_WRITE, BYTE_WRITE and FLUSH on the write side, BIT_READ and BYTE_READ on the
read side. -/

namespace Sys2Proof.Machine

variable {α : Type} {cfg : Config} {r : Regs} {q : Ports}

/-! ### BIT_WRITE and BYTE_WRITE -/

/-- Of at most one block of bits all stay pending, but of a full one none (R181, R183). -/
theorem length_leftOver_of_le {block : Nat} {l : List Bool} (hb : 1 ≤ block) (h : l.length ≤ 8 * block) :
    (leftOver block l).length = if l.length = 8 * block then 0 else l.length := by
  split
  next hfull => rw [leftOver_full hb hfull, List.length_nil]
  next hroom => rw [leftOver_short (Nat.lt_of_le_of_ne h hroom)]

/-- RESULT after at most one block of bits has been put out (R185, R187). -/
theorem runs_outPosition_emitted {l : List Bool} {k : Nat} (hk : l.length = k) (h : k ≤ 8 * cfg.block) :
    Runs outPosition cfg (r.emitted cfg.block l) q
      (true, BitVec.ofNat 64 (if k = 8 * cfg.block then 0 else k)) (r.emitted cfg.block l) q := by
  subst hk
  rw [← length_leftOver_of_le cfg.block_pos h]
  exact runs_getRegs_bind.2 (runs_pure.2 ⟨rfl, rfl, rfl⟩)

/-- Settles O41: `runs_outBit` and `runs_outByte`, then OUT_BITPOS; the pending bits and the new ones are at most one
block, since a block holds whole bytes. -/
theorem bitWriteAndByteWrite : Obligations.BitWriteAndByteWrite := by
  refine fun s pending hs hq hout hlen => ⟨fun b => ?_, fun v hmid => ?_, fun v ha => ?_⟩
  · exact next_of_runs hs ((runs_outBit b hq hout hlen).bind (runs_outPosition_emitted List.length_append hlen)) rfl
  · exact next_of_fails hs (fails_requireOutAligned (by rwa [hout])).bind rfl
  · have hle : pending.length + 8 ≤ 8 * s.config.block := by omega
    exact next_of_runs hs ((runs_requireOutAligned (by rwa [hout])).bind
      ((runs_outByte v hq hout hlen ha).bind (runs_outPosition_emitted List.length_append hle))) rfl

/-! ### FLUSH -/

/-- With nothing pending a flush makes no port request (R182). -/
theorem runs_flushOut_nil (h : r.out = OutSide.of []) : Runs flushOut cfg r q () r q := by
  have hout : r.emptyOut = r := by rw [Regs.emptyOut, OutSide.empty, ← OutSide.of_nil, ← h]
  unfold flushOut
  rw [runs_getRegs_bind, h, if_neg (by decide)]
  exact runs_modifyRegs.2 ⟨hout, rfl⟩

/-- FLUSH's answer is the number of bytes pending before the flush (R188). -/
theorem exec_flush {s : State} {r' : Regs} {q' : Ports} (hs : s.running = none)
    (h : Runs flushOut s.config s.regs s.port () r' q') :
    exec .flush s = .next ({ s with regs := r', port := q' }.done true (BitVec.ofNat 64 s.regs.out.pendingBytes)) :=
  next_of_runs hs (runs_getRegs_bind.2 (h.bind (runs_pure.2 ⟨rfl, rfl, rfl⟩))) rfl

/-- Settles O43: `runs_flushOut_nil` needs nothing of the host, `runs_flushOut` that it grants the SnkWrite. -/
theorem flushWritesThePending : Obligations.FlushWritesThePending := by
  refine fun s hs => ⟨fun hnone => ?_, fun pending hq hout => ?_⟩
  · rw [exec_flush hs (runs_flushOut_nil hnone), hnone]
    rfl
  · rw [exec_flush hs (runs_flushOut hq hout), hout]
    rfl

/-! ### BIT_READ and BYTE_READ -/

/-- The shape InBit and InByte share (R191, R192): n bits of INBUF, read off by f, if `Refill` finds an unread one. -/
def takeInput (n : Nat) (f : InSide → α) : Proc (Option α) := do
  let data ← refill
  if data then
    let r ← getRegs
    modifyRegs fun r => { r with inp := r.inp.advance n }
    return some (f r.inp)
  else return none

theorem inBit_eq_takeInput : inBit = takeInput 1 InSide.currentBit := rfl

theorem inByte_eq_takeInput : inByte = takeInput 8 InSide.currentByte := rfl

theorem InSide.currentBit_fresh (v : Byte) (rest : List Byte) (eof : Bool) :
    (InSide.mk (v :: rest) 0 eof).currentBit = v.getLsbD 0 := by
  rw [InSide.currentBit, Nat.zero_div, Nat.zero_mod, List.getD_cons_zero]

theorem InSide.currentByte_fresh (v : Byte) (rest : List Byte) (eof : Bool) :
    (InSide.mk (v :: rest) 0 eof).currentByte = v := by
  rw [InSide.currentByte, Nat.zero_div, List.getD_cons_zero]

section Taking

variable {n : Nat} {f : InSide → α}

theorem runs_takeInput_of_data {r' : Regs} {q' : Ports} (h : Runs refill cfg r q true r' q') :
    Runs (takeInput n f) cfg r q (some (f r'.inp)) { r' with inp := r'.inp.advance n } q' :=
  h.bind (runs_getRegs_bind.2 (runs_modifyRegs_bind.2 (runs_pure.2 ⟨rfl, rfl, rfl⟩)))

theorem runs_takeInput_of_end {r' : Regs} {q' : Ports} (h : Runs refill cfg r q false r' q') :
    Runs (takeInput n f) cfg r q none r' q' :=
  h.bind (runs_pure.2 ⟨rfl, rfl, rfl⟩)

/-- A used-up INBUF is filled with the next block (R190). -/
theorem runs_refill_fetched {s : State} (h : 8 * s.regs.inp.buf.length ≤ s.regs.inp.bitPos) (he : s.regs.inp.eof = false)
    (hq : s.port.Granting) :
    Runs refill s.config s.regs s.port (!(s.port.nextBlock s.config.block).isEmpty) s.fetched.regs s.fetched.port :=
  runs_refill_fetch hq h he

/-- A read command in each of the three ways `Refill` goes (R190): its body, past its checks, is a `takeInput` p
and its answer k, which is "false" at the end; `first` is what p takes from a fresh block. -/
theorem next_of_takes {s : State} {i : Instr} {body : Proc Answer} {p : Proc (Option α)}
    {k : Option α → Proc Answer} {g : α → Word} {first : Byte → α} (hs : s.running = none)
    (hbody : GoesOn body s.config s.regs s.port (p >>= k) s.regs s.port) (hp : p = takeInput n f)
    (hnone : k none = pure (false, 0)) (hsome : ∀ a, k (some a) = pure (true, g a))
    (hfirst : ∀ v rest eof, f ⟨v :: rest, 0, eof⟩ = first v) :
    (s.regs.inp.bitPos < 8 * s.regs.inp.buf.length →
      (.next (s.perform i false body) : Host.Outcome State Fault Refusal) =
        .next ((s.consumed n).done true (g (f s.regs.inp)))) ∧
    (8 * s.regs.inp.buf.length ≤ s.regs.inp.bitPos → s.regs.inp.eof = true →
      (.next (s.perform i false body) : Host.Outcome State Fault Refusal) = .next (s.done false 0)) ∧
    (8 * s.regs.inp.buf.length ≤ s.regs.inp.bitPos → s.regs.inp.eof = false → s.port.Granting →
      (.next (s.perform i false body) : Host.Outcome State Fault Refusal) = .next
        (match s.port.nextBlock s.config.block with
         | [] => s.fetched.done false 0
         | v :: _ => (s.fetched.consumed n).done true (g (first v)))) := by
  subst hp
  have taken {r' q'} (h : Runs refill s.config s.regs s.port true r' q') :
      Runs body s.config s.regs s.port (true, g (f r'.inp)) { r' with inp := r'.inp.advance n } q' :=
    hbody.runs ((runs_takeInput_of_data h).bind (by rw [hsome]; exact runs_pure.2 ⟨rfl, rfl, rfl⟩))
  have ended {r' q'} (h : Runs refill s.config s.regs s.port false r' q') :
      Runs body s.config s.regs s.port (false, 0) r' q' :=
    hbody.runs ((runs_takeInput_of_end h).bind (by rw [hnone]; exact runs_pure.2 ⟨rfl, rfl, rfl⟩))
  refine ⟨fun h => ?_, fun h he => ?_, fun h he hq => ?_⟩
  · exact next_of_runs hs (taken (runs_refill_data h)) rfl
  · exact next_of_runs hs (ended (runs_refill_eof h he)) rfl
  · have hfetch := runs_refill_fetched h he hq
    split
    next hblock =>
      rw [hblock] at hfetch
      exact next_of_runs hs (ended hfetch) rfl
    next v rest hblock =>
      have hfresh : f s.fetched.regs.inp = first v := by
        rw [State.fetched, hblock]
        exact hfirst v rest _
      rw [hblock] at hfetch
      rw [← hfresh]
      exact next_of_runs hs (taken hfetch) rfl

end Taking

/-- Settles O44: BIT_READ is `InBit` and the bit it takes; a fresh block's first bit is bit 0 of its first byte. -/
theorem bitReadTakesTheNextBit : Obligations.BitReadTakesTheNextBit := fun _ hs =>
  next_of_takes (g := fun b : Bool => (if b then 1 else 0 : Word)) hs (GoesOn.refl _) inBit_eq_takeInput rfl
    (fun b => by cases b <;> rfl) InSide.currentBit_fresh

/-- Settles O45: past the check of R180, BYTE_READ is `InByte` and the byte it takes. -/
theorem byteReadTakesTheNextByte : Obligations.ByteReadTakesTheNextByte := by
  refine fun s hs => ⟨fun hmid => ?_, fun ha => ?_⟩
  · exact next_of_fails hs (fails_requireInAligned hmid).bind rfl
  · exact next_of_takes hs (runs_requireInAligned ha).goesOn inByte_eq_takeInput rfl (fun _ => rfl)
      InSide.currentByte_fresh

end Sys2Proof.Machine
end

section
/-! The driver family (47_drivers.md): DECODE, the round trip, the payload commands and ENCODE, each from what its body does
when it runs to its end and when it raises. -/

namespace Sys2Proof.Machine

variable {cfg : Config} {r : Regs} {q : Ports}

/-! ### DECODE -/

theorem fails_startDriver (h : r.out.bitPos % 8 ≠ 0) : Fails startDriver cfg r q .misaligned r q :=
  (fails_requireOutAligned h).bind

/-- However DECODE ends, t has these header registers, the tree released, and everything s has that DECODE does not work
on (R203, R221). -/
def State.DecodeKeeps (s t : State) (hdr : HeaderRegs) : Prop :=
  t.running = none ∧ t.regs.hdr = hdr ∧ t.regs.pool.root = NIL ∧ t.regs.pool.count = 0 ∧ t.regs.pool.size = 0 ∧
  t.regs.arg = s.regs.arg ∧ t.regs.hist = s.regs.hist ∧ t.regs.scanCount = s.regs.scanCount ∧
  t.regs.code = s.regs.code ∧ t.regs.table = s.regs.table ∧ t.regs.out.bitPos = 0 ∧
  t.config = s.config ∧ t.script = s.script ∧ t.port.src = s.port.src

/-- DECODE ends by e with these header registers and these bytes written (R203, R221). -/
def State.DecodeFails (s : State) (e : ErrName) (hdr : HeaderRegs) (written : List Byte) : Prop :=
  ∃ t : State, exec .decode s = .next t ∧ s.DecodeKeeps t hdr ∧ t.status = s.status.raise e ∧ t.regs.result = 0 ∧
    t.port.snk = s.port.snk ++ written ∧ t.regs.bytesWritten = BitVec.ofNat 64 written.length ∧
    t.regs.bytesRead = BitVec.ofNat 64 t.port.srcPos

section Failing

variable {s : State} {e : ErrName} {hdr : HeaderRegs} {i : InSide} {pos : Nat} {p : Pool}

/-- DECODE's body raises e after the header, with some bits put out. -/
theorem decodeFails_of_emitted {bits : List Bool} (hs : s.running = none)
    (h : Fails decodeStream s.config s.regs s.port e
      (({ s.regs.headerLoaded i pos hdr with pool := p } : Regs).emitted s.config.block bits)
      (({ s.port with srcPos := pos } : Ports).emitted s.config.block bits)) :
    s.DecodeFails e hdr (fullBlocks s.config.block bits) :=
  ⟨_, next_of_fails_released hs h rfl, ⟨hs, rfl, rfl, rfl, rfl, rfl, rfl, rfl, rfl, rfl, rfl, rfl, rfl, rfl⟩,
    (s.status.raise_eq e).symm, rfl, rfl, BitVec.zero_add _, rfl⟩

/-- DECODE's body raises e before it puts anything out. -/
theorem decodeFails_of_pending {pending : List Bool} (hs : s.running = none) (hout : s.regs.out = OutSide.of pending)
    (hlen : pending.length < 8 * s.config.block)
    (h : Fails decodeStream s.config s.regs s.port e { s.regs.headerLoaded i pos hdr with pool := p }
      { s.port with srcPos := pos }) :
    s.DecodeFails e hdr [] := by
  rw [← fullBlocks_short hlen]
  refine decodeFails_of_emitted (bits := pending) (i := i) (pos := pos) (p := p) hs ?_
  have hpending : ({ s.regs.headerLoaded i pos hdr with pool := p } : Regs).out = OutSide.of pending := hout
  rwa [Regs.emitted_pending hpending hlen, Ports.emitted_pending hlen]

end Failing

/-- The blocks that hold a bytes and n bits are those that hold the bytes of both (R203). -/
theorem blocks_of_bits {block : Nat} (hb : 1 ≤ block) (a n : Nat) :
    (8 * a + n + 8 * block - 1) / (8 * block) = (a + (n + 7) / 8 + block - 1) / block := by
  rw [← Nat.div_div_eq_div_mul]
  congr 1
  omega

/-- Settles O50: the success is `runs_decodeStream`; every error is one of the `Fails` lemmas of DECODE's body, and
`decodeFails_of_emitted` says what its release leaves. -/
theorem decodeReadsTheStream : Obligations.DecodeReadsTheStream := by
  refine fun s pending hs => ⟨fun hmid => ?misaligned, fun hq hsrc hout hlen h8 => ⟨?reads, fun hshort => ?short,
    fun hdr rest hstream => ⟨fun hmagic => ?magic, fun hmagic => ⟨fun ts e unread hfits he => ?dump, ?payload⟩⟩⟩⟩
  case misaligned => exact next_of_fails_released hs (fails_startDriver hmid).bind rfl
  case reads =>
    intro l t perm leaves rest hl he hn hdr used hstream
    obtain ⟨i, pos, hrun, hpos⟩ := runs_decodeStream (cfg := s.config) hq hsrc hout hlen h8 hl he hn hstream
    have hused : used.length = 14 + ((CodeTree.node l t).dump s.config).length + ((leaves.flatMap (·.2)).length + 7) / 8 := by
      simp only [used, List.length_append, length_headerBytes, length_packBits]
    rw [blocks_of_bits s.config.block_pos, ← hused] at hpos
    exact ⟨_, next_of_runs hs hrun rfl, ⟨hs, rfl, rfl, rfl, rfl, rfl, rfl, rfl, rfl, rfl, rfl, rfl, rfl, rfl⟩, rfl, rfl, rfl,
      congrArg (BitVec.ofNat 64) hpos, rfl⟩
  case short =>
    obtain ⟨i, pos, h⟩ := fails_decodeHeader (cfg := s.config) hq hout h8 hshort
    exact decodeFails_of_pending (p := s.regs.pool) hs hout hlen h
  case magic =>
    obtain ⟨i, pos, -, -, -, -, -, h⟩ := goesOn_decodeHeader (cfg := s.config) hq hout h8 hstream
    exact decodeFails_of_pending (p := s.regs.pool) hs hout hlen (h hmagic)
  case dump =>
    obtain ⟨i, pos, p, h⟩ := fails_decodeDump hq hout h8 hmagic hstream hfits he
    exact decodeFails_of_pending hs hout hlen h
  case payload =>
    intro l t leaves payload part last hl hsize hrest hbits he hn hlast hpre hne
    rw [hrest] at hstream
    obtain ⟨i, pos, p, h⟩ := fails_decodeStream hq hsrc hout hlen h8 hmagic hl hsize hstream hbits he hn hlast hpre hne
    exact decodeFails_of_emitted hs h

/-! ### The round trip -/

/-- A leaf of the tree for each byte of a source, with its code (R204). -/
def CodeTree.leavesOf (t : CodeTree) (source : List Byte) : List (Byte × List Bool) :=
  source.map fun b => (b, (t.codeOf b).getD [])

theorem CodeTree.map_fst_leavesOf (t : CodeTree) (source : List Byte) : (t.leavesOf source).map (·.1) = source := by
  rw [CodeTree.leavesOf, List.map_map]
  exact List.map_id source

theorem CodeTree.length_leavesOf (t : CodeTree) (source : List Byte) : (t.leavesOf source).length = source.length :=
  List.length_map _

theorem CodeTree.flatMap_snd_leavesOf (t : CodeTree) (source : List Byte) :
    (t.leavesOf source).flatMap (·.2) = source.flatMap fun b => (t.codeOf b).getD [] :=
  List.flatMap_map ..

/-- Where each byte has a code these are leaves of the tree. -/
theorem CodeTree.mem_codes_of_leavesOf {t : CodeTree} {source : List Byte}
    (h : ∀ b ∈ source, (t.codeOf b).isSome = true) : ∀ e ∈ t.leavesOf source, e ∈ t.codes := by
  intro e he
  obtain ⟨b, hb, rfl⟩ := List.mem_map.1 he
  obtain ⟨code, hcode⟩ := Option.isSome_iff_exists.1 (h b hb)
  rw [hcode]
  exact codeOf_eq_some hcode

theorem nothing_lt_block (c : Config) : ([] : List Bool).length < 8 * c.block := by
  have hb := c.block_pos
  rw [List.length_nil]
  omega

theorem OutSide.eq_of_nil {o : OutSide} (hpos : o.bitPos = 0) (hbuf : o.buf = []) : o = OutSide.of [] := by
  rw [OutSide.of_nil, ← hbuf, ← hpos]

/-- Settles O51: the stream of `runs_encodeStream` is one that `runs_decodeStream` reads, the leaves being those of the
source's bytes. -/
theorem roundTrip : Obligations.RoundTrip := by
  intro s u source hs hpos hbuf hq hsource hlen
  subst hsource
  obtain ⟨r9, l, t, i, hfirst, hrun⟩ := runs_encodeStream (cfg := s.config) hq hlen (OutSide.eq_of_nil hpos hbuf)
    (nothing_lt_block _) rfl
  rw [packBits_nil, List.append_nil] at hrun
  refine ⟨_, _, next_of_runs hs hrun rfl, hs, rfl, rfl, ?_⟩
  intro hcfg hu hupos hubuf huq husrc hulen
  obtain ⟨i', pos', hdec, -⟩ := runs_decodeStream (cfg := u.config) (l := l) (t := t) (perm := s.regs.hdr.perm)
    (leaves := (CodeTree.node l t).leavesOf s.port.src) (rest := []) huq (by rw [husrc]; exact hulen)
    (OutSide.eq_of_nil hupos hubuf) (nothing_lt_block _) rfl
    hfirst.leaves.2 (CodeTree.mem_codes_of_leavesOf fun b hb => hfirst.has_code hb)
    (by rw [CodeTree.length_leavesOf]; omega)
    (by rw [husrc, hcfg, CodeTree.length_leavesOf, CodeTree.flatMap_snd_leavesOf, List.append_nil])
  refine ⟨_, next_of_runs hu hdec rfl, hu, rfl, ?_⟩
  change u.port.snk ++ packBits [] ++ _ = _
  rw [packBits_nil, List.append_nil, CodeTree.map_fst_leavesOf]

/-! ### ENCODE_PAYLOAD -/

theorem add_length_undelivered_le (i : InSide) (h : q.srcPos ≤ q.src.length) :
    q.srcPos + (undelivered i q).length ≤ q.src.length := by
  unfold undelivered
  split
  · exact h
  · rw [List.length_drop]; omega

/-- Settles O47: past the check of R180, `runs_encodeLoop` and the flush, or `fails_encodeLoop` at the first byte without a
code. (`encodePayload` itself names the model's body.) -/
theorem encodePayload_holds : Obligations.EncodePayload := by
  intro s pending hs hq hw hout hlen hu64 u
  refine ⟨fun hmid => ?_, fun ha hvalid => ?_, fun ha hinvalid => ?_⟩
  · exact next_of_fails hs (fails_requireInAligned hmid).bind.bind rfl
  · obtain ⟨i, hloop, heof, hend, -⟩ := runs_encodeLoop (cfg := s.config) (e := .noCode) (fuel := inputPasses) (n := 0) hq hw
      ha hout hlen (hu64.trans (by decide)) hvalid
    rw [Nat.zero_add] at hloop
    refine ⟨i, next_of_runs hs (((runs_requireInAligned ha).bind hloop).bind
      ((runs_flushOut_emitted (Ports.granting_at hq (add_length_undelivered_le _ hq.2.2))).bind
        (runs_pure.2 ⟨rfl, rfl, rfl⟩))) ?_, heof, hend⟩
    rw [State.withInput, Nat.add_sub_cancel_left]
    rfl
  · obtain ⟨hpre, hall | ⟨b, rest, hu, hb⟩⟩ := split_first (fun b => (s.regs.entry b).valid) u
    · obtain ⟨b, hmem, hb⟩ := hinvalid
      rw [← hall] at hmem
      exact absurd (hpre b hmem) (by rw [hb]; decide)
    · have hfuel : (u.takeWhile fun b => (s.regs.entry b).valid).length < inputPasses :=
        ((List.takeWhile_prefix _).length_le.trans_lt hu64).trans (by decide)
      obtain ⟨i, pos, hfails, -⟩ := fails_encodeLoop (cfg := s.config) (e := .noCode) (n := 0) hq hw ha hout hlen hfuel hu
        hpre hb
      refine ⟨_, next_of_fails hs ((runs_requireInAligned ha).bind_fails hfails).bind rfl, ?_, ?_⟩
      · exact hs
      · exact (s.status.raise_eq _).symm

/-! ### DECODE_PAYLOAD -/

/-- The check of DECODE_PAYLOAD fails for a leaf as the root together with a size that is not 0 (R201). -/
theorem not_degenerate_iff {k : Kind} {size : Word} :
    (!(k == .leaf && size != 0)) = true ↔ k ≠ .leaf ∨ size = 0 := by
  rw [Bool.not_eq_true', Bool.and_eq_false_iff, beq_eq_false_iff_ne, bne_eq_false_iff_eq]

/-- Past DECODE_PAYLOAD's first two checks the alignment and the walk are left (R201, R224). -/
theorem goesOn_decodePayload (hroot : r.pool.root ≠ NIL)
    (hok : (r.pool.node r.pool.root).kind ≠ .leaf ∨ r.hdr.fileSize = 0) :
    GoesOn decodePayload cfg r q (do
      requireOutAligned
      decodeLoop (8 * inputPasses) r.hdr.fileSize.toNat r.pool.root
      flushOut
      return r.hdr.fileSize.toNat) r q :=
  (runs_rootOperand hroot).goesOn.trans ((Runs.goesOn (runs_getRegs.2 ⟨rfl, rfl, rfl⟩)).trans
    (Runs.goesOn (a := ()) (runs_require.2 ⟨not_degenerate_iff.2 hok, rfl, rfl⟩)))

theorem decodeLoop_zero (fuel x : Nat) : decodeLoop fuel 0 x = pure () := by
  cases fuel <;> rfl

/-- With no symbol to come DECODE_PAYLOAD reads nothing and flushes, whatever the root is (R201). -/
theorem runs_decodePayload_of_size_zero {pending : List Bool} (hq : q.Granting) (hout : r.out = OutSide.of pending)
    (h8 : pending.length % 8 = 0) (hroot : r.pool.root ≠ NIL) (h0 : r.hdr.fileSize = 0) :
    Runs decodePayload cfg r q r.hdr.fileSize.toNat (r.flushed pending) (q.flushed pending) := by
  have haligned : r.out.bitPos % 8 = 0 := by rw [hout]; exact h8
  have hloop : Runs (decodeLoop (8 * inputPasses) r.hdr.fileSize.toNat r.pool.root) cfg r q () r q := by
    rw [h0, show (0 : Word).toNat = 0 from rfl, decodeLoop_zero]
    exact runs_pure.2 ⟨rfl, rfl, rfl⟩
  exact (goesOn_decodePayload hroot (.inr h0)).runs ((runs_requireOutAligned haligned).bind
    (hloop.bind ((runs_flushOut hq hout).bind (runs_pure.2 ⟨rfl, rfl, rfl⟩))))

/-- A node that is not FREE is a slot of the pool, so the paths below it are shorter than the pool (R45, R46(b)). -/
theorem Pool.Holds.code_length_lt {p : Pool} {t : CodeTree} {n : Nat} (h : p.Holds t n) (hk : (p.node n).kind ≠ .free)
    {e : Byte × List Bool} (he : e ∈ t.codes) : e.2.length < 511 := by
  refine (h.code_length_le he).trans_lt (not_le.1 fun hn => hk ?_)
  rw [p.node_of_le n hn]
  rfl

theorem length_unreadBits_le (i : InSide) (h : q.srcPos ≤ q.src.length) :
    (unreadBits i q).length ≤ 8 * i.buf.length + 8 * q.src.length := by
  have hu := add_length_undelivered_le i h
  rw [unreadBits, List.length_append, List.length_drop, length_bitsOf, length_bitsOf]
  omega

/-- Settles O48: the three checks in their order; then `runs_decodePayload`, which an empty file does not need, and
`fails_decodePayload`. (`decodePayload` itself names the model's body.) -/
theorem decodePayload_holds : Obligations.DecodePayload := by
  refine fun s hs => ⟨fun hroot => ?noRoot, fun hroot hleaf hsize => ?degenerate, fun hroot hok hmid => ?misaligned,
    fun tree pending leaves rest hroot ht hq hsrc hw hout hlen h8 he hu => ?_⟩
  case noRoot => exact next_of_fails hs (fails_rootOperand hroot).bind.bind rfl
  case degenerate =>
    have hrefused : (!((s.regs.pool.node s.regs.pool.root).kind == .leaf && s.regs.hdr.fileSize != 0)) = false :=
      Bool.eq_false_iff.2 fun h => (not_degenerate_iff.1 h).elim (absurd hleaf) hsize
    exact next_of_fails hs ((runs_rootOperand hroot).bind_fails
      (fails_getRegs_bind.2 (fails_require_bind.2 (.inl ⟨hrefused, rfl, rfl, rfl⟩)))).bind rfl
  case misaligned =>
    exact next_of_fails hs ((goesOn_decodePayload hroot hok).fails (fails_requireOutAligned hmid).bind).bind rfl
  have hroom : (unreadBits s.regs.inp s.port).length + 511 ≤ 8 * inputPasses := by
    have hread := length_unreadBits_le s.regs.inp hq.2.2
    have hblock := s.config.block_lt
    have hbuf := hw.length
    simp only [inputPasses]
    omega
  rw [hu, List.length_append] at hroom
  have hresult : BitVec.ofNat 64 s.regs.hdr.fileSize.toNat = s.regs.hdr.fileSize :=
    (BitVec.ofNat_toNat ..).trans (BitVec.setWidth_eq _)
  refine ⟨fun hn hinner => ?all, fun hn ⟨l, t, htree⟩ ⟨e, hmem, hpre, hne⟩ => ?cut⟩
  case all =>
    obtain rfl | ⟨l, t, rfl⟩ := hinner
    · have h0 : s.regs.hdr.fileSize = 0 := BitVec.eq_of_toNat_eq hn.symm
      refine ⟨s.regs.inp, s.port.srcPos, next_of_runs hs ((runs_decodePayload_of_size_zero hq hout h8 hroot h0).bind
        (runs_pure.2 ⟨rfl, rfl, rfl⟩)) ?_, le_rfl, hu⟩
      rw [hresult, State.withInput, Nat.sub_self, Regs.withInput_self, List.map_nil, bitsOf_nil, List.append_nil]
      rfl
    · obtain ⟨i, pos, hrun, htaken, -⟩ := runs_decodePayload (cfg := s.config) hq hw hout hlen h8 hroot ht he hu hn (by omega)
      refine ⟨i, pos, next_of_runs hs (hrun.bind (runs_pure.2 ⟨rfl, rfl, rfl⟩)) ?_, htaken.forward, ?_⟩
      · rw [hresult]
        rfl
      · rw [htaken.unread, hu, List.drop_left]
  case cut =>
    subst htree
    have hpath := ht.code_length_lt (by rw [ht.2.1]; decide) hmem
    obtain ⟨i, pos, hfails, hforward, -, hend⟩ := fails_decodePayload (cfg := s.config) hq hw hout hlen h8 hroot ht he hu hn
      hmem hpre hne (by omega)
    exact ⟨i, pos, next_of_fails hs hfails.bind rfl, hforward, hend⟩

/-! ### ENCODE's second pass -/

/-- The codes of the bytes, one after the other. -/
def CodeTree.encoded (t : CodeTree) (l : List Byte) : List Bool := l.flatMap fun b => (t.codeOf b).getD []

/-- The bytes before the first one without a code. -/
def CodeTree.coded (t : CodeTree) (l : List Byte) : List Byte := l.takeWhile fun b => (t.codeOf b).isSome

theorem CodeTree.isSome_of_mem_coded {t : CodeTree} {l : List Byte} {b : Byte} (h : b ∈ t.coded l) :
    (t.codeOf b).isSome = true := (split_first (fun b => (t.codeOf b).isSome) l).1 b h

namespace FirstPass

variable {src : List Byte} {pending : List Bool} {tree : CodeTree} {r9 : Regs}
  (h : FirstPass cfg r src pending tree r9)
include h

theorem takeWhile_valid (l : List Byte) : (l.takeWhile fun b => (r9.entry b).valid) = tree.coded l := by
  rw [CodeTree.coded, funext h.valid]

theorem flatMap_codeOf {l : List Byte} (hl : ∀ b ∈ l, (tree.codeOf b).isSome = true) :
    l.flatMap r9.codeOf = tree.encoded l := List.flatMap_congr fun b hb => h.codeOf (hl b hb)

theorem coded_src : tree.coded src = src := List.takeWhile_eq_self_iff.2 fun _ hb => h.has_code hb

theorem fileSize_toNat (hsrc : src.length < 2 ^ 64) : r9.hdr.fileSize.toNat = src.length := by
  rw [h.hdr]
  exact Nat.mod_eq_of_lt hsrc

section Again

variable (hq : q.Granting) (hpos : q.srcPos = 0) (hlen : q.src.length < 2 ^ 64) (hsrc : src.length < 2 ^ 64)
include hq hpos hlen hsrc

/-- The second pass over any source of coded bytes and the length that was counted (R202, R259). -/
theorem runs_secondPass (hsame : tree.coded q.src = q.src ∧ q.src.length = src.length) :
    ∃ i, Runs secondPass cfg r9 q (true, BitVec.ofNat 64 q.src.length)
      ((r9.withInput i q.src.length).flushed (tree.encoded q.src)).nodeReset
      (({ q with srcPos := q.src.length } : Ports).flushed (tree.encoded q.src)) := by
  obtain ⟨hall, hcount⟩ := hsame
  have hcoded : ∀ b ∈ q.src, (tree.codeOf b).isSome = true := List.takeWhile_eq_self_iff.1 hall
  have hsize : q.src.length = r9.hdr.fileSize.toNat := hcount.trans (h.fileSize_toNat hsrc).symm
  obtain ⟨i, hrun⟩ := Machine.runs_secondPass (cfg := cfg) hq hpos hlen h.inp h.out
    (fun b hb => (h.valid b).trans (hcoded b hb)) hsize
  rw [h.flatMap_codeOf hcoded, show r9.hdr.fileSize = BitVec.ofNat 64 q.src.length by rw [h.hdr, hcount]] at hrun
  exact ⟨i, hrun⟩

/-- The second pass over any other source (R202, R259). -/
theorem fails_secondPass (hother : ¬ (tree.coded q.src = q.src ∧ q.src.length = src.length)) :
    ∃ i pos, Fails secondPass cfg r9 q .inputChanged
      ((r9.withInput i pos).emitted cfg.block (tree.encoded (tree.coded q.src)))
      (({ q with srcPos := pos } : Ports).emitted cfg.block (tree.encoded (tree.coded q.src))) := by
  have hfails := Machine.fails_secondPass (cfg := cfg) hq hpos hlen h.inp h.out
    (by rwa [h.takeWhile_valid, h.fileSize_toNat hsrc])
  rwa [h.takeWhile_valid, h.flatMap_codeOf fun b => CodeTree.isSome_of_mem_coded] at hfails

end Again

end FirstPass

/-! ### ENCODE -/

/-- What ENCODE writes before the payload (R206). -/
def State.encodedHead (s : State) (tree : CodeTree) (pending : List Bool) : List Byte :=
  packBits pending ++ (headerBytes s.config.magic s.regs.hdr.perm (BitVec.ofNat 16 (3 * tree.leaves - 1))
    (BitVec.ofNat 64 s.port.src.length) ++ tree.dump s.config)

/-- t has the histogram, the code table and the header that ENCODE's first pass makes of s's source and this tree
(R202). -/
def State.EncodeBuilt (s : State) (tree : CodeTree) (t : State) : Prop :=
  (∀ b, b ∈ tree.symbols ↔ t.regs.histAt b ≠ 0) ∧
  (∀ b, (t.regs.histAt b).toNat = s.port.src.count b +
    if (symbols.countP fun x => s.port.src.contains x) < 2 ∧ (b = 0 ∨ b = 255) then 1 else 0) ∧
  (∀ b, t.regs.entry b = match tree.codeOf b with
    | some code => CodeEntry.of code
    | none => CodeEntry.invalid) ∧
  t.regs.hdr = { magic := s.config.magic, perm := s.regs.hdr.perm, treeSize := BitVec.ofNat 16 (3 * tree.leaves - 1),
                 fileSize := BitVec.ofNat 64 s.port.src.length } ∧
  t.regs.scanCount = BitVec.ofNat 64 s.port.src.length ∧ t.regs.arg = s.regs.arg ∧
  t.regs.code = Code.empty ∧ t.regs.out.bitPos = 0 ∧ t.config = s.config

namespace FirstPass

variable {s t : State} {pending : List Bool} {tree : CodeTree} {r9 : Regs}
  (h : FirstPass s.config s.regs s.port.src pending tree r9)
include h

/-- What the first pass made stands in t, whatever became of the pool, the two buffers, the counters and RESULT. -/
theorem built {p : Pool} {o : OutSide} {i : InSide} {result read written : Word}
    (ht : t.regs = { r9 with
      result := result, pool := p, out := o, inp := i, bytesRead := read, bytesWritten := written })
    (ho : o.bitPos = 0) (hc : t.config = s.config) : s.EncodeBuilt tree t := by
  rw [State.EncodeBuilt, ht]
  exact ⟨h.symbols, h.hist, h.entry, h.hdr, h.scanCount, h.arg, h.code, ho, hc⟩

theorem bytesWritten_add (payload : List Byte) : r9.bytesWritten + BitVec.ofNat 64 payload.length =
    BitVec.ofNat 64 ((s.encodedHead tree pending).length + payload.length) := by
  rw [h.written, ← BitVec.ofNat_add, State.encodedHead, List.length_append, List.length_append, length_headerBytes]

theorem bytesRead_add (n : Nat) : r9.bytesRead + BitVec.ofNat 64 n = BitVec.ofNat 64 (s.port.src.length + n) := by
  rw [h.read, ← BitVec.ofNat_add]

end FirstPass

/-- ENCODE, issued in s, as it waits for the first block of the second pass: the registers are r9, and the sink has got
`head`. The host has set a new source, and this is left of its script (R259). -/
def State.heldUp (s : State) (r9 : Regs) (given : List (List Byte)) (head source : List Byte) (script : List HostAction) :
    State :=
  { s with
    regs := r9, script := script
    running := some { cmd := .encode, start := s.regs, answered := given }
    port := { s.port with src := source, srcPos := 0, snk := s.port.snk ++ head, plan := [], later := .ok } }

theorem step_source {s : State} {bytes : List Byte} {rest : List HostAction} (h : s.script = .source bytes :: rest)
    (hlen : bytes.length < 2 ^ 64) :
    step s = .next { s with script := rest, port := { s.port with src := bytes, srcPos := 0 } } := by
  rw [step_of_cons h]
  exact if_pos hlen

theorem step_answer {s : State} {reply : PortReply} {rest : List HostAction} (h : s.script = .answer reply :: rest) :
    step s = State.answerPort reply { s with script := rest } := step_of_cons h

/-- Settles O49: `runs_firstPass`, then the second pass over the same source; or, when it is held up (`encode_waits`), over
the source the host has set by then, which succeeds (`FirstPass.runs_secondPass`) or not (`FirstPass.fails_secondPass`). -/
theorem encodeWritesTheStream : Obligations.EncodeWritesTheStream := by
  refine fun s pending hs => ⟨fun hmid => ?misaligned, fun hq hsrc hout hlen h8 => ?_⟩
  case misaligned => exact next_of_fails_released hs (fails_startDriver hmid).bind rfl
  obtain ⟨r9, l, t, hfirst, hrun⟩ := runs_firstPass (cfg := s.config) hq hsrc hout hlen h8
  have hcount : s.port.src.length < 2 ^ 64 := by omega
  rw [List.append_assoc] at hrun
  refine ⟨.node l t, hfirst.nodup, hfirst.leaves.1, ?same, ?held⟩
  case same =>
    obtain ⟨i, hagain⟩ := hfirst.runs_secondPass
      (q := { s.port with srcPos := 0, snk := s.port.snk ++ s.encodedHead (.node l t) pending })
      ⟨hq.1, hq.2.1, Nat.zero_le _⟩ rfl hcount hcount ⟨hfirst.coded_src, rfl⟩
    have hencode := Runs.bind (f := fun _ => secondPass) hrun hagain
    rw [← encodeStream_eq] at hencode
    refine ⟨_, next_of_runs hs hencode rfl, hfirst.built rfl rfl rfl, rfl, rfl, ?_⟩
    exact ⟨hs, rfl, rfl, rfl, rfl, rfl, rfl, rfl, hfirst.bytesWritten_add _, hfirst.bytesRead_add _⟩
  case held =>
    obtain ⟨n, given, hwait, hgo⟩ := encode_waits hs hq.1 hq.2.1 hrun hfirst.inp
    refine ⟨n, _, hwait, hfirst.built rfl (congrArg OutSide.bitPos hfirst.out) rfl, Option.some_ne_none _, rfl, hfirst.inp,
      rfl, fun second rest hsecond => ?_⟩
    obtain ⟨hends, hraises⟩ := hgo (s.heldUp r9 given (s.encodedHead (.node l t) pending) second rest) rfl rfl rfl rfl
    have hgranting : (s.heldUp r9 given (s.encodedHead (.node l t) pending) second rest).port.Granting :=
      ⟨rfl, rfl, Nat.zero_le _⟩
    by_cases hsame : (CodeTree.node l t).coded second = second ∧ second.length = s.port.src.length
    · obtain ⟨i, hagain⟩ := hfirst.runs_secondPass hgranting rfl hsecond hcount hsame
      obtain ⟨plan, hanswer⟩ := hends _ _ _ hagain
      refine ⟨_, _, step_source rfl hsecond, (step_answer rfl).trans hanswer, ?_⟩
      refine ⟨hfirst.built rfl rfl rfl, rfl, ?_⟩
      refine (if_pos hsame).mpr ?_
      exact ⟨rfl, rfl, rfl, rfl, rfl, rfl, rfl, rfl, hfirst.bytesWritten_add _, hfirst.bytesRead_add _⟩
    · obtain ⟨i, pos, hagain⟩ := hfirst.fails_secondPass hgranting rfl hsecond hcount hsame
      obtain ⟨plan, hanswer⟩ := hraises _ _ _ hagain
      refine ⟨_, _, step_source rfl hsecond, (step_answer rfl).trans hanswer, ?_⟩
      refine ⟨hfirst.built rfl rfl rfl, rfl, ?_⟩
      refine (if_neg hsame).mpr ?_
      exact ⟨rfl, rfl, rfl, rfl, (s.status.raise_eq _).symm, rfl, rfl, rfl, hfirst.bytesWritten_add _,
        hfirst.bytesRead_add _⟩

end Sys2Proof.Machine
end

section
/-! The exceptions family (60_exceptions.md): rejection while ERR = 1, the error codes, and what ENCODE and DECODE
release. -/

namespace Sys2Proof.Machine

/-! ### Errors -/

/-- Settles O7: the opcode's byte is past those that run under an error, so the word is rejected. -/
theorem commandsAreRejectedWhileErr : Obligations.CommandsAreRejectedWhileErr := by
  intro s rest v hs he h hop
  rw [step_write_cmd hs h]
  exact issue_rejected (by exact he) hop

/-- The kind of any code is its high nibble (R216). -/
theorem kindOfCode_toNat (code : BitVec 8) : (kindOfCode code).toNat = code.toNat / 16 := by
  have hlt : code.toNat / 16 < 16 := by omega
  simp only [kindOfCode, BitVec.extractLsb'_toNat, Nat.shiftRight_eq_div_pow]
  exact Nat.mod_eq_of_lt hlt

/-- Settles O52: the four lists are R217's table, and the kind is the high nibble of every code. -/
theorem errorCodes : Obligations.ErrorCodes :=
  ⟨rfl, rfl, rfl, rfl, fun e => kindOfCode_toNat e.code⟩

/-! ### The release by ENCODE and DECODE -/

/-- A pool that NODE_RESET leaves as it is (R126) holds no tree and no queue. -/
theorem Pool.empty_of_cleared_eq {p : Pool} (h : p.cleared = p) :
    p.root = NIL ∧ p.count = 0 ∧ p.unique = 0 ∧ p.size = 0 ∧
      (∀ k, p.node k = Node.free) ∧ ∀ j, j < 256 → heapAt p.heap j = NIL := by
  rw [← h]
  exact ⟨rfl, rfl, rfl, rfl, p.node_cleared, fun j _ => heapAt_replicate j⟩

/-- If the body reaches its end, then with nothing left in the pool to release. A stop is free, since the abort of ENCODE
and DECODE releases by itself (R221). -/
def EndsReleased {α : Type} (p : Proc α) : Prop :=
  Triple (fun _ => True) p (fun _ c => c.regs.pool.cleared = c.regs.pool) fun _ _ => True

/-- Whatever a first statement does, the pool at the end depends on the statements after it only. -/
theorem EndsReleased.after {α β : Type} {p : Proc α} {f : α → Proc β} (h : ∀ a, EndsReleased (f a)) :
    EndsReleased (p >>= f) :=
  Triple.bind (Q := fun _ _ => True) (fun c _ => by split <;> trivial) h

theorem endsReleased_nodeReset {α : Type} (a : α) :
    EndsReleased (modifyRegs Regs.nodeReset >>= fun _ => pure a) := fun _ _ => rfl

/-- NODE_RESET's changes are the last statement of R202, after fourteen others. -/
theorem endsReleased_encodeStream : EndsReleased encodeStream := by
  unfold encodeStream
  iterate 14 refine EndsReleased.after fun _ => ?_
  exact endsReleased_nodeReset _

/-- NODE_RESET's changes are the last statement of R203, after four others. -/
theorem endsReleased_decodeStream : EndsReleased decodeStream := by
  unfold decodeStream
  iterate 4 refine EndsReleased.after fun _ => ?_
  exact endsReleased_nodeReset _

/-- A command that releases on errors, and whose body has released when it reaches its end, has released when it has
ended. -/
theorem perform_released {s : State} {i : Instr} {body : Proc Answer} (hb : EndsReleased body)
    (ht : (s.perform i true body).running = none) :
    (s.perform i true body).regs.pool.cleared = (s.perform i true body).regs.pool := by
  have h := hb s.ctx trivial
  unfold State.perform at ht ⊢
  cases hbc : body s.ctx with
  | ok a c => rw [hbc] at h; exact h
  | error stop c =>
    cases stop with
    | raised e => rfl
    | waiting => rw [hbc] at ht; cases ht

/-- Settles O54: both bodies end with the state changes of NODE_RESET, and both release in every abort. -/
theorem driversRelease : Obligations.DriversRelease := by
  intro i s t _ hi h ht
  refine Pool.empty_of_cleared_eq ?_
  obtain rfl | rfl := hi
  · cases h
    exact perform_released endsReleased_encodeStream ht
  · cases h
    exact perform_released endsReleased_decodeStream ht

end Sys2Proof.Machine
end
